-- ==== Sys2Proof/Word.lean ====
section
/-! DEFINITION. The word types of the VK-3204: a byte of the wire and of the array, a 16-bit field (a key, a CRC-16, a
time in ms) and a 32-bit field (a sequence number, an open number, a generation, a CRC-32). -/

namespace Sys2Proof

/-- A byte of a frame or of a page (R1, R58). -/
abbrev Byte := BitVec 8

/-- A 16-bit field: a key, a CRC-16 or a time in milliseconds (12.2). -/
abbrev Half := BitVec 16

/-- A 32-bit field: a sequence number, an open number, a generation or a CRC-32 (R20, R39, R40, R166). -/
abbrev Word := BitVec 32

/-- The 64 bytes of a page, offset 0 first (R1). -/
abbrev Page := List Byte

end Sys2Proof
end

