-- ==== Sys2Proof/Config.lean ====
section
/-! DEFINITION. The numbers the specification fixes for the part: geometry, limits and identification codes.
The specification leaves no value open that a command must choose: what the cells do in a pulse, in an interruption
and in ageing comes with the event as an operand (notes/assumptions/3.md), so this file holds no free value. -/

namespace Sys2Proof.Config

/-- Rows of the array (R1). -/
def rowCount : Nat := 256
/-- Pages of a row (R1). -/
def pagesPerRow : Nat := 16
/-- Bytes of a page (R1). -/
def pageSize : Nat := 64
/-- Bytes of a row (R1). -/
def rowSize : Nat := 1024
/-- What an erased byte reads at normal margin (R3), and what a byte reads that the memory does not list. -/
def erasedByte : Byte := 0xFF
/-- The weak-cell mask of a byte that the memory does not list: no weak cell. -/
def noWeak : Byte := 0x00

/-- Most pulses of one page program (R7). -/
def programPulseLimit : Nat := 6
/-- The disturb budget of a row (R7, R12). -/
def disturbLimit : Nat := 40
/-- Most pulses of one row erase (R10). -/
def erasePulseLimit : Nat := 3

/-- Most Directory entries (R43). -/
def directoryLimit : Nat := 512
/-- Most claim entries (R139). -/
def claimLimit : Nat := 16
/-- Most waiters of one claim (R139). -/
def waiterLimit : Nat := 3
/-- Most keys of a watch set (R154). -/
def watchLimit : Nat := 32
/-- Most entries of a notification queue (R158). -/
def noticeLimit : Nat := 8
/-- Most entries of one DRAIN readout (R160). -/
def drainLimit : Nat := 4
/-- The credit allowance of a port (R64). -/
def creditLimit : Nat := 4
/-- Most argument bytes of a frame (R60). -/
def argumentLimit : Nat := 56
/-- Most keys of one LIST answer (R55). -/
def listLimit : Nat := 12
/-- Most payload bytes of a record (R20). -/
def payloadLimit : Nat := 512
/-- Most rows of the retired-row list (R165). -/
def retiredLimit : Nat := 16

/-- F a head open for a port write needs (R36, R103). -/
def portReserve : Nat := 3
/-- F a head open for a compaction copy needs (R36). -/
def agentReserve : Nat := 1

/-- The sequence limit, 4,294,967,040 (R39). -/
def sequenceLimit : Word := 0xFFFFFF00
/-- The open number that is never taken, 4,294,967,295 (R40). -/
def openLimit : Word := 0xFFFFFFFF
/-- The highest generation, 4,294,967,295 (R168). -/
def generationLimit : Word := 0xFFFFFFFF

/-- Vendor code of IDENT (R73). -/
def vendorCode : Half := 0x574A
/-- Part code of IDENT (R73). -/
def partCode : Half := 0x3204
/-- Revision of IDENT for the part the specification describes (R73). -/
def revision : Byte := 0x01

/-- Marker of a row header page (R19). -/
def rowMarker : Half := 0xA55A
/-- Marker of a system image page (R166). -/
def imageMarker : Half := 0x5AA5
/-- A port field that names no port (0.6). -/
def nonePort : Byte := 0xFF

end Sys2Proof.Config
end

