-- ==== Sys2Proof/Syntax.lean ====
section
/-! DEFINITION. The commands of the VK-3204: one constructor of `Instr` for each row of spec/opcode_table.json, with the
row's operands. A command that a partner sends carries its port, its tag and its argument bytes as received (R60); an
event of the array carries what the cells did (R3, R8, R11, R15 to R17), which the specification leaves to the cells. -/

namespace Sys2Proof

/-- The four ports (0.6). -/
inductive Port where
  | p0 | p1 | p2 | p3
deriving DecidableEq, Repr

/-- What a pulse or an interruption left of the eight cells of one byte: `stay` marks the cells it left as they were,
`weak` the cells it left weak, each reading its bit of `reads` at normal margin. Every other cell the operation acts on
takes the value the operation drives it to. `off` is the byte's offset in the page (program) or in the row (erase). -/
structure CellResidue where
  off : Nat
  weak : Byte
  reads : Byte
  stay : Byte
deriving DecidableEq, Repr

/-- The bytes of a page or row in which some cell did not take the value it was driven to; a byte not listed did. -/
abbrev Residue := List CellResidue

/-- Damage of one byte of a page (R15): the programmed or erased cells marked in `flip` change value; those also marked in
`weak` are left weak. -/
structure CellDamage where
  off : Nat
  flip : Byte
  weak : Byte
deriving DecidableEq, Repr

/-- The commands a frame can carry (Table 47). -/
inductive Cmd where
  | ident | query | list | opn | fill | abandon | commit | delete | read | claim | release | watch | unwatch | attnmask
  | freeze | compact | setconf | reload | collect | drain | resync
deriving DecidableEq, Repr

/-- The commands and events of the block, one constructor for each row of spec/opcode_table.json. -/
inductive Instr where
  /-- Power-on, or RESET# falls; `torn` is what a program or erase under way leaves (R16, R17, R177). -/
  | deviceReset (torn : Residue)
  /-- SELn# falls (R59). -/
  | frameStart (p : Port)
  /-- SELn# rises (R59). -/
  | frameEnd (p : Port)
  /-- The request bytes `bytes` of the frame complete and the frame is discarded at the last of them (R61). -/
  | frameDiscard (p : Port) (bytes : List Byte)
  /-- The last byte of a COLLECT readout completes (R69). -/
  | collectReadoutComplete (p : Port)
  /-- The last byte of a DRAIN readout completes (R162). -/
  | drainReadoutComplete (p : Port)
  /-- The arrivals (R60): the last CRC byte of the command's frame completes and checks. -/
  | ident (p : Port) (tag : Byte) (args : List Byte)
  | query (p : Port) (tag : Byte) (args : List Byte)
  | list (p : Port) (tag : Byte) (args : List Byte)
  | opn (p : Port) (tag : Byte) (args : List Byte)
  | fill (p : Port) (tag : Byte) (args : List Byte)
  | abandon (p : Port) (tag : Byte) (args : List Byte)
  | commit (p : Port) (tag : Byte) (args : List Byte)
  | delete (p : Port) (tag : Byte) (args : List Byte)
  | read (p : Port) (tag : Byte) (args : List Byte)
  | freeze (p : Port) (tag : Byte) (args : List Byte)
  | compact (p : Port) (tag : Byte) (args : List Byte)
  | setconf (p : Port) (tag : Byte) (args : List Byte)
  | reload (p : Port) (tag : Byte) (args : List Byte)
  | claim (p : Port) (tag : Byte) (args : List Byte)
  | release (p : Port) (tag : Byte) (args : List Byte)
  | watch (p : Port) (tag : Byte) (args : List Byte)
  | unwatch (p : Port) (tag : Byte) (args : List Byte)
  | attnmask (p : Port) (tag : Byte) (args : List Byte)
  | collect (p : Port) (tag : Byte) (args : List Byte)
  | drain (p : Port) (tag : Byte) (args : List Byte)
  | resync (p : Port) (tag : Byte) (args : List Byte)
  /-- The arrival of a frame whose opcode is no command of the device (R64). -/
  | badCmd (p : Port) (opcode tag : Byte) (args : List Byte)
  /-- The hold timer of the key's claim runs out (R146). -/
  | holdTimerExpiry (key : Half)
  /-- The wait timer of the port's waiter entry on the key runs out (R147). -/
  | waitTimerExpiry (key : Half) (p : Port)
  /-- The page read under way completes (R5). -/
  | pageRead
  /-- The program pulse under way and its verify complete; `left` lists the cells not brought to the target (R7). -/
  | programPulse (left : Residue)
  /-- The erase pulse under way and its verify complete; `left` lists the cells not brought to erased (R10). -/
  | erasePulse (left : Residue)
  /-- A byte of the frame completes, `b` being the byte taken from SDIn (R58). -/
  | byteComplete (p : Port) (b : Byte)
  /-- The supply falls below its minimum; `torn` as for `deviceReset` (R190). -/
  | powerLoss (torn : Residue)
  /-- RESET# rises, or power-on ends (R81). -/
  | resetRelease
  /-- Cells of a page change value through ageing or wear (R15). -/
  | damage (row page : Nat) (marks : List CellDamage)
deriving DecidableEq, Repr

end Sys2Proof
end

