-- ==== Sys2Proof/Machine/State.lean ====
section
/-! DEFINITION. Everything the specification gives the VK-3204 to hold, as plain data, block by block (Table 1), and the
machine right after reset. `Cells` is the nonvolatile array; `Ctl` is every register, queue, table, counter, mode and pin
of the blocks; `State` is the two together with the commands that wait at the block's outside. -/

namespace Sys2Proof.Machine

/-- One `α` for each of the four ports (0.3: four Port Units, four lists, four watch sets). -/
structure PerPort (α : Type) where
  p0 : α
  p1 : α
  p2 : α
  p3 : α
deriving DecidableEq, Repr

/-! ### The array (R1, R3) -/

/-- The cells of the array. A byte's address is row × 1024 + page × 64 + offset. `value` holds what each byte reads at normal
margin, `weak` the mask of its weak cells (R3); both list only bytes that differ from an erased byte without weak cells. -/
structure Cells where
  value : List Host.Cell
  weak : List Host.Cell
deriving DecidableEq, Repr

/-! ### Device mode (R119), status codes (Table 49) and responses (R67) -/

/-- The device mode (R119). -/
inductive Mode where
  | mounting | ready | readOnly
deriving DecidableEq, Repr

/-- The read-only reason (R119, Table 17). -/
inductive Reason where
  | none | sequence | media | config
deriving DecidableEq, Repr

/-- The status codes (Table 49). -/
inductive Status where
  | ok | notReady | badArg | badCmd | noKey | denied | held | notHeld | frozen | full | dirFull | tableFull | noStage | short
  | busy | cancelled | timeout | media | dataErr | readOnly | locked
deriving DecidableEq, Repr

/-- A response of a response queue (R67): status, tag, opcode echoed, result bytes. -/
structure Response where
  status : Status
  tag : Byte
  opcode : Byte
  result : List Byte
deriving DecidableEq, Repr

/-! ### The Port Units (chapters 4 and 5) -/

/-- A composition of a staging buffer (R82). The fill level is the number of payload bytes delivered, `data.length`. -/
structure Composition where
  key : Half
  declared : Nat
  readMask : BitVec 4
  writeMask : BitVec 4
  data : List Byte
deriving DecidableEq, Repr

/-- The staging buffer of a port (R82): EMPTY, COMPOSING or SUBMITTED. -/
inductive Staging where
  | empty
  | composing (c : Composition)
  | submitted (c : Composition)
deriving DecidableEq, Repr

/-- What a readout carries: a COLLECT's, and whether a response was selected or the empty record (R68), or a DRAIN's (R160). -/
inductive ReadoutKind where
  | collect (response : Bool)
  | drain
deriving DecidableEq, Repr

/-- The frame receiver of a port (Table 14). `receiving` holds the request bytes completed so far; `readout` holds the
readout's bytes not yet completed, the first of them being the one on SDOn. -/
inductive Receiver where
  | idle
  | receiving (bytes : List Byte)
  | discarding
  | readout (kind : ReadoutKind) (rest : List Byte)
  | trailing
deriving DecidableEq, Repr

/-- A Port Unit and its pins. `selLow` is the level of SELn#, `sdo` the byte the unit presents on SDOn or none at high
impedance (R57, R62), `atn` whether ATNn# is asserted (R71). -/
structure PortUnit where
  enabled : Bool
  selLow : Bool
  rx : Receiver
  statusLatch : Option Byte
  sdo : Option Byte
  atn : Bool
  staging : Staging
  queue : List Response
  outstanding : Nat
  ovr : Bool
  frm : Bool
  attnMask : BitVec 2
deriving DecidableEq, Repr

/-! ### The Notification Unit (R154) -/

/-- The kind of a notice (Table 35). -/
inductive NoticeKind where
  | changed | deleted | frozen | damaged
deriving DecidableEq, Repr

/-- A notification entry (Table 35); `writer` is none for DAMAGED, `marked` is the update mark. -/
structure Notice where
  key : Half
  kind : NoticeKind
  writer : Option Port
  sequence : Word
  marked : Bool
deriving DecidableEq, Repr

/-- A DRAIN's readout selection (R160): the keys of the entries selected, the LOST value reported, the late-loss mark. -/
structure ReadoutSelection where
  keys : List Half
  lostReported : Bool
  lateLoss : Bool
deriving DecidableEq, Repr

/-- What the Notification Unit holds for one port (Table 34). The watch set is kept in ascending key order. -/
structure NotifUnit where
  watch : List Half
  queue : List Notice
  lost : Bool
  selection : Option ReadoutSelection
deriving DecidableEq, Repr

/-! ### The Claim Unit (R139, R140) -/

/-- A waiter entry: its port, its CLAIM's tag, the hold time it asked for and the time its wait timer was started with. -/
structure Waiter where
  port : Port
  tag : Byte
  hold : Half
  wait : Half
deriving DecidableEq, Repr

/-- A claim entry (Table 30): `hold` is the time its hold timer was last started with. -/
structure ClaimEntry where
  key : Half
  holder : Port
  hold : Half
  waiters : List Waiter
deriving DecidableEq, Repr

/-! ### The Directory (R42) and records (R20) -/

/-- The kind of a record (R20). -/
inductive RecKind where
  | value | frozen | tombstone
deriving DecidableEq, Repr

/-- The kind of a Directory entry's record (R42): a TOMBSTONE is never one. -/
inductive EntryKind where
  | value | frozen
deriving DecidableEq, Repr

/-- A Directory entry (Table 11). -/
structure DirEntry where
  key : Half
  sequence : Word
  kind : EntryKind
  length : Nat
  pages : Nat
  row : Nat
  page : Nat
  readMask : BitVec 4
  writeMask : BitVec 4
  writer : Port
deriving DecidableEq, Repr

/-- The fields of a record header (R20). -/
structure RecHeader where
  key : Half
  length : Nat
  sequence : Word
  kind : RecKind
  access : Byte
  writer : Port
  pages : Nat
deriving DecidableEq, Repr

/-! ### The Configuration Unit (R165, R166) -/

/-- The six settings of a configuration (R165). -/
structure Settings where
  enable : Byte
  admin : Byte
  create : Byte
  low : Byte
  holdMax : Half
  waitMax : Half
deriving DecidableEq, Repr

/-- The fields of a system image that vary (Table 39). -/
structure ImageFields where
  generation : Word
  settings : Settings
  lock : Byte
  retired : List Byte
deriving DecidableEq, Repr

/-- The system rows (R2). -/
inductive SysRow where
  | s0 | s1
deriving DecidableEq, Repr

/-- The stored copy when present (Table 38): the current row and the fields of its image. -/
structure StoredCopy where
  row : SysRow
  image : ImageFields
deriving DecidableEq, Repr

/-- The Configuration Unit (Table 38). `active` is none until mount has loaded a configuration (R165). -/
structure ConfUnit where
  active : Option Settings
  retired : List Byte
  stored : Option StoredCopy
  faulted0 : Bool
  faulted1 : Bool
deriving DecidableEq, Repr

/-! ### The Row Manager (R26, R29, R34, R39, R40) -/

/-- The state of a row with the fields that state holds (Table 9). -/
inductive RowState where
  | system
  | freeStale
  | freeReady
  | head (openNo : Word) (live dead nextFree : Nat)
  | closed (openNo : Word) (live dead : Nat)
  | retired
deriving DecidableEq, Repr

/-- A row table entry (R26): the row's state and its suspect mark (R28). -/
structure RowEntry where
  state : RowState
  suspect : Bool
deriving DecidableEq, Repr

/-- The Row Manager. `table` has one entry for each of the 256 rows, or none before mount has set it (R41); `ring` lists the
ring rows from the tail to the newest (R29). -/
structure RowMgr where
  table : List RowEntry
  ring : List Nat
  seqCounter : Word
  openCounter : Word
  openPtr : Nat
deriving DecidableEq, Repr

/-! ### The Media Unit (R4, R12) -/

/-- The operation state of the Media Unit (R4) with what it holds while an operation is under way: row, page, pulse number
and, for a program, the latched target image. `before` is the page as it read when the first pulse came (empty before
it): what R16 calls the old bits. -/
inductive MediaOp where
  | idle
  | reading (row page : Nat)
  | programming (row page : Nat) (target : Page) (pulse : Nat) (before : Page)
  | erasing (row : Nat) (pulse : Nat)
deriving DecidableEq, Repr

/-- The Media Unit. `disturb` lists the rows whose disturb count is known, rows ascending; a row it does not list has the
count UNKNOWN (R12). -/
structure Media where
  op : MediaOp
  disturb : List (Nat × Nat)
deriving DecidableEq, Repr

/-! ### The Scheduler (R99) and the Compaction Agent (R124) -/

/-- The seven settings bytes a SETCONF carries (R97). -/
structure ConfArgs where
  settings : Settings
  lock : Byte
deriving DecidableEq, Repr

/-- An array command with its arguments as checked (R91). -/
inductive ReqBody where
  | commit (releaseOnDone : Bool)
  | delete (key : Half)
  | read (key : Half) (offset count : Nat)
  | freeze (key : Half)
  | compact
  | setconf (conf : ConfArgs)
  | reload
deriving DecidableEq, Repr

/-- A request (R91). -/
structure Request where
  port : Port
  tag : Byte
  body : ReqBody
  discard : Bool
deriving DecidableEq, Repr

/-- A request of the COMPACT request list (R135); `tied` marks the request tied to the pass under way (R125). -/
structure CompactReq where
  port : Port
  tag : Byte
  discard : Bool
  tied : Bool
deriving DecidableEq, Repr

/-- Who asked for a record write: the port operation under way, and whether this is its retry (R113), or the agent (R128). -/
inductive WriteOwner where
  | port (retried : Bool)
  | agent
deriving DecidableEq, Repr

/-- A record to be written: its header and its page images (R32). -/
structure WriteJob where
  header : RecHeader
  images : List Page
  owner : WriteOwner
deriving DecidableEq, Repr

/-- The stages of an image write (R168). -/
inductive ImageStage where
  | erase | program | readBack
deriving DecidableEq, Repr

/-- An image write under way: its target row and the image formed (R168). -/
structure ImagePlan where
  target : SysRow
  image : ImageFields
deriving DecidableEq, Repr

/-- What asked for an image write: a SETCONF (R171), a retirement met in a head open, with what is left of that open (R35),
or the retirement of the pass row (R134). -/
inductive ImageFor where
  | setconf
  | openHead (job : WriteJob) (left : Nat)
  | tail
deriving DecidableEq, Repr

/-- What the array step under way waits for at the Media Unit. `left` counts the head-open attempts that remain (R36). -/
inductive Activity where
  /-- Between the step's start and its first array operation (never between two commands). -/
  | starting
  /-- A READ or FREEZE reads the current record; `got` are the pages read, `full` says FULL was due at the choice (R114). -/
  | readRecord (entry : DirEntry) (got : List Page) (full : Bool)
  /-- A RELOAD reads page 0 of the current row (R173). -/
  | readImage
  /-- The agent reads the page or record at the tail cursor (R126). -/
  | scan (got : List Page)
  /-- A head open erases its FREE_STALE row (R35, step 1). -/
  | openErase (job : WriteJob) (row left : Nat)
  /-- A head open programs the row header (R35, step 2). -/
  | openHeader (job : WriteJob) (row left : Nat) (openNo : Word)
  /-- Page `idx` of a record at `row`, first page `first`, is being programmed (R23). -/
  | writing (job : WriteJob) (row first idx : Nat)
  /-- The pass row is being erased (R134). -/
  | tailErase
  /-- An image write is under way (R168). -/
  | image (stage : ImageStage) (plan : ImagePlan) (asker : ImageFor)
deriving DecidableEq, Repr

/-- The current step (Table 23). -/
inductive CurrentStep where
  | none
  | port (req : Request) (act : Activity)
  | agent (act : Activity)
deriving DecidableEq, Repr

/-- The turn (R106). -/
inductive Turn where
  | ports | compaction
deriving DecidableEq, Repr

/-- A port's space wait (R104): the ring length R it records and its count of tail reclaims. -/
structure SpaceWait where
  ringLength : Nat
  reclaims : Nat
deriving DecidableEq, Repr

/-- The Scheduler (Table 23). -/
structure Sched where
  lists : PerPort (List Request)
  searchStart : Port
  turn : Turn
  compactList : List CompactReq
  current : CurrentStep
  waits : PerPort (Option SpaceWait)
  limitMark : Bool
  mode : Mode
  reason : Reason
deriving DecidableEq, Repr

/-- The agent state with the pass row and the tail cursor it holds there (Table 28). -/
inductive AgentState where
  | idle
  | scanning (row cursor : Nat)
  | erasing (row : Nat)
  | halted
deriving DecidableEq, Repr

/-- The Compaction Agent (Table 28). The tied request is the one marked in the COMPACT request list. -/
structure Agent where
  state : AgentState
  retryMark : Option Nat
  copied : Nat
  dropped : Nat
deriving DecidableEq, Repr

/-! ### The Mount Sequencer (R177) -/

/-- A candidate of its key (R181). -/
structure Candidate where
  header : RecHeader
  row : Nat
  page : Nat
deriving DecidableEq, Repr

/-- The scan of phase 4: the ring with its open numbers, the rows not yet walked, the row walked and the walk's page, the
pages read of the record there, the candidates in ring order and the sequence numbers of the fragments. -/
structure ScanState where
  ring : List (Nat × Word)
  todo : List Nat
  row : Nat
  cursor : Nat
  got : List Page
  candidates : List Candidate
  fragments : List Word
deriving DecidableEq, Repr

/-- The mount phase, as far as a phase waits for a page read (Table 41): phases 3 and 5 to 8 read nothing and run within the
event that ends the phase before them. -/
inductive MountPhase where
  /-- Phase 1, before its first page read: the device reset has not ended. -/
  | start
  /-- Phase 1, reading S0. -/
  | image0
  /-- Phase 1, reading S1; the image S0 holds, if valid. -/
  | image1 (first : Option ImageFields)
  /-- Phase 2, reading page 0 of `row`; the rows found so far with a valid header and their open numbers. -/
  | survey (row : Nat) (found : List (Nat × Word))
  /-- Phase 4. -/
  | scan (st : ScanState)
  /-- Mount has ended. -/
  | done
deriving DecidableEq, Repr

/-- The Mount Sequencer: its phase and its two flags. -/
structure Mount where
  phase : MountPhase
  imageAbsent : Bool
  truncated : Bool
deriving DecidableEq, Repr

/-! ### The whole device -/

/-- Every register, queue, table, counter, mode and pin of the device. `powered` says the supply is in range (R190), `inReset`
that RESET# is low or power-on has not ended (R81). Claims, Directory entries and watch sets stand in ascending key order. -/
structure Ctl where
  powered : Bool
  inReset : Bool
  ports : PerPort PortUnit
  notifs : PerPort NotifUnit
  claims : List ClaimEntry
  dir : List DirEntry
  sched : Sched
  rows : RowMgr
  media : Media
  agent : Agent
  conf : ConfUnit
  mount : Mount
deriving DecidableEq, Repr

/-- The state of the block: the array, everything else the device holds, and the commands waiting, first in first out. -/
structure State where
  cells : Cells
  ctl : Ctl
  pending : List Instr
deriving DecidableEq, Repr

/-- Why a command stops the machine. -/
inductive Fault where
  /-- Raised by DAMAGE alone, when it names a row above 255 or a page above 15: R1 gives the array no such page.
  Safe: the model stops where there is no hardware to act on. -/
  | noSuchPage
deriving DecidableEq, Repr

/-- Why a command has no meaning. -/
inductive Refusal where
  /-- Raised by the arm of a command that is not modelled; no arm of this model raises it. Safe. -/
  | notModelled (mnemonic : String)
deriving DecidableEq, Repr

/-- The same `a` at every port. -/
def PerPort.const {α : Type} (a : α) : PerPort α := ⟨a, a, a, a⟩

/-- A Port Unit after device reset, its select high (Table 18). -/
def PortUnit.reset : PortUnit where
  enabled := true
  selLow := false
  rx := .idle
  statusLatch := none
  sdo := none
  atn := false
  staging := .empty
  queue := []
  outstanding := 0
  ovr := false
  frm := false
  attnMask := 0b11

/-- The Notification Unit's state of a port after device reset (Table 34). -/
def NotifUnit.reset : NotifUnit := ⟨[], [], false, none⟩

/-- The Scheduler after device reset (Table 23). -/
def Sched.reset : Sched where
  lists := PerPort.const []
  searchStart := .p0
  turn := .ports
  compactList := []
  current := .none
  waits := PerPort.const none
  limitMark := false
  mode := .mounting
  reason := .none

/-- The Row Manager after device reset: no table, no ring (R41). The counters and the open pointer are lost; the write
sequence counter is reported as 0 (R74), and the other two values are the model's (DESIGN CHOICE, notes/assumptions/2.md). -/
def RowMgr.reset : RowMgr := ⟨[], [], 0, 0, 255⟩

/-- The Media Unit after device reset (R18). -/
def Media.reset : Media := ⟨.idle, []⟩

/-- The Compaction Agent after device reset (Table 28). -/
def Agent.reset : Agent := ⟨.idle, none, 0, 0⟩

/-- The Configuration Unit after device reset (R165). R165 names no value of the retired-row list until mount loads it: here the
list is empty (DESIGN CHOICE, notes/assumptions/31.md). -/
def ConfUnit.reset : ConfUnit := ⟨none, [], none, false, false⟩

/-- The Mount Sequencer after device reset (R177). -/
def Mount.reset : Mount := ⟨.start, false, false⟩

/-- Everything but the array after device reset, every select high, RESET# low or power-on not yet ended. -/
def Ctl.reset : Ctl where
  powered := true
  inReset := true
  ports := PerPort.const PortUnit.reset
  notifs := PerPort.const NotifUnit.reset
  claims := []
  dir := []
  sched := Sched.reset
  rows := RowMgr.reset
  media := Media.reset
  agent := Agent.reset
  conf := ConfUnit.reset
  mount := Mount.reset

/-- The machine right after its first device reset: an array that nothing has written, erased (DESIGN CHOICE,
notes/assumptions/1.md), every block in its reset state, no command waiting. -/
def State.reset : State := ⟨⟨[], []⟩, Ctl.reset, []⟩

end Sys2Proof.Machine
end

