-- ==== Sys2Proof/Machine/Bytes.lean ====
section
/-! DEFINITION. Byte order, bit fields and the two checks: multi-byte fields are big-endian (0.6, R1), the CRC-16 is that of
R188 and the CRC-32 that of R189. -/

namespace Sys2Proof.Machine

/-- The two bytes of a 16-bit field, most significant first (0.6). -/
def halfBytes (h : Half) : List Byte := [h.extractLsb' 8 8, h.extractLsb' 0 8]

/-- The four bytes of a 32-bit field, most significant first (0.6). -/
def wordBytes (w : Word) : List Byte :=
  [w.extractLsb' 24 8, w.extractLsb' 16 8, w.extractLsb' 8 8, w.extractLsb' 0 8]

/-- The byte at offset `i`; an offset past the end reads 0 (no format of this model looks there). -/
def byteAt (l : List Byte) (i : Nat) : Byte := l.getD i 0

/-- The 16-bit field at offset `i`. -/
def halfAt (l : List Byte) (i : Nat) : Half := byteAt l i ++ byteAt l (i + 1)

/-- The 32-bit field at offset `i`. -/
def wordAt (l : List Byte) (i : Nat) : Word := halfAt l i ++ halfAt l (i + 2)

/-- A number as one byte. -/
def natByte (n : Nat) : Byte := BitVec.ofNat 8 n

/-- A number as two bytes. -/
def natHalf (n : Nat) : List Byte := halfBytes (BitVec.ofNat 16 n)

/-- A flag as one byte, 1 when set. -/
def boolByte (b : Bool) : Byte := if b then 1 else 0

/-- A port mask of four bits, the high four of a byte (R20, R84). -/
def highMask (b : Byte) : BitVec 4 := b.extractLsb' 4 4

/-- A port mask of four bits, the low four of a byte (R20, R84). -/
def lowMask (b : Byte) : BitVec 4 := b.extractLsb' 0 4

/-- The number of a port. -/
def portNum : Port → Nat
  | .p0 => 0
  | .p1 => 1
  | .p2 => 2
  | .p3 => 3

/-- A port as a field names it. -/
def portByte (p : Port) : Byte := natByte (portNum p)

/-- The port a field names, if it names one of the four. -/
def portOf (b : Byte) : Option Port :=
  if b = 0 then some .p0 else if b = 1 then some .p1 else if b = 2 then some .p2 else if b = 3 then some .p3 else none

/-- A field that names a port, or 0xFF for none (0.6). -/
def portField : Option Port → Byte
  | some p => portByte p
  | none => Config.nonePort

/-- The port after `p`, P3 being followed by P0 (R107). -/
def nextPort : Port → Port
  | .p0 => .p1
  | .p1 => .p2
  | .p2 => .p3
  | .p3 => .p0

/-- The four ports in ascending order. -/
def allPorts : List Port := [.p0, .p1, .p2, .p3]

/-- Bit n of a port mask stands for Pn (0.6). -/
def inMask {w : Nat} (m : BitVec w) (p : Port) : Bool := m.getLsbD (portNum p)

/-- One bit of the CRC-16: shift out the most significant bit, and add the polynomial 0x1021 when it was 1 (R188). -/
def crc16Bit (c : Half) : Half := if c.getLsbD 15 then (c <<< 1) ^^^ 0x1021 else c <<< 1

/-- One byte of the CRC-16, most significant bit first (R188). -/
def crc16Byte (c : Half) (b : Byte) : Half := Nat.repeat crc16Bit 8 (c ^^^ (b.setWidth 16 <<< 8))

/-- The CRC-16 of a run of bytes: initial value 0xFFFF, no reflection, no final XOR (R188). -/
def crc16 (l : List Byte) : Half := l.foldl crc16Byte 0xFFFF

/-- One bit of the CRC-32 with input and result reflected: the least significant bit goes out, and the polynomial
0x04C11DB7 read in reverse bit order is 0xEDB88320 (R189). -/
def crc32Bit (c : Word) : Word := if c.getLsbD 0 then (c >>> 1) ^^^ 0xEDB88320 else c >>> 1

/-- One byte of the CRC-32, least significant bit first (R189). -/
def crc32Byte (c : Word) (b : Byte) : Word := Nat.repeat crc32Bit 8 (c ^^^ b.setWidth 32)

/-- The CRC-32 of a run of bytes: initial value and final XOR 0xFFFFFFFF (R189). -/
def crc32 (l : List Byte) : Word := l.foldl crc32Byte 0xFFFFFFFF ^^^ 0xFFFFFFFF

/-- A run of bytes followed by its CRC-16, most significant byte first (R188). -/
def withCrc16 (l : List Byte) : List Byte := l ++ halfBytes (crc16 l)

end Sys2Proof.Machine
end

