-- ==== Sys2Proof/Machine/Ops.lean ====
section
/-! DEFINITION. The named operations over the memory and over the blocks' state: the sparse memory of the array, access to one
port's part of a block, sorted tables, and the entry of a response in a queue. -/

namespace Sys2Proof.Machine

/-! ### Sparse memory -/

/-- What the memory reads at `a`, `d` being what an unlisted address reads. -/
def Memory.read (d : Byte) : List Host.Cell → Nat → Byte
  | [], _ => d
  | (x, v) :: t, a => if a = x then v else Memory.read d t a

/-- The memory with `b` at `a`, in canonical form: addresses rising, nothing listed that equals `d`. -/
def Memory.write (d : Byte) : List Host.Cell → Nat → Byte → List Host.Cell
  | [], a, b => if b = d then [] else [(a, b)]
  | (x, v) :: t, a, b =>
    if a < x then (if b = d then (x, v) :: t else (a, b) :: (x, v) :: t)
    else if a = x then (if b = d then t else (a, b) :: t)
    else (x, v) :: Memory.write d t a b

/-- The canonical form: addresses strictly rising, no entry equal to what an unlisted address reads. -/
abbrev Memory.wf (d : Byte) (m : List Host.Cell) : Prop :=
  m.Pairwise (fun x y => x.1 < y.1) ∧ ∀ x ∈ m, x.2 ≠ d

/-- The memory with `f i` at `base + i` for every `i < n`. -/
def Memory.writeRun (d : Byte) (m : List Host.Cell) (base : Nat) (f : Nat → Byte) : Nat → List Host.Cell
  | 0 => m
  | n + 1 => Memory.write d (Memory.writeRun d m base f n) (base + n) (f n)

/-- The memory with every address of `base` to `base + n - 1` unlisted. -/
def Memory.clear (m : List Host.Cell) (base n : Nat) : List Host.Cell :=
  m.filter fun c => c.1 < base || base + n ≤ c.1

/-! ### Sorted tables -/

/-- A table in ascending order of `k`, with `x` put at its place, replacing an entry of the same `k`. -/
def insertBy {α : Type} (k : α → Nat) (x : α) : List α → List α
  | [] => [x]
  | y :: t => if k x < k y then x :: y :: t else if k x = k y then x :: t else y :: insertBy k x t

/-! ### One port's part -/

/-- The part of port `p`. -/
def PerPort.get {α : Type} (f : PerPort α) : Port → α
  | .p0 => f.p0
  | .p1 => f.p1
  | .p2 => f.p2
  | .p3 => f.p3

/-- The part of port `p` replaced, the other ports' left. -/
def PerPort.set {α : Type} (f : PerPort α) (p : Port) (a : α) : PerPort α :=
  match p with
  | .p0 => { f with p0 := a }
  | .p1 => { f with p1 := a }
  | .p2 => { f with p2 := a }
  | .p3 => { f with p3 := a }

/-- Every port's part changed by `g`. -/
def PerPort.map {α β : Type} (f : PerPort α) (g : Port → α → β) : PerPort β :=
  ⟨g .p0 f.p0, g .p1 f.p1, g .p2 f.p2, g .p3 f.p3⟩

/-- Port `p`'s Port Unit. -/
def Ctl.port (c : Ctl) (p : Port) : PortUnit := c.ports.get p

/-- Port `p`'s Port Unit changed by `g`. -/
def Ctl.onPort (c : Ctl) (p : Port) (g : PortUnit → PortUnit) : Ctl :=
  { c with ports := c.ports.set p (g (c.port p)) }

/-- Port `p`'s watch set, notification queue and flags. -/
def Ctl.notif (c : Ctl) (p : Port) : NotifUnit := c.notifs.get p

/-- Port `p`'s part of the Notification Unit changed by `g`. -/
def Ctl.onNotif (c : Ctl) (p : Port) (g : NotifUnit → NotifUnit) : Ctl :=
  { c with notifs := c.notifs.set p (g (c.notif p)) }

/-- Port `p`'s array request list. -/
def Ctl.requests (c : Ctl) (p : Port) : List Request := c.sched.lists.get p

/-- Port `p`'s array request list replaced. -/
def Ctl.setRequests (c : Ctl) (p : Port) (l : List Request) : Ctl :=
  { c with sched := { c.sched with lists := c.sched.lists.set p l } }

/-- Port `p`'s space wait replaced. -/
def Ctl.setWait (c : Ctl) (p : Port) (w : Option SpaceWait) : Ctl :=
  { c with sched := { c.sched with waits := c.sched.waits.set p w } }

/-- The current step replaced. -/
def Ctl.setCurrent (c : Ctl) (x : CurrentStep) : Ctl := { c with sched := { c.sched with current := x } }

/-- The activity of a step. -/
def CurrentStep.withActivity : CurrentStep → Activity → CurrentStep
  | .none, _ => .none
  | .port req _, act => .port req act
  | .agent _, act => .agent act

/-- The current step goes on to `act`. -/
def Ctl.setActivity (c : Ctl) (act : Activity) : Ctl := c.setCurrent (c.sched.current.withActivity act)

/-! ### Responses -/

/-- The code of a status (Table 49). -/
def Status.code : Status → Byte
  | .ok => 0x00
  | .notReady => 0x01
  | .badArg => 0x02
  | .badCmd => 0x03
  | .noKey => 0x04
  | .denied => 0x05
  | .held => 0x06
  | .notHeld => 0x07
  | .frozen => 0x08
  | .full => 0x09
  | .dirFull => 0x0A
  | .tableFull => 0x0B
  | .noStage => 0x0C
  | .short => 0x0D
  | .busy => 0x0E
  | .cancelled => 0x0F
  | .timeout => 0x10
  | .media => 0x11
  | .dataErr => 0x12
  | .readOnly => 0x13
  | .locked => 0x14

/-- A response enters port `p`'s response queue at its end (R67). -/
def Ctl.enter (c : Ctl) (p : Port) (r : Response) : Ctl :=
  c.onPort p fun u => { u with queue := u.queue ++ [r] }

/-- The record of a response as a COLLECT shifts it out: its five parts and their CRC-16 (R67, Table 44). -/
def Response.record (r : Response) : List Byte :=
  withCrc16 ([r.status.code, r.tag, r.opcode, natByte r.result.length] ++ r.result)

/-- The empty record (R68). -/
def emptyRecord : List Byte := withCrc16 [0, 0, 0, 0]

/-- One credit less in use on port `p` (R65). -/
def Ctl.dropCredit (c : Ctl) (p : Port) : Ctl :=
  c.onPort p fun u => { u with outstanding := u.outstanding - 1 }

/-- The first status a list of judgements gives (R90: the first failure is the answer). -/
def firstRefusal : List (Option Status) → Option Status
  | [] => none
  | some st :: _ => some st
  | none :: t => firstRefusal t

/-- A judgement that gives `st` when `b` holds. -/
def refuseIf (b : Bool) (st : Status) : Option Status := if b then some st else none

end Sys2Proof.Machine
end

