-- ==== Sys2Proof/Machine/Operands.lean ====
section
/-! DEFINITION. The opcodes of Table 47, the request bytes of a frame (R60) and the argument layouts of Table 48 with their
range checks: each function answers none exactly where its command is answered BAD_ARG at the form stage. -/

namespace Sys2Proof

/-- The opcode of a command (Table 47). -/
def Cmd.code : Cmd → Byte
  | .ident => 0x01
  | .query => 0x02
  | .list => 0x03
  | .opn => 0x10
  | .fill => 0x11
  | .abandon => 0x12
  | .commit => 0x13
  | .delete => 0x14
  | .read => 0x15
  | .claim => 0x20
  | .release => 0x21
  | .watch => 0x28
  | .unwatch => 0x29
  | .attnmask => 0x2A
  | .freeze => 0x30
  | .compact => 0x31
  | .setconf => 0x32
  | .reload => 0x33
  | .collect => 0x3E
  | .drain => 0x3F
  | .resync => 0x7F

/-- The commands of Table 47, every one once. -/
def Cmd.all : List Cmd :=
  [.ident, .query, .list, .opn, .fill, .abandon, .commit, .delete, .read, .claim, .release, .watch, .unwatch, .attnmask,
    .freeze, .compact, .setconf, .reload, .collect, .drain, .resync]

/-- The command an opcode names, or none: every other opcode is answered BAD_CMD (Table 47, NOTE 1). -/
def Cmd.ofCode (b : Byte) : Option Cmd := Cmd.all.find? fun c => c.code = b

namespace Machine

/-- The opcode, tag, argument length and arguments of a frame: the bytes its CRC-16 covers (Table 43). -/
def frameBody (op tag : Byte) (args : List Byte) : List Byte := [op, tag, natByte args.length] ++ args

/-- The request bytes of a frame (R60). -/
def frameBytes (op tag : Byte) (args : List Byte) : List Byte := withCrc16 (frameBody op tag args)

/-- Whether the request bytes are a whole frame: 5 + n of them (R60). -/
def frameWhole (bytes : List Byte) : Bool := 3 ≤ bytes.length && bytes.length = 5 + (byteAt bytes 2).toNat

/-- Whether the CRC-16 of a whole frame matches: it is computed over bytes 0 to 2 + n and compared with the last two (R60). -/
def frameChecks (bytes : List Byte) : Bool :=
  crc16 (bytes.take (bytes.length - 2)) = halfAt bytes (bytes.length - 2)

/-- Whether the frame is discarded at the completion of the last of `bytes` (R61): the argument length byte is above 56, or
the frame is whole and its CRC-16 does not match. -/
def frameFails (bytes : List Byte) : Bool :=
  (bytes.length = 3 && Config.argumentLimit < (byteAt bytes 2).toNat) || (frameWhole bytes && !frameChecks bytes)

/-- Keys run from 1 to 65534 (0.6). -/
def keyOk (k : Half) : Bool := k ≠ 0 && k ≠ 0xFFFF

/-- The single argument of QUERY, DELETE, FREEZE, RELEASE, WATCH and UNWATCH: a key. -/
def keyArg (args : List Byte) : Option Half :=
  if args.length = 2 && keyOk (halfAt args 0) then some (halfAt args 0) else none

/-- LIST: a start value, 0 to 65534 (R55). -/
def listArg (args : List Byte) : Option Half :=
  if args.length = 2 && halfAt args 0 ≠ 0xFFFF then some (halfAt args 0) else none

/-- OPEN: key, declared length 0 to 512, requested masks (R84). -/
def openArgs (args : List Byte) : Option Composition :=
  if args.length = 5 && keyOk (halfAt args 0) && (halfAt args 2).toNat ≤ Config.payloadLimit then
    some ⟨halfAt args 0, (halfAt args 2).toNat, highMask (byteAt args 4), lowMask (byteAt args 4), []⟩
  else none

/-- FILL: an offset and 1 to 48 data bytes (R85). -/
def fillArgs (args : List Byte) : Option (Nat × List Byte) :=
  if 3 ≤ args.length && args.length ≤ 50 then some ((halfAt args 0).toNat, args.drop 2) else none

/-- COMMIT: flags, bit 0 RELEASE_ON_DONE, bits 1 to 7 zero (R92). -/
def commitArg (args : List Byte) : Option Bool :=
  if args.length = 1 && byteAt args 0 &&& 0xFE = 0 then some ((byteAt args 0).getLsbD 0) else none

/-- READ: key, offset 0 to 512, count 0 to 48 (R94). -/
def readArgs (args : List Byte) : Option (Half × Nat × Nat) :=
  if args.length = 5 && keyOk (halfAt args 0) && (halfAt args 2).toNat ≤ 512 && (byteAt args 4).toNat ≤ 48 then
    some (halfAt args 0, (halfAt args 2).toNat, (byteAt args 4).toNat)
  else none

/-- CLAIM: key, hold time and wait time in ms, as received (R141). -/
def claimArgs (args : List Byte) : Option (Half × Half × Half) :=
  if args.length = 6 && keyOk (halfAt args 0) then some (halfAt args 0, halfAt args 2, halfAt args 4) else none

/-- ATTNMASK: the new mask, 0 to 3 (R72). -/
def maskArg (args : List Byte) : Option (BitVec 2) :=
  if args.length = 1 && (byteAt args 0).toNat ≤ 3 then some ((byteAt args 0).setWidth 2) else none

/-- SETCONF: nine bytes of settings, ranges not yet judged (R97). -/
def confArgs (args : List Byte) : Option ConfArgs :=
  if args.length = 9 then
    some ⟨⟨byteAt args 0, byteAt args 1, byteAt args 2, byteAt args 3, halfAt args 4, halfAt args 6⟩, byteAt args 8⟩
  else none

/-- The field ranges of SETCONF (R97). -/
def ConfArgs.inRange (a : ConfArgs) : Bool :=
  1 ≤ a.settings.enable.toNat && a.settings.enable.toNat ≤ 0x0F
    && (a.settings.admin = Config.nonePort
      || (a.settings.admin.toNat ≤ 3 && a.settings.enable.getLsbD a.settings.admin.toNat))
    && a.settings.create.toNat ≤ 0x0F
    && 3 ≤ a.settings.low.toNat && a.settings.low.toNat ≤ 16
    && 1 ≤ a.settings.holdMax.toNat && a.settings.holdMax.toNat ≤ 60000
    && a.settings.waitMax.toNat ≤ 60000
    && a.lock.toNat ≤ 1

/-- COMPACT's result (Table 50): rows reclaimed, pages copied, records dropped. -/
def compactResult (rows copied dropped : Nat) : List Byte := [natByte rows, natByte copied, natByte dropped]

/-- The result a refused array command carries: none, or COMPACT's three zeros (R90). -/
def refusedResult (cmd : Cmd) : List Byte := if cmd = .compact then compactResult 0 0 0 else []

/-- The command an array request carries. -/
def ReqBody.cmd : ReqBody → Cmd
  | .commit _ => .commit
  | .delete _ => .delete
  | .read _ _ _ => .read
  | .freeze _ => .freeze
  | .compact => .compact
  | .setconf _ => .setconf
  | .reload => .reload

end Machine

end Sys2Proof
end

