-- ==== Sys2Proof/Machine/Cells.lean ====
section
/-! DEFINITION. The array's cells: what a page reads at normal margin, what a program pulse, an erase pulse, an interruption
and damage do to cells, and the two verifies (R3, R5, R7, R8, R10, R11, R15 to R17). A cell is programmed when it reads 0
and is not weak, erased when it reads 1 and is not weak. -/

namespace Sys2Proof.Machine

/-- The address of a byte of the array (R1). -/
def address (row page off : Nat) : Nat := row * Config.rowSize + page * Config.pageSize + off

/-- What a byte of the array reads at normal margin (R3). -/
def Cells.readByte (c : Cells) (a : Nat) : Byte := Memory.read Config.erasedByte c.value a

/-- The weak cells of a byte of the array (R3). -/
def Cells.weakByte (c : Cells) (a : Nat) : Byte := Memory.read Config.noWeak c.weak a

/-- The canonical form of the array's two lists. -/
abbrev Cells.wf (c : Cells) : Prop := Memory.wf Config.erasedByte c.value ∧ Memory.wf Config.noWeak c.weak

/-- The 64 bytes of a page at normal margin, offset 0 first (R5). -/
def Cells.readPage (c : Cells) (row page : Nat) : Page :=
  (List.range Config.pageSize).map fun i => c.readByte (address row page i)

/-- The residue of one byte: what the list names first for it, or nothing left behind. -/
def residueAt (l : Residue) (off : Nat) : CellResidue := (l.find? fun r => r.off = off).getD ⟨off, 0, 0, 0⟩

/-- The byte of a page image at an offset. -/
def imageByte (image : Page) (i : Nat) : Byte := image.getD i Config.erasedByte

/-- What a program pulse makes of the eight cells of a byte (value, weak): it acts on the cells whose target is 0 and which
are not yet programmed, and leaves the others (R7, step 2). -/
def pulseByte (target value weak : Byte) (r : CellResidue) : Byte × Byte :=
  let act := ~~~target &&& ~~~(~~~value &&& ~~~weak)
  let stay := act &&& r.stay
  let leftWeak := act &&& ~~~r.stay &&& r.weak
  ((value &&& ~~~act) ||| (value &&& stay) ||| (r.reads &&& leftWeak), (weak &&& ~~~act) ||| (weak &&& stay) ||| leftWeak)

/-- What an abandoned program leaves of the eight cells of a byte: as a pulse, but each cell it acts on reads its old bit or 0
(R16); `old` is the byte as it read before the program. -/
def tornByte (target old value weak : Byte) (r : CellResidue) : Byte × Byte :=
  let act := ~~~target &&& ~~~(~~~value &&& ~~~weak)
  let b := pulseByte target value weak r
  (b.1 &&& (~~~act ||| old), b.2)

/-- What an erase pulse, or an abandoned erase, makes of the eight cells of a byte: erased, but for those left as they were
and those left weak (R10, R11, R17). -/
def eraseByte (value weak : Byte) (r : CellResidue) : Byte × Byte :=
  let leftWeak := ~~~r.stay &&& r.weak
  let done := ~~~r.stay &&& ~~~r.weak
  ((value &&& r.stay) ||| (r.reads &&& leftWeak) ||| done, (weak &&& r.stay) ||| leftWeak)

/-- The cells with the 64 bytes of a page replaced: byte `i` takes value and weak mask `f i`. -/
def Cells.setPage (c : Cells) (row page : Nat) (f : Nat → Byte × Byte) : Cells where
  value := Memory.writeRun Config.erasedByte c.value (address row page 0) (fun i => (f i).1) Config.pageSize
  weak := Memory.writeRun Config.noWeak c.weak (address row page 0) (fun i => (f i).2) Config.pageSize

/-- One program pulse on a page (R7, step 2). -/
def Cells.programPulse (c : Cells) (row page : Nat) (target : Page) (left : Residue) : Cells :=
  c.setPage row page fun i =>
    pulseByte (imageByte target i) (c.readByte (address row page i)) (c.weakByte (address row page i)) (residueAt left i)

/-- The program verify: every cell of the page matches the target at program-verify margin (R7, step 3). -/
def Cells.verifies (c : Cells) (row page : Nat) (target : Page) : Bool :=
  (List.range Config.pageSize).all fun i =>
    c.readByte (address row page i) = imageByte target i && c.weakByte (address row page i) = 0

/-- The page an abandoned program leaves (R16). -/
def Cells.tearPage (c : Cells) (row page : Nat) (target before : Page) (left : Residue) : Cells :=
  c.setPage row page fun i =>
    tornByte (imageByte target i) (imageByte before i) (c.readByte (address row page i)) (c.weakByte (address row page i))
      (residueAt left i)

/-- One byte of a row left behind by an erase pulse. -/
def Cells.leaveByte (old : Cells) (row : Nat) (r : CellResidue) (c : Cells) : Cells :=
  if r.off < Config.rowSize then
    let a := address row 0 r.off
    let b := eraseByte (old.readByte a) (old.weakByte a) r
    ⟨Memory.write Config.erasedByte c.value a b.1, Memory.write Config.noWeak c.weak a b.2⟩
  else c

/-- One erase pulse on a row (R10), or what an abandoned erase leaves of it (R17). -/
def Cells.erasePulse (c : Cells) (row : Nat) (left : Residue) : Cells :=
  left.foldr (c.leaveByte row)
    ⟨Memory.clear c.value (address row 0 0) Config.rowSize, Memory.clear c.weak (address row 0 0) Config.rowSize⟩

/-- The erase verify: every cell of the row's 16 pages is erased (R10). An unlisted byte is one. -/
def Cells.rowErased (c : Cells) (row : Nat) : Bool :=
  (Memory.clear c.value (address row 0 0) Config.rowSize).length = c.value.length
    && (Memory.clear c.weak (address row 0 0) Config.rowSize).length = c.weak.length

/-- Damage of one byte of a page (R15): programmed and erased cells change value, weak cells keep theirs. -/
def Cells.damageByte (row page : Nat) (c : Cells) (d : CellDamage) : Cells :=
  if d.off < Config.pageSize then
    let a := address row page d.off
    let w := c.weakByte a
    ⟨Memory.write Config.erasedByte c.value a (c.readByte a ^^^ (d.flip &&& ~~~w)),
      Memory.write Config.noWeak c.weak a (w ||| (d.flip &&& d.weak))⟩
  else c

/-- Damage of a page (R15). -/
def Cells.damage (c : Cells) (row page : Nat) (marks : List CellDamage) : Cells :=
  marks.foldl (Cells.damageByte row page) c

/-- What a device reset or a power loss leaves of the array when it comes during the media operation `op` (R16, R17). -/
def Cells.interrupt (c : Cells) (op : MediaOp) (torn : Residue) : Cells :=
  match op with
  | .idle => c
  | .reading _ _ => c
  | .programming row page target pulse before =>
    c.tearPage row page target (if pulse = 0 then c.readPage row page else before) torn
  | .erasing row _ => c.erasePulse row torn

end Sys2Proof.Machine
end

