-- ==== Sys2Proof/Machine/Records.lean ====
section
/-! DEFINITION. The formats of the array: record header, record and trailer (R20 to R24, Table 53), row header (R19, Table 52)
and system image (R166, Table 54), each formed and read from one place. -/

namespace Sys2Proof.Machine

/-- The code of a record kind (R20). -/
def RecKind.code : RecKind → Byte
  | .value => 0x01
  | .frozen => 0x02
  | .tombstone => 0x03

/-- The record kind a code names. -/
def recKindOf (b : Byte) : Option RecKind :=
  if b = 0x01 then some .value else if b = 0x02 then some .frozen else if b = 0x03 then some .tombstone else none

/-- The kind of a Directory entry as a record kind. -/
def EntryKind.recKind : EntryKind → RecKind
  | .value => .value
  | .frozen => .frozen

/-- The kind of the entry a record gives, none for a TOMBSTONE (R42). -/
def RecKind.entryKind : RecKind → Option EntryKind
  | .value => some .value
  | .frozen => some .frozen
  | .tombstone => none

/-- The pages of a record of a payload length (R21). -/
def pagesFor (length : Nat) : Nat := (16 + length + 8 + 63) / 64

/-- A page that reads as 64 bytes of 0xFF (R25). -/
def pageErased (page : Page) : Bool := page.all fun b => b = Config.erasedByte

/-- The first twelve bytes of a record header: what its CRC-16 covers (Table 53). -/
def RecHeader.fields (h : RecHeader) : List Byte :=
  halfBytes h.key ++ natHalf h.length ++ wordBytes h.sequence ++ [h.kind.code, h.access, portByte h.writer, natByte h.pages]

/-- The sixteen bytes of a record header: fields, CRC-16, two pad bytes (R20). -/
def RecHeader.bytes (h : RecHeader) : List Byte := withCrc16 h.fields ++ [0xFF, 0xFF]

/-- A record's bytes: header, payload, filler of 0xFF, trailer with the sequence number and the CRC-32 of header and payload
(R20, R189). -/
def recordBytes (h : RecHeader) (payload : List Byte) : List Byte :=
  h.bytes ++ payload ++ List.replicate (64 * h.pages - 24 - payload.length) Config.erasedByte
    ++ wordBytes h.sequence ++ wordBytes (crc32 (h.bytes ++ payload))

/-- The page images of a record (R32). -/
def recordImages (h : RecHeader) (payload : List Byte) : List Page :=
  (List.range h.pages).map fun i => ((recordBytes h payload).drop (64 * i)).take 64

/-- The valid header of the page at page index `first`, or none for a bad header (R24). -/
def parseHeader (page : Page) (first : Nat) : Option RecHeader :=
  match recKindOf (byteAt page 8), portOf (byteAt page 10) with
  | some kind, some writer =>
    let h : RecHeader :=
      ⟨halfAt page 0, (halfAt page 2).toNat, wordAt page 4, kind, byteAt page 9, writer, (byteAt page 11).toNat⟩
    if crc16 (page.take 12) = halfAt page 12 && keyOk h.key && h.length ≤ Config.payloadLimit
        && h.pages = pagesFor h.length && (kind ≠ .tombstone || h.length = 0) && first + h.pages - 1 ≤ 15 then
      some h
    else none
  | _, _ => none

/-- Whether a record with a valid header is complete, from its pages as read: the trailer repeats the header's sequence
number and carries the CRC-32 of header and payload (R24). -/
def recordComplete (h : RecHeader) (pages : List Page) : Bool :=
  let bytes := pages.flatten
  let trailer := 64 * h.pages - 8
  wordAt bytes trailer = h.sequence && wordAt bytes (trailer + 4) = crc32 (bytes.take (16 + h.length))

/-- The payload of a record from its pages (R20: it begins at offset 16 of the first page). -/
def recordPayload (h : RecHeader) (pages : List Page) : List Byte := (pages.flatten.drop 16).take h.length

/-- Whether a header carries an entry's key, sequence number, kind and length (R44, R115, R126). -/
def RecHeader.agrees (h : RecHeader) (e : DirEntry) : Bool :=
  h.key = e.key && h.sequence = e.sequence && h.kind = e.kind.recKind && h.length = e.length

/-- The header of a record read for an entry, when the record checks: a valid header that agrees with the entry, and a
trailer that checks (R115). -/
def checkRecord (e : DirEntry) (pages : List Page) : Option RecHeader :=
  match parseHeader (pages.headD []) e.page with
  | some h => if h.agrees e && recordComplete h pages then some h else none
  | none => none

/-- The access byte of two masks: read mask high, write mask low (R20). -/
def accessByte (readMask writeMask : BitVec 4) : Byte := readMask ++ writeMask

/-- The row header page (R19, Table 52). -/
def rowHeaderPage (openNo : Word) : Page :=
  withCrc16 (halfBytes Config.rowMarker ++ wordBytes openNo) ++ List.replicate 56 Config.erasedByte

/-- The open number of a valid row header page, or none (R19). -/
def parseRowHeader (page : Page) : Option Word :=
  if halfAt page 0 = Config.rowMarker && crc16 (page.take 6) = halfAt page 6 then some (wordAt page 2) else none

/-- The 32 bytes of a system image that its CRC-32 covers (Table 54). -/
def ImageFields.fields (i : ImageFields) : List Byte :=
  halfBytes Config.imageMarker ++ wordBytes i.generation
    ++ [i.settings.enable, i.settings.admin, i.settings.create, i.settings.low]
    ++ halfBytes i.settings.holdMax ++ halfBytes i.settings.waitMax
    ++ [i.lock, natByte i.retired.length]
    ++ (i.retired ++ List.replicate (16 - i.retired.length) Config.erasedByte)

/-- The system image page (R166, Table 54). -/
def ImageFields.page (i : ImageFields) : Page :=
  i.fields ++ wordBytes (crc32 i.fields) ++ List.replicate 28 Config.erasedByte

/-- The image a page holds when it is valid: marker and CRC-32 (R166). -/
def parseImage (page : Page) : Option ImageFields :=
  if halfAt page 0 = Config.imageMarker && crc32 (page.take 32) = wordAt page 32 then
    some ⟨wordAt page 2,
      ⟨byteAt page 6, byteAt page 7, byteAt page 8, byteAt page 9, halfAt page 10, halfAt page 12⟩,
      byteAt page 14, ((page.drop 16).take 16).take (byteAt page 15).toNat⟩
  else none

/-- The defaults of Table 39. -/
def defaultSettings : Settings where
  enable := 0x0F
  admin := 0
  create := 0x0F
  low := 4
  holdMax := 10000
  waitMax := 2000

/-- The row index of a system row (R2). -/
def SysRow.index : SysRow → Nat
  | .s0 => 0
  | .s1 => 1

end Sys2Proof.Machine
end

