-- ==== Sys2Proof/Machine/Rows.lean ====
section
/-! DEFINITION. The Row Manager (chapter 2): the row table and its page counts, the ring, the head row, free rows and the
choice among them, space, and the two counters; and the disturb counts it asks the Media Unit for (R12, R13). -/

namespace Sys2Proof.Machine

/-- A row is free (Table 9, column "In F"). -/
def RowState.isFree : RowState → Bool
  | .freeStale => true
  | .freeReady => true
  | _ => false

/-- A row is the head. -/
def RowState.isHead : RowState → Bool
  | .head _ _ _ _ => true
  | _ => false

/-- A row is CLOSED. -/
def RowState.isClosed : RowState → Bool
  | .closed _ _ _ => true
  | _ => false

/-- A row is usable: ring-eligible and not RETIRED (R30). -/
def RowState.isUsable : RowState → Bool
  | .system => false
  | .retired => false
  | _ => true

/-- The dead pages of a CLOSED row, 0 for any other. -/
def RowState.closedDead : RowState → Nat
  | .closed _ _ dead => dead
  | _ => 0

/-- The row table entry of a row; before mount has set the table no row has one, and each reads as SYSTEM, neither free nor
of the ring (R41). -/
def RowMgr.entry (m : RowMgr) (row : Nat) : RowEntry := m.table.getD row ⟨.system, false⟩

/-- The state of a row. -/
def RowMgr.state (m : RowMgr) (row : Nat) : RowState := (m.entry row).state

/-- A row takes another state, its suspect mark unchanged (R28). -/
def RowMgr.setState (m : RowMgr) (row : Nat) (st : RowState) : RowMgr :=
  { m with table := m.table.modify row fun e => { e with state := st } }

/-- A row takes the suspect mark (R28). -/
def RowMgr.markSuspect (m : RowMgr) (row : Nat) : RowMgr :=
  { m with table := m.table.modify row fun e => { e with suspect := true } }

/-- F, the number of free rows (R30). -/
def RowMgr.free (m : RowMgr) : Nat := m.table.countP fun e => e.state.isFree

/-- The usable rows (R30). -/
def RowMgr.usable (m : RowMgr) : Nat := m.table.countP fun e => e.state.isUsable

/-- The head row, if there is one (R31). -/
def RowMgr.headRow (m : RowMgr) : Option Nat := m.table.findIdx? fun e => e.state.isHead

/-- The tail of the ring is a CLOSED row (R105). -/
def RowMgr.tailClosed (m : RowMgr) : Bool :=
  match m.ring with
  | [] => false
  | r :: _ => (m.state r).isClosed

/-- `q` pages of a row move from live to dead (Table 10). -/
def RowState.toDead (q : Nat) : RowState → RowState
  | .head n live dead next => .head n (live - q) (dead + q) next
  | .closed n live dead => .closed n (live - q) (dead + q)
  | st => st

/-- `q` pages of a row move from dead to live (Table 10). -/
def RowState.toLive (q : Nat) : RowState → RowState
  | .head n live dead next => .head n (live + q) (dead - q) next
  | .closed n live dead => .closed n (live + q) (dead - q)
  | st => st

/-- `q` pages of row `row` move from live to dead. -/
def RowMgr.pagesDie (m : RowMgr) (row q : Nat) : RowMgr := m.setState row ((m.state row).toDead q)

/-- `q` pages of row `row` move from dead to live. -/
def RowMgr.pagesLive (m : RowMgr) (row q : Nat) : RowMgr := m.setState row ((m.state row).toLive q)

/-- The state of a head row once closed: its free pages become dead (R33). -/
def RowState.close : RowState → RowState
  | .head n live dead next => .closed n live (dead + (16 - next))
  | st => st

/-- The head, if any, is closed (R33). -/
def RowMgr.closeHead (m : RowMgr) : RowMgr :=
  match m.headRow with
  | some r => m.setState r (m.state r).close
  | none => m

/-- The state of a head row once `p` pages are allocated in it: they count as dead and the next free page advances (R32). -/
def RowState.allocate (p : Nat) : RowState → RowState
  | .head n live dead next => .head n live (dead + p) (next + p)
  | st => st

/-- The free pages of a row: those of the head from its next free page to page 15 (R26). -/
def RowState.freePages : RowState → Nat
  | .head _ _ _ next => 16 - next
  | _ => 0

/-- The next free page of the head. -/
def RowState.nextFree : RowState → Nat
  | .head _ _ _ next => next
  | _ => 16

/-- The rows a head open looks through: the ring-eligible rows in index order from the row after the open pointer, wrapping
from 255 to 2 (R34). -/
def RowMgr.searchOrder (m : RowMgr) : List Nat := (List.range 254).map fun i => 2 + (m.openPtr - 1 + i) % 254

/-- The row a head open takes: the first free row without the suspect mark, or the first free row when every one carries it
(R34). -/
def RowMgr.chooseRow (m : RowMgr) : Option Nat :=
  let free := m.searchOrder.filter fun r => (m.state r).isFree
  match free.find? fun r => !(m.entry r).suspect with
  | some r => some r
  | none => free.head?

/-- A row becomes the head with an open number and joins the end of the ring (R35, step 3). -/
def RowMgr.becomeHead (m : RowMgr) (row : Nat) (openNo : Word) : RowMgr :=
  { m.setState row (.head openNo 0 0 1) with ring := m.ring ++ [row] }

/-- A row leaves the ring (R29). -/
def RowMgr.leaveRing (m : RowMgr) (row : Nat) : RowMgr := { m with ring := m.ring.filter fun r => r ≠ row }

/-- The available pages (R38): the head's free pages, 15 for each free row above two, the dead pages of the CLOSED rows. -/
def RowMgr.availablePages (m : RowMgr) : Nat :=
  (match m.headRow with
    | some r => (m.state r).freePages
    | none => 0)
    + (m.free - 2) * 15 + (m.table.map fun e => e.state.closedDead).sum

/-- The known disturb count of a row, or none for UNKNOWN (R12). -/
def Media.count (m : Media) (row : Nat) : Option Nat := (m.disturb.find? fun x => x.1 = row).map (·.2)

/-- A row's disturb count becomes known. -/
def Media.setCount (m : Media) (row n : Nat) : Media := { m with disturb := insertBy (·.1) (row, n) m.disturb }

/-- A row's disturb count becomes UNKNOWN (R10). -/
def Media.forget (m : Media) (row : Nat) : Media := { m with disturb := m.disturb.filter fun x => x.1 ≠ row }

/-- The budget check of a program: a pulse may be applied (R6; R7, step 1). -/
def Media.budget (m : Media) (row : Nat) : Bool :=
  match m.count row with
  | some n => n < Config.disturbLimit
  | none => false

/-- A record of `p` pages fits the head (R31): a head exists, its free pages and its headroom number at least `p`. -/
def Ctl.fitsHead (c : Ctl) (p : Nat) : Bool :=
  match c.rows.headRow with
  | none => false
  | some r =>
    p ≤ (c.rows.state r).freePages
      && (match c.media.count r with
        | some n => p ≤ Config.disturbLimit - n
        | none => false)

end Sys2Proof.Machine
end

