-- ==== Sys2Proof/Machine/Directory.lean ====
section
/-! DEFINITION. The Directory (chapter 3): lookup, rights, masks on commit, the update points, and the results of QUERY and
LIST. -/

namespace Sys2Proof.Machine

/-- The Directory entry of a key, or none (R45). -/
def Ctl.lookup (c : Ctl) (k : Half) : Option DirEntry := c.dir.find? fun e => e.key = k

/-- The key's entry is FROZEN. -/
def Ctl.isFrozen (c : Ctl) (k : Half) : Bool :=
  match c.lookup k with
  | some e => e.kind = .frozen
  | none => false

/-- Port `p` is the admin port of the active configuration; before one is loaded the admin port reads as none (R46, R165). -/
def Ctl.isAdmin (c : Ctl) (p : Port) : Bool :=
  match c.conf.active with
  | some s => s.admin = portByte p
  | none => false

/-- The create mask holds port `p` (R46). -/
def Ctl.mayCreate (c : Ctl) (p : Port) : Bool :=
  match c.conf.active with
  | some s => inMask s.create p
  | none => false

/-- The answer to a read question, none when granted (Table 12). -/
def Ctl.readRefusal (c : Ctl) (p : Port) (k : Half) : Option Status :=
  match c.lookup k with
  | none => some .noKey
  | some e => refuseIf (!(c.isAdmin p || inMask e.readMask p)) .denied

/-- The answer to a write question, or to a create question when the key has no entry; none when granted (Table 12). -/
def Ctl.writeRefusal (c : Ctl) (p : Port) (k : Half) : Option Status :=
  match c.lookup k with
  | none => refuseIf (!c.mayCreate p) .denied
  | some e => if e.kind = .frozen then some .frozen else refuseIf (!(c.isAdmin p || inMask e.writeMask p)) .denied

/-- The claim entry of a key. -/
def Ctl.claimOf (c : Ctl) (k : Half) : Option ClaimEntry := c.claims.find? fun e => e.key = k

/-- The key is held against port `p`: its claim entry names another port (R148), whether or not `p` waits on it. R143 says so; check
6 of R92 and R148 also let a port that only waits pass (DESIGN CHOICE, notes/assumptions/33.md). -/
def Ctl.heldAgainst (c : Ctl) (p : Port) (k : Half) : Bool :=
  match c.claimOf k with
  | some e => e.holder ≠ p
  | none => false

/-- A mask with port `p`'s bit set. -/
def withBit (m : BitVec 4) (p : Port) : BitVec 4 := m ||| (1#4 <<< portNum p)

/-- The masks a COMMIT's record takes (R48): read mask, write mask. -/
def Ctl.resolveMasks (c : Ctl) (p : Port) (s : Composition) : BitVec 4 × BitVec 4 :=
  match c.lookup s.key with
  | none => (withBit s.readMask p, withBit s.writeMask p)
  | some e => if c.isAdmin p then (s.readMask, s.writeMask) else (e.readMask, e.writeMask)

/-- The entry a record gives when it lies at a row and first page (R42). -/
def entryOf (h : RecHeader) (kind : EntryKind) (row page : Nat) : DirEntry :=
  ⟨h.key, h.sequence, kind, h.length, h.pages, row, page, highMask h.access, lowMask h.access, h.writer⟩

/-- The pages of the key's entry, if any, move from live to dead in their row (Table 10). -/
def Ctl.oldPagesDie (c : Ctl) (k : Half) : Ctl :=
  match c.lookup k with
  | some e => { c with rows := c.rows.pagesDie e.row e.pages }
  | none => c

/-- A key's entry is removed (R50, R53), its pages having died. -/
def Ctl.removeEntry (c : Ctl) (k : Half) : Ctl :=
  { c.oldPagesDie k with dir := c.dir.filter fun e => e.key ≠ k }

/-- A record becomes a key's current record (R49, R51): the old record's pages die, the new record's become live, and the
entry is made or replaced. -/
def Ctl.placeEntry (c : Ctl) (e : DirEntry) : Ctl :=
  let c := c.oldPagesDie e.key
  { c with rows := c.rows.pagesLive e.row e.pages, dir := insertBy (fun x => x.key.toNat) e c.dir }

/-- An entry takes another place for its record (R52): pages dead to live in the head, live to dead in the old row. -/
def Ctl.relocate (c : Ctl) (k : Half) (row page : Nat) : Ctl :=
  match c.lookup k with
  | some e =>
    { c with
      rows := (c.rows.pagesLive row e.pages).pagesDie e.row e.pages
      dir := insertBy (fun x => x.key.toNat) { e with row := row, page := page } c.dir }
  | none => c

/-- The code of an entry's kind in QUERY (Table 13). -/
def EntryKind.code (k : EntryKind) : Byte := RecKind.code k.recKind

/-- The first eleven bytes of QUERY's result: found, kind, length, sequence, masks, writer, pages (Table 13). -/
def queryEntry : Option DirEntry → List Byte
  | some e =>
    [1, e.kind.code] ++ natHalf e.length ++ wordBytes e.sequence
      ++ [accessByte e.readMask e.writeMask, portByte e.writer, natByte e.pages]
  | none => [0, 0] ++ natHalf 0 ++ wordBytes 0 ++ [0, Config.nonePort, 0]

/-- The last two bytes of QUERY's result: claim holder, waiter count (Table 13). -/
def queryClaim : Option ClaimEntry → List Byte
  | some e => [portByte e.holder, natByte e.waiters.length]
  | none => [Config.nonePort, 0]

/-- QUERY's 13-byte result (R54). -/
def Ctl.queryResult (c : Ctl) (k : Half) : List Byte := queryEntry (c.lookup k) ++ queryClaim (c.claimOf k)

/-- The keys with entries that are greater than a start value, ascending (R55). -/
def Ctl.keysAbove (c : Ctl) (start : Half) : List Half := (c.dir.map (·.key)).filter fun k => start.toNat < k.toNat

/-- LIST's result (R55): count, more, the first twelve keys above the start. -/
def Ctl.listResult (c : Ctl) (start : Half) : List Byte :=
  let keys := c.keysAbove start
  let taken := keys.take Config.listLimit
  [natByte taken.length, boolByte (Config.listLimit < keys.length)] ++ taken.flatMap halfBytes

end Sys2Proof.Machine
end

