-- ==== Sys2Proof/Machine/Notifications.lean ====
section
/-! DEFINITION. The Notification Unit (chapter 9): delivery of notices and coalescing, loss, and the DRAIN readout. -/

namespace Sys2Proof.Machine

/-- The code of a notice kind (Table 45). -/
def NoticeKind.code : NoticeKind → Byte
  | .changed => 1
  | .deleted => 2
  | .frozen => 3
  | .damaged => 4

/-- A key's entry is among those selected for a readout under way (R161). -/
def NotifUnit.isSelected (u : NotifUnit) (k : Half) : Bool :=
  match u.selection with
  | some s => s.keys.contains k
  | none => false

/-- A notice placed in a port's queue (R158): it coalesces into its key's entry, or is appended, or is dropped with LOST set
and, during a readout, the late-loss mark (R159). -/
def NotifUnit.place (u : NotifUnit) (n : Notice) : NotifUnit :=
  if u.queue.any fun e => e.key = n.key then
    { u with queue := u.queue.map fun e => if e.key = n.key then { n with marked := e.marked || u.isSelected n.key } else e }
  else if u.queue.length < Config.noticeLimit then { u with queue := u.queue ++ [{ n with marked := false }] }
  else { u with lost := true, selection := u.selection.map fun s => { s with lateLoss := true } }

/-- A notice delivered to every port that watches its key, except the port that wrote it (R157). -/
def Ctl.deliver (c : Ctl) (n : Notice) : Ctl :=
  { c with notifs := c.notifs.map fun p u => if u.watch.contains n.key && n.writer ≠ some p then u.place n else u }

/-- The eight bytes of a notification entry in a readout (Table 45). -/
def Notice.bytes (n : Notice) : List Byte :=
  halfBytes n.key ++ [n.kind.code, portField n.writer] ++ wordBytes n.sequence

/-- The entries a DRAIN selects: the oldest four, or all when fewer (R160). -/
def NotifUnit.drained (u : NotifUnit) : List Notice := u.queue.take Config.drainLimit

/-- The DRAIN readout: count, LOST, entries, CRC-16 (R160). -/
def NotifUnit.drainBytes (u : NotifUnit) : List Byte :=
  withCrc16 ([natByte u.drained.length, boolByte u.lost] ++ u.drained.flatMap Notice.bytes)

/-- The readout selection is recorded (R160). -/
def NotifUnit.select (u : NotifUnit) : NotifUnit :=
  { u with selection := some ⟨u.drained.map (·.key), u.lost, false⟩ }

/-- Every update mark of a queue cleared (R161). -/
def clearMarks (q : List Notice) : List Notice := q.map fun e => { e with marked := false }

/-- A DRAIN readout completes (R162): the selected entries without an update mark are removed, marks are cleared, LOST is
cleared when it was reported and no loss followed, and no selection remains. -/
def NotifUnit.finishDrain (u : NotifUnit) : NotifUnit :=
  match u.selection with
  | some s =>
    { u with
      queue := clearMarks (u.queue.filter fun e => e.marked || !s.keys.contains e.key)
      lost := u.lost && !(s.lostReported && !s.lateLoss)
      selection := none }
  | none => u

/-- A DRAIN readout ends incomplete (R162): nothing is removed, every mark is cleared, no selection remains. -/
def NotifUnit.abandonDrain (u : NotifUnit) : NotifUnit :=
  { u with queue := clearMarks u.queue, selection := none }

end Sys2Proof.Machine
end

