-- ==== Sys2Proof/Machine/Claims.lean ====
section
/-! DEFINITION. The Claim Unit (chapter 8): the claim table, the end of a hold with its promotion, and what releases,
FREEZE and RESYNC do to it. -/

namespace Sys2Proof.Machine

/-- The response of a waiting CLAIM (R143). -/
def Waiter.response (w : Waiter) (st : Status) (result : List Byte) : Response := ⟨st, w.tag, Cmd.claim.code, result⟩

/-- The outcome codes of CLAIM and RELEASE (Table 50). -/
def outcomeNew : Byte := 1
def outcomeRenewed : Byte := 2
def outcomeGranted : Byte := 3
def outcomeHoldReleased : Byte := 1
def outcomeWaitWithdrawn : Byte := 2

/-- CLAIM's result of an OK answer: the outcome and the hold time now running (R142). -/
def claimResult (outcome : Byte) (hold : Half) : List Byte := outcome :: halfBytes hold

/-- A promotion along a waiter list (R144): the claim entry that results, none when it is freed, and the responses of the
waiters it reaches, in order. -/
def Ctl.promote (c : Ctl) (k : Half) : List Waiter → Option ClaimEntry × List (Port × Response)
  | [] => (none, [])
  | w :: t =>
    match c.writeRefusal w.port k with
    | none => (some ⟨k, w.port, w.hold, t⟩, [(w.port, w.response .ok (claimResult outcomeGranted w.hold))])
    | some _ => let r := c.promote k t; (r.1, (w.port, w.response .denied []) :: r.2)

/-- A key's claim entry replaced, or freed. -/
def Ctl.setClaim (c : Ctl) (k : Half) : Option ClaimEntry → Ctl
  | some e => { c with claims := insertBy (fun x => x.key.toNat) e c.claims }
  | none => { c with claims := c.claims.filter fun e => e.key ≠ k }

/-- Responses enter their ports' queues in order. -/
def Ctl.enterAll (c : Ctl) (rs : List (Port × Response)) : Ctl := rs.foldl (fun c r => c.enter r.1 r.2) c

/-- A hold ends, and the key passes to its next waiter that may have it, or is freed (R144). -/
def Ctl.endHold (c : Ctl) (k : Half) : Ctl :=
  match c.claimOf k with
  | some e => let r := c.promote k e.waiters; (c.setClaim k r.1).enterAll r.2
  | none => c

/-- A release on request of a port's hold on a key (R148): nothing changes when the port does not hold it. -/
def Ctl.releaseHold (c : Ctl) (p : Port) (k : Half) : Ctl :=
  match c.claimOf k with
  | some e => if e.holder = p then c.endHold k else c
  | none => c

/-- A FREEZE that completed OK removes the key's claim, and each waiter's CLAIM completes FROZEN (R149). -/
def Ctl.freezeClaim (c : Ctl) (k : Half) : Ctl :=
  match c.claimOf k with
  | some e => (c.setClaim k none).enterAll (e.waiters.map fun w => (w.port, w.response .frozen []))
  | none => c

/-- A claim entry without port `p`'s waiter entry. -/
def ClaimEntry.withoutWaiter (e : ClaimEntry) (p : Port) : ClaimEntry :=
  { e with waiters := e.waiters.filter fun w => w.port ≠ p }

/-- RESYNC or disable of port `p` at the Claim Unit (R151): its waits are withdrawn without responses, then its holds end in
ascending key order, each with its promotion. -/
def Ctl.resyncClaims (c : Ctl) (p : Port) : Ctl :=
  let c : Ctl := { c with claims := c.claims.map fun e => ClaimEntry.withoutWaiter e p }
  ((c.claims.filter fun e => e.holder = p).map ClaimEntry.key).foldl Ctl.endHold c

end Sys2Proof.Machine
end

