-- ==== Sys2Proof/Machine/Flags.lean ====
section
/-! DEFINITION. The flags and the outputs computed from the state: the status byte (R63), the attention outputs (R71), OVR and
FRM, LOST, RDY, RO and ADM. -/

namespace Sys2Proof.Machine

/-- The status byte port `p` latches when its select falls (R63, Table 46): RDY RSP NTF OVR FRM LST RO ADM from bit 7 down. -/
def Ctl.statusByte (c : Ctl) (p : Port) : Byte :=
  let u := c.port p
  let n := c.notif p
  BitVec.ofBool (c.sched.mode ≠ .mounting) ++ BitVec.ofBool (!u.queue.isEmpty) ++ BitVec.ofBool (!n.queue.isEmpty)
    ++ BitVec.ofBool u.ovr ++ BitVec.ofBool u.frm ++ BitVec.ofBool n.lost
    ++ BitVec.ofBool (c.sched.mode = .readOnly) ++ BitVec.ofBool (c.isAdmin p)

/-- The condition under which ATNn# is asserted (R71): the port enabled, power in range and RESET# high, and a queue not empty
whose bit of the attention mask is 1. -/
def Ctl.attention (c : Ctl) (p : Port) : Bool :=
  let u := c.port p
  u.enabled && c.powered && !c.inReset
    && ((u.attnMask.getLsbD 0 && !u.queue.isEmpty) || (u.attnMask.getLsbD 1 && !(c.notif p).queue.isEmpty))

/-- Every ATNn# driven by its condition (R71). Each command that has an effect ends with this. -/
def Ctl.settle (c : Ctl) : Ctl :=
  { c with ports := c.ports.map fun p u => { u with atn := c.attention p } }

/-- Port `p`'s FRM flag is set (R61). -/
def Ctl.setFrm (c : Ctl) (p : Port) : Ctl := c.onPort p fun u => { u with frm := true }

/-- Port `p`'s OVR flag is set (R64). -/
def Ctl.setOvr (c : Ctl) (p : Port) : Ctl := c.onPort p fun u => { u with ovr := true }

/-- The mode code of IDENT (Table 17). -/
def Mode.code : Mode → Byte
  | .mounting => 0
  | .ready => 1
  | .readOnly => 2

/-- The reason code of IDENT (Table 17). -/
def Reason.code : Reason → Byte
  | .none => 0
  | .sequence => 1
  | .media => 2
  | .config => 3

/-- The mount flags of IDENT: bit 0 IMAGE_ABSENT, bit 1 TRUNCATED (Table 17). -/
def Mount.flags (m : Mount) : Byte :=
  (if m.imageAbsent then 1 else 0) ||| (if m.truncated then 2 else 0)

end Sys2Proof.Machine
end

