-- ==== Sys2Proof/Machine/Completion.lean ====
section
/-! DEFINITION. Entry into READ_ONLY (R119, R136), RESYNC and the disabling and enabling of a port in every block (R76 to
R79, R122, R138, R151, R164), and the completion of a port operation with its effects in order (R117, R118). -/

namespace Sys2Proof.Machine

/-! ### Answers to COMPACT requests -/

/-- The answer to a request of the COMPACT request list (R135): discarded when its discard mark is set. -/
def Ctl.answerCompact (c : Ctl) (r : CompactReq) (st : Status) (result : List Byte) : Ctl :=
  if r.discard then c else c.enter r.port ⟨st, r.tag, Cmd.compact.code, result⟩

/-- Every request of the COMPACT request list is answered, oldest first, and the list is left empty (R136): the tied one with
`tiedStatus` and the pass counts so far, the others READ_ONLY with zeros. -/
def Ctl.answerCompactList (c : Ctl) (tiedStatus : Status) : Ctl :=
  let c' := c.sched.compactList.foldl (fun (d : Ctl) r =>
    if r.tied then d.answerCompact r tiedStatus (compactResult 0 c.agent.copied c.agent.dropped)
    else d.answerCompact r .readOnly (compactResult 0 0 0)) c
  { c' with sched := { c'.sched with compactList := [] } }

/-- A pass under way is abandoned at an entry into READ_ONLY within a port operation (R136). -/
def Agent.abandonPass (a : Agent) : Agent :=
  match a.state with
  | .scanning _ _ => Agent.reset
  | .erasing _ => Agent.reset
  | .idle => a
  | .halted => a

/-- The device mode becomes READ_ONLY with a reason, if it is READY (R119). Within a port operation the COMPACT request list
is answered and the pass abandoned at this event (R136); within a compaction step the step itself goes on to answer the
list (R131, step 3; R134, step 4). -/
def Ctl.enterReadOnly (c : Ctl) (reason : Reason) : Ctl :=
  match c.sched.mode with
  | .ready =>
    let d : Ctl := { c with sched := { c.sched with mode := .readOnly, reason := reason } }
    match c.sched.current with
    | .port _ _ => let d := d.answerCompactList .readOnly; { d with agent := d.agent.abandonPass }
    | .agent _ => d
    | .none => d
  | .mounting => c
  | .readOnly => c

/-! ### RESYNC, disable, enable -/

/-- The port operation executing is one of port `p`. -/
def CurrentStep.isOf (s : CurrentStep) (p : Port) : Bool :=
  match s with
  | .port req _ => req.port = p
  | .agent _ => false
  | .none => false

/-- Port `p`'s COMMIT is executing (R83, NOTE 1). -/
def Ctl.commitExecuting (c : Ctl) (p : Port) : Bool :=
  match c.sched.current with
  | .port req _ => req.port = p && req.body.cmd = .commit
  | .agent _ => false
  | .none => false

/-- The discard mark of the operation executing is set when it is port `p`'s (R122). -/
def CurrentStep.markDiscard (s : CurrentStep) (p : Port) : CurrentStep :=
  match s with
  | .port req act => if req.port = p then .port { req with discard := true } act else s
  | .agent _ => s
  | .none => s

/-- RESYNC at the staging buffer (R76): a composition not taken by an executing COMMIT is discarded. -/
def Staging.resync (executing : Bool) : Staging → Staging
  | .empty => .empty
  | .composing _ => .empty
  | .submitted k => if executing then .submitted k else .empty

/-- RESYNC at port `p`'s Port Unit (R76), with the outstanding count of R77. -/
def Ctl.resyncPort (c : Ctl) (p : Port) : Ctl :=
  c.onPort p fun u =>
    { u with
      queue := []
      ovr := false
      frm := false
      attnMask := 0b11
      staging := u.staging.resync (c.commitExecuting p)
      outstanding := if c.sched.current.isOf p then 1 else 0 }

/-- RESYNC at the COMPACT request list (R138): port `p`'s untied requests are removed, its tied one is marked. -/
def resyncCompactList (l : List CompactReq) (p : Port) : List CompactReq :=
  (l.filter fun r => r.tied || r.port ≠ p).map fun r => if r.port = p then { r with discard := true } else r

/-- RESYNC at the Scheduler (R122). -/
def Ctl.resyncSched (c : Ctl) (p : Port) : Ctl :=
  { c with
    sched :=
      { c.sched with
        lists := c.sched.lists.set p []
        waits := c.sched.waits.set p none
        current := c.sched.current.markDiscard p
        compactList := resyncCompactList c.sched.compactList p } }

/-- RESYNC of port `p` in every block (R76, R77). -/
def Ctl.resync (c : Ctl) (p : Port) : Ctl :=
  (((c.resyncPort p).resyncSched p).resyncClaims p).onNotif p fun u => { NotifUnit.reset with selection := u.selection }

/-- Port `p` is disabled (R78): RESYNC first, then the frame in progress, if any, is abandoned. -/
def Ctl.disable (c : Ctl) (p : Port) : Ctl :=
  ((c.resync p).onPort p fun u =>
    { u with enabled := false, rx := .idle, statusLatch := none, sdo := none }).onNotif p NotifUnit.abandonDrain

/-- Port `p` is enabled again (R79). A frame whose select is already low is not taken: only a falling select starts one. -/
def Ctl.enable (c : Ctl) (p : Port) : Ctl := c.onPort p fun u => { u with enabled := true }

/-- The enable mask of the active configuration is applied: ports left out are disabled in ascending order, then ports put
back are enabled (R78, R79, R174). -/
def Ctl.applyEnableMask (c : Ctl) (mask : Byte) : Ctl :=
  let c := allPorts.foldl (fun (d : Ctl) p => if (d.port p).enabled && !inMask mask p then d.disable p else d) c
  allPorts.foldl (fun (d : Ctl) p => if !(d.port p).enabled && inMask mask p then d.enable p else d) c

/-- The application of a loaded configuration (R174): the settings first, then the enable mask. -/
def Ctl.applyConfig (c : Ctl) (s : Settings) : Ctl :=
  let c : Ctl := { c with conf := { c.conf with active := some s } }
  c.applyEnableMask s.enable

/-! ### Completion -/

/-- Step 5 of a completion (R117): the response enters the queue, or is discarded and the outstanding count falls (R77). -/
def Ctl.respond (c : Ctl) (req : Request) (st : Status) (result : List Byte) : Ctl :=
  if req.discard then c.dropCredit req.port else c.enter req.port ⟨st, req.tag, req.body.cmd.code, result⟩

/-- Step 6 of a completion (R117): the sequence limit mark is acted on and cleared. -/
def Ctl.endMark (c : Ctl) : Ctl :=
  if c.sched.limitMark then
    let c := c.enterReadOnly .sequence
    { c with sched := { c.sched with limitMark := false } }
  else c

/-- Step 7 of a completion (R117), and the end of the step. -/
def Ctl.endTurn (c : Ctl) : Ctl := { c with sched := { c.sched with turn := .compaction, current := .none } }

/-- Step 4 of a completion (R117): port `p`'s staging buffer enters EMPTY (R88). -/
def Ctl.emptyStaging (c : Ctl) (p : Port) : Ctl := c.onPort p fun u => { u with staging := .empty }

/-- The composition a COMMIT of port `p` has taken. -/
def Ctl.submitted (c : Ctl) (p : Port) : Option Composition :=
  match (c.port p).staging with
  | .submitted k => some k
  | .composing _ => none
  | .empty => none

/-- Step 3 of a COMMIT's completion: RELEASE_ON_DONE (R148). -/
def Ctl.releaseOnDone (c : Ctl) (p : Port) (asked : Bool) : Ctl :=
  match asked, c.submitted p with
  | true, some k => c.releaseHold p k.key
  | true, none => c
  | false, _ => c

/-- The result of a port write's OK completion (Table 22). -/
def writeResult (body : ReqBody) (h : RecHeader) (created : Bool) : List Byte :=
  match body with
  | .commit _ => wordBytes h.sequence ++ [boolByte created, natByte h.pages]
  | _ => wordBytes h.sequence

/-- The notice of a port write's OK completion (R117, step 2). -/
def writeNotice (kind : NoticeKind) (req : Request) (h : RecHeader) : Notice :=
  ⟨h.key, kind, some req.port, h.sequence, false⟩

/-- The first three steps of a port write's OK completion (R117): Directory, notices, claims. `row` and `first` are where
the record was written. -/
def Ctl.writeEffects (c : Ctl) (req : Request) (h : RecHeader) (row first : Nat) : Ctl :=
  match req.body with
  | .commit release =>
    ((c.placeEntry (entryOf h .value row first)).deliver (writeNotice .changed req h)).releaseOnDone req.port release
  | .delete _ => (c.removeEntry h.key).deliver (writeNotice .deleted req h)
  | .freeze _ => ((c.placeEntry (entryOf h .frozen row first)).deliver (writeNotice .frozen req h)).freezeClaim h.key
  | _ => c

/-- The staging step of a completion: a COMMIT's buffer enters EMPTY, other commands have none (R117, step 4). -/
def Ctl.endStaging (c : Ctl) (req : Request) : Ctl :=
  match req.body with
  | .commit _ => c.emptyStaging req.port
  | _ => c

/-- A COMMIT, DELETE or FREEZE completes OK, its record written at `row`, `first` (R117). -/
def Ctl.completeWrite (c : Ctl) (req : Request) (h : RecHeader) (row first : Nat) : Ctl :=
  let created := (c.lookup h.key).isNone
  ((((c.writeEffects req h row first).endStaging req).respond req .ok (writeResult req.body h created)).endMark).endTurn

/-- Every other completion of a port operation, but RELOAD's with a configuration to load and COMPACT's hand-off (R118). -/
def Ctl.complete (c : Ctl) (req : Request) (st : Status) (result : List Byte) : Ctl :=
  let c :=
    match req.body with
    | .commit release => c.releaseOnDone req.port release
    | _ => c
  (((c.endStaging req).respond req st result).endMark).endTurn

/-- A port operation completes with a status that is not OK, its result empty but for COMPACT's zeros (R108). -/
def Ctl.refuse (c : Ctl) (req : Request) (st : Status) : Ctl := c.complete req st (refusedResult req.body.cmd)

/-- A RELOAD with a configuration to load completes OK (R118, R173, R174): its response first, then, with no step executing
any more, the configuration is applied, then the turn is set. -/
def Ctl.completeReload (c : Ctl) (req : Request) (s : Settings) (generation : Word) : Ctl :=
  (((c.respond req .ok (wordBytes generation)).setCurrent .none).applyConfig s).endTurn

end Sys2Proof.Machine
end

