-- ==== Sys2Proof/Machine/Compaction.lean ====
section
/-! DEFINITION. The Compaction Agent (chapter 7), but for the array operations its steps ask for: the beginning of a pass, what a
step does with the record it has read, the end of the walk, the halt and the end of a pass. -/

namespace Sys2Proof.Machine

/-- A compaction step completes: the turn becomes PORTS (R106). -/
def Ctl.endAgentStep (c : Ctl) : Ctl := { c with sched := { c.sched with turn := .ports, current := .none } }

/-- The agent halts (R131): HALTED, then READ_ONLY with reason MEDIA unless the mode is READ_ONLY already, then the COMPACT
request list is answered (R136). A head that the failed open's first reserve check has left stays HEAD (DESIGN CHOICE,
notes/assumptions/26.md). -/
def Ctl.haltAgent (c : Ctl) : Ctl :=
  let tiedStatus : Status := if c.sched.mode = .readOnly then .readOnly else .media
  let c : Ctl := { c with agent := { c.agent with state := .halted, retryMark := none } }
  ((c.enterReadOnly .media).answerCompactList tiedStatus).endAgentStep

/-- The oldest untied request of the COMPACT request list becomes the tied request (R125). -/
def tieOldest : List CompactReq → List CompactReq
  | [] => []
  | r :: t => if r.tied then r :: tieOldest t else { r with tied := true } :: t

/-- A pass begins on the tail (R125). -/
def Ctl.beginPass (c : Ctl) : Ctl :=
  { c with
    agent := ⟨.scanning (c.rows.ring.headD 0) 1, none, 0, 0⟩
    sched := { c.sched with compactList := tieOldest c.sched.compactList } }

/-- The DAMAGED notice of an entry removed (R127). -/
def damagedNotice (e : DirEntry) : Notice := ⟨e.key, .damaged, none, e.sequence, false⟩

/-- An entry is removed as damaged (R127): entry and page counts, then its notices, then the count of records dropped, which goes
on past 15, the bound of Table 28 (DESIGN CHOICE, notes/assumptions/30.md). -/
def Ctl.removeDamaged (c : Ctl) (e : DirEntry) : Ctl :=
  let c := (c.removeEntry e.key).deliver (damagedNotice e)
  { c with agent := { c.agent with dropped := c.agent.dropped + 1 } }

/-- The walk of the pass row ends (R133): every entry that still names the row is removed as damaged, in ascending key order,
and the agent enters ERASING. -/
def Ctl.endWalk (c : Ctl) (row : Nat) : Ctl :=
  let c := (c.dir.filter fun e => e.row = row).foldl Ctl.removeDamaged c
  { c with agent := { c.agent with state := .erasing row, retryMark := none } }.endAgentStep

/-- A record of `q` pages at the cursor has been handled: the cursor moves past it and the retry mark is cleared; the walk
ends when the cursor reaches page 16 (R128, R132, R133). -/
def Ctl.advanceCursor (c : Ctl) (row cursor q : Nat) : Ctl :=
  let c : Ctl := { c with agent := { c.agent with state := .scanning row (cursor + q), retryMark := none } }
  if 16 ≤ cursor + q then c.endWalk row else c.endAgentStep

/-- The record at the cursor is dropped (R132); the count goes on past 15 here too (DESIGN CHOICE, notes/assumptions/30.md). -/
def Ctl.dropRecord (c : Ctl) (row cursor q : Nat) : Ctl :=
  { c with agent := { c.agent with dropped := c.agent.dropped + 1 } }.advanceCursor row cursor q

/-- A copy ends WRITTEN (R128): the entry is relocated, the pages-copied count rises, the cursor moves on. -/
def Ctl.copyWritten (c : Ctl) (h : RecHeader) (row first : Nat) : Ctl :=
  match c.agent.state with
  | .scanning pass cursor =>
    let c := c.relocate h.key row first
    { c with agent := { c.agent with copied := c.agent.copied + h.pages } }.advanceCursor pass cursor h.pages
  | .idle => c.endAgentStep
  | .erasing _ => c.endAgentStep
  | .halted => c.endAgentStep

/-- A copy ends FAILED (R130): the retry mark is set, or the agent halts when it names the cursor page already. -/
def Ctl.copyFailed (c : Ctl) : Ctl :=
  match c.agent.state with
  | .scanning _ cursor =>
    if c.agent.retryMark = some cursor then c.haltAgent
    else { c with agent := { c.agent with retryMark := some cursor } }.endAgentStep
  | .idle => c.endAgentStep
  | .erasing _ => c.endAgentStep
  | .halted => c.endAgentStep

/-- A tail reclaim completes for every space wait (R104): each counts it, past the ring length R as well, where Table 23 gives
the count no value (DESIGN CHOICE, notes/assumptions/27.md). -/
def Sched.countReclaim (s : Sched) : Sched :=
  { s with waits := s.waits.map fun _ w => w.map fun x => { x with reclaims := x.reclaims + 1 } }

/-- The tied request, if any, is answered OK with the pass's counts and leaves the list (R134, step 2; R135). -/
def Ctl.answerTied (c : Ctl) (reclaimed : Nat) : Ctl :=
  let c' := (c.sched.compactList.filter fun r => r.tied).foldl (fun (d : Ctl) r =>
    d.answerCompact r .ok (compactResult reclaimed c.agent.copied c.agent.dropped)) c
  { c' with sched := { c'.sched with compactList := c'.sched.compactList.filter fun r => !r.tied } }

/-- Every request left in the list is answered OK with zeros, oldest first (R134, step 5). -/
def Ctl.answerAllZero (c : Ctl) : Ctl :=
  let c' := c.sched.compactList.foldl (fun (d : Ctl) r => d.answerCompact r .ok (compactResult 0 0 0)) c
  { c' with sched := { c'.sched with compactList := [] } }

/-- The pass ends after its tail erase (R134, steps 2 to 5), `reclaimed` being 1 when the erase passed and 0 when it failed. -/
def Ctl.endPass (c : Ctl) (reclaimed : Nat) : Ctl :=
  let c := c.answerTied reclaimed
  let c : Ctl := { c with agent := Agent.reset }
  let c :=
    match c.sched.mode with
    | .readOnly => c.answerCompactList .readOnly
    | .ready => if c.rows.tailClosed then c else c.answerAllZero
    | .mounting => c
  c.endAgentStep

end Sys2Proof.Machine
end

