-- ==== Sys2Proof/Machine/Writes.lean ====
section
/-! DEFINITION. Array operations asked for by a step, and what they serve: the head open with its attempts (R34 to R36), the
record write with its retry (R23, R32, R113, R130), image writes (R168) and retirement (R175). -/

namespace Sys2Proof.Machine

/-! ### Requests to the Media Unit -/

/-- A step asks for a page read (R4) and goes on to `act`. -/
def Ctl.askRead (c : Ctl) (row page : Nat) (act : Activity) : Ctl :=
  { c with media := { c.media with op := .reading row page } }.setActivity act

/-- A step asks for a row erase, whose disturb count becomes UNKNOWN (R10), and goes on to `act`. -/
def Ctl.askErase (c : Ctl) (row : Nat) (act : Activity) : Ctl :=
  { c with media := { c.media.forget row with op := .erasing row 0 } }.setActivity act

/-- A step asks for a page program (R6) and goes on to `act`. The caller has made the budget check: a program on a row without
budget ends FAIL_BUDGET at once, and the Media Unit stays IDLE. -/
def Ctl.askProgram (c : Ctl) (row page : Nat) (target : Page) (act : Activity) : Ctl :=
  { c with media := { c.media with op := .programming row page target 0 [] } }.setActivity act

/-! ### The end of a record write -/

/-- A record write ends WRITTEN (R32): the port operation completes OK, or the copy does. -/
def Ctl.recordWritten (c : Ctl) (job : WriteJob) (row first : Nat) : Ctl :=
  match job.owner, c.sched.current with
  | .agent, _ => c.copyWritten job.header row first
  | .port _, .port req _ => c.completeWrite req job.header row first
  | .port _, .agent _ => c
  | .port _, .none => c

/-- A head open fails (R36): the port write completes MEDIA (R113), the agent halts (R131). -/
def Ctl.openFailed (c : Ctl) (job : WriteJob) : Ctl :=
  match job.owner, c.sched.current with
  | .agent, _ => c.haltAgent
  | .port _, .port req _ => c.refuse req .media
  | .port _, .agent _ => c
  | .port _, .none => c

/-! ### The head open -/

/-- The reserve check of a head open (R36). -/
def Ctl.reserveOk (c : Ctl) (job : WriteJob) : Bool :=
  match job.owner with
  | .port _ => Config.portReserve ≤ c.rows.free
  | .agent => Config.agentReserve ≤ c.rows.free

/-- A header program fails (R35, step 4): the row becomes FREE_STALE with the suspect mark. -/
def RowMgr.headerFailed (m : RowMgr) (row : Nat) : RowMgr := (m.setState row .freeStale).markSuspect row

/-- Step 2 of an attempt (R35) on a FREE_READY row: it takes an open number and its header is programmed; at the open
counter's limit the attempt and the open fail and the mode becomes READ_ONLY with reason SEQUENCE (R40). `again` is what
follows a failed attempt, `left` the attempts that remain. -/
def Ctl.programHeader (again : Ctl → Ctl) (job : WriteJob) (row left : Nat) (c : Ctl) : Ctl :=
  if c.rows.openCounter = Config.openLimit then (c.enterReadOnly .sequence).openFailed job
  else
    let n := c.rows.openCounter
    let c : Ctl := { c with rows := { c.rows with openCounter := n + 1 } }
    if c.media.budget row then c.askProgram row 0 (rowHeaderPage n) (.openHeader job row left n)
    else again { c with rows := c.rows.headerFailed row }

/-- The attempts of a head open that remain (R36): each makes its reserve check, takes a free row by R34 and moves the open
pointer to it; a FREE_STALE row is erased first (R35). No attempt is made once the mode is READ_ONLY. -/
def tryOpen (job : WriteJob) : Nat → Ctl → Ctl
  | 0, c => c.openFailed job
  | left + 1, c =>
    if c.sched.mode = .readOnly || !c.reserveOk job then c.openFailed job
    else
      match c.rows.chooseRow with
      | none => c.openFailed job
      | some row =>
        let c : Ctl := { c with rows := { c.rows with openPtr := row } }
        if c.rows.state row = .freeStale then c.askErase row (.openErase job row left)
        else c.programHeader (tryOpen job left) job row left

/-- A head open (R36): when the reserve check passes the head, if any, is closed, and up to two attempts are made. When the
check fails before the first attempt the head is left as it is (R33, R36's first point), although R36's last paragraph and R131
say that no head exists after a failed open: the rules disagree there, and the choice is the model's (DESIGN CHOICE,
notes/assumptions/26.md). -/
def Ctl.openHead (c : Ctl) (job : WriteJob) : Ctl :=
  if c.reserveOk job then tryOpen job 2 { c with rows := c.rows.closeHead } else c.openFailed job

/-! ### The record write -/

/-- A record write ends FAILED (R32): the head takes the suspect mark and is closed; a port write is retried once in a new
head (R113), a copy goes on by R130. -/
def Ctl.recordFailed (c : Ctl) (job : WriteJob) (row : Nat) : Ctl :=
  let c : Ctl := { c with rows := (c.rows.markSuspect row).closeHead }
  match job.owner, c.sched.current with
  | .agent, _ => c.copyFailed
  | .port false, _ => c.openHead { job with owner := .port true }
  | .port true, .port req _ => c.refuse req .media
  | .port true, .agent _ => c
  | .port true, .none => c

/-- Page `idx` of the record is programmed (R23). -/
def Ctl.programPage (c : Ctl) (job : WriteJob) (row first idx : Nat) : Ctl :=
  if c.media.budget row then c.askProgram row (first + idx) (job.images.getD idx []) (.writing job row first idx)
  else c.recordFailed job row

/-- The record is allocated in the head and its first page is programmed (R32). -/
def Ctl.startRecord (c : Ctl) (job : WriteJob) : Ctl :=
  match c.rows.headRow with
  | some row =>
    let first := (c.rows.state row).nextFree
    { c with rows := c.rows.setState row ((c.rows.state row).allocate job.header.pages) }.programPage job row first 0
  | none => c

/-- A record is written into the head when it fits, and into a new head otherwise (R112, step 2; R128). -/
def Ctl.placeRecord (c : Ctl) (job : WriteJob) : Ctl :=
  if c.fitsHead job.header.pages then c.startRecord job else c.openHead job

/-- A page of a record ends PASS (R23): the next page, or the record is WRITTEN. -/
def Ctl.pageWritten (c : Ctl) (job : WriteJob) (row first idx : Nat) : Ctl :=
  if job.header.pages ≤ idx + 1 then c.recordWritten job row first else c.programPage job row first (idx + 1)

/-- The header program of a head open ends PASS: the row becomes the head and the record is allocated in it (R35, step 3). -/
def Ctl.headOpened (c : Ctl) (job : WriteJob) (row : Nat) (openNo : Word) : Ctl :=
  { c with rows := c.rows.becomeHead row openNo }.startRecord job

/-- The header program of a head open does not end PASS (R35, step 4). -/
def Ctl.headerFailed (c : Ctl) (job : WriteJob) (row left : Nat) : Ctl :=
  tryOpen job left { c with rows := c.rows.headerFailed row }

/-! ### Image writes and retirement -/

/-- The stored generation: the copy's, or 0 when the copy is absent (R165). -/
def ConfUnit.generation (u : ConfUnit) : Word :=
  match u.stored with
  | some s => s.image.generation
  | none => 0

/-- The stored lock: the copy's, or 0 when the copy is absent (R165). -/
def ConfUnit.lock (u : ConfUnit) : Byte :=
  match u.stored with
  | some s => s.image.lock
  | none => 0

/-- The stored settings: the copy's, or the defaults when the copy is absent (R165). -/
def ConfUnit.settings (u : ConfUnit) : Settings :=
  match u.stored with
  | some s => s.image.settings
  | none => defaultSettings

/-- The target row of an image write (R168, step 2), also where the write before it made S0 faulted with no stored copy: there R172
has the next SETCONF write into the same target (DESIGN CHOICE, notes/assumptions/34.md). -/
def ConfUnit.target (u : ConfUnit) : SysRow :=
  match u.stored with
  | some s => (match s.row with | .s0 => .s1 | .s1 => .s0)
  | none => if u.faulted0 && !u.faulted1 then .s1 else .s0

/-- The faulted mark of a system row set or cleared (R168). -/
def ConfUnit.setFaulted (u : ConfUnit) (row : SysRow) (b : Bool) : ConfUnit :=
  match row with
  | .s0 => { u with faulted0 := b }
  | .s1 => { u with faulted1 := b }

/-- A row whose erase failed becomes RETIRED in the row table (R35, R134). -/
def RowMgr.retire (m : RowMgr) (row : Nat) : RowMgr := m.setState row .retired

/-- An image write has ended for its asker (R171, R175): `written` is the generation written, none when the write failed. A
retirement whose image was not written enters READ_ONLY with reason CONFIG. -/
def Ctl.imageEnded (c : Ctl) (asker : ImageFor) (written : Option Word) : Ctl :=
  match asker with
  | .setconf =>
    match c.sched.current, written with
    | .port req _, some g => c.complete req .ok (wordBytes g)
    | .port req _, none => c.refuse req .media
    | .agent _, _ => c
    | .none, _ => c
  | .openHead job left => tryOpen job left (if written.isSome then c else c.enterReadOnly .config)
  | .tail => (if written.isSome then c else c.enterReadOnly .config).endPass 0

/-- An image write begins (R168, steps 1 to 3). -/
def Ctl.writeImage (c : Ctl) (settings : Settings) (lock : Byte) (retired : List Byte) (asker : ImageFor) : Ctl :=
  if c.conf.generation = Config.generationLimit then c.imageEnded asker none
  else
    let plan : ImagePlan := ⟨c.conf.target, ⟨c.conf.generation + 1, settings, lock, retired⟩⟩
    c.askErase plan.target.index (.image .erase plan asker)

/-- An image write completes (R168): the stored copy takes the image, the target becomes the current row, and its faulted mark
is cleared (step 4) or set (step 5). -/
def Ctl.imageWritten (c : Ctl) (plan : ImagePlan) (asker : ImageFor) (faulted : Bool) : Ctl :=
  { c with conf := { c.conf.setFaulted plan.target faulted with stored := some ⟨plan.target, plan.image⟩ } }.imageEnded asker
    (some plan.image.generation)

/-- An image write fails at its erase or its read-back (R168): the target's faulted mark is set. -/
def Ctl.imageFailed (c : Ctl) (plan : ImagePlan) (asker : ImageFor) : Ctl :=
  { c with conf := c.conf.setFaulted plan.target true }.imageEnded asker none

/-- The page program of an image write (R168, step 4), or its read-back when the program ends at once (step 5). -/
def Ctl.programImage (c : Ctl) (plan : ImagePlan) (asker : ImageFor) : Ctl :=
  if c.media.budget plan.target.index then
    c.askProgram plan.target.index 0 plan.image.page (.image .program plan asker)
  else c.askRead plan.target.index 0 (.image .readBack plan asker)

/-- A retirement (R175): with the retired-row list full the mode becomes READ_ONLY with reason MEDIA; otherwise the row is
added to the active list and an image with the stored settings and lock is written. -/
def Ctl.retireRow (c : Ctl) (row : Nat) (asker : ImageFor) : Ctl :=
  if Config.retiredLimit ≤ c.conf.retired.length then
    let c := c.enterReadOnly .media
    match asker with
    | .setconf => c
    | .openHead job left => tryOpen job left c
    | .tail => c.endPass 0
  else
    let c : Ctl := { c with conf := { c.conf with retired := insertBy BitVec.toNat (natByte row) c.conf.retired } }
    c.writeImage c.conf.settings c.conf.lock c.conf.retired asker

/-- The erase of a head open ends (R35, step 1). -/
def Ctl.openErased (c : Ctl) (job : WriteJob) (row left : Nat) (passed : Bool) : Ctl :=
  if passed then { c with rows := c.rows.setState row .freeReady }.programHeader (tryOpen job left) job row left
  else { c with rows := c.rows.retire row }.retireRow row (.openHead job left)

/-- The erase of the pass row ends (R134, step 1). -/
def Ctl.tailErased (c : Ctl) (row : Nat) (passed : Bool) : Ctl :=
  let c : Ctl := { c with sched := c.sched.countReclaim }
  if passed then { c with rows := (c.rows.setState row .freeReady).leaveRing row }.endPass 1
  else { c with rows := (c.rows.retire row).leaveRing row }.retireRow row .tail

end Sys2Proof.Machine
end

