-- ==== Sys2Proof/Machine/Scheduler.lean ====
section
/-! DEFINITION. The Scheduler (chapter 6): eligibility and FULL, the choice of the next step, the execution-start re-checks and
the start of each port operation and of the agent's step. -/

namespace Sys2Proof.Machine

/-- The low-water mark of the active configuration (R105). -/
def Ctl.lowWater (c : Ctl) : Nat :=
  match c.conf.active with
  | some s => s.low.toNat
  | none => 0

/-- A pass has begun and has not ended. -/
def AgentState.inPass : AgentState → Bool
  | .scanning _ _ => true
  | .erasing _ => true
  | .idle => false
  | .halted => false

/-- The Compaction Agent has work (R105, R125). -/
def Ctl.agentHasWork (c : Ctl) : Bool :=
  c.sched.mode = .ready && c.agent.state ≠ .halted && c.rows.tailClosed
    && (c.rows.free ≤ c.lowWater || !c.sched.compactList.isEmpty || c.agent.state.inPass)

/-- The request is a write (R103). -/
def ReqBody.isWrite : ReqBody → Bool
  | .commit _ => true
  | .delete _ => true
  | .freeze _ => true
  | .read _ _ _ => false
  | .compact => false
  | .setconf _ => false
  | .reload => false

/-- The pages a write needs as things stand (R102); none when its start will refuse it, or for another command. -/
def Ctl.pagesNeeded (c : Ctl) (req : Request) : Option Nat :=
  match req.body with
  | .commit _ => (c.submitted req.port).map fun k => pagesFor k.declared
  | .delete k => (c.lookup k).map fun _ => 1
  | .freeze k => (c.lookup k).map fun e => e.pages
  | .read _ _ _ => none
  | .compact => none
  | .setconf _ => none
  | .reload => none

/-- The mode judgement of the commands refused in READ_ONLY. -/
def Ctl.modeRefusal (c : Ctl) : Option Status := refuseIf (c.sched.mode = .readOnly) .readOnly

/-- The admin judgement (Table 12, NOTE 2). -/
def Ctl.adminRefusal (c : Ctl) (p : Port) : Option Status := refuseIf (!c.isAdmin p) .denied

/-- The judgement that the key has an entry. -/
def Ctl.entryRefusal (c : Ctl) (k : Half) : Option Status := refuseIf (c.lookup k).isNone .noKey

/-- The judgement that a READ lies within the entry's length (R94). -/
def Ctl.boundsRefusal (c : Ctl) (k : Half) (offset count : Nat) : Option Status :=
  match c.lookup k with
  | some e => refuseIf (e.length < offset + count) .badArg
  | none => none

/-- The judgement that a key without an entry finds room in the Directory (R43). -/
def Ctl.roomRefusal (c : Ctl) (k : Half) : Option Status :=
  refuseIf ((c.lookup k).isNone && Config.directoryLimit ≤ c.dir.length) .dirFull

/-- The execution-start re-checks (R109): the first failure, or none. FREEZE's check of its record is made by reading it
(R116). -/
def Ctl.recheck (c : Ctl) (req : Request) : Option Status :=
  match req.body with
  | .commit _ =>
    match c.submitted req.port with
    | some k =>
      firstRefusal
        [c.modeRefusal, c.writeRefusal req.port k.key, refuseIf (c.heldAgainst req.port k.key) .held, c.roomRefusal k.key]
    | none => some .noStage
  | .delete k =>
    firstRefusal
      [c.modeRefusal, c.entryRefusal k, c.writeRefusal req.port k, refuseIf (c.heldAgainst req.port k) .held]
  | .read k offset count => firstRefusal [c.readRefusal req.port k, c.boundsRefusal k offset count]
  | .freeze k =>
    firstRefusal [c.modeRefusal, c.adminRefusal req.port, c.entryRefusal k, refuseIf (c.isFrozen k) .frozen]
  | .compact => firstRefusal [c.modeRefusal, c.adminRefusal req.port]
  | .setconf _ => firstRefusal [c.modeRefusal, c.adminRefusal req.port]
  | .reload => c.adminRefusal req.port

/-- The first four cases of R103. -/
def Ctl.startable (c : Ctl) (req : Request) : Bool :=
  !req.body.isWrite || (c.recheck req).isSome
    || (match c.pagesNeeded req with
      | some n => c.fitsHead n || Config.portReserve ≤ c.rows.free
      | none => true)

/-- FULL by case 1 or 2 of R104: the pages exceed the available pages, or the agent has no work. -/
def Ctl.fullNow (c : Ctl) (req : Request) : Bool :=
  (match c.pagesNeeded req with
    | some n => c.rows.availablePages < n
    | none => false)
    || !c.agentHasWork

/-- FULL by case 3 of R104: the space wait has counted R tail reclaims. -/
def SpaceWait.over (w : Option SpaceWait) : Bool :=
  match w with
  | some x => x.ringLength ≤ x.reclaims
  | none => false

/-- FULL is due for port `p`'s front `req` (R104). -/
def Ctl.fullDue (c : Ctl) (p : Port) (req : Request) : Bool :=
  !c.startable req && (c.fullNow req || SpaceWait.over (c.sched.waits.get p))

/-- Port `p`'s front request is eligible (R103). -/
def Ctl.eligible (c : Ctl) (p : Port) : Bool :=
  match c.requests p with
  | [] => false
  | req :: _ => c.startable req || c.fullDue p req

/-- Port `p`'s space wait at a moment of choice (R104): it ends when its write is found startable, and begins when its write
is held back. -/
def Ctl.waitNow (c : Ctl) (p : Port) (w : Option SpaceWait) : Option SpaceWait :=
  match c.requests p with
  | [] => none
  | req :: _ =>
    if c.startable req then none
    else if c.fullNow req then w
    else some (w.getD ⟨c.rows.ring.length, 0⟩)

/-- The space waits of all ports at a moment of choice (R104). -/
def Ctl.judgeWaits (c : Ctl) : Ctl :=
  { c with sched := { c.sched with waits := c.sched.waits.map fun p w => c.waitNow p w } }

/-- The ports in the order of the search (R107). -/
def searchPorts (start : Port) : List Port :=
  [start, nextPort start, nextPort (nextPort start), nextPort (nextPort (nextPort start))]

/-- The port served when a port operation is chosen (R107). -/
def Ctl.portServed (c : Ctl) : Option Port := (searchPorts c.sched.searchStart).find? fun p => c.eligible p

/-- What a moment of choice chooses. -/
inductive Choice where
  | nothing
  | port (p : Port)
  | agent
deriving DecidableEq, Repr

/-- The choice of the next step (R106). -/
def Ctl.choose (c : Ctl) : Choice :=
  match c.portServed, c.agentHasWork, c.sched.turn with
  | some p, true, .ports => .port p
  | some _, true, .compaction => .agent
  | none, true, _ => .agent
  | some p, false, _ => .port p
  | none, false, _ => .nothing

/-! ### The start of a port operation -/

/-- A port write takes its sequence number (R39, R112): the counter is incremented, and the sequence limit mark is set when
this brings it to the limit. -/
def Ctl.takeSequence (c : Ctl) : Ctl :=
  let n := c.rows.seqCounter + 1
  { c with
    rows := { c.rows with seqCounter := n }
    sched := { c.sched with limitMark := c.sched.limitMark || n = Config.sequenceLimit } }

/-- A port write executes (R112): it takes its number, its record is formed once (R111) and placed. -/
def Ctl.startWrite (c : Ctl) (h : RecHeader) (payload : List Byte) : Ctl :=
  let h : RecHeader := { h with sequence := c.rows.seqCounter }
  c.takeSequence.placeRecord ⟨h, recordImages h payload, .port false⟩

/-- The record of a COMMIT (Table 26), its sequence number not yet taken. -/
def Ctl.commitHeader (c : Ctl) (p : Port) (k : Composition) : RecHeader :=
  let m := c.resolveMasks p k
  ⟨k.key, k.declared, 0, .value, accessByte m.1 m.2, p, pagesFor k.declared⟩

/-- The record of a DELETE (Table 26). -/
def deleteHeader (p : Port) (e : DirEntry) : RecHeader :=
  ⟨e.key, 0, 0, .tombstone, accessByte e.readMask e.writeMask, p, 1⟩

/-- A COMPACT is handed on (R110): it joins the COMPACT request list, or is answered at once when the agent is IDLE and the
tail is not a CLOSED row (R135); a request with its discard mark set is not moved. -/
def Ctl.handOn (c : Ctl) (req : Request) : Ctl :=
  if req.discard then (c.dropCredit req.port).endTurn
  else
    let r : CompactReq := ⟨req.port, req.tag, false, false⟩
    if c.agent.state = .idle && !c.rows.tailClosed then (c.answerCompact r .ok (compactResult 0 0 0)).endTurn
    else { c with sched := { c.sched with compactList := c.sched.compactList ++ [r] } }.endTurn

/-- A READ or FREEZE begins to read the current record (R115, R116). -/
def Ctl.beginRead (c : Ctl) (k : Half) (full : Bool) : Ctl :=
  match c.lookup k with
  | some e => c.askRead e.row e.page (.readRecord e [] full)
  | none => c

/-- A SETCONF executes (R171). -/
def Ctl.beginSetconf (c : Ctl) (req : Request) (a : ConfArgs) : Ctl :=
  if c.conf.lock = 1 then c.refuse req .locked else c.writeImage a.settings a.lock c.conf.retired .setconf

/-- A RELOAD executes (R173): the defaults when the stored copy is absent, page 0 of the current row otherwise. -/
def Ctl.beginReload (c : Ctl) (req : Request) : Ctl :=
  match c.conf.stored with
  | none => c.completeReload req defaultSettings 0
  | some s => c.askRead s.row.index 0 .readImage

/-- A COMMIT whose re-checks pass executes: FULL when it was due (R114), its write otherwise. -/
def Ctl.beginCommit (c : Ctl) (req : Request) (full : Bool) : Ctl :=
  match c.submitted req.port with
  | some k =>
    if full then c.refuse req .full else c.startWrite (c.commitHeader req.port k) (k.data.take k.declared)
  | none => c

/-- A DELETE whose re-checks pass executes. -/
def Ctl.beginDelete (c : Ctl) (req : Request) (k : Half) (full : Bool) : Ctl :=
  match c.lookup k with
  | some e => if full then c.refuse req .full else c.startWrite (deleteHeader req.port e) []
  | none => c

/-- A port operation executes from its start (R108): the re-checks, then the command. `full` says FULL was due at the choice. -/
def Ctl.execute (c : Ctl) (req : Request) (full : Bool) : Ctl :=
  match c.recheck req with
  | some st => c.refuse req st
  | none =>
    match req.body with
    | .commit _ => c.beginCommit req full
    | .delete k => c.beginDelete req k full
    | .read k _ _ => c.beginRead k false
    | .freeze k => c.beginRead k full
    | .compact => c.handOn req
    | .setconf a => c.beginSetconf req a
    | .reload => c.beginReload req

/-- Port `p` is served (R107): its front leaves the list and starts, its space wait ends, and the search start becomes the
next port. -/
def Ctl.servePort (c : Ctl) (p : Port) : Ctl :=
  match c.requests p with
  | [] => c
  | req :: rest =>
    let c' : Ctl :=
      { c with
        sched :=
          { c.sched with
            lists := c.sched.lists.set p rest
            waits := c.sched.waits.set p none
            searchStart := nextPort p
            current := .port req .starting } }
    c'.execute req (c.fullDue p req)

/-- The agent's next step starts (R125, R126, R134). -/
def Ctl.startAgent (c : Ctl) : Ctl :=
  let c := c.setCurrent (.agent .starting)
  let c := if c.agent.state = .idle then c.beginPass else c
  match c.agent.state with
  | .scanning row cursor => c.askRead row cursor (.scan [])
  | .erasing row => c.askErase row .tailErase
  | .idle => c.endAgentStep
  | .halted => c.endAgentStep

/-- Moments of choice (R101), one after another while the step chosen completes at its start: each takes a request from a
list, so as many as there are requests, and one more, are enough. -/
def chooseSteps : Nat → Ctl → Ctl
  | 0, c => c
  | n + 1, c =>
    let c := c.judgeWaits
    match c.choose with
    | .nothing => c
    | .agent => c.startAgent
    | .port p =>
      let d := c.servePort p
      if d.sched.current = .none then chooseSteps n d else d

/-- The requests waiting in the ports' lists. -/
def Ctl.requestCount (c : Ctl) : Nat :=
  (c.requests .p0).length + (c.requests .p1).length + (c.requests .p2).length + (c.requests .p3).length

/-- The Scheduler chooses when no step executes (R101). -/
def Ctl.schedule (c : Ctl) : Ctl :=
  if c.sched.current = .none then chooseSteps (c.requestCount + 1) c else c

end Sys2Proof.Machine
end

