-- ==== Sys2Proof/Machine/Steps.lean ====
section
/-! DEFINITION. What the step under way does with the outcome of its array operation (R4): a page read, a page program, a row
erase. -/

namespace Sys2Proof.Machine

/-- How a page program ended (R7). -/
inductive ProgramOutcome where
  | pass | failVerify | failBudget
deriving DecidableEq, Repr

/-- A READ or FREEZE has read every page of its record (R115, R116). -/
def Ctl.recordRead (c : Ctl) (req : Request) (e : DirEntry) (pages : List Page) (full : Bool) : Ctl :=
  match checkRecord e pages with
  | none => c.refuse req .dataErr
  | some h =>
    match req.body with
    | .read _ offset count =>
      c.complete req .ok (wordBytes h.sequence ++ ((recordPayload h pages).drop offset).take count)
    | .freeze _ =>
      if full then c.refuse req .full
      else c.startWrite { h with kind := .frozen, writer := req.port } (recordPayload h pages)
    | .commit _ => c
    | .delete _ => c
    | .compact => c
    | .setconf _ => c
    | .reload => c

/-- A RELOAD has read page 0 of the current row (R173). -/
def Ctl.imageRead (c : Ctl) (req : Request) (data : Page) : Ctl :=
  match parseImage data with
  | some i => if i.generation = c.conf.generation then c.completeReload req i.settings i.generation else c.refuse req .dataErr
  | none => c.refuse req .dataErr

/-- The agent has read the record at the cursor (Table 29): copied, removed as damaged, or dropped. -/
def Ctl.handleRecord (c : Ctl) (h : RecHeader) (pages : List Page) (row cursor : Nat) : Ctl :=
  match c.lookup h.key with
  | some e =>
    if e.row = row ∧ e.page = cursor then
      if h.agrees e && recordComplete h pages then c.placeRecord ⟨h, pages, .agent⟩
      else (c.removeDamaged e).advanceCursor row cursor h.pages
    else c.dropRecord row cursor h.pages
  | none => c.dropRecord row cursor h.pages

/-- The agent has read a page of its SCANNING step (R126). An erased page holds no valid header, so both ends of the walk are
the one case. The remaining pages of a record are read in ascending order (DESIGN CHOICE, notes/assumptions/35.md). -/
def Ctl.scanRead (c : Ctl) (pages : List Page) : Ctl :=
  match c.agent.state with
  | .scanning row cursor =>
    match parseHeader (pages.headD []) cursor with
    | none => c.endWalk row
    | some h =>
      if pages.length < h.pages then c.askRead row (cursor + pages.length) (.scan pages)
      else c.handleRecord h pages row cursor
  | .idle => c
  | .erasing _ => c
  | .halted => c

/-- A page read of the step under way completes with `data`. -/
def Ctl.readEnded (c : Ctl) (data : Page) : Ctl :=
  match c.sched.current with
  | .port req (.readRecord e got full) =>
    let pages := got ++ [data]
    if pages.length < e.pages then c.askRead e.row (e.page + pages.length) (.readRecord e pages full)
    else c.recordRead req e pages full
  | .port req .readImage => c.imageRead req data
  | .agent (.scan got) => c.scanRead (got ++ [data])
  | .port _ (.image .readBack plan asker) =>
    if data = plan.image.page then c.imageWritten plan asker true else c.imageFailed plan asker
  | .agent (.image .readBack plan asker) =>
    if data = plan.image.page then c.imageWritten plan asker true else c.imageFailed plan asker
  | _ => c

/-- A page program that served `act` ends (R23, R35, R168). -/
def Ctl.programEndedFor (c : Ctl) (act : Activity) (o : ProgramOutcome) : Ctl :=
  match act with
  | .openHeader job row left openNo => if o = .pass then c.headOpened job row openNo else c.headerFailed job row left
  | .writing job row first idx => if o = .pass then c.pageWritten job row first idx else c.recordFailed job row
  | .image .program plan asker =>
    if o = .pass then c.imageWritten plan asker false else c.askRead plan.target.index 0 (.image .readBack plan asker)
  | _ => c

/-- A row erase that served `act` ends (R35, R134, R168). -/
def Ctl.eraseEndedFor (c : Ctl) (act : Activity) (passed : Bool) : Ctl :=
  match act with
  | .openErase job row left => c.openErased job row left passed
  | .tailErase => (match c.agent.state with | .erasing row => c.tailErased row passed | _ => c)
  | .image .erase plan asker => if passed then c.programImage plan asker else c.imageFailed plan asker
  | _ => c

/-- The activity of the step under way. -/
def CurrentStep.activity : CurrentStep → Option Activity
  | .none => Option.none
  | .port _ act => some act
  | .agent act => some act

/-- A page program of the step under way ends. -/
def Ctl.programEnded (c : Ctl) (o : ProgramOutcome) : Ctl :=
  match c.sched.current.activity with
  | some act => c.programEndedFor act o
  | none => c

/-- A row erase of the step under way ends. -/
def Ctl.eraseEnded (c : Ctl) (passed : Bool) : Ctl :=
  match c.sched.current.activity with
  | some act => c.eraseEndedFor act passed
  | none => c

end Sys2Proof.Machine
end

