-- ==== Sys2Proof/Machine/MountSequence.lean ====
section
/-! DEFINITION. The Mount Sequencer (chapter 11): image selection, survey, ring, scan, resolution, directory build, counts and
counters, and the end of mount. -/

namespace Sys2Proof.Machine

/-- Mount asks for a page read and waits for it in a phase (R177). -/
def Ctl.mountAsk (c : Ctl) (row page : Nat) (phase : MountPhase) : Ctl :=
  { c with media := { c.media with op := .reading row page }, mount := { c.mount with phase := phase } }

/-! ### Phase 1: image selection -/

/-- The image mount chooses (R178): the higher generation, S0 when they are equal, the only valid one, or none. -/
def chooseImage (s0 s1 : Option ImageFields) : Option StoredCopy :=
  match s0, s1 with
  | some a, some b => if a.generation.toNat < b.generation.toNat then some ⟨.s1, b⟩ else some ⟨.s0, a⟩
  | some a, none => some ⟨.s0, a⟩
  | none, some b => some ⟨.s1, b⟩
  | none, none => none

/-- The Configuration Unit as mount loads it from its choice (R165). -/
def loadedConf (choice : Option StoredCopy) : ConfUnit :=
  match choice with
  | some s => ⟨some s.image.settings, s.image.retired, some s, false, false⟩
  | none => ⟨some defaultSettings, [], none, false, false⟩

/-- The end of phase 1 (R178): the Configuration Unit is loaded, IMAGE_ABSENT set when no image was chosen, and the enable
mask applied to the ports. -/
def Ctl.loadConf (c : Ctl) (choice : Option StoredCopy) : Ctl :=
  let u := loadedConf choice
  { c with conf := u, mount := { c.mount with imageAbsent := choice.isNone } }.applyEnableMask
    (match u.active with | some s => s.enable | none => 0)

/-! ### Phases 5 to 8 -/

/-- The winning record of each key, keys ascending, from the candidates in ring order (R182): the highest sequence number, and
between equal ones the later in ring order. -/
def resolveKeys (candidates : List Candidate) : List Candidate :=
  candidates.foldl (fun acc x =>
    match acc.find? fun w => w.header.key = x.header.key with
    | some w => if x.header.sequence.toNat < w.header.sequence.toNat then acc else insertBy (fun y => y.header.key.toNat) x acc
    | none => insertBy (fun y => y.header.key.toNat) x acc) []

/-- The entries of the keys whose winner is a VALUE or FROZEN record, keys ascending (R182, R183). -/
def winningEntries (winners : List Candidate) : List DirEntry :=
  winners.filterMap fun w => w.header.kind.entryKind.map fun k => entryOf w.header k w.row w.page

/-- The live pages of a row: those of the entries' records there (R184). -/
def livePages (dir : List DirEntry) (row : Nat) : Nat := ((dir.filter fun e => e.row = row).map fun e => e.pages).sum

/-- The row table mount sets (R179, R184). -/
def mountTable (retired : List Byte) (ring : List (Nat × Word)) (dir : List DirEntry) : List RowEntry :=
  (List.range Config.rowCount).map fun r =>
    let state : RowState :=
      if r < 2 then .system
      else if retired.any fun b => b.toNat = r then .retired
      else
        match ring.find? fun x => x.1 = r with
        | some x => .closed x.2 (livePages dir r) (15 - livePages dir r)
        | none => .freeStale
    ⟨state, false⟩

/-- The highest of a list of numbers, if there is one. -/
def highest : List Word → Option Word
  | [] => none
  | w :: t =>
    match highest t with
    | some m => some (if m.toNat < w.toNat then w else m)
    | none => some w

/-- A counter set above the highest number found, or to 1, and at most to `limit` (R185). -/
def counterAbove (limit : Word) (found : List Word) : Word :=
  match highest found with
  | some m => if limit.toNat ≤ m.toNat + 1 then limit else m + 1
  | none => 1

/-- The ring's tail holds at least one live page (R186). -/
def RowMgr.tailLive (m : RowMgr) : Bool :=
  match m.ring with
  | [] => false
  | r :: _ => match m.state r with
    | .closed _ live _ => 0 < live
    | _ => false

/-- The mode and reason at the end of mount (R186). -/
def RowMgr.mountMode (m : RowMgr) : Mode × Reason :=
  if m.seqCounter = Config.sequenceLimit then (.readOnly, .sequence)
  else if m.free = 0 && m.tailLive then (.readOnly, .media)
  else (.ready, .none)

/-- The Row Manager as mount sets it (R180, R184, R185). -/
def mountRows (retired : List Byte) (ring : List (Nat × Word)) (dir : List DirEntry) (sequences : List Word) : RowMgr where
  table := mountTable retired ring dir
  ring := ring.map (·.1)
  seqCounter := counterAbove Config.sequenceLimit sequences
  openCounter := counterAbove Config.openLimit (ring.map (·.2))
  openPtr := (ring.map (·.1)).getLast?.getD 255

/-- Phases 5 to 8 (R182 to R186), run in the event that ends the scan. -/
def Ctl.finishMount (c : Ctl) (ring : List (Nat × Word)) (candidates : List Candidate) (fragments : List Word) : Ctl :=
  let entries := winningEntries (resolveKeys candidates)
  let dir := entries.take Config.directoryLimit
  let rows := mountRows c.conf.retired ring dir (candidates.map (fun x => x.header.sequence) ++ fragments)
  { c with
    dir := dir
    rows := rows
    sched := { c.sched with mode := rows.mountMode.1, reason := rows.mountMode.2 }
    mount := { c.mount with phase := .done, truncated := Config.directoryLimit < entries.length } }

/-! ### Phase 4: scan -/

/-- The scan goes on to the next ring row, or mount goes on to its end (R181). -/
def Ctl.scanNextRow (c : Ctl) (st : ScanState) : Ctl :=
  match st.todo with
  | r :: t => c.mountAsk r 1 (.scan { st with todo := t, row := r, cursor := 1, got := [] })
  | [] => c.finishMount st.ring st.candidates st.fragments

/-- A record of the scan is noted (R181): a candidate when complete, its sequence number alone when a fragment. -/
def ScanState.note (st : ScanState) (h : RecHeader) (pages : List Page) : ScanState :=
  if recordComplete h pages then { st with candidates := st.candidates ++ [⟨h, st.row, st.cursor⟩] }
  else { st with fragments := st.fragments ++ [h.sequence] }

/-- A page of the scan has been read (R25, R181). The remaining pages of a record are read in ascending order (DESIGN CHOICE,
notes/assumptions/35.md). -/
def Ctl.scanMount (c : Ctl) (st : ScanState) (data : Page) : Ctl :=
  let pages := st.got ++ [data]
  match parseHeader (pages.headD []) st.cursor with
  | none => c.scanNextRow st
  | some h =>
    if pages.length < h.pages then c.mountAsk st.row (st.cursor + pages.length) (.scan { st with got := pages })
    else
      let st := st.note h pages
      if 16 ≤ st.cursor + h.pages then c.scanNextRow st
      else c.mountAsk st.row (st.cursor + h.pages) (.scan { st with cursor := st.cursor + h.pages, got := [] })

/-! ### Phases 2 and 3: survey and ring -/

/-- The ring order of rows with their open numbers (R180): open number ascending, then row index. -/
def ringOrder (found : List (Nat × Word)) : List (Nat × Word) :=
  found.foldl (fun l x => insertBy (fun y => y.2.toNat * 256 + y.1) x l) []

/-- The scan begins on the tail, or mount goes on to its end when the ring is empty (R180, R181). -/
def Ctl.beginScan (c : Ctl) (found : List (Nat × Word)) : Ctl :=
  let ring := ringOrder found
  c.scanNextRow ⟨ring, ring.map (·.1), 0, 1, [], [], []⟩

/-- The first ring-eligible row from `row` on that is not retired (R179). The survey reads page 0 of the rows in ascending row
index, an order R179 leaves open (DESIGN CHOICE, notes/assumptions/28.md). -/
def nextSurveyRow (retired : List Byte) (row : Nat) : Option Nat :=
  (List.range Config.rowCount).find? fun r => 2 ≤ r && row ≤ r && !retired.any fun b => b.toNat = r

/-- The survey goes on from `row`, or the ring is built (R179). -/
def Ctl.surveyFrom (c : Ctl) (row : Nat) (found : List (Nat × Word)) : Ctl :=
  match nextSurveyRow c.conf.retired row with
  | some r => c.mountAsk r 0 (.survey r found)
  | none => c.beginScan found

/-- Page 0 of a ring-eligible row has been read (R179): a valid row header makes the row a ring member. -/
def Ctl.surveyRead (c : Ctl) (row : Nat) (found : List (Nat × Word)) (data : Page) : Ctl :=
  c.surveyFrom (row + 1) (match parseRowHeader data with | some n => found ++ [(row, n)] | none => found)

/-- A page read of mount completes with `data` (R177). Image selection reads page 0 of S0 first and that of S1 next: R178 names the
two and no order (DESIGN CHOICE, notes/assumptions/32.md). -/
def Ctl.mountRead (c : Ctl) (data : Page) : Ctl :=
  match c.mount.phase with
  | .start => c
  | .image0 => c.mountAsk 1 0 (.image1 (parseImage data))
  | .image1 first => (c.loadConf (chooseImage first (parseImage data))).surveyFrom 2 []
  | .survey row found => c.surveyRead row found data
  | .scan st => c.scanMount st data
  | .done => c

/-- Mount begins image selection with its first page read (R177), that of S0 (DESIGN CHOICE, notes/assumptions/32.md). -/
def Ctl.beginMount (c : Ctl) : Ctl := c.mountAsk 0 0 .image0

end Sys2Proof.Machine
end

