-- ==== Sys2Proof/Machine/PortLink.lean ====
section
/-! DEFINITION. The Port Unit's shared operations (chapter 4): the arrival of a command and its credit, the answer during
MOUNTING, the frame's start, discard and end, and the bytes on SDOn; and how a meaning ends. -/

namespace Sys2Proof.Machine

/-- A command has its effect: everything but the array becomes `c`, and every ATNn# follows its condition (R71). -/
def State.after (s : State) (c : Ctl) : Host.Outcome State Fault Refusal := .next { s with ctl := c.settle }

/-- The frame of a command can complete on port `p`: the receiver is RECEIVING and the request bytes it holds begin the
frame's. The arrival command stands for the completion of the bytes that remain (notes/assumptions/5.md). -/
def Ctl.frameReady (c : Ctl) (p : Port) (op tag : Byte) (args : List Byte) : Bool :=
  match (c.port p).rx with
  | .receiving bytes => args.length ≤ Config.argumentLimit && bytes.isPrefixOf (frameBytes op tag args)
  | .idle => false
  | .discarding => false
  | .readout _ _ => false
  | .trailing => false

/-- A command arrives with the effect `f`, or nothing happens because no such frame is being received. -/
def State.arrival (s : State) (p : Port) (op tag : Byte) (args : List Byte) (f : Ctl → Ctl) :
    Host.Outcome State Fault Refusal :=
  if s.ctl.frameReady p op tag args then s.after (f s.ctl) else .next s

/-- The receiver enters TRAILING and SDOn presents 0xFF until the select rises (R59, R62). -/
def Ctl.trail (c : Ctl) (p : Port) : Ctl := c.onPort p fun u => { u with rx := .trailing, sdo := some 0xFF }

/-- A frame is discarded at the completion of a byte (R61): FRM is set, the receiver enters DISCARDING, SDOn presents 0xFF. -/
def Ctl.discardFrame (c : Ctl) (p : Port) : Ctl :=
  c.onPort p fun u => { u with rx := .discarding, sdo := some 0xFF, frm := true }

/-- A command that needs a credit is taken (R64): accepted, with one credit more in use, and handled by `body`; or dropped at an
outstanding count of 4, with OVR set and no other effect. -/
def Ctl.accept (c : Ctl) (p : Port) (body : Ctl → Ctl) : Ctl :=
  let c := c.trail p
  if (c.port p).outstanding < Config.creditLimit then
    body (c.onPort p fun u => { u with outstanding := u.outstanding + 1 })
  else c.setOvr p

/-- A command is answered at its arrival (R66). -/
def Ctl.answer (c : Ctl) (p : Port) (cmd : Cmd) (tag : Byte) (st : Status) (result : List Byte) : Ctl :=
  c.enter p ⟨st, tag, cmd.code, result⟩

/-- The arrival of a command that is answered NOT_READY during MOUNTING and handled by `body` otherwise (R66, R75). -/
def Ctl.arrive (c : Ctl) (p : Port) (cmd : Cmd) (tag : Byte) (body : Ctl → Ctl) : Ctl :=
  c.accept p fun c =>
    if c.sched.mode = .mounting then c.answer p cmd tag .notReady (refusedResult cmd) else body c

/-- The readout of a port begins: the receiver enters READOUT and SDOn presents its first byte (R62, R68). -/
def Ctl.beginReadout (c : Ctl) (p : Port) (kind : ReadoutKind) (bytes : List Byte) : Ctl :=
  c.onPort p fun u => { u with rx := .readout kind bytes, sdo := some (bytes.headD 0xFF) }

/-- The Port Units take frames: power is in range and RESET# is high (R81). -/
def Ctl.takesFrames (c : Ctl) : Bool := c.powered && !c.inReset

/-- SELn# falls (R59): an idle receiver of an enabled port starts a frame and latches the status byte; otherwise the line alone
changes. -/
def Ctl.selectFalls (c : Ctl) (p : Port) : Ctl :=
  if c.takesFrames && (c.port p).enabled && (c.port p).rx = .idle then
    let b := c.statusByte p
    c.onPort p fun u => { u with selLow := true, rx := .receiving [], statusLatch := some b, sdo := some b }
  else c.onPort p fun u => { u with selLow := true }

/-- SELn# rises (Table 14): a frame still being received is discarded with FRM set, a readout is left incomplete, and the
receiver is IDLE with SDOn at high impedance. -/
def Ctl.selectRises (c : Ctl) (p : Port) : Ctl :=
  let c :=
    match (c.port p).rx with
    | .receiving _ => c.setFrm p
    | .readout .drain _ => c.onNotif p NotifUnit.abandonDrain
    | .readout (.collect _) _ => c
    | .idle => c
    | .discarding => c
    | .trailing => c
  c.onPort p fun u => { u with selLow := false, rx := .idle, statusLatch := none, sdo := none }

/-- A COLLECT readout completes (R69). -/
def Ctl.collectDone (c : Ctl) (p : Port) (response : Bool) : Ctl :=
  (c.onPort p fun u =>
    { u with
      queue := if response then u.queue.tail else u.queue
      outstanding := if response then u.outstanding - 1 else u.outstanding
      ovr := false
      frm := false }).trail p

/-- A DRAIN readout completes (R162). -/
def Ctl.drainDone (c : Ctl) (p : Port) : Ctl := (c.onNotif p NotifUnit.finishDrain).trail p

/-- A readout completes. -/
def Ctl.readoutDone (c : Ctl) (p : Port) : ReadoutKind → Ctl
  | .collect response => c.collectDone p response
  | .drain => c.drainDone p

/-- A byte of a readout completes (R58, R62): the next one is presented, or the readout is complete. -/
def Ctl.readoutByte (c : Ctl) (p : Port) (kind : ReadoutKind) : List Byte → Ctl
  | _ :: b :: t => c.onPort p fun u => { u with rx := .readout kind (b :: t), sdo := some b }
  | _ => c.readoutDone p kind

end Sys2Proof.Machine
end

