-- ==== Sys2Proof/Machine/Lookup.lean ====
section
/-! DEFINITION. The meanings of IDENT (R73, R74), QUERY (R54) and LIST (R55). -/

namespace Sys2Proof.Machine

/-- The admin port as IDENT reports it: 0xFF until mount has loaded a configuration (R74). -/
def Ctl.adminByte (c : Ctl) : Byte :=
  match c.conf.active with
  | some s => s.admin
  | none => Config.nonePort

/-- IDENT's 18-byte result (Table 51). F, the usable rows, the entries in use and the sequence counter are 0 until mount has
set them, because their blocks hold nothing before (R41, R56, R74). -/
def Ctl.identResult (c : Ctl) (p : Port) : List Byte :=
  halfBytes Config.vendorCode ++ halfBytes Config.partCode
    ++ [Config.revision, c.sched.mode.code, (if c.sched.mode = .readOnly then c.sched.reason.code else 0), c.mount.flags,
      portByte p, c.adminByte, natByte c.rows.usable, natByte c.rows.free]
    ++ natHalf c.dir.length ++ wordBytes c.rows.seqCounter

/-- An IDENT arrives (R73): answered in every mode. -/
def Ctl.arriveIdent (c : Ctl) (p : Port) (tag : Byte) (args : List Byte) : Ctl :=
  c.accept p fun c =>
    if args.length = 0 then c.answer p .ident tag .ok (c.identResult p) else c.answer p .ident tag .badArg []

/-- A QUERY arrives (R54). -/
def Ctl.arriveQuery (c : Ctl) (p : Port) (tag : Byte) (args : List Byte) : Ctl :=
  c.arrive p .query tag fun c =>
    match keyArg args with
    | some k => c.answer p .query tag .ok (c.queryResult k)
    | none => c.answer p .query tag .badArg []

/-- A LIST arrives (R55). -/
def Ctl.arriveList (c : Ctl) (p : Port) (tag : Byte) (args : List Byte) : Ctl :=
  c.arrive p .list tag fun c =>
    match listArg args with
    | some start => c.answer p .list tag .ok (c.listResult start)
    | none => c.answer p .list tag .badArg []

/-- IDENT. -/
def execIdent (p : Port) (tag : Byte) (args : List Byte) (s : State) : Host.Outcome State Fault Refusal :=
  s.arrival p Cmd.ident.code tag args fun c => c.arriveIdent p tag args

/-- QUERY. -/
def execQuery (p : Port) (tag : Byte) (args : List Byte) (s : State) : Host.Outcome State Fault Refusal :=
  s.arrival p Cmd.query.code tag args fun c => c.arriveQuery p tag args

/-- LIST. -/
def execList (p : Port) (tag : Byte) (args : List Byte) (s : State) : Host.Outcome State Fault Refusal :=
  s.arrival p Cmd.list.code tag args fun c => c.arriveList p tag args

end Sys2Proof.Machine
end

