-- ==== Sys2Proof/Machine/Composing.lean ====
section
/-! DEFINITION. The meanings of OPEN (R84), FILL (R85) and ABANDON (R86, R87). -/

namespace Sys2Proof.Machine

/-- The fill level of a staging buffer (R82). -/
def Staging.fill : Staging → Nat
  | .empty => 0
  | .composing k => k.data.length
  | .submitted k => k.data.length

/-- The result of OPEN, FILL and ABANDON: the fill level after the command (Table 22). -/
def Ctl.fillResult (c : Ctl) (p : Port) : List Byte := natHalf (c.port p).staging.fill

/-- The staging buffer of port `p` replaced. -/
def Ctl.setStaging (c : Ctl) (p : Port) (st : Staging) : Ctl := c.onPort p fun u => { u with staging := st }

/-- OPEN, FILL or ABANDON is answered with the fill level as it now stands. -/
def Ctl.answerFill (c : Ctl) (p : Port) (cmd : Cmd) (tag : Byte) (st : Status) : Ctl :=
  c.answer p cmd tag st (c.fillResult p)

/-- An OPEN arrives (R84). -/
def Ctl.arriveOpen (c : Ctl) (p : Port) (tag : Byte) (args : List Byte) : Ctl :=
  c.arrive p .opn tag fun c =>
    match openArgs args with
    | none => c.answerFill p .opn tag .badArg
    | some k =>
      match (c.port p).staging with
      | .submitted _ => c.answerFill p .opn tag .busy
      | .empty => (c.setStaging p (.composing k)).answerFill p .opn tag .ok
      | .composing _ => (c.setStaging p (.composing k)).answerFill p .opn tag .ok

/-- A FILL arrives (R85). -/
def Ctl.arriveFill (c : Ctl) (p : Port) (tag : Byte) (args : List Byte) : Ctl :=
  c.arrive p .fill tag fun c =>
    match fillArgs args with
    | none => c.answerFill p .fill tag .badArg
    | some (offset, data) =>
      match (c.port p).staging with
      | .empty => c.answerFill p .fill tag .noStage
      | .submitted _ => c.answerFill p .fill tag .busy
      | .composing k =>
        if offset ≠ k.data.length || k.declared < offset + data.length then c.answerFill p .fill tag .badArg
        else (c.setStaging p (.composing { k with data := k.data ++ data })).answerFill p .fill tag .ok

/-- The request of port `p`'s COMMIT that has not started. -/
def Ctl.waitingCommit (c : Ctl) (p : Port) : Option Request := (c.requests p).find? fun r => r.body.cmd = .commit

/-- A request of RELEASE_ON_DONE (R92). -/
def ReqBody.releases : ReqBody → Bool
  | .commit b => b
  | _ => false

/-- Port `p`'s COMMIT leaves the list, from whatever position; a space wait it had at the front ends (R87, R104). -/
def Ctl.removeCommit (c : Ctl) (p : Port) : Ctl :=
  let d := c.setRequests p ((c.requests p).filter fun r => r.body.cmd ≠ .commit)
  match c.requests p with
  | r :: _ => if r.body.cmd = .commit then d.setWait p none else d
  | [] => d

/-- The withdrawal of a COMMIT not yet started, but for ABANDON's own response (R87, steps 1 to 4). -/
def Ctl.withdrawCommit (c : Ctl) (p : Port) : Ctl :=
  match c.waitingCommit p with
  | some r =>
    (((c.removeCommit p).releaseOnDone p r.body.releases).emptyStaging p).enter p ⟨.cancelled, r.tag, Cmd.commit.code, []⟩
  | none => c.emptyStaging p

/-- An ABANDON arrives (R86). -/
def Ctl.arriveAbandon (c : Ctl) (p : Port) (tag : Byte) (args : List Byte) : Ctl :=
  c.arrive p .abandon tag fun c =>
    if args.length ≠ 0 then c.answerFill p .abandon tag .badArg
    else
      match (c.port p).staging with
      | .empty => c.answerFill p .abandon tag .ok
      | .composing _ => (c.setStaging p .empty).answerFill p .abandon tag .ok
      | .submitted _ =>
        if c.commitExecuting p then c.answerFill p .abandon tag .busy
        else (c.withdrawCommit p).answerFill p .abandon tag .ok

/-- OPEN. -/
def execOpen (p : Port) (tag : Byte) (args : List Byte) (s : State) : Host.Outcome State Fault Refusal :=
  s.arrival p Cmd.opn.code tag args fun c => c.arriveOpen p tag args

/-- FILL. -/
def execFill (p : Port) (tag : Byte) (args : List Byte) (s : State) : Host.Outcome State Fault Refusal :=
  s.arrival p Cmd.fill.code tag args fun c => c.arriveFill p tag args

/-- ABANDON. -/
def execAbandon (p : Port) (tag : Byte) (args : List Byte) (s : State) : Host.Outcome State Fault Refusal :=
  s.arrival p Cmd.abandon.code tag args fun c => c.arriveAbandon p tag args

end Sys2Proof.Machine
end

