-- ==== Sys2Proof/Machine/ArrayCommands.lean ====
section
/-! DEFINITION. The meanings of the array commands' arrivals (R90 to R98): COMMIT, DELETE, READ, FREEZE, COMPACT, SETCONF, RELOAD. -/

namespace Sys2Proof.Machine

/-- A command that passed its checks joins the end of its port's list (R90, R91), a moment of choice when no step executes
(R101). -/
def Ctl.submit (c : Ctl) (p : Port) (tag : Byte) (body : ReqBody) : Ctl :=
  (c.setRequests p (c.requests p ++ [⟨p, tag, body, false⟩])).schedule

/-- The end of an array command's arrival (R90): the first failure is the answer, otherwise the command joins its list. -/
def Ctl.judge (c : Ctl) (p : Port) (tag : Byte) (body : ReqBody) (refusal : Option Status) : Ctl :=
  match refusal with
  | some st => c.answer p body.cmd tag st (refusedResult body.cmd)
  | none => c.submit p tag body

/-- COMMIT's ordered checks on a composition (R92, 3 to 6). -/
def Ctl.commitChecks (c : Ctl) (p : Port) (k : Composition) : Option Status :=
  firstRefusal
    [refuseIf (k.data.length < k.declared) .short, c.writeRefusal p k.key, refuseIf (c.heldAgainst p k.key) .held]

/-- COMMIT's ordered checks (R92). -/
def Ctl.commitRefusal (c : Ctl) (p : Port) : Option Status :=
  match (c.port p).staging with
  | .empty => firstRefusal [c.modeRefusal, some .noStage]
  | .submitted _ => firstRefusal [c.modeRefusal, some .busy]
  | .composing k => firstRefusal [c.modeRefusal, c.commitChecks p k]

/-- The staging buffer a COMMIT takes: COMPOSING becomes SUBMITTED (R92). -/
def Staging.take : Staging → Staging
  | .composing k => .submitted k
  | .submitted k => .submitted k
  | .empty => .empty

/-- A COMMIT arrives (R92). -/
def Ctl.arriveCommit (c : Ctl) (p : Port) (tag : Byte) (args : List Byte) : Ctl :=
  c.arrive p .commit tag fun c =>
    match commitArg args with
    | none => c.answer p .commit tag .badArg []
    | some release =>
      match c.commitRefusal p with
      | some st => c.answer p .commit tag st []
      | none => (c.setStaging p (c.port p).staging.take).submit p tag (.commit release)

/-- A DELETE arrives (R93). -/
def Ctl.arriveDelete (c : Ctl) (p : Port) (tag : Byte) (args : List Byte) : Ctl :=
  c.arrive p .delete tag fun c =>
    match keyArg args with
    | none => c.answer p .delete tag .badArg []
    | some k =>
      c.judge p tag (.delete k)
        (firstRefusal [c.modeRefusal, c.entryRefusal k, c.writeRefusal p k, refuseIf (c.heldAgainst p k) .held])

/-- A READ arrives (R94). -/
def Ctl.arriveRead (c : Ctl) (p : Port) (tag : Byte) (args : List Byte) : Ctl :=
  c.arrive p .read tag fun c =>
    match readArgs args with
    | none => c.answer p .read tag .badArg []
    | some (k, offset, count) =>
      c.judge p tag (.read k offset count) (firstRefusal [c.readRefusal p k, c.boundsRefusal k offset count])

/-- A FREEZE arrives (R95). -/
def Ctl.arriveFreeze (c : Ctl) (p : Port) (tag : Byte) (args : List Byte) : Ctl :=
  c.arrive p .freeze tag fun c =>
    match keyArg args with
    | none => c.answer p .freeze tag .badArg []
    | some k =>
      c.judge p tag (.freeze k)
        (firstRefusal [c.modeRefusal, c.adminRefusal p, c.entryRefusal k, refuseIf (c.isFrozen k) .frozen])

/-- A COMPACT arrives (R96). -/
def Ctl.arriveCompact (c : Ctl) (p : Port) (tag : Byte) (args : List Byte) : Ctl :=
  c.arrive p .compact tag fun c =>
    if args.length ≠ 0 then c.answer p .compact tag .badArg (compactResult 0 0 0)
    else c.judge p tag .compact (firstRefusal [c.modeRefusal, c.adminRefusal p])

/-- A SETCONF arrives (R97). -/
def Ctl.arriveSetconf (c : Ctl) (p : Port) (tag : Byte) (args : List Byte) : Ctl :=
  c.arrive p .setconf tag fun c =>
    match confArgs args with
    | none => c.answer p .setconf tag .badArg []
    | some a =>
      c.judge p tag (.setconf a)
        (firstRefusal
          [c.modeRefusal, c.adminRefusal p, refuseIf (!a.inRange) .badArg, refuseIf (c.conf.lock = 1) .locked])

/-- A RELOAD arrives (R98). -/
def Ctl.arriveReload (c : Ctl) (p : Port) (tag : Byte) (args : List Byte) : Ctl :=
  c.arrive p .reload tag fun c =>
    if args.length ≠ 0 then c.answer p .reload tag .badArg [] else c.judge p tag .reload (c.adminRefusal p)

/-- COMMIT. -/
def execCommit (p : Port) (tag : Byte) (args : List Byte) (s : State) : Host.Outcome State Fault Refusal :=
  s.arrival p Cmd.commit.code tag args fun c => c.arriveCommit p tag args

/-- DELETE. -/
def execDelete (p : Port) (tag : Byte) (args : List Byte) (s : State) : Host.Outcome State Fault Refusal :=
  s.arrival p Cmd.delete.code tag args fun c => c.arriveDelete p tag args

/-- READ. -/
def execRead (p : Port) (tag : Byte) (args : List Byte) (s : State) : Host.Outcome State Fault Refusal :=
  s.arrival p Cmd.read.code tag args fun c => c.arriveRead p tag args

/-- FREEZE. -/
def execFreeze (p : Port) (tag : Byte) (args : List Byte) (s : State) : Host.Outcome State Fault Refusal :=
  s.arrival p Cmd.freeze.code tag args fun c => c.arriveFreeze p tag args

/-- COMPACT. -/
def execCompact (p : Port) (tag : Byte) (args : List Byte) (s : State) : Host.Outcome State Fault Refusal :=
  s.arrival p Cmd.compact.code tag args fun c => c.arriveCompact p tag args

/-- SETCONF. -/
def execSetconf (p : Port) (tag : Byte) (args : List Byte) (s : State) : Host.Outcome State Fault Refusal :=
  s.arrival p Cmd.setconf.code tag args fun c => c.arriveSetconf p tag args

/-- RELOAD. -/
def execReload (p : Port) (tag : Byte) (args : List Byte) (s : State) : Host.Outcome State Fault Refusal :=
  s.arrival p Cmd.reload.code tag args fun c => c.arriveReload p tag args

end Sys2Proof.Machine
end

