-- ==== Sys2Proof/Machine/Reservation.lean ====
section
/-! DEFINITION. The meanings of CLAIM (R141 to R143), RELEASE (R145) and the two timer expiries (R146, R147). -/

namespace Sys2Proof.Machine

/-- A CLAIM's times are in range under the active configuration (R141). -/
def Ctl.claimTimesOk (c : Ctl) (hold wait : Half) : Bool :=
  match c.conf.active with
  | some s => hold ≠ 0 && hold.toNat ≤ s.holdMax.toNat && wait.toNat ≤ s.waitMax.toNat
  | none => false

/-- Port `p` is on a claim's waiter list. -/
def ClaimEntry.waits (e : ClaimEntry) (p : Port) : Bool := e.waiters.any fun w => w.port = p

/-- Cases 5 to 9 of Table 31, on a key that has a claim entry. -/
def Ctl.claimHeld (c : Ctl) (p : Port) (tag : Byte) (e : ClaimEntry) (hold wait : Half) : Ctl :=
  if e.holder = p then
    (c.setClaim e.key (some { e with hold := hold })).answer p .claim tag .ok (claimResult outcomeRenewed hold)
  else if wait = 0 then c.answer p .claim tag .held []
  else if e.waits p then c.answer p .claim tag .busy []
  else if Config.waiterLimit ≤ e.waiters.length then c.answer p .claim tag .held []
  else c.setClaim e.key (some { e with waiters := e.waiters ++ [⟨p, tag, hold, wait⟩] })

/-- The handling of a CLAIM in range (Table 31). -/
def Ctl.handleClaim (c : Ctl) (p : Port) (tag : Byte) (k hold wait : Half) : Ctl :=
  match c.writeRefusal p k with
  | some st => c.answer p .claim tag st []
  | none =>
    match c.claimOf k with
    | none =>
      if Config.claimLimit ≤ c.claims.length then c.answer p .claim tag .tableFull []
      else (c.setClaim k (some ⟨k, p, hold, []⟩)).answer p .claim tag .ok (claimResult outcomeNew hold)
    | some e => c.claimHeld p tag e hold wait

/-- A CLAIM arrives (R141, R142). -/
def Ctl.arriveClaim (c : Ctl) (p : Port) (tag : Byte) (args : List Byte) : Ctl :=
  c.arrive p .claim tag fun c =>
    match claimArgs args with
    | none => c.answer p .claim tag .badArg []
    | some (k, hold, wait) =>
      if c.claimTimesOk hold wait then c.handleClaim p tag k hold wait else c.answer p .claim tag .badArg []

/-- A waiter entry of port `p` leaves a key's list and its CLAIM completes with a status (R145, R147). -/
def Ctl.endWait (c : Ctl) (e : ClaimEntry) (p : Port) (st : Status) : Ctl :=
  (c.setClaim e.key (some (e.withoutWaiter p))).enterAll
    ((e.waiters.filter fun w => w.port = p).map fun w => (p, w.response st []))

/-- A RELEASE arrives (R145). -/
def Ctl.arriveRelease (c : Ctl) (p : Port) (tag : Byte) (args : List Byte) : Ctl :=
  c.arrive p .release tag fun c =>
    match keyArg args with
    | none => c.answer p .release tag .badArg []
    | some k =>
      match c.claimOf k with
      | none => c.answer p .release tag .notHeld []
      | some e =>
        if e.holder = p then (c.endHold k).answer p .release tag .ok [outcomeHoldReleased]
        else if e.waits p then (c.endWait e p .cancelled).answer p .release tag .ok [outcomeWaitWithdrawn]
        else c.answer p .release tag .notHeld []

/-- CLAIM. -/
def execClaim (p : Port) (tag : Byte) (args : List Byte) (s : State) : Host.Outcome State Fault Refusal :=
  s.arrival p Cmd.claim.code tag args fun c => c.arriveClaim p tag args

/-- RELEASE. -/
def execRelease (p : Port) (tag : Byte) (args : List Byte) (s : State) : Host.Outcome State Fault Refusal :=
  s.arrival p Cmd.release.code tag args fun c => c.arriveRelease p tag args

/-- HOLD_TIMER_EXPIRY (R146): the hold ends with its promotion and no response to the former holder. On a key with no claim
entry no timer runs, and nothing happens. -/
def execHoldTimerExpiry (k : Half) (s : State) : Host.Outcome State Fault Refusal :=
  match s.ctl.claimOf k with
  | some _ => s.after (s.ctl.endHold k)
  | none => .next s

/-- WAIT_TIMER_EXPIRY (R147): the waiter entry is removed and its CLAIM completes TIMEOUT. Where the port does not wait on the
key no timer runs, and nothing happens. -/
def execWaitTimerExpiry (k : Half) (p : Port) (s : State) : Host.Outcome State Fault Refusal :=
  match s.ctl.claimOf k with
  | some e => if e.waits p then s.after (s.ctl.endWait e p .timeout) else .next s
  | none => .next s

end Sys2Proof.Machine
end

