-- ==== Sys2Proof/Machine/Watching.lean ====
section
/-! DEFINITION. The meanings of WATCH (R155), UNWATCH (R156), DRAIN (R160) and the completion of its readout (R162). -/

namespace Sys2Proof.Machine

/-- A key is added to a watch set (R155). -/
def NotifUnit.addWatch (u : NotifUnit) (k : Half) : NotifUnit := { u with watch := insertBy BitVec.toNat k u.watch }

/-- A key is removed from a watch set (R156). -/
def NotifUnit.dropWatch (u : NotifUnit) (k : Half) : NotifUnit := { u with watch := u.watch.filter fun x => x ≠ k }

/-- The number of keys in port `p`'s watch set, as a result byte. -/
def Ctl.watchCount (c : Ctl) (p : Port) : Byte := natByte (c.notif p).watch.length

/-- A WATCH arrives (R155). -/
def Ctl.arriveWatch (c : Ctl) (p : Port) (tag : Byte) (args : List Byte) : Ctl :=
  c.arrive p .watch tag fun c =>
    match keyArg args with
    | none => c.answer p .watch tag .badArg []
    | some k =>
      if (c.notif p).watch.contains k then c.answer p .watch tag .ok [c.watchCount p]
      else if (c.notif p).watch.length < Config.watchLimit then
        let c := c.onNotif p fun u => u.addWatch k
        c.answer p .watch tag .ok [c.watchCount p]
      else c.answer p .watch tag .tableFull [c.watchCount p]

/-- An UNWATCH arrives (R156). -/
def Ctl.arriveUnwatch (c : Ctl) (p : Port) (tag : Byte) (args : List Byte) : Ctl :=
  c.arrive p .unwatch tag fun c =>
    match keyArg args with
    | none => c.answer p .unwatch tag .badArg []
    | some k =>
      let present := (c.notif p).watch.contains k
      let c := c.onNotif p fun u => u.dropWatch k
      c.answer p .unwatch tag .ok [boolByte present, c.watchCount p]

/-- A DRAIN arrives (R160): its readout is formed, its selection recorded, and the readout begins. -/
def Ctl.arriveDrain (c : Ctl) (p : Port) : Ctl :=
  (c.beginReadout p .drain (c.notif p).drainBytes).onNotif p NotifUnit.select

/-- WATCH. -/
def execWatch (p : Port) (tag : Byte) (args : List Byte) (s : State) : Host.Outcome State Fault Refusal :=
  s.arrival p Cmd.watch.code tag args fun c => c.arriveWatch p tag args

/-- UNWATCH. -/
def execUnwatch (p : Port) (tag : Byte) (args : List Byte) (s : State) : Host.Outcome State Fault Refusal :=
  s.arrival p Cmd.unwatch.code tag args fun c => c.arriveUnwatch p tag args

/-- DRAIN: its arguments are ignored (R64). -/
def execDrain (p : Port) (tag : Byte) (args : List Byte) (s : State) : Host.Outcome State Fault Refusal :=
  s.arrival p Cmd.drain.code tag args fun c => c.arriveDrain p

/-- DRAIN_READOUT_COMPLETE (R162). Where no DRAIN readout is under way on the port, nothing happens. -/
def execDrainReadoutComplete (p : Port) (s : State) : Host.Outcome State Fault Refusal :=
  match (s.ctl.port p).rx with
  | .readout .drain _ => s.after (s.ctl.drainDone p)
  | .readout (.collect _) _ => .next s
  | .idle => .next s
  | .receiving _ => .next s
  | .discarding => .next s
  | .trailing => .next s

end Sys2Proof.Machine
end

