-- ==== Sys2Proof/Machine/PortControl.lean ====
section
/-! DEFINITION. The meanings of ATTNMASK (R72), COLLECT (R68) and the completion of its readout (R69), RESYNC (R76, R77) and a
frame whose opcode is no command (R64). -/

namespace Sys2Proof.Machine

/-- An ATTNMASK arrives (R72). -/
def Ctl.arriveAttnmask (c : Ctl) (p : Port) (tag : Byte) (args : List Byte) : Ctl :=
  c.arrive p .attnmask tag fun c =>
    match maskArg args with
    | none => c.answer p .attnmask tag .badArg []
    | some m => (c.onPort p fun u => { u with attnMask := m }).answer p .attnmask tag .ok [m.setWidth 8]

/-- A COLLECT arrives (R68): the oldest response, or the empty record, is selected and its readout begins. -/
def Ctl.arriveCollect (c : Ctl) (p : Port) : Ctl :=
  match (c.port p).queue with
  | r :: _ => c.beginReadout p (.collect true) r.record
  | [] => c.beginReadout p (.collect false) emptyRecord

/-- A RESYNC arrives (R76, R77). -/
def Ctl.arriveResync (c : Ctl) (p : Port) : Ctl := (c.resync p).trail p

/-- A frame with an unknown opcode arrives (R64): accepted on a credit and answered BAD_CMD in every mode. -/
def Ctl.arriveBadCmd (c : Ctl) (p : Port) (opcode tag : Byte) : Ctl :=
  c.accept p fun c => c.enter p ⟨.badCmd, tag, opcode, []⟩

/-- ATTNMASK. -/
def execAttnmask (p : Port) (tag : Byte) (args : List Byte) (s : State) : Host.Outcome State Fault Refusal :=
  s.arrival p Cmd.attnmask.code tag args fun c => c.arriveAttnmask p tag args

/-- COLLECT: its arguments are ignored (R64). -/
def execCollect (p : Port) (tag : Byte) (args : List Byte) (s : State) : Host.Outcome State Fault Refusal :=
  s.arrival p Cmd.collect.code tag args fun c => c.arriveCollect p

/-- COLLECT_READOUT_COMPLETE (R69). Where no COLLECT readout is under way on the port, nothing happens. -/
def execCollectReadoutComplete (p : Port) (s : State) : Host.Outcome State Fault Refusal :=
  match (s.ctl.port p).rx with
  | .readout (.collect response) _ => s.after (s.ctl.collectDone p response)
  | .readout .drain _ => .next s
  | .idle => .next s
  | .receiving _ => .next s
  | .discarding => .next s
  | .trailing => .next s

/-- RESYNC: its arguments are ignored (R64). -/
def execResync (p : Port) (tag : Byte) (args : List Byte) (s : State) : Host.Outcome State Fault Refusal :=
  s.arrival p Cmd.resync.code tag args fun c => c.arriveResync p

/-- BAD_CMD: the arrival of a frame whose opcode Table 47 does not name. With an opcode it names this is no such event, and
nothing happens. -/
def execBadCmd (p : Port) (opcode tag : Byte) (args : List Byte) (s : State) : Host.Outcome State Fault Refusal :=
  if (Cmd.ofCode opcode).isNone then s.arrival p opcode tag args fun c => c.arriveBadCmd p opcode tag else .next s

end Sys2Proof.Machine
end

