-- ==== Sys2Proof/Machine/Frames.lean ====
section
/-! DEFINITION. The meanings of the frame's own events: FRAME_START, FRAME_END (R59), FRAME_DISCARD (R61) and BYTE_COMPLETE (R58),
which makes a command arrive when it completes the frame (R60). -/

namespace Sys2Proof.Machine

/-- A command arrives by its opcode (R64). -/
def Ctl.arriveOpcode (c : Ctl) (p : Port) (op tag : Byte) (args : List Byte) : Ctl :=
  match Cmd.ofCode op with
  | none => c.arriveBadCmd p op tag
  | some .ident => c.arriveIdent p tag args
  | some .query => c.arriveQuery p tag args
  | some .list => c.arriveList p tag args
  | some .opn => c.arriveOpen p tag args
  | some .fill => c.arriveFill p tag args
  | some .abandon => c.arriveAbandon p tag args
  | some .commit => c.arriveCommit p tag args
  | some .delete => c.arriveDelete p tag args
  | some .read => c.arriveRead p tag args
  | some .claim => c.arriveClaim p tag args
  | some .release => c.arriveRelease p tag args
  | some .watch => c.arriveWatch p tag args
  | some .unwatch => c.arriveUnwatch p tag args
  | some .attnmask => c.arriveAttnmask p tag args
  | some .freeze => c.arriveFreeze p tag args
  | some .compact => c.arriveCompact p tag args
  | some .setconf => c.arriveSetconf p tag args
  | some .reload => c.arriveReload p tag args
  | some .collect => c.arriveCollect p
  | some .drain => c.arriveDrain p
  | some .resync => c.arriveResync p

/-- The request bytes of a frame have become `bytes` (R60): the frame is discarded, or its command arrives, or the receiver
goes on with 0x00 on SDOn (R62). -/
def Ctl.receiveBytes (c : Ctl) (p : Port) (bytes : List Byte) : Ctl :=
  if frameFails bytes then c.discardFrame p
  else if frameWhole bytes then
    c.arriveOpcode p (byteAt bytes 0) (byteAt bytes 1) ((bytes.drop 3).take (byteAt bytes 2).toNat)
  else c.onPort p fun u => { u with rx := .receiving bytes, sdo := some 0x00 }

/-- FRAME_START: SELn# falls (R59). With the line low already there is no falling edge, and nothing happens. -/
def execFrameStart (p : Port) (s : State) : Host.Outcome State Fault Refusal :=
  if (s.ctl.port p).selLow then .next s else s.after (s.ctl.selectFalls p)

/-- FRAME_END: SELn# rises (R59). With the line high already there is no rising edge, and nothing happens. -/
def execFrameEnd (p : Port) (s : State) : Host.Outcome State Fault Refusal :=
  if (s.ctl.port p).selLow then s.after (s.ctl.selectRises p) else .next s

/-- FRAME_DISCARD: the request bytes `bytes` complete and the frame is discarded at the last of them (R61). Where the port
receives no frame that these bytes continue, or where they do not make the Port Unit discard it, nothing happens. -/
def execFrameDiscard (p : Port) (bytes : List Byte) (s : State) : Host.Outcome State Fault Refusal :=
  match (s.ctl.port p).rx with
  | .receiving held => if held.isPrefixOf bytes && frameFails bytes then s.after (s.ctl.discardFrame p) else .next s
  | .idle => .next s
  | .discarding => .next s
  | .readout _ _ => .next s
  | .trailing => .next s

/-- BYTE_COMPLETE (R58, Table 14): in RECEIVING the byte is appended and the checks of R60 and R61 are made, in READOUT the next
readout byte is presented or the readout completes, in DISCARDING and TRAILING it is ignored, SDOn staying at
0xFF (R62), and in IDLE no byte is taken. -/
def execByteComplete (p : Port) (b : Byte) (s : State) : Host.Outcome State Fault Refusal :=
  match (s.ctl.port p).rx with
  | .receiving held => s.after (s.ctl.receiveBytes p (held ++ [b]))
  | .readout kind rest => s.after (s.ctl.readoutByte p kind rest)
  | .discarding => .next s
  | .trailing => .next s
  | .idle => .next s

end Sys2Proof.Machine
end

