-- ==== Sys2Proof/Machine/ArrayEvents.lean ====
section
/-! DEFINITION. The meanings of the array's events: PAGE_READ (R5), PROGRAM_PULSE (R7), ERASE_PULSE (R10) and DAMAGE (R15). -/

namespace Sys2Proof.Machine

/-- The Media Unit returns to IDLE (R4). -/
def Ctl.mediaIdle (c : Ctl) : Ctl := { c with media := { c.media with op := .idle } }

/-- A page read's data is handed to its requester (R4): the Mount Sequencer during MOUNTING, otherwise the step under way; at
the end of a step the Scheduler chooses the next (R101). -/
def Ctl.handData (c : Ctl) (data : Page) : Ctl :=
  if c.sched.mode = .mounting then c.mountRead data else (c.readEnded data).schedule

/-- PAGE_READ: the page read under way completes (R5). With no page read under way nothing happens. -/
def execPageRead (s : State) : Host.Outcome State Fault Refusal :=
  match s.ctl.media.op with
  | .reading row page => s.after (s.ctl.mediaIdle.handData (s.cells.readPage row page))
  | .idle => .next s
  | .programming _ _ _ _ _ => .next s
  | .erasing _ _ => .next s

/-- How a program stands after a pulse (R7, steps 3, 4 and the next step 1): ended with an outcome, or going on. `verified` is
the verify, `pulse` the pulse number, `count` the row's disturb count. -/
def pulseOutcome (verified : Bool) (pulse count : Nat) : Option ProgramOutcome :=
  if verified then some .pass
  else if Config.programPulseLimit ≤ pulse then some .failVerify
  else if Config.disturbLimit ≤ count then some .failBudget
  else none

/-- The outcome of a page program is handed to the step under way, and at the end of the step the Scheduler chooses. -/
def Ctl.handProgram (c : Ctl) (o : ProgramOutcome) : Ctl := (c.mediaIdle.programEnded o).schedule

/-- One pulse of a program on a row whose count is `n`, below 40 (R7). -/
def State.pulse (s : State) (row page : Nat) (target : Page) (k n : Nat) (before : Page) (left : Residue) :
    Host.Outcome State Fault Refusal :=
  let cells := s.cells.programPulse row page target left
  let old := if k = 0 then s.cells.readPage row page else before
  let media := { s.ctl.media.setCount row (n + 1) with op := .programming row page target (k + 1) old }
  let c : Ctl := { s.ctl with media := media }
  match pulseOutcome (cells.verifies row page target) (k + 1) (n + 1) with
  | some o => State.after { s with cells := cells } (c.handProgram o)
  | none => State.after { s with cells := cells } c

/-- PROGRAM_PULSE: a pulse and its verify complete (R7). With no program under way nothing happens. A program under way has
passed its budget check; were the row's count UNKNOWN or 40 no pulse could come, and the program ends FAIL_BUDGET. -/
def execProgramPulse (left : Residue) (s : State) : Host.Outcome State Fault Refusal :=
  match s.ctl.media.op with
  | .programming row page target k before =>
    match s.ctl.media.count row with
    | some n =>
      if n < Config.disturbLimit then s.pulse row page target k n before left else s.after (s.ctl.handProgram .failBudget)
    | none => s.after (s.ctl.handProgram .failBudget)
  | .idle => .next s
  | .reading _ _ => .next s
  | .erasing _ _ => .next s

/-- The outcome of a row erase is handed to the step under way, and at the end of the step the Scheduler chooses. -/
def Ctl.handErase (c : Ctl) (passed : Bool) : Ctl := (c.mediaIdle.eraseEnded passed).schedule

/-- ERASE_PULSE: a pulse and its verify complete (R10). With no erase under way nothing happens. -/
def execErasePulse (left : Residue) (s : State) : Host.Outcome State Fault Refusal :=
  match s.ctl.media.op with
  | .erasing row k =>
    let t : State := { s with cells := s.cells.erasePulse row left }
    if t.cells.rowErased row then
      t.after (Ctl.handErase { s.ctl with media := s.ctl.media.setCount row 0 } true)
    else if Config.erasePulseLimit ≤ k + 1 then t.after (s.ctl.handErase false)
    else t.after { s.ctl with media := { s.ctl.media with op := .erasing row (k + 1) } }
  | .idle => .next s
  | .reading _ _ => .next s
  | .programming _ _ _ _ _ => .next s

/-- A page whose program, or whose row's erase, is under way. -/
def MediaOp.touches (op : MediaOp) (row page : Nat) : Bool :=
  match op with
  | .programming r g _ _ _ => r = row && g = page
  | .erasing r _ => r = row
  | .idle => false
  | .reading _ _ => false

/-- DAMAGE (R15): cells of a page change value after its program or erase has completed; on a page whose program or erase is
under way this is no such event, and nothing happens. A page the array does not have faults. Whether damage reaches content that
R16 or R17 left, or R15 speaks of completed programs and erases alone, the rules leave open: here it does (DESIGN CHOICE,
notes/assumptions/29.md). -/
def execDamage (row page : Nat) (marks : List CellDamage) (s : State) : Host.Outcome State Fault Refusal :=
  if Config.rowCount ≤ row || Config.pagesPerRow ≤ page then .fault .noSuchPage
  else if s.ctl.media.op.touches row page then .next s
  else .next { s with cells := s.cells.damage row page marks }

end Sys2Proof.Machine
end

