-- ==== Sys2Proof/Machine/Power.lean ====
section
/-! DEFINITION. The meanings of DEVICE_RESET (R177 and each block's reset rule), POWER_LOSS (R190) and RESET_RELEASE (R81). -/

namespace Sys2Proof.Machine

/-- A Port Unit after device reset: every field of Table 18; the level of SELn# is the partner's and stays. -/
def PortUnit.afterReset (u : PortUnit) : PortUnit := { PortUnit.reset with selLow := u.selLow }

/-- Everything but the array after device reset: every block in its reset state (R18, R41, R56, R81, R89, R123, R138, R153,
R164, R165, R177). -/
def Ctl.afterReset (c : Ctl) : Ctl := { Ctl.reset with ports := c.ports.map fun _ u => u.afterReset }

/-- DEVICE_RESET: power-on, or RESET# falls. A program or erase under way is abandoned with the content `torn` gives it (R16,
R17), every block returns to its reset state, and mount stands at phase 1; its first page read comes when the reset ends. -/
def execDeviceReset (torn : Residue) (s : State) : Host.Outcome State Fault Refusal :=
  State.after { s with cells := s.cells.interrupt s.ctl.media.op torn } s.ctl.afterReset

/-- POWER_LOSS: the supply falls below its minimum (R190). A program or erase under way is abandoned as at a reset, and what
the blocks hold is lost. Without power already, nothing happens. -/
def execPowerLoss (torn : Residue) (s : State) : Host.Outcome State Fault Refusal :=
  if s.ctl.powered then
    State.after { s with cells := s.cells.interrupt s.ctl.media.op torn } { s.ctl.afterReset with powered := false }
  else .next s

/-- RESET_RELEASE: RESET# rises, or power-on ends (R81): the Port Units begin taking frames, a select already low being waited
out, and mount begins with its first page read (R177, R190). Outside a device reset, or without power, nothing happens. -/
def execResetRelease (s : State) : Host.Outcome State Fault Refusal :=
  if s.ctl.powered && s.ctl.inReset then s.after ({ s.ctl with inReset := false }.beginMount) else .next s

end Sys2Proof.Machine
end

