-- ==== Sys2Proof/Machine/Dispatch.lean ====
section
/-! DEFINITION. One arm for each command: the call of its meaning. -/

namespace Sys2Proof.Machine

def exec (i : Instr) (s : State) : Host.Outcome State Fault Refusal :=
  match i with
  | .deviceReset torn => Sys2Proof.Machine.execDeviceReset torn s
  | .frameStart p => Sys2Proof.Machine.execFrameStart p s
  | .frameEnd p => Sys2Proof.Machine.execFrameEnd p s
  | .frameDiscard p bytes => Sys2Proof.Machine.execFrameDiscard p bytes s
  | .collectReadoutComplete p => Sys2Proof.Machine.execCollectReadoutComplete p s
  | .drainReadoutComplete p => Sys2Proof.Machine.execDrainReadoutComplete p s
  | .ident p tag args => Sys2Proof.Machine.execIdent p tag args s
  | .query p tag args => Sys2Proof.Machine.execQuery p tag args s
  | .list p tag args => Sys2Proof.Machine.execList p tag args s
  | .opn p tag args => Sys2Proof.Machine.execOpen p tag args s
  | .fill p tag args => Sys2Proof.Machine.execFill p tag args s
  | .abandon p tag args => Sys2Proof.Machine.execAbandon p tag args s
  | .commit p tag args => Sys2Proof.Machine.execCommit p tag args s
  | .delete p tag args => Sys2Proof.Machine.execDelete p tag args s
  | .read p tag args => Sys2Proof.Machine.execRead p tag args s
  | .freeze p tag args => Sys2Proof.Machine.execFreeze p tag args s
  | .compact p tag args => Sys2Proof.Machine.execCompact p tag args s
  | .setconf p tag args => Sys2Proof.Machine.execSetconf p tag args s
  | .reload p tag args => Sys2Proof.Machine.execReload p tag args s
  | .claim p tag args => Sys2Proof.Machine.execClaim p tag args s
  | .release p tag args => Sys2Proof.Machine.execRelease p tag args s
  | .watch p tag args => Sys2Proof.Machine.execWatch p tag args s
  | .unwatch p tag args => Sys2Proof.Machine.execUnwatch p tag args s
  | .attnmask p tag args => Sys2Proof.Machine.execAttnmask p tag args s
  | .collect p tag args => Sys2Proof.Machine.execCollect p tag args s
  | .drain p tag args => Sys2Proof.Machine.execDrain p tag args s
  | .resync p tag args => Sys2Proof.Machine.execResync p tag args s
  | .badCmd p opcode tag args => Sys2Proof.Machine.execBadCmd p opcode tag args s
  | .holdTimerExpiry key => Sys2Proof.Machine.execHoldTimerExpiry key s
  | .waitTimerExpiry key p => Sys2Proof.Machine.execWaitTimerExpiry key p s
  | .pageRead => Sys2Proof.Machine.execPageRead s
  | .programPulse left => Sys2Proof.Machine.execProgramPulse left s
  | .erasePulse left => Sys2Proof.Machine.execErasePulse left s
  | .byteComplete p b => Sys2Proof.Machine.execByteComplete p b s
  | .powerLoss torn => Sys2Proof.Machine.execPowerLoss torn s
  | .resetRelease => Sys2Proof.Machine.execResetRelease s
  | .damage row page marks => Sys2Proof.Machine.execDamage row page marks s

end Sys2Proof.Machine
end

