-- ==== Sys2Proof/WellFormed.lean ====
section
/-! DEFINITION. Which commands are well formed: the operands that the specification's events can have. A command that is not
well formed still has a meaning (mostly that nothing happens); the checks say what a sender should not write. -/

namespace Sys2Proof

/-- A residue names each byte at most once, every offset below `bound`. -/
def Residue.wf (bound : Nat) (l : Residue) : Bool :=
  (l.all fun r => r.off < bound) && decide ((l.map CellResidue.off).Nodup)

/-- Damage of a page (R15): offsets within the page, each named at most once, at least one cell changed in every byte named,
and only changed cells left weak. -/
def damageWf (marks : List CellDamage) : Bool :=
  !marks.isEmpty && (marks.all fun d => d.off < Config.pageSize && d.flip ≠ 0 && d.weak &&& ~~~d.flip = 0)
    && decide ((marks.map CellDamage.off).Nodup)

/-- A frame's argument bytes number at most 56 (R60). -/
def argsWf (args : List Byte) : Bool := args.length ≤ Config.argumentLimit

/-- The check of one command. -/
def Instr.wf : Instr → Bool
  | .deviceReset torn => torn.wf Config.rowSize
  | .frameStart _ => true
  | .frameEnd _ => true
  | .frameDiscard _ bytes => Machine.frameFails bytes
  | .collectReadoutComplete _ => true
  | .drainReadoutComplete _ => true
  | .ident _ _ args => argsWf args
  | .query _ _ args => argsWf args
  | .list _ _ args => argsWf args
  | .opn _ _ args => argsWf args
  | .fill _ _ args => argsWf args
  | .abandon _ _ args => argsWf args
  | .commit _ _ args => argsWf args
  | .delete _ _ args => argsWf args
  | .read _ _ args => argsWf args
  | .freeze _ _ args => argsWf args
  | .compact _ _ args => argsWf args
  | .setconf _ _ args => argsWf args
  | .reload _ _ args => argsWf args
  | .claim _ _ args => argsWf args
  | .release _ _ args => argsWf args
  | .watch _ _ args => argsWf args
  | .unwatch _ _ args => argsWf args
  | .attnmask _ _ args => argsWf args
  | .collect _ _ args => argsWf args
  | .drain _ _ args => argsWf args
  | .resync _ _ args => argsWf args
  | .badCmd _ opcode _ args => argsWf args && (Cmd.ofCode opcode).isNone
  | .holdTimerExpiry key => Machine.keyOk key
  | .waitTimerExpiry key _ => Machine.keyOk key
  | .pageRead => true
  | .programPulse left => left.wf Config.pageSize
  | .erasePulse left => left.wf Config.rowSize
  | .byteComplete _ _ => true
  | .powerLoss torn => torn.wf Config.rowSize
  | .resetRelease => true
  | .damage row page marks => row < Config.rowCount && page < Config.pagesPerRow && damageWf marks

end Sys2Proof
end

