-- ==== Sys2Proof/Safety.lean ====
section
/-! DEFINITION. The words the statements are made of: what a state becomes when a command is taken and answered, and the laws the
specification states for the blocks (R12, R26, R27, R29, R30, R42, R43, R65, R71, R82, R119, R124, R139, R154, R158, R161, R172
and the array's canonical form). -/

namespace Sys2Proof

/-! ### Kinds of commands -/

/-- A command of a port with its tag and its arguments: the constructor of `Instr` for each command of Table 47. -/
def Cmd.instr (cmd : Cmd) (p : Port) (tag : Byte) (args : List Byte) : Instr :=
  match cmd with
  | .ident => .ident p tag args
  | .query => .query p tag args
  | .list => .list p tag args
  | .opn => .opn p tag args
  | .fill => .fill p tag args
  | .abandon => .abandon p tag args
  | .commit => .commit p tag args
  | .delete => .delete p tag args
  | .read => .read p tag args
  | .claim => .claim p tag args
  | .release => .release p tag args
  | .watch => .watch p tag args
  | .unwatch => .unwatch p tag args
  | .attnmask => .attnmask p tag args
  | .freeze => .freeze p tag args
  | .compact => .compact p tag args
  | .setconf => .setconf p tag args
  | .reload => .reload p tag args
  | .collect => .collect p tag args
  | .drain => .drain p tag args
  | .resync => .resync p tag args

/-- The commands that need a credit (R64): all but the frame-level ones. -/
def Cmd.needsCredit (cmd : Cmd) : Bool := cmd ≠ .collect && cmd ≠ .drain && cmd ≠ .resync

/-- The events that can change a cell of the array (R3, R15 to R17). -/
def Instr.reachesArray : Instr → Bool
  | .programPulse _ => true
  | .erasePulse _ => true
  | .deviceReset _ => true
  | .powerLoss _ => true
  | .damage _ _ _ => true
  | _ => false

/-- The events at which the volatile state is lost (R177, R190). -/
def Instr.losesVolatile : Instr → Bool
  | .deviceReset _ => true
  | .powerLoss _ => true
  | _ => false

namespace Machine

/-! ### States after a command -/

/-- `s` with everything but the array and the queue become `c`, every ATNn# following its condition (R71). -/
def State.settled (s : State) (c : Ctl) : State := { s with ctl := c.settle }

/-- A Port Unit once a command that needs a credit has been taken (R64, R59): one credit more in use, TRAILING, 0xFF on SDOn. -/
def PortUnit.taken (u : PortUnit) : PortUnit :=
  { u with rx := .trailing, sdo := some 0xFF, outstanding := u.outstanding + 1 }

/-- A Port Unit once a command has been taken and answered at its arrival (R66). -/
def PortUnit.answered (u : PortUnit) (r : Response) : PortUnit := { u.taken with queue := u.queue ++ [r] }

/-- Everything but the array once a command of port `p` has been taken and answered `r` at once, and nothing else. -/
def Ctl.answered (c : Ctl) (p : Port) (r : Response) : Ctl := c.onPort p fun u => u.answered r

/-- The frame of a command completes on port `p` and a credit is free (R60, R64): the command is accepted. -/
def State.accepts (s : State) (p : Port) (op tag : Byte) (args : List Byte) : Prop :=
  s.ctl.frameReady p op tag args = true ∧ (s.ctl.port p).outstanding < Config.creditLimit

/-- The command is accepted while the device is READY or READ_ONLY. -/
def State.serves (s : State) (p : Port) (op tag : Byte) (args : List Byte) : Prop :=
  s.accepts p op tag args ∧ s.ctl.sched.mode ≠ .mounting

/-- Everything but the array once an array command has been taken and has joined the end of its port's list (R90, R91). -/
def Ctl.queued (c : Ctl) (p : Port) (tag : Byte) (body : ReqBody) : Ctl :=
  (c.onPort p PortUnit.taken).setRequests p (c.requests p ++ [⟨p, tag, body, false⟩])

/-- Responses to requests of the COMPACT request list (R135), in the list's order, status and result as `f` gives them: a request
whose discard mark is set gets none. -/
def compactAnswers (l : List CompactReq) (f : CompactReq → Status × List Byte) : List (Port × Response) :=
  (l.filter fun r => !r.discard).map fun r => (r.port, ⟨(f r).1, r.tag, 0x31, (f r).2⟩)

/-- The answers to the COMPACT request list at an entry into READ_ONLY (R136): the tied request with the pass counts so far and
the status given, the others READ_ONLY with zeros. -/
def Ctl.readOnlyAnswers (c : Ctl) (tied : Status) : List (Port × Response) :=
  compactAnswers c.sched.compactList fun r =>
    if r.tied then (tied, [0, natByte c.agent.copied, natByte c.agent.dropped]) else (.readOnly, [0, 0, 0])

/-! ### The laws -/

/-- Every ATNn# is asserted exactly under its condition (R71). -/
def Ctl.attentionLaw (c : Ctl) : Prop := ∀ p, (c.port p).atn = c.attention p

/-- The bounds of the Notification Unit at a port: at most 32 keys watched, none twice (R154); at most 8 notices, never two
for one key (R158); no update mark without a readout selection (R161). -/
def NotifUnit.lawful (u : NotifUnit) : Prop :=
  u.watch.length ≤ Config.watchLimit ∧ u.watch.Pairwise (fun x y => x.toNat < y.toNat)
    ∧ u.queue.length ≤ Config.noticeLimit ∧ (u.queue.map Notice.key).Nodup
    ∧ (u.selection = none → ∀ n ∈ u.queue, n.marked = false)

/-- The law of the Notification Unit at every port. -/
def Ctl.noticeLaw (c : Ctl) : Prop := ∀ p, (c.notif p).lawful

/-- A claim entry's law (R139): a key, at most 3 waiters, no port twice among them and never the holder. -/
def ClaimEntry.lawful (e : ClaimEntry) : Prop :=
  keyOk e.key = true ∧ e.waiters.length ≤ Config.waiterLimit ∧ (e.waiters.map Waiter.port).Nodup
    ∧ e.holder ∉ e.waiters.map Waiter.port

/-- The claim table's law (R139): at most 16 entries, their keys all different. -/
def Ctl.claimLaw (c : Ctl) : Prop :=
  c.claims.length ≤ Config.claimLimit ∧ c.claims.Pairwise (fun x y => x.key.toNat < y.key.toNat)
    ∧ ∀ e ∈ c.claims, e.lawful

/-- What port `p` has accepted and not yet collected (R65): responses in its queue, requests in its list, its operation
executing, its COMPACT requests handed on and not marked, its CLAIMs that wait. -/
def Ctl.owed (c : Ctl) (p : Port) : Nat :=
  (c.port p).queue.length + (c.requests p).length + (if c.sched.current.isOf p then 1 else 0)
    + (c.sched.compactList.countP fun r => r.port = p && !r.discard)
    + (c.claims.map fun e => e.waiters.countP fun w => w.port = p).sum

/-- The credits of port `p` (R65): nothing owed without a credit, at most 4 in use, every request of its list its own (R91),
and a COLLECT readout of a response has that response in the queue. -/
def Ctl.creditLawAt (c : Ctl) (p : Port) : Prop :=
  c.owed p ≤ (c.port p).outstanding ∧ (c.port p).outstanding ≤ Config.creditLimit ∧ (∀ r ∈ c.requests p, r.port = p)
    ∧ ∀ rest, (c.port p).rx = .readout (.collect true) rest → (c.port p).queue ≠ []

/-- The law of the credits (R65), with the claim table's law, on which the count of waiting CLAIMs rests. -/
def Ctl.creditLaw (c : Ctl) : Prop := c.claimLaw ∧ ∀ p, c.creditLawAt p

/-- No known disturb count exceeds 40 (R7, R12). -/
def Ctl.disturbLaw (c : Ctl) : Prop := ∀ x ∈ c.media.disturb, x.2 ≤ Config.disturbLimit

/-- The read-only reason is none exactly when the mode is not READ_ONLY (R119). -/
def Ctl.modeLaw (c : Ctl) : Prop := c.sched.reason = .none ↔ c.sched.mode ≠ .readOnly

/-- An image write under way carries the settings `x` and lock 1. -/
def Activity.carries (x : Settings) : Activity → Prop
  | .image _ plan _ => plan.image.settings = x ∧ plan.image.lock = 1
  | _ => True

/-- The stored image is locked with the settings `x` (R172), mount has ended, and an image write under way carries the same. -/
def Ctl.lockedWith (c : Ctl) (x : Settings) : Prop :=
  c.sched.mode ≠ .mounting ∧ c.conf.lock = 1 ∧ c.conf.settings = x
    ∧ ∀ act, c.sched.current.activity = some act → act.carries x

/-! ### The law of the store: Directory, row table, ring, the pass under way and the step under way -/

/-- A composition's declared length is at most 512 (R82). -/
def Staging.sound : Staging → Prop
  | .empty => True
  | .composing k => k.declared ≤ Config.payloadLimit
  | .submitted k => k.declared ≤ Config.payloadLimit

/-- Every staging buffer's composition is within its bound (R82). -/
def Ctl.stagingLaw (c : Ctl) : Prop := ∀ p, (c.port p).staging.sound

/-- The Directory (R42, R43): at most 512 entries, keys strictly ascending, each entry with at most 512 bytes and the pages of R21. -/
def dirLaw (dir : List DirEntry) : Prop :=
  dir.length ≤ Config.directoryLimit ∧ dir.Pairwise (fun x y => x.key.toNat < y.key.toNat)
    ∧ ∀ e ∈ dir, e.length ≤ Config.payloadLimit ∧ e.pages = pagesFor e.length

/-- A row is a ring row: HEAD or CLOSED (R29). -/
def RowState.inRing : RowState → Bool
  | .head _ _ _ _ => true
  | .closed _ _ _ => true
  | _ => false

/-- The open number of a ring row, 0 for any other. -/
def RowState.openNumber : RowState → Nat
  | .head n _ _ _ => n.toNat
  | .closed n _ _ => n.toNat
  | _ => 0

/-- The dead pages of a ring row, 0 for any other. -/
def RowState.deadPages : RowState → Nat
  | .head _ _ dead _ => dead
  | .closed _ _ dead => dead
  | _ => 0

/-- The page counts of a row whose pages named by Directory entries number `live` (R26, R27): a ring row's live pages are these,
its live, dead and free pages number 15, and no entry names a page of any other row. -/
def RowState.counted (live : Nat) : RowState → Prop
  | .head _ l dead next => l = live ∧ 1 ≤ next ∧ next ≤ 16 ∧ l + dead + (16 - next) = 15
  | .closed _ l dead => l = live ∧ l + dead = 15
  | _ => live = 0

/-- The place of a ring row in the order of R29: open number, then row index. -/
def RowMgr.place (m : RowMgr) (row : Nat) : Nat := (m.state row).openNumber * Config.rowCount + row

/-- The Row Manager (R26, R27, R29, R40): every row's counts; the ring lists the HEAD and CLOSED rows, each once, in the order of
their open numbers, a head last; every open number in the ring is below the open counter, unless that is at its limit. -/
def RowMgr.lawful (m : RowMgr) (dir : List DirEntry) : Prop :=
  (∀ r, (m.state r).counted (livePages dir r)) ∧ (∀ r, r ∈ m.ring ↔ (m.state r).inRing = true)
    ∧ m.ring.Pairwise (fun a b => m.place a < m.place b) ∧ (∀ r, (m.state r).isHead = true → m.ring.getLast? = some r)
    ∧ ∀ r ∈ m.ring, (m.state r).openNumber < m.openCounter.toNat ∨ m.openCounter = Config.openLimit

/-- The pass under way (Table 28): its row is the CLOSED tail, the cursor one of its record pages; in ERASING no Directory entry
names the row. -/
def passLaw (m : RowMgr) (dir : List DirEntry) : AgentState → Prop
  | .scanning row cursor =>
    m.ring.head? = some row ∧ (m.state row).isClosed = true ∧ 1 ≤ cursor ∧ cursor ≤ 15
  | .erasing row => m.ring.head? = some row ∧ (m.state row).isClosed = true ∧ ∀ e ∈ dir, e.row ≠ row
  | _ => True

/-- No row is HEAD. -/
def RowMgr.headless (m : RowMgr) : Prop := ∀ r, (m.state r).isHead = false

/-- A record to be written has at most 512 bytes and the pages of R21; a port's key has an entry or finds room (R43); the agent's
key has an entry of as many pages. -/
def WriteJob.lawful (dir : List DirEntry) (job : WriteJob) : Prop :=
  job.header.length ≤ Config.payloadLimit ∧ job.header.pages = pagesFor job.header.length
    ∧ match job.owner with
      | .port _ => (∃ e ∈ dir, e.key = job.header.key) ∨ dir.length < Config.directoryLimit
      | .agent => ∃ e ∈ dir, e.key = job.header.key ∧ e.pages = job.header.pages

/-- What holds while a step waits for the Media Unit (R32, R35, R36, R115): a record read is the Directory's; a head open works on
a free row while no row is HEAD, with an open number above every one in the ring; a record is written into the head, where its
pages count as dead. -/
def Activity.lawful (m : RowMgr) (dir : List DirEntry) : Activity → Prop
  | .readRecord e _ _ => e ∈ dir
  | .openErase job row _ => job.lawful dir ∧ m.headless ∧ m.state row = .freeStale
  | .openHeader job row _ n => job.lawful dir ∧ m.headless ∧ m.state row = .freeReady
      ∧ (∀ r ∈ m.ring, (m.state r).openNumber < n.toNat) ∧ n.toNat < m.openCounter.toNat
  | .writing job row _ _ => job.lawful dir ∧ (m.state row).isHead = true ∧ job.header.pages ≤ (m.state row).deadPages
  | .image _ _ (.openHead job _) => job.lawful dir ∧ m.headless
  | _ => True

/-- The record that a step's activity is to write, if it is to write one. -/
def Activity.job : Activity → Option WriteJob
  | .openErase job _ _ => some job
  | .openHeader job _ _ _ => some job
  | .writing job _ _ _ => some job
  | .image _ _ (.openHead job _) => some job
  | _ => none

/-- A record is written for the step under way: a port's by a port operation, the agent's by a compaction step. -/
def CurrentStep.owns (s : CurrentStep) (job : WriteJob) : Prop :=
  match s, job.owner with
  | .port _ _, .port _ => True
  | .agent _, .agent => True
  | _, _ => False

/-- What holds of the step under way. -/
def CurrentStep.lawful (m : RowMgr) (dir : List DirEntry) (s : CurrentStep) : Prop :=
  ∀ act, s.activity = some act → act.lawful m dir ∧ ∀ job, act.job = some job → s.owns job

/-- The step under way is the image write of the pass row's retirement (R134, step 1): the row has left the ring. -/
def Ctl.retiresTail (c : Ctl) : Prop := ∃ stage plan, c.sched.current.activity = some (.image stage plan .tail)

/-- The row numbers of a list of ring rows, each a ring-eligible row not retired, none twice (R179). -/
def surveyed (retired : List Byte) (rows : List Nat) : Prop :=
  rows.Nodup ∧ ∀ r ∈ rows, 2 ≤ r ∧ r < Config.rowCount ∧ (retired.any fun b => b.toNat = r) = false

/-- The pages of the candidates found in a row. -/
def candidatePages (l : List Candidate) (row : Nat) : Nat :=
  ((l.filter fun x => x.row = row).map fun x => x.header.pages).sum

/-- The scan of mount (R181): the ring's rows are those surveyed, in ring order; the row walked and those still to be walked are
different rows of it; the candidates lie in rows walked, those of the row walked before the cursor. -/
def ScanState.lawful (retired : List Byte) (st : ScanState) : Prop :=
  surveyed retired (st.ring.map (·.1)) ∧ st.ring.Pairwise (fun x y => x.2.toNat * 256 + x.1 < y.2.toNat * 256 + y.1)
    ∧ (st.row :: st.todo).Nodup ∧ (∀ r ∈ st.row :: st.todo, r ∈ st.ring.map (·.1)) ∧ 1 ≤ st.cursor ∧ st.cursor ≤ 15
    ∧ (∀ x ∈ st.candidates, x.row ∈ st.ring.map (·.1) ∧ x.header.length ≤ Config.payloadLimit
        ∧ x.header.pages = pagesFor x.header.length)
    ∧ (∀ r ∈ st.todo, candidatePages st.candidates r = 0) ∧ candidatePages st.candidates st.row + 1 ≤ st.cursor
    ∧ ∀ r, candidatePages st.candidates r ≤ 15

/-- What mount has found so far (R179, R181): the row whose page 0 is read comes after those found. -/
def MountPhase.lawful (retired : List Byte) : MountPhase → Prop
  | .survey row found => surveyed retired (row :: found.map (·.1)) ∧ ∀ x ∈ found, x.1 < row
  | .scan st => st.lawful retired
  | _ => True

/-- During MOUNTING (R41, R56, R123): no row table, no ring, no entry, nothing asked for, no step and no pass. -/
def Ctl.mountLaw (c : Ctl) : Prop :=
  c.rows.table = [] ∧ c.rows.ring = [] ∧ c.dir = [] ∧ (∀ p, c.requests p = []) ∧ c.sched.compactList = []
    ∧ c.sched.current = .none ∧ c.agent.state = .idle ∧ c.mount.phase.lawful c.conf.retired

/-- The law of the store (R26, R27, R29, R42, R43, Table 28), with what it rests on while a step or mount is under way. -/
def Ctl.storeLaw (c : Ctl) : Prop :=
  c.stagingLaw ∧ dirLaw c.dir ∧ c.rows.lawful c.dir ∧ (c.retiresTail ∨ passLaw c.rows c.dir c.agent.state)
    ∧ c.sched.current.lawful c.rows c.dir ∧ (c.sched.mode = .mounting → c.mountLaw)
    ∧ (c.sched.mode ≠ .mounting → c.rows.table.length = Config.rowCount)

end Machine

end Sys2Proof
end

