-- ==== Sys2Proof/Certificates/Slice0/Obligations.lean ====
section
/-! DEFINITION. The statements for the provers, each a proposition over every state and every operand that its hypotheses allow. -/

open Sys2Proof Sys2Proof.Machine

/-! ### The block as a machine -/

/-- A step of a state with a command at the front of its queue is that command's meaning on the state with the queue's rest; with
no command waiting the block idles, which is the model's choice (notes/assumptions/7.md). -/
def Obligations.StepRunsTheCommandInFront : Prop :=
  (∀ (c : Instr) (rest : List Instr) (s : State), s.pending = c :: rest → step s = exec c { s with pending := rest })
    ∧ ∀ s : State, s.pending = [] → step s = .next s

/-- Only pulses, interruptions and damage reach a cell: every other command leaves the array as it was. -/
def Obligations.OnlyArrayEventsReachTheArray : Prop :=
  ∀ (i : Instr) (s t : State), i.reachesArray = false → exec i s = .next t → t.cells = s.cells

/-! ### Reset and power (R16, R17, R81, R177, R190) -/

/-- DEVICE_RESET in any state: every block takes its reset state, the array is as the interruption of the operation under way
leaves it. Four clauses are the model's choices: the values of the two counters and of the open pointer
(notes/assumptions/2.md), the empty retired-row list (31.md), that the lines of SELn# stay (25.md), and that the device is
powered afterwards (23.md). -/
def Obligations.DeviceResetResetsEveryBlock : Prop :=
  ∀ (torn : Residue) (s : State), ∃ t, exec (.deviceReset torn) s = .next t ∧ t.pending = s.pending
    ∧ t.cells = s.cells.interrupt s.ctl.media.op torn ∧ t.ctl.powered = true ∧ t.ctl.inReset = true
    ∧ (∀ p, t.ctl.port p =
        ⟨true, (s.ctl.port p).selLow, .idle, none, none, false, .empty, [], 0, false, false, 0b11⟩)
    ∧ (∀ p, t.ctl.notif p = ⟨[], [], false, none⟩)
    ∧ t.ctl.claims = [] ∧ t.ctl.dir = []
    ∧ t.ctl.sched =
        ⟨PerPort.const [], .p0, .ports, [], .none, PerPort.const none, false, .mounting, .none⟩
    ∧ t.ctl.rows.table = [] ∧ t.ctl.rows.ring = [] ∧ t.ctl.rows.seqCounter = 0 ∧ t.ctl.rows.openCounter = 0
    ∧ t.ctl.rows.openPtr = 255
    ∧ t.ctl.media = ⟨.idle, []⟩ ∧ t.ctl.agent = ⟨.idle, none, 0, 0⟩
    ∧ t.ctl.conf = ⟨none, [], none, false, false⟩ ∧ t.ctl.mount = ⟨.start, false, false⟩

/-- POWER_LOSS of a powered device leaves what a device reset leaves, without power: that is the model's reading of R190
(notes/assumptions/23.md). Without power it leaves all as it was: that is the model's choice (8.md). -/
def Obligations.PowerLossLosesTheVolatileState : Prop :=
  ∀ (torn : Residue) (s : State),
    (s.ctl.powered = true → ∃ t, exec (.deviceReset torn) s = .next t
      ∧ exec (.powerLoss torn) s = .next { t with ctl := { t.ctl with powered := false } })
    ∧ (s.ctl.powered = false → exec (.powerLoss torn) s = .next s)

/-- RESET_RELEASE of a powered device in reset (R81, R177): frames are taken from now on and mount reads page 0 of S0; that its
first read is asked for at this event is the model's reading (notes/assumptions/9.md), that it is S0's its choice (32.md), and that
otherwise nothing happens its choice too (8.md). -/
def Obligations.ResetReleaseBeginsMount : Prop :=
  ∀ s : State,
    (s.ctl.powered = true → s.ctl.inReset = true → exec .resetRelease s =
      .next (s.settled { s.ctl with
        inReset := false
        media := { s.ctl.media with op := .reading 0 0 }
        mount := { s.ctl.mount with phase := .image0 } }))
    ∧ (s.ctl.powered = false ∨ s.ctl.inReset = false → exec .resetRelease s = .next s)

/-- The interruption of the array (R16, R17, R18): nothing changes when no program or erase is under way; an abandoned program
touches its page alone, keeps every cell whose target is 1, and leaves every other cell reading the value it read before the
program, or 0; an abandoned erase touches its row alone. -/
def Obligations.InterruptionStaysWithinItsOperation : Prop :=
  ∀ (torn : Residue) (s : State) (i : Instr), s.cells.wf → (i = .deviceReset torn ∨ i = .powerLoss torn ∧ s.ctl.powered = true) →
    ∃ t, exec i s = .next t
    ∧ (s.ctl.media.op = .idle → t.cells = s.cells)
    ∧ (∀ row page, s.ctl.media.op = .reading row page → t.cells = s.cells)
    ∧ (∀ row page target k before, s.ctl.media.op = .programming row page target k before →
        (∀ a, (a < address row page 0 ∨ address row page 0 + 64 ≤ a) →
          t.cells.readByte a = s.cells.readByte a ∧ t.cells.weakByte a = s.cells.weakByte a)
        ∧ (∀ off, off < 64 →
          t.cells.readByte (address row page off) &&& imageByte target off
              = s.cells.readByte (address row page off) &&& imageByte target off
            ∧ t.cells.readByte (address row page off) &&& ~~~ imageByte target off
              &&& ~~~ (if k = 0 then s.cells.readByte (address row page off) else imageByte before off) = 0))
    ∧ (∀ row k, s.ctl.media.op = .erasing row k →
        ∀ a, (a < address row 0 0 ∨ address row 0 0 + 1024 ≤ a) →
          t.cells.readByte a = s.cells.readByte a ∧ t.cells.weakByte a = s.cells.weakByte a)

/-! ### The array (R3, R5, R7, R8, R10, R15) -/

/-- A program pulse reaches the cells of its page alone (R7, R8): every byte outside it, and within it every cell whose target
is 1 and every cell already programmed, stays; when every cell took its value, each cell whose target is 0 is programmed. -/
def Obligations.ProgramPulseActsOnItsPage : Prop :=
  ∀ (left : Residue) (s : State) (row page k n : Nat) (target before : Page), s.cells.wf →
    s.ctl.media.op = .programming row page target k before → s.ctl.media.count row = some n → n < 40 →
    ∃ t, exec (.programPulse left) s = .next t
    ∧ (∀ a, (a < address row page 0 ∨ address row page 0 + 64 ≤ a) →
        t.cells.readByte a = s.cells.readByte a ∧ t.cells.weakByte a = s.cells.weakByte a)
    ∧ (∀ off, off < 64 →
        let a := address row page off
        let keep := imageByte target off ||| (~~~ s.cells.readByte a &&& ~~~ s.cells.weakByte a)
        t.cells.readByte a &&& keep = s.cells.readByte a &&& keep
          ∧ t.cells.weakByte a &&& keep = s.cells.weakByte a &&& keep
          ∧ (left = [] → (t.cells.readByte a ||| t.cells.weakByte a) &&& ~~~ imageByte target off = 0))

/-- A program pulse is counted, and the program goes on or ends by its limits (R7): PASS when the verify matches, FAIL_VERIFY when
the sixth pulse does not, FAIL_BUDGET when the row's count has reached 40 before; the outcome goes to the step under way,
the Media Unit being idle again. -/
def Obligations.ProgramPulseEndsOrGoesOn : Prop :=
  ∀ (left : Residue) (s : State) (row page k n : Nat) (target before : Page),
    s.ctl.media.op = .programming row page target k before → s.ctl.media.count row = some n → n < 40 →
    let cells := s.cells.programPulse row page target left
    let ends := fun o => exec (.programPulse left) s = .next
      { s.settled (({ s.ctl with media := { s.ctl.media.setCount row (n + 1) with op := .idle } }.programEnded o).schedule) with
        cells := cells }
    (cells.verifies row page target = true → ends .pass)
    ∧ (cells.verifies row page target = false → 6 ≤ k + 1 → ends .failVerify)
    ∧ (cells.verifies row page target = false → k + 1 < 6 → n + 1 = 40 → ends .failBudget)
    ∧ (cells.verifies row page target = false → k + 1 < 6 → n + 1 < 40 → exec (.programPulse left) s = .next
        { s.settled { s.ctl with
            media := { s.ctl.media.setCount row (n + 1) with
              op := .programming row page target (k + 1) (if k = 0 then s.cells.readPage row page else before) } } with
          cells := cells })

/-- What the two verifies test (R3, R7, R8, R10): the program verify holds exactly when every byte of the page reads as the
target's and no cell of it is weak, and the page then reads as its target; the erase verify holds exactly when every cell of the
row reads 1 and none is weak. -/
def Obligations.VerifiesTestEveryCell : Prop :=
  (∀ (c : Cells) (row page : Nat) (target : Page),
      (c.verifies row page target = true ↔ ∀ off, off < 64 →
        c.readByte (address row page off) = target.getD off 0xFF ∧ c.weakByte (address row page off) = 0)
      ∧ (target.length = 64 → c.verifies row page target = true → c.readPage row page = target))
    ∧ ∀ (c : Cells) (row : Nat), c.wf →
      (c.rowErased row = true ↔
        ∀ off, off < 1024 → c.readByte (address row 0 off) = 0xFF ∧ c.weakByte (address row 0 off) = 0)

/-- An erase pulse (R3, R10, R11) reaches its row alone: there each cell is erased but for those it leaves as they were or weak,
and with none left every one is; that the event names the cells it leaves is the model's choice (notes/assumptions/3.md). It ends
PASS with the count 0 when every cell of the row is erased, FAIL when the third pulse leaves one that is not, the count as the
request left it, and goes on otherwise. The erase of the pass row (R134): a tail reclaim for every space wait, counted past the
wait's ring length too, which is the model's choice (27.md), the row out of the ring, FREE_READY or RETIRED with its retirement (R175), and the end of the pass (R135):
the tied request answered with the counts, in READ_ONLY the rest refused, in READY without a CLOSED tail the rest answered zeros. -/
def Obligations.ErasePulseEndsOrGoesOn : Prop :=
  (∀ (left : Residue) (s : State) (row k : Nat), s.cells.wf → s.ctl.media.op = .erasing row k →
    let cells := s.cells.erasePulse row left
    (∀ a, (a < address row 0 0 ∨ address row 0 0 + 1024 ≤ a) →
        cells.readByte a = s.cells.readByte a ∧ cells.weakByte a = s.cells.weakByte a)
    ∧ (∀ off, off < 1024 →
        let a := address row 0 off
        let r := residueAt left off
        cells.readByte a = (s.cells.readByte a &&& r.stay) ||| (r.reads &&& ~~~r.stay &&& r.weak) ||| (~~~r.stay &&& ~~~r.weak)
          ∧ cells.weakByte a = (s.cells.weakByte a &&& r.stay) ||| (~~~r.stay &&& r.weak)
          ∧ (left = [] → cells.readByte a = 0xFF ∧ cells.weakByte a = 0))
    ∧ (cells.rowErased row = true → exec (.erasePulse left) s = .next
        { s.settled (({ s.ctl with media := { s.ctl.media.setCount row 0 with op := .idle } }.eraseEnded true).schedule) with
          cells := cells })
    ∧ (cells.rowErased row = false → 3 ≤ k + 1 → exec (.erasePulse left) s = .next
        { s.settled (({ s.ctl with media := { s.ctl.media with op := .idle } }.eraseEnded false).schedule) with cells := cells })
    ∧ (cells.rowErased row = false → k + 1 < 3 → exec (.erasePulse left) s = .next
        { s.settled { s.ctl with media := { s.ctl.media with op := .erasing row (k + 1) } } with cells := cells }))
  ∧ (∀ (c : Ctl) (row : Nat), c.sched.current = .agent .tailErase → c.agent.state = .erasing row →
    let leaves := fun st : RowState =>
      { c with
        sched := { c.sched with waits := c.sched.waits.map fun _ w => w.map fun x : SpaceWait => { x with reclaims := x.reclaims + 1 } }
        rows := { c.rows.setState row st with ring := c.rows.ring.filter fun r => r ≠ row } }
    c.eraseEnded true = (leaves .freeReady).endPass 1
    ∧ (16 ≤ c.conf.retired.length → c.eraseEnded false = ((leaves .retired).enterReadOnly .media).endPass 0)
    ∧ (c.conf.retired.length < 16 →
      let d := { leaves .retired with conf := { c.conf with retired := insertBy BitVec.toNat (natByte row) c.conf.retired } }
      (c.conf.generation = 0xFFFFFFFF → c.eraseEnded false = (d.enterReadOnly .config).endPass 0)
      ∧ (c.conf.generation ≠ 0xFFFFFFFF → c.eraseEnded false = { d with
          media := { c.media.forget c.conf.target.index with op := .erasing c.conf.target.index 0 }
          sched := { d.sched with current := .agent (.image .erase
            ⟨c.conf.target, ⟨c.conf.generation + 1, c.conf.settings, c.conf.lock, d.conf.retired⟩⟩ .tail) } })))
  ∧ ∀ (c : Ctl) (n : Nat),
    let tied := c.sched.compactList.filter fun r => r.tied
    let rest := c.sched.compactList.filter fun r => !r.tied
    let ends := fun (answers : List (Port × Response)) (list : List CompactReq) =>
      { c.enterAll (compactAnswers tied (fun _ => (.ok, [natByte n, natByte c.agent.copied, natByte c.agent.dropped])) ++ answers) with
        agent := ⟨.idle, none, 0, 0⟩
        sched := { c.sched with compactList := list, turn := .ports, current := .none } }
    (c.sched.mode = .readOnly → c.endPass n = ends (compactAnswers rest fun _ => (.readOnly, [0, 0, 0])) [])
    ∧ (c.sched.mode = .ready → c.rows.tailClosed = true → c.endPass n = ends [] rest)
    ∧ (c.sched.mode = .ready → c.rows.tailClosed = false → c.endPass n = ends (compactAnswers rest fun _ => (.ok, [0, 0, 0])) [])

/-- PAGE_READ (R5) changes no cell, whatever the step makes of its data; a READ or FREEZE keeps the page and asks for the next one
of its record, first page to last (R115). A scanning step of the agent (R126, Table 29): without a valid header the walk ends; a
record not read whole has its next page read; one that no entry places there is dropped (R132); one that its entry places there is
copied when it agrees and is complete (R128), and removed as damaged otherwise (R127). The cursor moves past the record, and at
page 16 the walk ends (R133): every entry that still names the row is removed as damaged, the first of the Directory first, with
its DAMAGED notice to every port that watches its key, and the agent is ERASING. That the count of records dropped goes on past 15
is the model's choice (notes/assumptions/30.md), and so is the ascending order in which the agent reads a record's pages (35.md). -/
def Obligations.PageReadKeepsCellsAndGoesOn : Prop :=
  (∀ s : State, (∃ t, exec .pageRead s = .next t ∧ t.cells = s.cells ∧ t.pending = s.pending)
    ∧ (∀ (req : Request) (e : DirEntry) (got : List Page) (full : Bool) (row page : Nat),
      s.ctl.media.op = .reading row page → s.ctl.sched.mode ≠ .mounting →
      s.ctl.sched.current = .port req (.readRecord e got full) → got.length + 1 < e.pages →
      exec .pageRead s = .next (s.settled { s.ctl with
        media := { s.ctl.media with op := .reading e.row (e.page + (got.length + 1)) }
        sched := { s.ctl.sched with
          current := .port req (.readRecord e (got ++ [s.cells.readPage row page]) full) } }))
    ∧ ∀ (got : List Page) (row page pass cursor : Nat), s.ctl.media.op = .reading row page → s.ctl.sched.mode ≠ .mounting →
      s.ctl.sched.current = .agent (.scan got) → s.ctl.agent.state = .scanning pass cursor →
      let pages := got ++ [s.cells.readPage row page]
      let c := { s.ctl with media := { s.ctl.media with op := .idle } }
      let gives := fun d : Ctl => exec .pageRead s = .next (s.settled d.schedule)
      (parseHeader (pages.headD []) cursor = none → gives (c.endWalk pass))
      ∧ ∀ h, parseHeader (pages.headD []) cursor = some h →
        (pages.length < h.pages → exec .pageRead s = .next (s.settled { s.ctl with
          media := { s.ctl.media with op := .reading pass (cursor + pages.length) }
          sched := { s.ctl.sched with current := .agent (.scan pages) } }))
        ∧ (h.pages ≤ pages.length →
          ((∀ e, c.lookup h.key = some e → e.row ≠ pass ∨ e.page ≠ cursor) →
            gives ({ c with agent := { c.agent with dropped := c.agent.dropped + 1 } }.advanceCursor pass cursor h.pages))
          ∧ ∀ e, c.lookup h.key = some e → e.row = pass → e.page = cursor →
            let checks := (h.sequence = e.sequence ∧ h.kind = e.kind.recKind ∧ h.length = e.length) ∧ recordComplete h pages = true
            (checks → gives (c.placeRecord ⟨h, pages, .agent⟩))
            ∧ (¬ checks → gives ((c.removeDamaged e).advanceCursor pass cursor h.pages))))
  ∧ (∀ (c : Ctl) (e : DirEntry), c.removeDamaged e = { c.removeEntry e.key with
      notifs := c.notifs.map fun _ u => if e.key ∈ u.watch then u.place ⟨e.key, .damaged, none, e.sequence, false⟩ else u
      agent := { c.agent with dropped := c.agent.dropped + 1 } })
  ∧ (∀ (c : Ctl) (pass cursor q : Nat),
      let d := { c with agent := { c.agent with state := .scanning pass (cursor + q), retryMark := none } }
      (cursor + q < 16 → c.advanceCursor pass cursor q = { d with sched := { c.sched with turn := .ports, current := .none } })
      ∧ (16 ≤ cursor + q → c.advanceCursor pass cursor q = d.endWalk pass))
  ∧ ∀ (c : Ctl) (row : Nat), (c.dir.Pairwise fun x y => x.key.toNat < y.key.toNat) →
      ((∀ e ∈ c.dir, e.row ≠ row) → c.endWalk row = { c with
        agent := { c.agent with state := .erasing row, retryMark := none }
        sched := { c.sched with turn := .ports, current := .none } })
      ∧ ∀ before e after, c.dir = before ++ e :: after → (∀ x ∈ before, x.row ≠ row) → e.row = row →
        c.endWalk row = (c.removeDamaged e).endWalk row

/-- DAMAGE (R15) of a page not under a program or erase: programmed and erased cells marked change value, weak cells do not, other
bytes and every block stay. That damage of a page beyond the 256 rows of 16 pages stops, and which damaged cells pass which
margin afterwards, are the model's choices (notes/assumptions/12.md), and so is that damage reaches a page or row whose program
or erase was abandoned, or that never had one (29.md). -/
def Obligations.DamageReachesItsPageAlone : Prop :=
  ∀ (row page : Nat) (marks : List CellDamage) (s : State),
    (256 ≤ row ∨ 16 ≤ page → exec (.damage row page marks) s = .fault .noSuchPage)
    ∧ (s.cells.wf → row < 256 → page < 16 → (∀ d ∈ marks, d.off < 64) → (marks.map CellDamage.off).Nodup →
      s.ctl.media.op.touches row page = false →
      ∃ t, exec (.damage row page marks) s = .next t ∧ t.ctl = s.ctl ∧ t.pending = s.pending
      ∧ (∀ a, (∀ d ∈ marks, a ≠ address row page d.off) →
          t.cells.readByte a = s.cells.readByte a ∧ t.cells.weakByte a = s.cells.weakByte a)
      ∧ (∀ d ∈ marks,
          let a := address row page d.off
          t.cells.readByte a = s.cells.readByte a ^^^ (d.flip &&& ~~~ s.cells.weakByte a)
            ∧ t.cells.weakByte a = s.cells.weakByte a ||| (d.flip &&& d.weak)))

/-! ### Frames (R58 to R63) -/

/-- FRAME_START on an idle receiver of an enabled port (R59, R63): the frame begins with the status byte on SDOn, its flags bit
by bit as they stand. On a disabled port (R78), during a device reset (R81), without power, and with a receiver that is not IDLE,
the select line alone changes; with the line low already there is no falling edge, and nothing does, by
the model's choice (notes/assumptions/8.md). -/
def Obligations.FrameStartLatchesTheStatusByte : Prop :=
  (∀ (p : Port) (s : State), (s.ctl.port p).selLow = true → exec (.frameStart p) s = .next s)
  ∧ (∀ (p : Port) (s : State), (s.ctl.port p).selLow = false →
    s.ctl.powered = false ∨ s.ctl.inReset = true ∨ (s.ctl.port p).enabled = false ∨ (s.ctl.port p).rx ≠ .idle →
    exec (.frameStart p) s = .next (s.settled (s.ctl.onPort p fun u => { u with selLow := true })))
  ∧ ∀ (p : Port) (s : State), s.ctl.powered = true → s.ctl.inReset = false → (s.ctl.port p).enabled = true →
    (s.ctl.port p).rx = .idle → (s.ctl.port p).selLow = false →
    ∃ b : Byte, exec (.frameStart p) s = .next (s.settled (s.ctl.onPort p fun u =>
        { u with selLow := true, rx := .receiving [], statusLatch := some b, sdo := some b }))
    ∧ (b.getLsbD 7 = true ↔ s.ctl.sched.mode ≠ .mounting) ∧ (b.getLsbD 6 = true ↔ (s.ctl.port p).queue ≠ [])
    ∧ (b.getLsbD 5 = true ↔ (s.ctl.notif p).queue ≠ []) ∧ b.getLsbD 4 = (s.ctl.port p).ovr
    ∧ b.getLsbD 3 = (s.ctl.port p).frm ∧ b.getLsbD 2 = (s.ctl.notif p).lost
    ∧ (b.getLsbD 1 = true ↔ s.ctl.sched.mode = .readOnly) ∧ b.getLsbD 0 = s.ctl.isAdmin p

/-- FRAME_END (Table 14): the receiver is IDLE with SDOn at high impedance; a frame still being received sets FRM; a readout
cut short removes nothing, and a DRAIN's leaves neither a selection nor an update mark. -/
def Obligations.FrameEndByReceiverState : Prop :=
  ∀ (p : Port) (s : State), (s.ctl.port p).selLow = true →
    let ended := fun u : PortUnit => { u with selLow := false, rx := .idle, statusLatch := none, sdo := none }
    (∀ bytes, (s.ctl.port p).rx = .receiving bytes → exec (.frameEnd p) s =
      .next (s.settled (s.ctl.onPort p fun u => { ended u with frm := true })))
    ∧ (∀ resp rest, (s.ctl.port p).rx = .readout (.collect resp) rest → exec (.frameEnd p) s =
      .next (s.settled (s.ctl.onPort p ended)))
    ∧ (∀ rest, (s.ctl.port p).rx = .readout .drain rest → exec (.frameEnd p) s =
      .next (s.settled ((s.ctl.onPort p ended).onNotif p fun u =>
        { u with queue := u.queue.map (fun n => { n with marked := false }), selection := none })))
    ∧ ((s.ctl.port p).rx = .idle ∨ (s.ctl.port p).rx = .discarding ∨ (s.ctl.port p).rx = .trailing →
      exec (.frameEnd p) s = .next (s.settled (s.ctl.onPort p ended)))

/-- A discarded frame has no effect but FRM (R61): its bytes complete an argument length above 56, or a whole frame whose CRC-16
does not match. -/
def Obligations.DiscardedFrameSetsFrmAlone : Prop :=
  ∀ (p : Port) (held bytes : List Byte) (s : State), (s.ctl.port p).rx = .receiving held → held <+: bytes →
    (bytes.length = 3 ∧ 56 < (byteAt bytes 2).toNat
      ∨ 3 ≤ bytes.length ∧ bytes.length = 5 + (byteAt bytes 2).toNat
        ∧ crc16 (bytes.take (bytes.length - 2)) ≠ halfAt bytes (bytes.length - 2)) →
    exec (.frameDiscard p bytes) s =
      .next (s.settled (s.ctl.onPort p fun u => { u with rx := .discarding, sdo := some 0xFF, frm := true }))

/-- BYTE_COMPLETE by receiver state (R58, R59, R61, R62): a request byte that completes no frame is appended with 0x00 next on SDOn;
one that completes an argument length above 56, or a whole frame whose CRC-16 does not match, has the frame discarded, as its
FRAME_DISCARD does; a readout byte gives way to the next; after a discard, in TRAILING and in IDLE nothing happens. -/
def Obligations.ByteCompleteByReceiverState : Prop :=
  ∀ (p : Port) (b : Byte) (s : State),
    (∀ held, (s.ctl.port p).rx = .receiving held →
      let bytes := held ++ [b]
      let tooLong := bytes.length = 3 ∧ 56 < (byteAt bytes 2).toNat
      let whole := 3 ≤ bytes.length ∧ bytes.length = 5 + (byteAt bytes 2).toNat
      let mismatch := crc16 (bytes.take (bytes.length - 2)) ≠ halfAt bytes (bytes.length - 2)
      (¬ tooLong → ¬ whole → exec (.byteComplete p b) s =
        .next (s.settled (s.ctl.onPort p fun u => { u with rx := .receiving bytes, sdo := some 0x00 })))
      ∧ (tooLong ∨ whole ∧ mismatch →
        exec (.byteComplete p b) s =
          .next (s.settled (s.ctl.onPort p fun u => { u with rx := .discarding, sdo := some 0xFF, frm := true }))
        ∧ exec (.byteComplete p b) s = exec (.frameDiscard p bytes) s))
    ∧ (∀ kind x y rest, (s.ctl.port p).rx = .readout kind (x :: y :: rest) → exec (.byteComplete p b) s =
        .next (s.settled (s.ctl.onPort p fun u => { u with rx := .readout kind (y :: rest), sdo := some y })))
    ∧ ((s.ctl.port p).rx = .discarding ∨ (s.ctl.port p).rx = .trailing ∨ (s.ctl.port p).rx = .idle →
      exec (.byteComplete p b) s = .next s)

/-- The completion of a frame's last CRC byte is the arrival of its command (R60): BYTE_COMPLETE and the command's own row have
one effect, for every command and for an opcode that is none. -/
def Obligations.LastByteMakesTheCommandArrive : Prop :=
  ∀ (p : Port) (tag b : Byte) (args held : List Byte) (s : State), args.length ≤ 56 → (s.ctl.port p).rx = .receiving held →
    (∀ cmd : Cmd, held ++ [b] = frameBytes cmd.code tag args →
      exec (.byteComplete p b) s = exec (cmd.instr p tag args) s)
    ∧ (∀ op : Byte, Cmd.ofCode op = none → held ++ [b] = frameBytes op tag args →
      exec (.byteComplete p b) s = exec (.badCmd p op tag args) s)

/-! ### Credits and the answers every command shares (R64, R75) -/

/-- A command that needs a credit and finds four in use is dropped: OVR is set and nothing else happens (R64). -/
def Obligations.NoCreditDropsTheCommand : Prop :=
  ∀ (p : Port) (tag : Byte) (args : List Byte) (s : State), 4 ≤ (s.ctl.port p).outstanding →
    (∀ cmd : Cmd, cmd.needsCredit = true → s.ctl.frameReady p cmd.code tag args = true →
      exec (cmd.instr p tag args) s =
        .next (s.settled (s.ctl.onPort p fun u => { u with rx := .trailing, sdo := some 0xFF, ovr := true })))
    ∧ (∀ op, Cmd.ofCode op = none → s.ctl.frameReady p op tag args = true →
      exec (.badCmd p op tag args) s =
        .next (s.settled (s.ctl.onPort p fun u => { u with rx := .trailing, sdo := some 0xFF, ovr := true })))

/-- During MOUNTING an accepted command other than IDENT is answered NOT_READY and has no other effect (R75). -/
def Obligations.MountingAnswersNotReady : Prop :=
  ∀ (cmd : Cmd) (p : Port) (tag : Byte) (args : List Byte) (s : State), cmd.needsCredit = true → cmd ≠ .ident →
    s.accepts p cmd.code tag args → s.ctl.sched.mode = .mounting →
    exec (cmd.instr p tag args) s =
      .next (s.settled (s.ctl.answered p ⟨.notReady, tag, cmd.code, if cmd = .compact then [0, 0, 0] else []⟩))

/-- An unknown opcode is answered BAD_CMD with the opcode echoed, in every mode (R64, R75). -/
def Obligations.UnknownOpcodeIsAnsweredBadCmd : Prop :=
  ∀ (p : Port) (op tag : Byte) (args : List Byte) (s : State), Cmd.ofCode op = none → s.accepts p op tag args →
    exec (.badCmd p op tag args) s = .next (s.settled (s.ctl.answered p ⟨.badCmd, tag, op, []⟩))

/-! ### Immediate commands -/

/-- IDENT (R73, R74, Table 51): the 18-byte result in every mode, BAD_ARG with any argument. -/
def Obligations.IdentReportsTheDevice : Prop :=
  ∀ (p : Port) (tag : Byte) (args : List Byte) (s : State), s.accepts p 0x01 tag args →
    (args.length ≠ 0 → exec (.ident p tag args) s = .next (s.settled (s.ctl.answered p ⟨.badArg, tag, 0x01, []⟩)))
    ∧ (args.length = 0 → exec (.ident p tag args) s = .next (s.settled (s.ctl.answered p
      ⟨.ok, tag, 0x01,
        [0x57, 0x4A, 0x32, 0x04, 0x01,
          (match s.ctl.sched.mode with | .mounting => 0 | .ready => 1 | .readOnly => 2),
          (if s.ctl.sched.mode = .readOnly then
            (match s.ctl.sched.reason with | .none => 0 | .sequence => 1 | .media => 2 | .config => 3) else 0),
          (if s.ctl.mount.imageAbsent then 1 else 0) ||| (if s.ctl.mount.truncated then 2 else 0),
          portByte p, (match s.ctl.conf.active with | some x => x.admin | none => 0xFF),
          natByte s.ctl.rows.usable, natByte s.ctl.rows.free]
        ++ natHalf s.ctl.dir.length ++ wordBytes s.ctl.rows.seqCounter⟩)))

/-- QUERY (R54, Table 13). -/
def Obligations.QueryReportsEntryAndClaim : Prop :=
  ∀ (p : Port) (tag : Byte) (args : List Byte) (s : State), s.serves p 0x02 tag args →
    (args.length ≠ 2 ∨ keyOk (halfAt args 0) = false →
      exec (.query p tag args) s = .next (s.settled (s.ctl.answered p ⟨.badArg, tag, 0x02, []⟩)))
    ∧ (args.length = 2 → keyOk (halfAt args 0) = true →
      exec (.query p tag args) s = .next (s.settled (s.ctl.answered p ⟨.ok, tag, 0x02,
        (match s.ctl.lookup (halfAt args 0) with
          | some e => [1, (match e.kind with | .value => 0x01 | .frozen => 0x02)] ++ natHalf e.length ++ wordBytes e.sequence
              ++ [e.readMask ++ e.writeMask, portByte e.writer, natByte e.pages]
          | none => [0, 0, 0, 0, 0, 0, 0, 0, 0, 0xFF, 0])
        ++ (match s.ctl.claimOf (halfAt args 0) with
          | some e => [portByte e.holder, natByte e.waiters.length]
          | none => [0xFF, 0])⟩)))

/-- LIST (R55): the first twelve keys above the start, in the Directory's order, with the more flag; that order is ascending in a
Directory whose keys ascend, which every step keeps (R43, StepsKeepTheArrayCanonical). -/
def Obligations.ListReturnsTheNextKeys : Prop :=
  ∀ (p : Port) (tag : Byte) (args : List Byte) (s : State), s.serves p 0x03 tag args →
    (args.length ≠ 2 ∨ halfAt args 0 = 0xFFFF →
      exec (.list p tag args) s = .next (s.settled (s.ctl.answered p ⟨.badArg, tag, 0x03, []⟩)))
    ∧ (args.length = 2 → halfAt args 0 ≠ 0xFFFF →
      let keys := (s.ctl.dir.map DirEntry.key).filter fun k => (halfAt args 0).toNat < k.toNat
      exec (.list p tag args) s = .next (s.settled (s.ctl.answered p ⟨.ok, tag, 0x03,
        [natByte (keys.take 12).length, if 12 < keys.length then 1 else 0] ++ (keys.take 12).flatMap halfBytes⟩))
      ∧ (dirLaw s.ctl.dir → keys.Pairwise fun x y => x.toNat < y.toNat))

/-- OPEN (R84). -/
def Obligations.OpenBeginsAComposition : Prop :=
  ∀ (p : Port) (tag : Byte) (args : List Byte) (s : State), s.serves p 0x10 tag args →
    (args.length ≠ 5 ∨ keyOk (halfAt args 0) = false ∨ 512 < (halfAt args 2).toNat →
      exec (.opn p tag args) s =
        .next (s.settled (s.ctl.answered p ⟨.badArg, tag, 0x10, natHalf (s.ctl.port p).staging.fill⟩)))
    ∧ (args.length = 5 → keyOk (halfAt args 0) = true → (halfAt args 2).toNat ≤ 512 →
      (∀ k, (s.ctl.port p).staging = .submitted k → exec (.opn p tag args) s =
        .next (s.settled (s.ctl.answered p ⟨.busy, tag, 0x10, natHalf k.data.length⟩)))
      ∧ ((∀ k, (s.ctl.port p).staging ≠ .submitted k) → exec (.opn p tag args) s =
        .next (s.settled (s.ctl.onPort p fun u =>
          { u.answered ⟨.ok, tag, 0x10, [0, 0]⟩ with
            staging := .composing ⟨halfAt args 0, (halfAt args 2).toNat, (byteAt args 4).extractLsb' 4 4,
              (byteAt args 4).extractLsb' 0 4, []⟩ }))))

/-- FILL (R85). -/
def Obligations.FillAppendsInSequence : Prop :=
  ∀ (p : Port) (tag : Byte) (args : List Byte) (s : State), s.serves p 0x11 tag args →
    (args.length < 3 ∨ 50 < args.length → exec (.fill p tag args) s =
      .next (s.settled (s.ctl.answered p ⟨.badArg, tag, 0x11, natHalf (s.ctl.port p).staging.fill⟩)))
    ∧ (3 ≤ args.length → args.length ≤ 50 →
      ((s.ctl.port p).staging = .empty → exec (.fill p tag args) s =
        .next (s.settled (s.ctl.answered p ⟨.noStage, tag, 0x11, [0, 0]⟩)))
      ∧ (∀ k, (s.ctl.port p).staging = .submitted k → exec (.fill p tag args) s =
        .next (s.settled (s.ctl.answered p ⟨.busy, tag, 0x11, natHalf k.data.length⟩)))
      ∧ (∀ k, (s.ctl.port p).staging = .composing k →
        ((halfAt args 0).toNat ≠ k.data.length ∨ k.declared < (halfAt args 0).toNat + (args.length - 2) →
          exec (.fill p tag args) s =
            .next (s.settled (s.ctl.answered p ⟨.badArg, tag, 0x11, natHalf k.data.length⟩)))
        ∧ ((halfAt args 0).toNat = k.data.length → (halfAt args 0).toNat + (args.length - 2) ≤ k.declared →
          exec (.fill p tag args) s = .next (s.settled (s.ctl.onPort p fun u =>
            { u.answered ⟨.ok, tag, 0x11, natHalf (k.data.length + (args.length - 2))⟩ with
              staging := .composing { k with data := k.data ++ args.drop 2 } })))))

/-- ABANDON (R86, R87). A COMMIT not yet started is withdrawn: its request leaves the list (a space wait it had at the front
ends), RELEASE_ON_DONE releases the hold, the buffer is EMPTY, and CANCELLED enters the queue before the ABANDON's own OK. -/
def Obligations.AbandonDiscardsTheComposition : Prop :=
  ∀ (p : Port) (tag : Byte) (args : List Byte) (s : State), s.serves p 0x12 tag args →
    (args.length ≠ 0 → exec (.abandon p tag args) s =
      .next (s.settled (s.ctl.answered p ⟨.badArg, tag, 0x12, natHalf (s.ctl.port p).staging.fill⟩)))
    ∧ (args.length = 0 →
      ((s.ctl.port p).staging = .empty → exec (.abandon p tag args) s =
        .next (s.settled (s.ctl.answered p ⟨.ok, tag, 0x12, [0, 0]⟩)))
      ∧ (∀ k, (s.ctl.port p).staging = .composing k → exec (.abandon p tag args) s =
        .next (s.settled (s.ctl.onPort p fun u =>
          { u.answered ⟨.ok, tag, 0x12, [0, 0]⟩ with staging := .empty })))
      ∧ (∀ k, (s.ctl.port p).staging = .submitted k →
        (s.ctl.commitExecuting p = true → exec (.abandon p tag args) s =
          .next (s.settled (s.ctl.answered p ⟨.busy, tag, 0x12, natHalf k.data.length⟩)))
        ∧ (∀ req release, s.ctl.commitExecuting p = false → s.ctl.waitingCommit p = some req → req.body = .commit release →
          let rest := (s.ctl.requests p).filter fun r => r.body.cmd ≠ .commit
          let left := if (s.ctl.requests p).head? = some req
            then ((s.ctl.onPort p PortUnit.taken).setRequests p rest).setWait p none
            else (s.ctl.onPort p PortUnit.taken).setRequests p rest
          exec (.abandon p tag args) s = .next (s.settled
            ((if release then left.releaseHold p k.key else left).onPort p fun u =>
              { u with
                staging := .empty
                queue := u.queue ++ [⟨.cancelled, req.tag, 0x13, []⟩, ⟨.ok, tag, 0x12, [0, 0]⟩] })))))

/-- ATTNMASK (R72). -/
def Obligations.AttnmaskSetsTheMask : Prop :=
  ∀ (p : Port) (tag : Byte) (args : List Byte) (s : State), s.serves p 0x2A tag args →
    (args.length ≠ 1 ∨ 3 < (byteAt args 0).toNat →
      exec (.attnmask p tag args) s = .next (s.settled (s.ctl.answered p ⟨.badArg, tag, 0x2A, []⟩)))
    ∧ (args.length = 1 → (byteAt args 0).toNat ≤ 3 →
      exec (.attnmask p tag args) s = .next (s.settled (s.ctl.onPort p fun u =>
        { u.answered ⟨.ok, tag, 0x2A, [byteAt args 0]⟩ with attnMask := (byteAt args 0).extractLsb' 0 2 })))

/-- WATCH (R155). -/
def Obligations.WatchAddsAKey : Prop :=
  ∀ (p : Port) (tag : Byte) (args : List Byte) (s : State), s.serves p 0x28 tag args →
    let k := halfAt args 0
    let w := (s.ctl.notif p).watch
    (args.length ≠ 2 ∨ keyOk k = false →
      exec (.watch p tag args) s = .next (s.settled (s.ctl.answered p ⟨.badArg, tag, 0x28, []⟩)))
    ∧ (args.length = 2 → keyOk k = true →
      (k ∈ w → exec (.watch p tag args) s =
        .next (s.settled (s.ctl.answered p ⟨.ok, tag, 0x28, [natByte w.length]⟩)))
      ∧ (k ∉ w → 32 ≤ w.length → exec (.watch p tag args) s =
        .next (s.settled (s.ctl.answered p ⟨.tableFull, tag, 0x28, [natByte w.length]⟩)))
      ∧ (k ∉ w → w.length < 32 → ∃ w' : List Half, (∀ x, x ∈ w' ↔ x = k ∨ x ∈ w) ∧ w'.length = w.length + 1
        ∧ exec (.watch p tag args) s = .next (s.settled
          ((s.ctl.answered p ⟨.ok, tag, 0x28, [natByte (w.length + 1)]⟩).onNotif p fun u => { u with watch := w' }))))

/-- UNWATCH (R156): the key leaves the watch set, and the notices of it stay. -/
def Obligations.UnwatchRemovesAKey : Prop :=
  ∀ (p : Port) (tag : Byte) (args : List Byte) (s : State), s.serves p 0x29 tag args →
    let k := halfAt args 0
    let w := (s.ctl.notif p).watch
    (args.length ≠ 2 ∨ keyOk k = false →
      exec (.unwatch p tag args) s = .next (s.settled (s.ctl.answered p ⟨.badArg, tag, 0x29, []⟩)))
    ∧ (args.length = 2 → keyOk k = true →
      exec (.unwatch p tag args) s = .next (s.settled
        ((s.ctl.answered p
            ⟨.ok, tag, 0x29, [if k ∈ w then 1 else 0, natByte (w.filter fun x => x ≠ k).length]⟩).onNotif p fun u =>
          { u with watch := w.filter fun x => x ≠ k })))

/-- CLAIM (R141, R142, Table 31): the first case that holds gives the outcome, and a CLAIM that joins the waiter list is
answered later. -/
def Obligations.ClaimByItsTable : Prop :=
  ∀ (p : Port) (tag : Byte) (args : List Byte) (s : State) (cfg : Settings), s.serves p 0x20 tag args →
    s.ctl.conf.active = some cfg →
    let k := halfAt args 0
    let hold := halfAt args 2
    let wait := halfAt args 4
    (args.length ≠ 6 ∨ keyOk k = false ∨ hold = 0 ∨ cfg.holdMax.toNat < hold.toNat ∨ cfg.waitMax.toNat < wait.toNat →
      exec (.claim p tag args) s = .next (s.settled (s.ctl.answered p ⟨.badArg, tag, 0x20, []⟩)))
    ∧ (args.length = 6 → keyOk k = true → hold ≠ 0 → hold.toNat ≤ cfg.holdMax.toNat → wait.toNat ≤ cfg.waitMax.toNat →
      (∀ st, s.ctl.writeRefusal p k = some st →
        exec (.claim p tag args) s = .next (s.settled (s.ctl.answered p ⟨st, tag, 0x20, []⟩)))
      ∧ (s.ctl.writeRefusal p k = none → s.ctl.claimOf k = none →
        (16 ≤ s.ctl.claims.length →
          exec (.claim p tag args) s = .next (s.settled (s.ctl.answered p ⟨.tableFull, tag, 0x20, []⟩)))
        ∧ (s.ctl.claims.length < 16 →
          exec (.claim p tag args) s = .next (s.settled
            ((s.ctl.answered p ⟨.ok, tag, 0x20, 1 :: halfBytes hold⟩).setClaim k (some ⟨k, p, hold, []⟩)))))
      ∧ (∀ e, s.ctl.writeRefusal p k = none → s.ctl.claimOf k = some e →
        (e.holder = p → exec (.claim p tag args) s = .next (s.settled
          ((s.ctl.answered p ⟨.ok, tag, 0x20, 2 :: halfBytes hold⟩).setClaim k (some { e with hold := hold }))))
        ∧ (e.holder ≠ p → wait = 0 →
          exec (.claim p tag args) s = .next (s.settled (s.ctl.answered p ⟨.held, tag, 0x20, []⟩)))
        ∧ (e.holder ≠ p → wait ≠ 0 → p ∈ e.waiters.map Waiter.port →
          exec (.claim p tag args) s = .next (s.settled (s.ctl.answered p ⟨.busy, tag, 0x20, []⟩)))
        ∧ (e.holder ≠ p → wait ≠ 0 → p ∉ e.waiters.map Waiter.port → 3 ≤ e.waiters.length →
          exec (.claim p tag args) s = .next (s.settled (s.ctl.answered p ⟨.held, tag, 0x20, []⟩)))
        ∧ (e.holder ≠ p → wait ≠ 0 → p ∉ e.waiters.map Waiter.port → e.waiters.length < 3 →
          exec (.claim p tag args) s = .next (s.settled
            ((s.ctl.onPort p PortUnit.taken).setClaim k
              (some { e with waiters := e.waiters ++ [⟨p, tag, hold, wait⟩] }))))))

/-- What a change of the claim table (R139, R142) or of the Directory (R49 to R53) leaves: the changed key has its new entry,
its entry moved, or none, and every other key its old one. The pages move with the entry (R27, Table 10): those of the record
replaced, deleted or moved away from become dead in its row, those of the record placed become live in its row, and no other row
changes. -/
def Obligations.TablesChangeOneKey : Prop :=
  ∀ (c : Ctl) (k : Half),
    (∀ e, e.key = k → (c.setClaim k (some e)).claimOf k = some e
      ∧ ∀ k', k' ≠ k → (c.setClaim k (some e)).claimOf k' = c.claimOf k')
    ∧ ((c.setClaim k none).claimOf k = none ∧ ∀ k', k' ≠ k → (c.setClaim k none).claimOf k' = c.claimOf k')
    ∧ (∀ e, e.key = k → (c.placeEntry e).lookup k = some e ∧ ∀ k', k' ≠ k → (c.placeEntry e).lookup k' = c.lookup k')
    ∧ ((c.removeEntry k).lookup k = none ∧ ∀ k', k' ≠ k → (c.removeEntry k).lookup k' = c.lookup k')
    ∧ (∀ row page, (c.relocate k row page).lookup k = (c.lookup k).map (fun e => { e with row := row, page := page })
        ∧ ∀ k', k' ≠ k → (c.relocate k row page).lookup k' = c.lookup k')
    ∧ (let dies := fun (q : Nat) (st : RowState) => (match st with
          | .head n live dead next => .head n (live - q) (dead + q) next
          | .closed n live dead => .closed n (live - q) (dead + q)
          | x => x : RowState)
      let lives := fun (q : Nat) (st : RowState) => (match st with
          | .head n live dead next => .head n (live + q) (dead - q) next
          | .closed n live dead => .closed n (live + q) (dead - q)
          | x => x : RowState)
      let gone := fun (r : Nat) => (match c.lookup k with
          | some old => if r = old.row then dies old.pages (c.rows.state r) else c.rows.state r
          | none => c.rows.state r)
      (∀ r, (c.removeEntry k).rows.state r = gone r)
      ∧ (∀ e, e.key = k → ∀ r, (c.placeEntry e).rows.state r = if r = e.row then lives e.pages (gone r) else gone r)
      ∧ ∀ old row page, c.lookup k = some old → ∀ r, (c.relocate k row page).rows.state r =
          let moved := if r = row then lives old.pages (c.rows.state r) else c.rows.state r
          if r = old.row then dies old.pages moved else moved)

/-- RELEASE (R145): a hold ends with its promotion, a wait is withdrawn with CANCELLED before the RELEASE's own answer, and
anything else is answered NOT_HELD. -/
def Obligations.ReleaseEndsHoldOrWait : Prop :=
  ∀ (p : Port) (tag : Byte) (args : List Byte) (s : State), s.serves p 0x21 tag args → s.ctl.claimLaw →
    let k := halfAt args 0
    (args.length ≠ 2 ∨ keyOk k = false →
      exec (.release p tag args) s = .next (s.settled (s.ctl.answered p ⟨.badArg, tag, 0x21, []⟩)))
    ∧ (args.length = 2 → keyOk k = true →
      (s.ctl.claimOf k = none →
        exec (.release p tag args) s = .next (s.settled (s.ctl.answered p ⟨.notHeld, tag, 0x21, []⟩)))
      ∧ (∀ e, s.ctl.claimOf k = some e →
        (e.holder = p → exec (.release p tag args) s = .next (s.settled
          (((s.ctl.onPort p PortUnit.taken).endHold k).enter p ⟨.ok, tag, 0x21, [1]⟩)))
        ∧ (∀ w ∈ e.waiters, w.port = p → exec (.release p tag args) s = .next (s.settled
          ((s.ctl.onPort p fun u =>
              { u.taken with queue := u.queue ++ [⟨.cancelled, w.tag, 0x20, []⟩, ⟨.ok, tag, 0x21, [2]⟩] }).setClaim k
            (some { e with waiters := e.waiters.filter fun x => x.port ≠ p }))))
        ∧ (e.holder ≠ p → p ∉ e.waiters.map Waiter.port →
          exec (.release p tag args) s = .next (s.settled (s.ctl.answered p ⟨.notHeld, tag, 0x21, []⟩)))))

/-! ### Claims: the end of a hold (R144, R146, R147) -/

/-- HOLD_TIMER_EXPIRY (R146) and the promotion it makes (R144): the waiters before the first with the right are answered DENIED in
order, that one takes the key with its own hold time and the rest of the list behind it, and with no such waiter the key is
free; the former holder gets no response. That nothing happens without a claim entry is the model's choice
(notes/assumptions/8.md). -/
def Obligations.HoldExpiryPassesTheKey : Prop :=
  ∀ (k : Half) (s : State),
    (s.ctl.claimOf k = none → exec (.holdTimerExpiry k) s = .next s)
    ∧ ∀ (e : ClaimEntry) (refused : List Waiter), s.ctl.claimOf k = some e →
      (∀ w ∈ refused, s.ctl.writeRefusal w.port k ≠ none) →
      let denied := refused.map fun w => (w.port, (⟨.denied, w.tag, 0x20, []⟩ : Response))
      (e.waiters = refused →
        exec (.holdTimerExpiry k) s = .next (s.settled ((s.ctl.setClaim k none).enterAll denied)))
      ∧ ∀ (w : Waiter) (rest : List Waiter), e.waiters = refused ++ w :: rest → s.ctl.writeRefusal w.port k = none →
        exec (.holdTimerExpiry k) s = .next (s.settled
          (((s.ctl.setClaim k (some ⟨k, w.port, w.hold, rest⟩)).enterAll denied).enter w.port
            ⟨.ok, w.tag, 0x20, 3 :: halfBytes w.hold⟩))

/-- WAIT_TIMER_EXPIRY (R147): the waiter entry leaves the list, its CLAIM completes TIMEOUT, and the holder and the other waiters
stay. That nothing happens where the port does not wait on the key is the model's choice (notes/assumptions/8.md). -/
def Obligations.WaitExpiryTimesOut : Prop :=
  ∀ (k : Half) (p : Port) (s : State), s.ctl.claimLaw →
    (∀ e w, s.ctl.claimOf k = some e → w ∈ e.waiters → w.port = p →
      exec (.waitTimerExpiry k p) s = .next (s.settled
        ((s.ctl.setClaim k (some { e with waiters := e.waiters.filter fun x => x.port ≠ p })).enter p
          ⟨.timeout, w.tag, 0x20, []⟩)))
    ∧ (s.ctl.claimOf k = none → exec (.waitTimerExpiry k p) s = .next s)
    ∧ (∀ e, s.ctl.claimOf k = some e → p ∉ e.waiters.map Waiter.port → exec (.waitTimerExpiry k p) s = .next s)

/-! ### Readouts and RESYNC (R68, R69, R76, R77, R160, R162) -/

/-- COLLECT (R68): the oldest response, or the empty record, begins its readout; nothing leaves the queue and no credit moves. -/
def Obligations.CollectBeginsAReadout : Prop :=
  ∀ (p : Port) (tag : Byte) (args : List Byte) (s : State), s.ctl.frameReady p 0x3E tag args = true →
    (∀ r rest, (s.ctl.port p).queue = r :: rest →
      let bytes := [r.status.code, r.tag, r.opcode, natByte r.result.length] ++ r.result
      exec (.collect p tag args) s = .next (s.settled (s.ctl.onPort p fun u =>
        { u with rx := .readout (.collect true) (bytes ++ halfBytes (crc16 bytes)), sdo := some r.status.code })))
    ∧ ((s.ctl.port p).queue = [] → exec (.collect p tag args) s = .next (s.settled (s.ctl.onPort p fun u =>
        { u with rx := .readout (.collect false) ([0, 0, 0, 0] ++ halfBytes (crc16 [0, 0, 0, 0])), sdo := some 0 })))

/-- A COLLECT readout completes (R69): the response selected leaves the head of the queue with its credit, OVR and FRM are
cleared, and the receiver is TRAILING with 0xFF on SDOn; the last byte's BYTE_COMPLETE is that completion. -/
def Obligations.CollectReadoutRemovesItsResponse : Prop :=
  ∀ (p : Port) (s : State) (rest : List Byte),
    ((s.ctl.port p).rx = .readout (.collect true) rest → exec (.collectReadoutComplete p) s =
      .next (s.settled (s.ctl.onPort p fun u =>
        { u with
          queue := u.queue.tail
          outstanding := u.outstanding - 1
          ovr := false
          frm := false
          rx := .trailing
          sdo := some 0xFF })))
    ∧ ((s.ctl.port p).rx = .readout (.collect false) rest → exec (.collectReadoutComplete p) s =
      .next (s.settled (s.ctl.onPort p fun u => { u with ovr := false, frm := false, rx := .trailing, sdo := some 0xFF })))
    ∧ ∀ resp last b, (s.ctl.port p).rx = .readout (.collect resp) [last] →
        exec (.byteComplete p b) s = exec (.collectReadoutComplete p) s

/-- DRAIN (R160): the oldest four notices, or all when fewer, and LOST are selected and shifted out with their CRC-16; the queue,
the flag and the credits stay. -/
def Obligations.DrainSelectsTheOldestNotices : Prop :=
  ∀ (p : Port) (tag : Byte) (args : List Byte) (s : State), s.ctl.frameReady p 0x3F tag args = true →
    let u := s.ctl.notif p
    let kind := fun k : NoticeKind => (match k with | .changed => 1 | .deleted => 2 | .frozen => 3 | .damaged => 4 : Byte)
    let writer := fun q : Option Port => (match q with | some q => portByte q | none => 0xFF : Byte)
    let bytes := [natByte (u.queue.take 4).length, if u.lost then 1 else 0]
      ++ (u.queue.take 4).flatMap fun n => halfBytes n.key ++ [kind n.kind, writer n.writer] ++ wordBytes n.sequence
    exec (.drain p tag args) s = .next (s.settled
      ((s.ctl.onPort p fun v =>
          { v with rx := .readout .drain (bytes ++ halfBytes (crc16 bytes)), sdo := some (natByte (u.queue.take 4).length) }).onNotif
        p fun v => { v with selection := some ⟨(u.queue.take 4).map Notice.key, u.lost, false⟩ }))

/-- A DRAIN readout completes (R162): the selected notices without an update mark leave, the others stay in order with their
marks cleared, LOST is cleared when it was reported and no loss followed; the last byte's BYTE_COMPLETE is that completion. -/
def Obligations.DrainReadoutRemovesWhatItShowed : Prop :=
  ∀ (p : Port) (s : State) (rest : List Byte) (sel : ReadoutSelection), (s.ctl.port p).rx = .readout .drain rest →
    (s.ctl.notif p).selection = some sel →
    exec (.drainReadoutComplete p) s = .next (s.settled
      ((s.ctl.onPort p fun u => { u with rx := .trailing, sdo := some 0xFF }).onNotif p fun u =>
        { u with
          queue := (u.queue.filter fun n => n.marked || !sel.keys.contains n.key).map fun n => { n with marked := false }
          lost := u.lost && !(sel.lostReported && !sel.lateLoss)
          selection := none }))
    ∧ ∀ last b, rest = [last] → exec (.byteComplete p b) s = exec (.drainReadoutComplete p) s

/-- A notice placed in a port's queue (R158, R159, R161): it overwrites its key's entry in place, marking it when it is selected;
it is appended when the queue holds fewer than 8; it is dropped with LOST, and the late-loss mark, otherwise. -/
def Obligations.NoticeCoalescesOrIsAppendedOrLost : Prop :=
  ∀ (u : NotifUnit) (n : Notice),
    (∀ before e after, u.queue = before ++ e :: after → e.key = n.key → (∀ x ∈ before ++ after, x.key ≠ n.key) →
      u.place n = { u with queue := before
        ++ ⟨n.key, n.kind, n.writer, n.sequence,
            e.marked || (match u.selection with | some sel => sel.keys.contains n.key | none => false)⟩ :: after })
    ∧ ((∀ x ∈ u.queue, x.key ≠ n.key) → u.queue.length < 8 →
      u.place n = { u with queue := u.queue ++ [⟨n.key, n.kind, n.writer, n.sequence, false⟩] })
    ∧ ((∀ x ∈ u.queue, x.key ≠ n.key) → 8 ≤ u.queue.length →
      u.place n = { u with lost := true, selection := u.selection.map fun sel => { sel with lateLoss := true } })

/-- RESYNC (R76, R77, R122, R138, R151, R164): the port's state in every block is as at a fresh start but for its operation
executing, whose response is marked for discard, and a tied COMPACT request, which is marked as well; nothing else changes but the
claims. There the port's waits are withdrawn without responses, then its holds end in ascending key order: each key passes to the
first waiter left that may have it, the waiters it reaches being answered, or becomes free; every other key keeps its holder and
its other waiters. -/
def Obligations.ResyncFreesThePort : Prop :=
  ∀ (p : Port) (tag : Byte) (args : List Byte) (s : State), s.ctl.frameReady p 0x7F tag args = true →
    let c := s.ctl
    let freed : Ctl := { c.onPort p fun u =>
        { u with
          rx := .trailing
          sdo := some 0xFF
          queue := []
          ovr := false
          frm := false
          attnMask := 0b11
          staging := (match u.staging with
            | .submitted k => if c.commitExecuting p then .submitted k else .empty
            | _ => .empty)
          outstanding := if c.sched.current.isOf p then 1 else 0 } with
      notifs := c.notifs.set p ⟨[], [], false, (c.notif p).selection⟩
      sched := { c.sched with
        lists := c.sched.lists.set p []
        waits := c.sched.waits.set p none
        compactList := (c.sched.compactList.filter fun r => r.tied || r.port ≠ p).map fun r : CompactReq =>
          if r.port = p then { r with discard := true } else r
        current := (match c.sched.current with
          | .port req act => .port { req with discard := req.discard || req.port = p } act
          | x => x) } }
    let d := freed.resyncClaims p
    exec (.resync p tag args) s = .next (s.settled d)
    ∧ d = { freed with claims := d.claims, ports := d.ports }
    ∧ (c.claimLaw →
      let left := fun e : ClaimEntry => e.waiters.filter fun w => w.port ≠ p
      let told := (c.claims.filter fun e => e.holder = p).flatMap fun e => (c.promote e.key (left e)).2
      (∀ q, d.port q = { freed.port q with queue := (freed.port q).queue ++ (told.filter fun r => r.1 = q).map (·.2) })
      ∧ (∀ k, c.claimOf k = none → d.claimOf k = none)
      ∧ (∀ k e, c.claimOf k = some e → e.holder = p → d.claimOf k = (c.promote k (left e)).1)
      ∧ (∀ k e, c.claimOf k = some e → e.holder ≠ p → d.claimOf k = some { e with waiters := left e })
      ∧ ∀ e ∈ d.claims, e.holder ≠ p ∧ p ∉ e.waiters.map Waiter.port)

/-! ### Array commands at their arrival (R90 to R98) -/

/-- COMMIT's checks in order (R92): READ_ONLY, NO_STAGE or BUSY, SHORT, FROZEN or DENIED, HELD; the first that fails answers, and
the staging buffer stays. A COMMIT that passes has the buffer SUBMITTED and joins its list (R91), and the next step is chosen when
none executes (R101).
The start of a port operation (R108, R109): the re-checks of Table 25 in their order, the first that fails completing it. A write
that passes completes FULL when FULL was due (R114); otherwise it takes its sequence number, the limit mark being set when the
counter reaches the limit (R39, R112), and its record of Table 26 (R111) is placed, with the masks of R48 for a COMMIT. READ and
FREEZE read the first page of the current record (R115, R116); a FREEZE whose record has been read whole completes DATA_ERR when
it does not check, FULL when FULL was due, and is written FROZEN otherwise, in this order by the model's reading of R114 and R116
(notes/assumptions/15.md). That a port waiting on the key another port holds is refused HELD is the model's choice between the
rules (33.md). -/
def Obligations.CommitChecksThenJoins : Prop :=
  (∀ (p : Port) (tag : Byte) (args : List Byte) (s : State), s.serves p 0x13 tag args →
    let refused := fun st : Status => exec (.commit p tag args) s = .next (s.settled (s.ctl.answered p ⟨st, tag, 0x13, []⟩))
    (args.length ≠ 1 ∨ byteAt args 0 &&& 0xFE ≠ 0 → refused .badArg)
    ∧ (args.length = 1 → byteAt args 0 &&& 0xFE = 0 →
      (s.ctl.sched.mode = .readOnly → refused .readOnly)
      ∧ (s.ctl.sched.mode = .ready →
        ((s.ctl.port p).staging = .empty → refused .noStage)
        ∧ (∀ k, (s.ctl.port p).staging = .submitted k → refused .busy)
        ∧ ∀ k, (s.ctl.port p).staging = .composing k →
          (k.data.length < k.declared → refused .short)
          ∧ (k.declared ≤ k.data.length →
            (∀ st, s.ctl.writeRefusal p k.key = some st → refused st)
            ∧ (s.ctl.writeRefusal p k.key = none → s.ctl.heldAgainst p k.key = true → refused .held)
            ∧ (s.ctl.writeRefusal p k.key = none → s.ctl.heldAgainst p k.key = false →
              exec (.commit p tag args) s = .next (s.settled (Ctl.schedule
                ((s.ctl.onPort p fun u => { u.taken with staging := .submitted k }).setRequests p
                  (s.ctl.requests p ++ [⟨p, tag, .commit ((byteAt args 0).getLsbD 0), false⟩])))))))))
  ∧ ∀ (c : Ctl) (req : Request) (full : Bool),
    let p := req.port
    let seq := c.rows.seqCounter
    let readOnly := c.sched.mode = .readOnly
    let refused := fun st : Status => c.execute req full = c.refuse req st
    let record := fun (h : RecHeader) (payload : List Byte) =>
      Ctl.placeRecord { c with
        rows := { c.rows with seqCounter := seq + 1 }
        sched := { c.sched with limitMark := c.sched.limitMark || decide (seq + 1 = 0xFFFFFF00) } }
        ⟨h, recordImages h payload, .port false⟩
    let reads := fun (e : DirEntry) (b : Bool) => c.execute req full = { c with
      media := { c.media with op := .reading e.row e.page }
      sched := { c.sched with current := c.sched.current.withActivity (.readRecord e [] b) } }
    (∀ release k, req.body = .commit release → (c.port p).staging = .submitted k →
      (readOnly → refused .readOnly)
      ∧ (¬ readOnly → ∀ st, c.writeRefusal p k.key = some st → refused st)
      ∧ (¬ readOnly → c.writeRefusal p k.key = none →
        (c.heldAgainst p k.key = true → refused .held)
        ∧ (c.heldAgainst p k.key = false → c.lookup k.key = none → 512 ≤ c.dir.length → refused .dirFull)
        ∧ (c.heldAgainst p k.key = false → (c.lookup k.key = none → c.dir.length < 512) →
          (full = true → refused .full)
          ∧ (full = false → c.execute req full =
            record ⟨k.key, k.declared, seq, .value, (c.resolveMasks p k).1 ++ (c.resolveMasks p k).2, p, pagesFor k.declared⟩
              (k.data.take k.declared)))))
    ∧ (∀ k, req.body = .delete k →
      (readOnly → refused .readOnly)
      ∧ (¬ readOnly → c.lookup k = none → refused .noKey)
      ∧ ∀ e, ¬ readOnly → c.lookup k = some e →
        (∀ st, c.writeRefusal p k = some st → refused st)
        ∧ (c.writeRefusal p k = none → c.heldAgainst p k = true → refused .held)
        ∧ (c.writeRefusal p k = none → c.heldAgainst p k = false →
          (full = true → refused .full)
          ∧ (full = false → c.execute req full =
            record ⟨e.key, 0, seq, .tombstone, e.readMask ++ e.writeMask, p, 1⟩ [])))
    ∧ (∀ k offset count, req.body = .read k offset count →
      (∀ st, c.readRefusal p k = some st → refused st)
      ∧ ∀ e, c.lookup k = some e → c.readRefusal p k = none →
        (e.length < offset + count → refused .badArg) ∧ (offset + count ≤ e.length → reads e false))
    ∧ (∀ k, req.body = .freeze k →
      (readOnly → refused .readOnly)
      ∧ (¬ readOnly → c.isAdmin p = false → refused .denied)
      ∧ (¬ readOnly → c.isAdmin p = true → c.lookup k = none → refused .noKey)
      ∧ ∀ e, ¬ readOnly → c.isAdmin p = true → c.lookup k = some e →
        (e.kind = .frozen → refused .frozen) ∧ (e.kind = .value → reads e full))
    ∧ (req.body = .compact ∨ (∃ a, req.body = .setconf a) →
      (readOnly → refused .readOnly) ∧ (¬ readOnly → c.isAdmin p = false → refused .denied))
    ∧ (∀ a, req.body = .setconf a → ¬ readOnly → c.isAdmin p = true → c.conf.lock = 1 → refused .locked)
    ∧ (req.body = .reload → c.isAdmin p = false → refused .denied)
    ∧ ∀ (k : Half) (e : DirEntry) (got : List Page) (data : Page), req.body = .freeze k →
      c.sched.current = .port req (.readRecord e got full) → e.pages ≤ got.length + 1 →
      let pages := got ++ [data]
      (checkRecord e pages = none → c.readEnded data = c.refuse req .dataErr)
      ∧ ∀ h, checkRecord e pages = some h →
        (full = true → c.readEnded data = c.refuse req .full)
        ∧ (full = false → c.readEnded data =
          record ⟨h.key, h.length, seq, .frozen, h.access, p, h.pages⟩ (recordPayload h pages))

/-- The arrival checks of DELETE, READ, FREEZE, COMPACT, SETCONF and RELOAD in order (R90, R93 to R98), outside READ_ONLY where the
command is refused there: the argument form, the key's entry, rights, hold, bounds, the field ranges of R97, the lock. The first
that fails answers and nothing else changes; a command that passes joins its port's list with its arguments as checked (R91),
and the next step is chosen when none executes (R101): ReadStartsOnAnIdleDevice says what `Ctl.schedule` does.
That a DELETE from a port waiting on the key another port holds is refused HELD is the model's choice between the rules
(notes/assumptions/33.md). -/
def Obligations.ArrayCommandJoinsItsList : Prop :=
  ∀ (p : Port) (tag : Byte) (args : List Byte) (s : State),
    let c := s.ctl
    let k := halfAt args 0
    let refused := fun (cmd : Cmd) (st : Status) (result : List Byte) =>
      exec (cmd.instr p tag args) s = .next (s.settled (c.answered p ⟨st, tag, cmd.code, result⟩))
    let joins := fun (cmd : Cmd) (body : ReqBody) =>
      exec (cmd.instr p tag args) s = .next (s.settled (c.queued p tag body).schedule)
    (s.serves p 0x14 tag args →
      (args.length ≠ 2 ∨ keyOk k = false → refused .delete .badArg [])
      ∧ (args.length = 2 → keyOk k = true → c.sched.mode = .ready →
        (c.lookup k = none → refused .delete .noKey [])
        ∧ ∀ e, c.lookup k = some e →
          let writes := c.isAdmin p = true ∨ e.writeMask.getLsbD (portNum p) = true
          let held := ∃ x, c.claimOf k = some x ∧ x.holder ≠ p
          (e.kind = .frozen → refused .delete .frozen [])
          ∧ (e.kind = .value → ¬ writes → refused .delete .denied [])
          ∧ (e.kind = .value → writes → held → refused .delete .held [])
          ∧ (e.kind = .value → writes → ¬ held → joins .delete (.delete k))))
    ∧ (s.serves p 0x15 tag args →
      let offset := (halfAt args 2).toNat
      let count := (byteAt args 4).toNat
      (args.length ≠ 5 ∨ keyOk k = false ∨ 512 < offset ∨ 48 < count → refused .read .badArg [])
      ∧ (args.length = 5 → keyOk k = true → offset ≤ 512 → count ≤ 48 →
        (c.lookup k = none → refused .read .noKey [])
        ∧ ∀ e, c.lookup k = some e →
          let reads := c.isAdmin p = true ∨ e.readMask.getLsbD (portNum p) = true
          (¬ reads → refused .read .denied [])
          ∧ (reads → e.length < offset + count → refused .read .badArg [])
          ∧ (reads → offset + count ≤ e.length → joins .read (.read k offset count))))
    ∧ (s.serves p 0x30 tag args →
      (args.length ≠ 2 ∨ keyOk k = false → refused .freeze .badArg [])
      ∧ (args.length = 2 → keyOk k = true → c.sched.mode = .ready →
        (c.isAdmin p = false → refused .freeze .denied [])
        ∧ (c.isAdmin p = true → c.lookup k = none → refused .freeze .noKey [])
        ∧ ∀ e, c.isAdmin p = true → c.lookup k = some e →
          (e.kind = .frozen → refused .freeze .frozen []) ∧ (e.kind = .value → joins .freeze (.freeze k))))
    ∧ (s.serves p 0x31 tag args →
      (args.length ≠ 0 → refused .compact .badArg [0, 0, 0])
      ∧ (args.length = 0 → c.sched.mode = .ready →
        (c.isAdmin p = false → refused .compact .denied [0, 0, 0]) ∧ (c.isAdmin p = true → joins .compact .compact)))
    ∧ (s.serves p 0x32 tag args →
      let x : Settings := ⟨byteAt args 0, byteAt args 1, byteAt args 2, byteAt args 3, halfAt args 4, halfAt args 6⟩
      let lock := byteAt args 8
      let inRange := (1 ≤ x.enable.toNat ∧ x.enable.toNat ≤ 15)
        ∧ (x.admin = 0xFF ∨ x.admin.toNat ≤ 3 ∧ x.enable.getLsbD x.admin.toNat = true) ∧ x.create.toNat ≤ 15
        ∧ (3 ≤ x.low.toNat ∧ x.low.toNat ≤ 16) ∧ (1 ≤ x.holdMax.toNat ∧ x.holdMax.toNat ≤ 60000)
        ∧ x.waitMax.toNat ≤ 60000 ∧ lock.toNat ≤ 1
      (args.length ≠ 9 → refused .setconf .badArg [])
      ∧ (args.length = 9 → c.sched.mode = .ready →
        (c.isAdmin p = false → refused .setconf .denied [])
        ∧ (c.isAdmin p = true → ¬ inRange → refused .setconf .badArg [])
        ∧ (c.isAdmin p = true → inRange → c.conf.lock = 1 → refused .setconf .locked [])
        ∧ (c.isAdmin p = true → inRange → c.conf.lock ≠ 1 → joins .setconf (.setconf ⟨x, lock⟩))))
    ∧ (s.serves p 0x33 tag args →
      (args.length ≠ 0 → refused .reload .badArg [])
      ∧ (args.length = 0 →
        (c.isAdmin p = false → refused .reload .denied []) ∧ (c.isAdmin p = true → joins .reload .reload)))

/-- In READ_ONLY the commands that would change the array are refused READ_ONLY at their arrival, form permitting (R120). The
entry into READ_ONLY (R119, R136): within a port operation the COMPACT request list is answered and a pass under way abandoned,
within a step of the agent the step answers it later; outside READY nothing changes. The agent's halt (R131) enters it with
MEDIA unless the mode is READ_ONLY already, and answers the list, the tied request MEDIA or READ_ONLY. Three of these are the
model's readings: that the entry within a step of the agent answers nothing itself (notes/assumptions/24.md), that the pass counts
stay at the halt (21.md), and that the rows, a head among them, stay at the halt (26.md, its choice). -/
def Obligations.ReadOnlyRefusesChanges : Prop :=
  (∀ (p : Port) (tag : Byte) (args : List Byte) (s : State), s.ctl.sched.mode = .readOnly →
    (s.serves p 0x14 tag args → args.length = 2 → keyOk (halfAt args 0) = true →
      exec (.delete p tag args) s = .next (s.settled (s.ctl.answered p ⟨.readOnly, tag, 0x14, []⟩)))
    ∧ (s.serves p 0x30 tag args → args.length = 2 → keyOk (halfAt args 0) = true →
      exec (.freeze p tag args) s = .next (s.settled (s.ctl.answered p ⟨.readOnly, tag, 0x30, []⟩)))
    ∧ (s.serves p 0x31 tag args → args.length = 0 →
      exec (.compact p tag args) s = .next (s.settled (s.ctl.answered p ⟨.readOnly, tag, 0x31, [0, 0, 0]⟩)))
    ∧ (s.serves p 0x32 tag args → args.length = 9 →
      exec (.setconf p tag args) s = .next (s.settled (s.ctl.answered p ⟨.readOnly, tag, 0x32, []⟩))))
  ∧ (∀ (c : Ctl) (reason : Reason),
    (c.sched.mode ≠ .ready → c.enterReadOnly reason = c)
    ∧ (c.sched.mode = .ready →
      (∀ req act, c.sched.current = .port req act → c.enterReadOnly reason =
        { c.enterAll (c.readOnlyAnswers .readOnly) with
          agent := (match c.agent.state with
            | .scanning _ _ => ⟨.idle, none, 0, 0⟩
            | .erasing _ => ⟨.idle, none, 0, 0⟩
            | _ => c.agent)
          sched := { c.sched with mode := .readOnly, reason := reason, compactList := [] } })
      ∧ ((∀ req act, c.sched.current ≠ .port req act) → c.enterReadOnly reason =
        { c with sched := { c.sched with mode := .readOnly, reason := reason } })))
  ∧ ∀ (c : Ctl) (act : Activity), c.sched.current = .agent act →
    let halted := { c.agent with state := .halted, retryMark := none }
    (c.sched.mode = .ready → c.haltAgent = { c.enterAll (c.readOnlyAnswers .media) with
      agent := halted
      sched := { c.sched with mode := .readOnly, reason := .media, compactList := [], turn := .ports, current := .none } })
    ∧ (c.sched.mode = .readOnly → c.haltAgent = { c.enterAll (c.readOnlyAnswers .readOnly) with
      agent := halted
      sched := { c.sched with compactList := [], turn := .ports, current := .none } })

/-- What starts when no step executes and every list is empty (R101, R106, R107). With no work for the agent, a command that passes
its checks starts at once: READ reads the first page of its record (R115); RELOAD reads page 0 of the current row, or without a
stored copy loads the defaults (R173, R174); SETCONF erases the target row of its image (R168, R171; after a
failed write without a stored copy by the model's choice, notes/assumptions/34.md), or completes MEDIA at the
generation limit; COMPACT is answered zeros when the tail is not CLOSED (R110, R135), and otherwise begins a pass on the tail,
which is tied to it (R125). With work for the agent, it begins a pass tied to the oldest request, reads the page at its cursor, or
erases the pass row (R125, R126, R134). A COMPACT that executes while a pass is under way or the tail is CLOSED joins the COMPACT
request list; one whose discard mark is set returns its credit (R110). The choice of the next step with any lists: the
agent has work by R105; a front is eligible by the five cases of R103, FULL being due by the three of R104 over the available pages
of R38; the space waits of all ports are judged at every moment of choice, by the model's reading of R104 (notes/assumptions/17.md);
the port served is the first eligible one from the search start (R107), the turn decides between it and the agent (R106), its front
starts with its wait ended and the search start behind it, and an operation that completes at its start is followed by the next
choice (R101). -/
def Obligations.ReadStartsOnAnIdleDevice : Prop :=
  (∀ (p : Port) (tag : Byte) (args : List Byte) (s : State), s.ctl.sched.current = .none → (∀ q, s.ctl.requests q = []) →
    s.ctl.agentHasWork = false →
    let c := s.ctl
    let started := fun (media : Media) (body : ReqBody) (act : Activity) =>
      { c.onPort p PortUnit.taken with
        media := media
        sched := { c.sched with
          waits := PerPort.const none
          searchStart := nextPort p
          current := .port ⟨p, tag, body, false⟩ act } }
    let ended := fun (st : Status) (op : Byte) (result : List Byte) =>
      { c.answered p ⟨st, tag, op, result⟩ with
        sched := { c.sched with waits := PerPort.const none, searchStart := nextPort p, turn := .compaction } }
    (∀ e, s.serves p 0x15 tag args → args.length = 5 → keyOk (halfAt args 0) = true → (halfAt args 2).toNat ≤ 512 →
      (byteAt args 4).toNat ≤ 48 → c.lookup (halfAt args 0) = some e → (halfAt args 2).toNat + (byteAt args 4).toNat ≤ e.length →
      c.readRefusal p (halfAt args 0) = none →
      exec (.read p tag args) s = .next (s.settled (started { c.media with op := .reading e.row e.page }
        (.read (halfAt args 0) (halfAt args 2).toNat (byteAt args 4).toNat) (.readRecord e [] false))))
    ∧ (s.serves p 0x33 tag args → args.length = 0 → c.isAdmin p = true →
      (∀ copy, c.conf.stored = some copy → exec (.reload p tag args) s = .next (s.settled
        (started { c.media with op := .reading (match copy.row with | .s0 => 0 | .s1 => 1) 0 } .reload .readImage)))
      ∧ (c.conf.stored = none →
        let conf := { c.conf with active := some ⟨0x0F, 0, 0x0F, 4, 10000, 2000⟩ }
        ({ c with conf := conf } : Ctl).agentHasWork = false → exec (.reload p tag args) s = .next (s.settled
          { ended .ok 0x33 [0, 0, 0, 0] with
            ports := (ended .ok 0x33 [0, 0, 0, 0]).ports.map fun _ u => { u with enabled := true }
            conf := conf })))
    ∧ (∀ a, s.serves p 0x32 tag args → confArgs args = some a → c.sched.mode = .ready → c.isAdmin p = true → a.inRange = true →
      c.conf.lock ≠ 1 →
      let target := (match c.conf.stored with
        | some ⟨.s0, _⟩ => .s1
        | some ⟨.s1, _⟩ => .s0
        | none => if c.conf.faulted0 = true ∧ c.conf.faulted1 = false then .s1 else .s0 : SysRow)
      let row := (match target with | .s0 => 0 | .s1 => 1 : Nat)
      let generation := (match c.conf.stored with | some copy => copy.image.generation | none => 0 : Word)
      (generation ≠ 0xFFFFFFFF → exec (.setconf p tag args) s = .next (s.settled
        (started ⟨.erasing row 0, c.media.disturb.filter fun x => x.1 ≠ row⟩ (.setconf a)
          (.image .erase ⟨target, ⟨generation + 1, a.settings, a.lock, c.conf.retired⟩⟩ .setconf))))
      ∧ (generation = 0xFFFFFFFF → c.sched.limitMark = false →
        exec (.setconf p tag args) s = .next (s.settled (ended .media 0x32 []))))
    ∧ (s.serves p 0x31 tag args → args.length = 0 → c.sched.mode = .ready → c.isAdmin p = true → c.agent.state = .idle →
      (c.rows.tailClosed = false → exec (.compact p tag args) s = .next (s.settled (ended .ok 0x31 [0, 0, 0])))
      ∧ ∀ row rest n live dead, c.rows.ring = row :: rest → c.rows.state row = .closed n live dead →
        exec (.compact p tag args) s = .next (s.settled { c.onPort p PortUnit.taken with
          media := { c.media with op := .reading row 1 }
          agent := ⟨.scanning row 1, none, 0, 0⟩
          sched := { c.sched with
            waits := PerPort.const none
            searchStart := nextPort p
            turn := .compaction
            compactList := [⟨p, tag, false, true⟩]
            current := .agent (.scan []) } })))
  ∧ (∀ c : Ctl, c.sched.current = .none → (∀ q, c.requests q = []) → c.agentHasWork = true →
    let starts := fun (media : Media) (agent : Agent) (list : List CompactReq) (act : Activity) =>
      c.schedule = { c with
        media := media
        agent := agent
        sched := { c.sched with waits := PerPort.const none, compactList := list, current := .agent act } }
    (∀ row rest, c.agent.state = .idle → c.rows.ring = row :: rest → (∀ r ∈ c.sched.compactList, r.tied = false) →
      starts { c.media with op := .reading row 1 } ⟨.scanning row 1, none, 0, 0⟩
        (match c.sched.compactList with | [] => [] | r :: l => { r with tied := true } :: l) (.scan []))
    ∧ (∀ row cursor, c.agent.state = .scanning row cursor →
      starts { c.media with op := .reading row cursor } c.agent c.sched.compactList (.scan []))
    ∧ ∀ row, c.agent.state = .erasing row →
      starts ⟨.erasing row 0, c.media.disturb.filter fun x => x.1 ≠ row⟩ c.agent c.sched.compactList .tailErase)
  ∧ (∀ (c : Ctl) (req : Request) (full : Bool), req.body = .compact → c.sched.mode ≠ .readOnly → c.isAdmin req.port = true →
    let ended := fun (d : Ctl) => { d with sched := { d.sched with turn := .compaction, current := .none } }
    (req.discard = true →
      c.execute req full = ended (c.onPort req.port fun u => { u with outstanding := u.outstanding - 1 }))
    ∧ (req.discard = false → c.agent.state = .idle → c.rows.tailClosed = false →
      c.execute req full = ended (c.enter req.port ⟨.ok, req.tag, 0x31, [0, 0, 0]⟩))
    ∧ (req.discard = false → c.agent.state ≠ .idle ∨ c.rows.tailClosed = true → c.execute req full = ended
      { c with sched := { c.sched with compactList := c.sched.compactList ++ [⟨req.port, req.tag, false, false⟩] } }))
  ∧ ∀ c : Ctl,
    let free := c.rows.free
    (c.agentHasWork = true ↔ c.sched.mode = .ready ∧ c.agent.state ≠ .halted ∧ c.rows.tailClosed = true
      ∧ (free ≤ (match c.conf.active with | some x => x.low.toNat | none => 0) ∨ c.sched.compactList ≠ []
        ∨ (∃ row cursor, c.agent.state = .scanning row cursor) ∨ ∃ row, c.agent.state = .erasing row))
    ∧ (let dead := (c.rows.table.map fun e => (match e.state with | .closed _ _ dead => dead | _ => 0 : Nat)).sum
      (c.rows.headless → c.rows.availablePages = 15 * (free - 2) + dead)
      ∧ ∀ row n live d next, c.rows.state row = .head n live d next → (∀ r, (c.rows.state r).isHead = true → r = row) →
        c.rows.availablePages = 16 - next + 15 * (free - 2) + dead)
    ∧ (∀ p, c.requests p = [] → c.eligible p = false ∧ c.judgeWaits.sched.waits.get p = none)
    ∧ (∀ p req rest, c.requests p = req :: rest →
      let needs := (match req.body with
        | .commit _ => (match (c.port req.port).staging with | .submitted k => some (pagesFor k.declared) | _ => none)
        | .delete k => (c.lookup k).map fun _ => 1
        | .freeze k => (c.lookup k).map DirEntry.pages
        | _ => none : Option Nat)
      let writes := (∃ b, req.body = .commit b) ∨ (∃ k, req.body = .delete k) ∨ ∃ k, req.body = .freeze k
      let starts := ¬ writes ∨ c.recheck req ≠ none ∨ ∃ n, needs = some n ∧ (c.fitsHead n = true ∨ 3 ≤ free)
      let never := (∃ n, needs = some n ∧ c.rows.availablePages < n) ∨ c.agentHasWork = false
      let waited := ∃ w, c.sched.waits.get p = some w ∧ w.ringLength ≤ w.reclaims
      (c.eligible p = true ↔ starts ∨ never ∨ waited)
      ∧ (c.fullDue p req = true ↔ ¬ starts ∧ (never ∨ waited))
      ∧ (starts → c.judgeWaits.sched.waits.get p = none)
      ∧ (¬ starts → never → c.judgeWaits.sched.waits.get p = c.sched.waits.get p)
      ∧ (¬ starts → ¬ never → c.judgeWaits.sched.waits.get p = (match c.sched.waits.get p with
        | some w => some w
        | none => some ⟨c.rows.ring.length, 0⟩))
      ∧ c.servePort p = Ctl.execute { c with
          sched := { c.sched with
            lists := c.sched.lists.set p rest
            waits := c.sched.waits.set p none
            searchStart := nextPort p
            current := .port req .starting } } req (c.fullDue p req))
    ∧ c.judgeWaits = { c with sched := { c.sched with waits := c.judgeWaits.sched.waits } }
    ∧ (let place := fun p : Port => (portNum p + 4 - portNum c.sched.searchStart) % 4
      (∀ p, c.portServed = some p ↔ c.eligible p = true ∧ ∀ q, place q < place p → c.eligible q = false)
      ∧ (c.portServed = none ↔ ∀ p, c.eligible p = false))
    ∧ (c.sched.current ≠ .none → c.schedule = c)
    ∧ (c.sched.current = .none →
      let d := c.judgeWaits
      (d.agentHasWork = true → d.portServed = none ∨ d.sched.turn = .compaction → c.schedule = d.startAgent)
      ∧ (∀ p, d.portServed = some p → d.agentHasWork = false ∨ d.sched.turn = .ports → c.schedule = (d.servePort p).schedule)
      ∧ (d.portServed = none → d.agentHasWork = false → c.schedule = d))

/-! ### Array steps (R102 to R118) -/

/-- A READ's last page has been read (R115, R118) and nothing else waits: a record that checks gives OK with its sequence number
and the bytes asked for, one that does not gives DATA_ERR, and no other block changes. A RELOAD has read page 0 of the current row
(R173, R174): a valid image of the stored generation gives OK with it, then its settings are the active ones and its enable mask is
applied; any other page gives DATA_ERR. Either, its discard mark set, enters no response and returns its credit (R77), a RELOAD
applying its configuration all the same (R174). The enable mask (R78, R79): every port left out of it is disabled, the lowest first, by
RESYNC and the end of its frame, and every port in it is enabled. An image write (R168): a passing erase is followed by the program
of the page, a passing program completes the write, a failing one is decided by the read-back, and the stored copy and the faulted
mark follow; then SETCONF completes OK with the generation or MEDIA (R171), and a retirement goes on, in READ_ONLY with CONFIG when
the image was not written (R175). -/
def Obligations.ReadCompletesWithItsData : Prop :=
  (∀ (s : State) (req : Request) (k : Half) (offset count row page : Nat) (e : DirEntry) (got : List Page),
    s.ctl.media.op = .reading row page → s.ctl.sched.mode ≠ .mounting →
    s.ctl.sched.current = .port req (.readRecord e got false) → req.body = .read k offset count →
    e.pages ≤ got.length + 1 → s.ctl.sched.limitMark = false → (∀ q, s.ctl.requests q = []) →
    s.ctl.agentHasWork = false →
    let pages := got ++ [s.cells.readPage row page]
    let done := fun (st : Status) (result : List Byte) =>
      { s.ctl.onPort req.port fun u =>
          if req.discard then { u with outstanding := u.outstanding - 1 }
          else { u with queue := u.queue ++ [⟨st, req.tag, 0x15, result⟩] } with
        media := { s.ctl.media with op := .idle }
        sched := { s.ctl.sched with waits := PerPort.const none, turn := .compaction, current := .none } }
    (∀ h, checkRecord e pages = some h → exec .pageRead s = .next (s.settled
      (done .ok (wordBytes h.sequence ++ ((recordPayload h pages).drop offset).take count))))
    ∧ (checkRecord e pages = none → exec .pageRead s = .next (s.settled (done .dataErr []))))
  ∧ (∀ (s : State) (req : Request) (row page : Nat), s.ctl.media.op = .reading row page → s.ctl.sched.mode ≠ .mounting →
    s.ctl.sched.current = .port req .readImage → req.body = .reload → s.ctl.sched.limitMark = false →
    let data := s.cells.readPage row page
    let answered := fun (st : Status) (result : List Byte) =>
      { s.ctl.onPort req.port fun u =>
          if req.discard then { u with outstanding := u.outstanding - 1 }
          else { u with queue := u.queue ++ [⟨st, req.tag, 0x33, result⟩] } with
        media := { s.ctl.media with op := .idle }
        sched := { s.ctl.sched with current := .none } }
    let turned := fun (c : Ctl) => { c with sched := { c.sched with turn := .compaction, current := .none } }
    (∀ i, parseImage data = some i → i.generation = s.ctl.conf.generation → exec .pageRead s = .next (s.settled (Ctl.schedule (turned
      (Ctl.applyEnableMask { answered .ok (wordBytes i.generation) with conf := { s.ctl.conf with active := some i.settings } }
        i.settings.enable)))))
    ∧ ((∀ i, parseImage data = some i → i.generation ≠ s.ctl.conf.generation) →
      exec .pageRead s = .next (s.settled (Ctl.schedule (turned (answered .dataErr []))))))
  ∧ (∀ (c : Ctl) (mask : Byte),
    ((∀ p, (c.port p).enabled = true → mask.getLsbD (portNum p) = true) →
      c.applyEnableMask mask = { c with ports := c.ports.map fun p u => { u with enabled := mask.getLsbD (portNum p) } })
    ∧ ∀ p, (c.port p).enabled = true → mask.getLsbD (portNum p) = false →
      (∀ q, portNum q < portNum p → (c.port q).enabled = true → mask.getLsbD (portNum q) = true) →
      c.applyEnableMask mask = (c.disable p).applyEnableMask mask)
  ∧ (∀ (c : Ctl) (p : Port),
    let d := c.resync p
    c.disable p = { d.onPort p fun u => { u with enabled := false, rx := .idle, statusLatch := none, sdo := none } with
      notifs := d.notifs.set p ⟨[], [], false, none⟩ })
  ∧ (∀ (c : Ctl) (plan : ImagePlan) (asker : ImageFor),
    let row := (match plan.target with | .s0 => 0 | .s1 => 1 : Nat)
    let conf := fun (faulted : Bool) (stored : Option StoredCopy) => (match plan.target with
      | .s0 => { c.conf with faulted0 := faulted, stored := stored }
      | .s1 => { c.conf with faulted1 := faulted, stored := stored } : ConfUnit)
    let asks := fun (op : MediaOp) (stage : ImageStage) =>
      { c with
        media := { c.media with op := op }
        sched := { c.sched with current := c.sched.current.withActivity (.image stage plan asker) } }
    let written := fun (faulted : Bool) =>
      Ctl.imageEnded { c with conf := conf faulted (some ⟨plan.target, plan.image⟩) } asker (some plan.image.generation)
    let failed := Ctl.imageEnded { c with conf := conf true c.conf.stored } asker none
    (c.sched.current.activity = some (.image .erase plan asker) →
      (∀ n, c.media.count row = some n → n < 40 → c.eraseEnded true = asks (.programming row 0 plan.image.page 0 []) .program)
      ∧ c.eraseEnded false = failed)
    ∧ (c.sched.current.activity = some (.image .program plan asker) →
      c.programEnded .pass = written false ∧ ∀ o, o ≠ .pass → c.programEnded o = asks (.reading row 0) .readBack)
    ∧ (c.sched.current.activity = some (.image .readBack plan asker) →
      c.readEnded plan.image.page = written true ∧ ∀ data, data ≠ plan.image.page → c.readEnded data = failed))
  ∧ ∀ (c : Ctl) (g : Word),
    (∀ req act, c.sched.current = .port req act → c.imageEnded .setconf (some g) = c.complete req .ok (wordBytes g)
      ∧ c.imageEnded .setconf none = c.complete req .media (if req.body = .compact then [0, 0, 0] else []))
    ∧ (∀ job left, c.imageEnded (.openHead job left) (some g) = tryOpen job left c
      ∧ c.imageEnded (.openHead job left) none = tryOpen job left (c.enterReadOnly .config))
    ∧ c.imageEnded .tail (some g) = c.endPass 0 ∧ c.imageEnded .tail none = (c.enterReadOnly .config).endPass 0

/-- The completion of a port operation in its order (R117, R118). A record written: the Directory, the notices to the other watching
ports, the claim (RELEASE_ON_DONE ends the port's hold, R148; a FREEZE removes the claim and answers its waiters FROZEN, R149), the
staging buffer, the response, or its credit when the discard mark is set (R77), READ_ONLY with SEQUENCE when the limit mark is set
(R121), the turn. Any other completion, of whatever status: the same without record and notices; its result is empty but for
COMPACT's zeros. The write of a record (R23, R32): the next page, or WRITTEN; a failed page leaves the row suspect and the head
closed, a port write is retried once in a new head and then completes MEDIA (R113), a copy is retried once and then the agent
halts (R130); a copy WRITTEN moves its entry and the cursor (R128). -/
def Obligations.WriteCompletionEffects : Prop :=
  (∀ (c : Ctl) (req : Request),
    let ended := fun (st : Status) (result : List Byte) (d : Ctl) =>
      let e := d.onPort req.port fun u =>
        if req.discard then { u with outstanding := u.outstanding - 1 }
        else { u with queue := u.queue ++ [⟨st, req.tag, req.body.cmd.code, result⟩] }
      let f := if c.sched.limitMark then e.enterReadOnly .sequence else e
      { f with sched := { f.sched with limitMark := false, turn := .compaction, current := .none } }
    let emptied := fun (d : Ctl) => d.onPort req.port fun u => { u with staging := .empty }
    let released := fun (release : Bool) (k : Half) (d : Ctl) => (match release, d.claimOf k with
      | true, some e => if e.holder = req.port then d.endHold k else d
      | _, _ => d)
    (∀ (h : RecHeader) (row first : Nat),
      let told := fun (kind : NoticeKind) (d : Ctl) =>
        { d with
          notifs := d.notifs.map fun q u =>
            if h.key ∈ u.watch ∧ q ≠ req.port then u.place ⟨h.key, kind, some req.port, h.sequence, false⟩ else u }
      (∀ (release : Bool) (k : Composition), req.body = .commit release →
        (release = true → (c.port req.port).staging = .submitted k) → c.completeWrite req h row first =
        ended .ok (wordBytes h.sequence ++ [if c.lookup h.key = none then 1 else 0, natByte h.pages])
          (emptied (released release k.key (told .changed (c.placeEntry (entryOf h .value row first))))))
      ∧ (∀ key, req.body = .delete key → c.completeWrite req h row first =
        ended .ok (wordBytes h.sequence) (told .deleted (c.removeEntry h.key)))
      ∧ (∀ key, req.body = .freeze key →
        let d := told .frozen (c.placeEntry (entryOf h .frozen row first))
        (c.claimOf h.key = none → c.completeWrite req h row first = ended .ok (wordBytes h.sequence) d)
        ∧ ∀ e, c.claimOf h.key = some e → c.completeWrite req h row first = ended .ok (wordBytes h.sequence)
          (Ctl.enterAll { d with claims := d.claims.filter fun x => x.key ≠ h.key }
            (e.waiters.map fun w => (w.port, ⟨.frozen, w.tag, 0x20, []⟩)))))
    ∧ (∀ (st : Status) (result : List Byte),
      (∀ (release : Bool) (k : Composition), req.body = .commit release →
        (release = true → (c.port req.port).staging = .submitted k) →
        c.complete req st result = ended st result (emptied (released release k.key c)))
      ∧ ((∀ release, req.body ≠ .commit release) → c.complete req st result = ended st result c)
      ∧ c.refuse req st = c.complete req st (if req.body = .compact then [0, 0, 0] else [])))
  ∧ (∀ (s : State) (k : Half) (e : ClaimEntry), s.ctl.claimOf k = some e →
    exec (.holdTimerExpiry k) s = .next (s.settled (s.ctl.endHold k)))
  ∧ ∀ (c : Ctl) (job : WriteJob) (row first idx : Nat), c.sched.current.activity = some (.writing job row first idx) →
    let pages := job.header.pages
    let next := { c with
      media := { c.media with op := .programming row (first + (idx + 1)) (job.images.getD (idx + 1) []) 0 [] }
      sched := { c.sched with current := c.sched.current.withActivity (.writing job row first (idx + 1)) } }
    let failed := { c with rows := (c.rows.markSuspect row).closeHead }
    let fails := fun (d : Ctl) =>
      (∀ o, o ≠ .pass → c.programEnded o = d) ∧ (idx + 1 < pages → c.media.count row = some 40 → c.programEnded .pass = d)
    (∀ n, idx + 1 < pages → c.media.count row = some n → n < 40 → c.programEnded .pass = next)
    ∧ (∀ req act, c.sched.current = .port req act →
      (∀ retried, job.owner = .port retried → pages ≤ idx + 1 → c.programEnded .pass = c.completeWrite req job.header row first)
      ∧ (job.owner = .port false → fails (failed.openHead { job with owner := .port true }))
      ∧ (job.owner = .port true → fails (failed.refuse req .media)))
    ∧ (∀ pass cursor, job.owner = .agent → c.agent.state = .scanning pass cursor →
      (pages ≤ idx + 1 → c.programEnded .pass =
        Ctl.advanceCursor { c.relocate job.header.key row first with agent := { c.agent with copied := c.agent.copied + pages } }
          pass cursor pages)
      ∧ (c.agent.retryMark = some cursor → fails failed.haltAgent)
      ∧ (c.agent.retryMark ≠ some cursor → fails { failed with
          agent := { c.agent with retryMark := some cursor }
          sched := { c.sched with turn := .ports, current := .none } }))

/-- Rights by Table 12 (R46, R47): FROZEN refuses every writer, the admin port passes the masks, any other port needs its bit,
and a key without an entry is created by the ports of the create mask alone. The masks of a COMMIT's record (R48): those it asks
for with the committing port's own bits when the key has no entry, those it asks for when the admin port commits over an entry,
the entry's when another port does. The admin port is the one the active configuration names, and none while no configuration is
loaded (R46, R165). -/
def Obligations.RightsByEntryAndConfiguration : Prop :=
  (∀ (c : Ctl) (p : Port),
    (∀ cfg, c.conf.active = some cfg → (c.isAdmin p = true ↔ cfg.admin.toNat = portNum p))
    ∧ (c.conf.active = none → c.isAdmin p = false))
  ∧ (∀ (c : Ctl) (p : Port) (k : Half),
    (∀ e, c.lookup k = some e →
      (e.kind = .frozen → c.writeRefusal p k = some .frozen)
      ∧ (e.kind = .value → c.writeRefusal p k =
          if c.isAdmin p = true ∨ e.writeMask.getLsbD (portNum p) = true then none else some .denied)
      ∧ c.readRefusal p k = if c.isAdmin p = true ∨ e.readMask.getLsbD (portNum p) = true then none else some .denied)
    ∧ (c.lookup k = none → c.readRefusal p k = some .noKey
      ∧ ∀ cfg, c.conf.active = some cfg →
        c.writeRefusal p k = if cfg.create.getLsbD (portNum p) = true then none else some .denied))
  ∧ ∀ (c : Ctl) (p : Port) (k : Composition),
    (c.lookup k.key = none → ∀ q,
      ((c.resolveMasks p k).1.getLsbD (portNum q) = true ↔ q = p ∨ k.readMask.getLsbD (portNum q) = true)
      ∧ ((c.resolveMasks p k).2.getLsbD (portNum q) = true ↔ q = p ∨ k.writeMask.getLsbD (portNum q) = true))
    ∧ ∀ e, c.lookup k.key = some e →
      (c.isAdmin p = true → c.resolveMasks p k = (k.readMask, k.writeMask))
      ∧ (c.isAdmin p = false → c.resolveMasks p k = (e.readMask, e.writeMask))

/-- The pages of a record (R21): the fewest pages of 64 bytes that hold header, payload and trailer; a COMMIT's record states
that number, and a header that states another is not valid. -/
def Obligations.PagesOfARecord : Prop :=
  (∀ length : Nat, 16 + length + 8 ≤ 64 * pagesFor length ∧ ∀ n, 16 + length + 8 ≤ 64 * n → pagesFor length ≤ n)
    ∧ (∀ (c : Ctl) (p : Port) (k : Composition), (c.commitHeader p k).pages = pagesFor k.declared)
    ∧ ∀ (page : Page) (first : Nat) (h : RecHeader), parseHeader page first = some h → h.pages = pagesFor h.length

/-- Head opens (R34, R36, R37): a port write makes no attempt while F is below 3, a row that becomes the head lowers F by one, and
the row taken is a free ring-eligible one, without the suspect mark when any free one has none: the first such in index order from
the row after the open pointer, 255 being followed by 2 (R34). The fit of a record and its
allocation (R31, R32): it fits while the head's free pages and headroom suffice, its pages then count as dead, the next free page
moves past them and its first page is programmed; otherwise a head open begins. The close (R33): the head's free pages become dead.
An attempt (R35): the open pointer moves to the row chosen, a FREE_STALE row is erased, a FREE_READY row takes an open number and
its header is programmed; then it is the head at the end of the ring and the record is allocated there, or it is FREE_STALE and
suspect and the next attempt follows; a row whose erase fails is RETIRED, and recorded (R175). A failed open completes the port
write MEDIA and halts the agent (R36, R113, R131); that a failed first reserve check leaves the head as it is, is the model's choice
(notes/assumptions/26.md). -/
def Obligations.HeadOpensKeepTheReserve : Prop :=
  (∀ (job : WriteJob) (left : Nat) (retried : Bool) (c : Ctl), job.owner = .port retried → c.rows.free < 3 →
      tryOpen job left c = c.openFailed job ∧ c.openHead job = c.openFailed job)
    ∧ (∀ (m : RowMgr) (row : Nat) (openNo : Word), row < m.table.length → (m.state row).isFree = true →
        (m.becomeHead row openNo).free + 1 = m.free)
    ∧ (∀ (m : RowMgr) (row : Nat), m.chooseRow = some row →
      2 ≤ row ∧ row ≤ 255 ∧ (m.state row).isFree = true
      ∧ ((∃ r, 2 ≤ r ∧ r ≤ 255 ∧ (m.state r).isFree = true ∧ (m.entry r).suspect = false) → (m.entry row).suspect = false))
    ∧ (∀ m : RowMgr,
      let nth := fun i => 2 + (m.openPtr - 1 + i) % 254
      let free := fun i => (m.state (nth i)).isFree = true
      let marked := fun i => (m.entry (nth i)).suspect = true
      (2 ≤ m.openPtr → m.openPtr ≤ 255 → ∀ i, i < 254 →
        nth i = if m.openPtr + 1 + i ≤ 255 then m.openPtr + 1 + i else m.openPtr + 1 + i - 254)
      ∧ (m.chooseRow = none ↔ ∀ i, i < 254 → ¬ free i)
      ∧ ∀ row, m.chooseRow = some row ↔ ∃ i, i < 254 ∧ row = nth i ∧ free i
        ∧ (¬ marked i ∧ (∀ j, j < i → free j → marked j)
          ∨ (∀ j, j < 254 → free j → marked j) ∧ ∀ j, j < i → ¬ free j))
    ∧ (∀ (m : RowMgr) (row : Nat), row < m.table.length →
      (∀ st r, (m.setState row st).state r = (if r = row then st else m.state r)
        ∧ ((m.setState row st).entry r).suspect = (m.entry r).suspect)
      ∧ ∀ r, (m.markSuspect row).state r = m.state r
        ∧ ((m.markSuspect row).entry r).suspect = (decide (r = row) || (m.entry r).suspect))
    ∧ (∀ m : RowMgr, m.headless → m.closeHead = m)
    ∧ (∀ (c : Ctl) (p : Nat), c.rows.headless → c.fitsHead p = false)
    ∧ (∀ (c : Ctl) (row : Nat) (n : Word) (live dead next : Nat), c.rows.state row = .head n live dead next →
      (∀ r, (c.rows.state r).isHead = true → r = row) →
      c.rows.closeHead = c.rows.setState row (.closed n live (dead + (16 - next)))
      ∧ (∀ p, c.fitsHead p = true ↔ p ≤ 16 - next ∧ ∃ k, c.media.count row = some k ∧ p ≤ 40 - k)
      ∧ ∀ job : WriteJob, 1 ≤ job.header.pages → c.fitsHead job.header.pages = true → c.placeRecord job = { c with
          rows := c.rows.setState row (.head n live (dead + job.header.pages) (next + job.header.pages))
          media := { c.media with op := .programming row next (job.images.getD 0 []) 0 [] }
          sched := { c.sched with current := c.sched.current.withActivity (.writing job row next 0) } })
    ∧ (∀ (c : Ctl) (job : WriteJob), c.fitsHead job.header.pages = false → c.placeRecord job = c.openHead job)
    ∧ (∀ (c : Ctl) (job : WriteJob) (left : Nat),
      let reserve := (match job.owner with | .port _ => 3 | .agent => 1 : Nat)
      let asks := fun (d : Ctl) (media : Media) (act : Activity) =>
        { d with media := media, sched := { d.sched with current := d.sched.current.withActivity act } }
      let header := fun (d : Ctl) (row : Nat) =>
        asks { d with rows := { d.rows with openCounter := d.rows.openCounter + 1 } }
          { d.media with op := .programming row 0 (rowHeaderPage d.rows.openCounter) 0 [] }
          (.openHeader job row left d.rows.openCounter)
      (c.rows.free < reserve → c.openHead job = c.openFailed job ∧ tryOpen job left c = c.openFailed job)
      ∧ (reserve ≤ c.rows.free → c.openHead job = tryOpen job 2 { c with rows := c.rows.closeHead })
      ∧ (c.sched.mode = .readOnly ∨ c.rows.chooseRow = none → tryOpen job left c = c.openFailed job)
      ∧ tryOpen job 0 c = c.openFailed job
      ∧ (∀ row, reserve ≤ c.rows.free → c.sched.mode ≠ .readOnly → c.rows.chooseRow = some row →
        let d := { c with rows := { c.rows with openPtr := row } }
        (c.rows.state row = .freeStale → tryOpen job (left + 1) c =
          asks d ⟨.erasing row 0, c.media.disturb.filter fun x => x.1 ≠ row⟩ (.openErase job row left))
        ∧ (c.rows.state row = .freeReady → c.rows.openCounter = 0xFFFFFFFF →
          tryOpen job (left + 1) c = (d.enterReadOnly .sequence).openFailed job)
        ∧ ∀ k, c.rows.state row = .freeReady → c.rows.openCounter ≠ 0xFFFFFFFF → c.media.count row = some k → k < 40 →
          tryOpen job (left + 1) c = header d row)
      ∧ (∀ row, c.sched.current.activity = some (.openErase job row left) →
        let ready := { c with rows := c.rows.setState row .freeReady }
        (c.rows.openCounter = 0xFFFFFFFF → c.eraseEnded true = (ready.enterReadOnly .sequence).openFailed job)
        ∧ (∀ k, c.rows.openCounter ≠ 0xFFFFFFFF → c.media.count row = some k → k < 40 → c.eraseEnded true = header ready row)
        ∧ (let gone := { c with rows := c.rows.setState row .retired }
          let listed := { gone with conf := { c.conf with retired := insertBy BitVec.toNat (natByte row) c.conf.retired } }
          (16 ≤ c.conf.retired.length → c.eraseEnded false = tryOpen job left (gone.enterReadOnly .media))
          ∧ (c.conf.retired.length < 16 → c.conf.generation = 0xFFFFFFFF →
            c.eraseEnded false = tryOpen job left (listed.enterReadOnly .config))
          ∧ (c.conf.retired.length < 16 → c.conf.generation ≠ 0xFFFFFFFF → c.eraseEnded false =
            asks listed ⟨.erasing c.conf.target.index 0, c.media.disturb.filter fun x => x.1 ≠ c.conf.target.index⟩
              (.image .erase ⟨c.conf.target, ⟨c.conf.generation + 1, c.conf.settings, c.conf.lock, listed.conf.retired⟩⟩
                (.openHead job left)))))
      ∧ (∀ row openNo, c.sched.current.activity = some (.openHeader job row left openNo) →
        (∀ o, o ≠ .pass →
          c.programEnded o = tryOpen job left { c with rows := (c.rows.setState row .freeStale).markSuspect row })
        ∧ ∀ k, c.rows.headless → row < c.rows.table.length → c.media.count row = some k → k < 40 → c.programEnded .pass =
          asks { c with rows := { c.rows.setState row (.head openNo 0 job.header.pages (1 + job.header.pages)) with
            ring := c.rows.ring ++ [row] } }
            { c.media with op := .programming row 1 (job.images.getD 0 []) 0 [] } (.writing job row 1 0))
      ∧ ∀ act,
        (∀ req, c.sched.current = .port req act → job.owner ≠ .agent → c.openFailed job = c.refuse req .media)
        ∧ (job.owner = .agent → c.openFailed job = c.haltAgent))

/-! ### Mount (R178, R182, R185) -/

/-- Mount, read by read. PAGE_READ during MOUNTING by the phase: S0, then S1, in this order by the model's choice
(notes/assumptions/32.md); the image chosen (R178), the valid one of the higher
generation, S0's when equal, is loaded and its enable mask applied (R165); then page 0 of every ring-eligible row not retired, a
valid row header making a row of the ring (R179), in ascending row index by the model's choice (notes/assumptions/28.md); then the
ring's rows by open number and row index (R180), each walked from page 1, complete records noted as candidates and fragments by
their sequence numbers (R181), the pages of a record read in ascending order by the model's
choice (35.md). Resolution (R182): one winner for each key, of the highest sequence number, the later in ring order
when equal. The end (R183, R184, R186): at most 512 entries, TRUNCATED exactly when keys were left out; the row table with the page
counts; READ_ONLY for the sequence limit first, for a ring that cannot be reclaimed next, READY otherwise. That phases 5 to 8 come
in the event of the last read is the model's reading (13.md). -/
def Obligations.MountChoosesAndEnds : Prop :=
  (∀ a b, a.generation.toNat < b.generation.toNat → chooseImage (some a) (some b) = some ⟨.s1, b⟩)
    ∧ (∀ a b, b.generation.toNat ≤ a.generation.toNat → chooseImage (some a) (some b) = some ⟨.s0, a⟩)
    ∧ (∀ a, chooseImage (some a) none = some ⟨.s0, a⟩) ∧ (∀ b, chooseImage none (some b) = some ⟨.s1, b⟩)
    ∧ chooseImage none none = none
    ∧ (∀ (s : State) (row page : Nat), s.ctl.media.op = .reading row page → s.ctl.sched.mode = .mounting →
      let data := s.cells.readPage row page
      let c := { s.ctl with media := { s.ctl.media with op := .idle } }
      let gives := fun d : Ctl => exec .pageRead s = .next (s.settled d)
      let asks := fun (row page : Nat) (phase : MountPhase) =>
        gives { c with media := { c.media with op := .reading row page }, mount := { c.mount with phase := phase } }
      let leaves := fun st : ScanState =>
        (∀ r todo, st.todo = r :: todo → asks r 1 (.scan { st with todo := todo, row := r, cursor := 1, got := [] }))
        ∧ (st.todo = [] → gives (c.finishMount st.ring st.candidates st.fragments))
      (s.ctl.mount.phase = .image0 → asks 1 0 (.image1 (parseImage data)))
      ∧ (∀ first, s.ctl.mount.phase = .image1 first →
        gives ((c.loadConf (chooseImage first (parseImage data))).surveyFrom 2 []))
      ∧ (∀ r found, s.ctl.mount.phase = .survey r found →
        (∀ n, parseRowHeader data = some n → gives (c.surveyFrom (r + 1) (found ++ [(r, n)])))
        ∧ (parseRowHeader data = none → gives (c.surveyFrom (r + 1) found)))
      ∧ ∀ st, s.ctl.mount.phase = .scan st →
        let pages := st.got ++ [data]
        (parseHeader (pages.headD []) st.cursor = none → leaves st)
        ∧ ∀ h, parseHeader (pages.headD []) st.cursor = some h →
          (pages.length < h.pages → asks st.row (st.cursor + pages.length) (.scan { st with got := pages }))
          ∧ (h.pages ≤ pages.length →
            let noted := if recordComplete h pages = true
              then { st with candidates := st.candidates ++ [⟨h, st.row, st.cursor⟩] }
              else { st with fragments := st.fragments ++ [h.sequence] }
            (16 ≤ st.cursor + h.pages → leaves noted)
            ∧ (st.cursor + h.pages < 16 →
              asks st.row (st.cursor + h.pages) (.scan { noted with cursor := st.cursor + h.pages, got := [] }))))
    ∧ (∀ (c : Ctl) (choice : Option StoredCopy), c.loadConf choice = Ctl.applyEnableMask
      { c with
        conf := (match choice with
          | some x => ⟨some x.image.settings, x.image.retired, some x, false, false⟩
          | none => ⟨some ⟨0x0F, 0, 0x0F, 4, 10000, 2000⟩, [], none, false, false⟩)
        mount := { c.mount with imageAbsent := choice.isNone } }
      (match choice with | some x => x.image.settings.enable | none => 0x0F))
    ∧ (∀ (c : Ctl) (row : Nat) (found : List (Nat × Word)), 2 ≤ row →
      let retired := fun r : Nat => r ∈ c.conf.retired.map BitVec.toNat
      let asks := fun (row page : Nat) (phase : MountPhase) =>
        { c with media := { c.media with op := .reading row page }, mount := { c.mount with phase := phase } }
      (∀ r, row ≤ r → r ≤ 255 → ¬ retired r → (∀ q, row ≤ q → q < r → retired q) →
        c.surveyFrom row found = asks r 0 (.survey r found))
      ∧ ((∀ r, row ≤ r → r ≤ 255 → retired r) →
        (∀ r n rest, ringOrder found = (r, n) :: rest →
          c.surveyFrom row found = asks r 1 (.scan ⟨(r, n) :: rest, rest.map (·.1), r, 1, [], [], []⟩))
        ∧ (ringOrder found = [] → c.surveyFrom row found = c.finishMount [] [] [])))
    ∧ (∀ found : List (Nat × Word), (found.map (·.1)).Nodup → (∀ x ∈ found, x.1 ≤ 255) →
      (ringOrder found).Perm found
        ∧ (ringOrder found).Pairwise fun x y => x.2.toNat < y.2.toNat ∨ x.2 = y.2 ∧ x.1 < y.1)
    ∧ (∀ candidates : List Candidate,
      let winners := resolveKeys candidates
      (winners.Pairwise fun x y => x.header.key.toNat < y.header.key.toNat)
      ∧ (∀ y ∈ candidates, ∃ x ∈ winners, x.header.key = y.header.key)
      ∧ (∀ x ∈ winners, ∃ before after, candidates = before ++ x :: after
        ∧ (∀ y ∈ before, y.header.key = x.header.key → y.header.sequence.toNat ≤ x.header.sequence.toNat)
        ∧ ∀ y ∈ after, y.header.key = x.header.key → y.header.sequence.toNat < x.header.sequence.toNat)
      ∧ winningEntries winners = winners.filterMap fun x =>
        let entry := fun kind : EntryKind => some (⟨x.header.key, x.header.sequence, kind, x.header.length, x.header.pages, x.row,
          x.page, x.header.access.extractLsb' 4 4, x.header.access.extractLsb' 0 4, x.header.writer⟩ : DirEntry)
        match x.header.kind with
        | .value => entry .value
        | .frozen => entry .frozen
        | .tombstone => none)
    ∧ ∀ (c : Ctl) (ring : List (Nat × Word)) (candidates : List Candidate) (fragments : List Word),
      let d := c.finishMount ring candidates fragments
      let keys := winningEntries (resolveKeys candidates)
      let live := fun r : Nat => ((d.dir.filter fun e => e.row = r).map DirEntry.pages).sum
      (d = { c with
        dir := d.dir
        rows := d.rows
        sched := { c.sched with mode := d.sched.mode, reason := d.sched.reason }
        mount := { c.mount with phase := .done, truncated := d.mount.truncated } })
      ∧ d.rows.table.length = 256 ∧ d.rows.ring = ring.map (·.1) ∧ d.rows.openPtr = (ring.map (·.1)).getLast?.getD 255
      ∧ (∀ r, (d.rows.entry r).suspect = false ∧ d.rows.state r =
        if r < 2 ∨ 256 ≤ r then .system
        else if r ∈ c.conf.retired.map BitVec.toNat then .retired
        else match ring.find? fun x => x.1 = r with
          | some x => .closed x.2 (live r) (15 - live r)
          | none => .freeStale)
      ∧ d.dir = keys.take 512 ∧ (d.mount.truncated = true ↔ 512 < keys.length) ∧ d.mount.phase = .done
      ∧ (d.rows.seqCounter = 0xFFFFFF00 → d.sched.mode = .readOnly ∧ d.sched.reason = .sequence)
      ∧ (d.rows.seqCounter ≠ 0xFFFFFF00 → d.rows.free = 0 → d.rows.tailLive = true →
          d.sched.mode = .readOnly ∧ d.sched.reason = .media)
      ∧ (d.rows.seqCounter ≠ 0xFFFFFF00 → d.rows.free ≠ 0 ∨ d.rows.tailLive = false →
          d.sched.mode = .ready ∧ d.sched.reason = .none)

/-- The counters mount sets (R185): one above the highest number found, 1 when none was found, and at most the limit. -/
def Obligations.MountSetsTheCounters : Prop :=
  (∀ limit, counterAbove limit [] = 1)
    ∧ (∀ (limit m : Word) (found : List Word), m ∈ found → (∀ x ∈ found, x.toNat ≤ m.toNat) →
        counterAbove limit found = if limit.toNat ≤ m.toNat + 1 then limit else m + 1)
    ∧ ∀ (c : Ctl) (ring : List (Nat × Word)) (candidates : List Candidate) (fragments : List Word),
        (c.finishMount ring candidates fragments).rows.seqCounter =
            counterAbove 0xFFFFFF00 (candidates.map (fun x => x.header.sequence) ++ fragments)
          ∧ (c.finishMount ring candidates fragments).rows.openCounter = counterAbove 0xFFFFFFFF (ring.map (·.2))

/-! ### Laws every step keeps -/

/-- Every step keeps the canonical form of the array, and the law of the store (R26, R27, R29, R30, R42, R43): under it, at any
moment, the Directory holds at most 512 entries with ascending keys; in every ring row live, dead and free pages number 15, the live
ones being those of the entries there; ring rows and free rows are the usable rows; no row stands twice in the ring and at most one
row is HEAD. -/
def Obligations.StepsKeepTheArrayCanonical : Prop :=
  ∀ s t : State, step s = .next t →
    (s.cells.wf → t.cells.wf)
    ∧ (s.ctl.storeLaw → t.ctl.storeLaw
      ∧ t.ctl.dir.length ≤ 512 ∧ (t.ctl.dir.Pairwise fun x y => x.key.toNat < y.key.toNat)
      ∧ (∀ r n live dead next, t.ctl.rows.state r = .head n live dead next →
          live + dead + (16 - next) = 15 ∧ live = livePages t.ctl.dir r)
      ∧ (∀ r n live dead, t.ctl.rows.state r = .closed n live dead → live + dead = 15 ∧ live = livePages t.ctl.dir r)
      ∧ t.ctl.rows.ring.length + t.ctl.rows.free = t.ctl.rows.usable ∧ t.ctl.rows.ring.Nodup
      ∧ ∀ r r', (t.ctl.rows.state r).isHead = true → (t.ctl.rows.state r').isHead = true → r = r')

/-- Every step keeps each ATNn# at its condition (R71). -/
def Obligations.StepsKeepAttention : Prop := ∀ s t : State, s.ctl.attentionLaw → step s = .next t → t.ctl.attentionLaw

/-- Every step keeps the bounds of the watch sets and notification queues (R154, R158, R161). -/
def Obligations.StepsKeepTheNoticeLaw : Prop := ∀ s t : State, s.ctl.noticeLaw → step s = .next t → t.ctl.noticeLaw

/-- Every step keeps the law of the claim table (R139). -/
def Obligations.StepsKeepTheClaimLaw : Prop := ∀ s t : State, s.ctl.claimLaw → step s = .next t → t.ctl.claimLaw

/-- Every step keeps the law of the credits, and under it no port's outstanding count exceeds 4 and no response queue holds more
than 4 responses (R65). -/
def Obligations.StepsKeepTheCreditLaw : Prop :=
  ∀ s t : State, s.ctl.creditLaw → step s = .next t →
    t.ctl.creditLaw ∧ ∀ p, (t.ctl.port p).outstanding ≤ 4 ∧ (t.ctl.port p).queue.length ≤ 4

/-- Every step keeps each known disturb count at most 40 (R7). -/
def Obligations.StepsKeepTheDisturbLaw : Prop := ∀ s t : State, s.ctl.disturbLaw → step s = .next t → t.ctl.disturbLaw

/-- Modes (R119): every command keeps the read-only reason none exactly outside READ_ONLY, and READ_ONLY is left only by a reset
or power loss, the reason of its first entry staying. -/
def Obligations.ReadOnlyIsLeftByResetAlone : Prop :=
  ∀ (i : Instr) (s t : State), exec i s = .next t →
    (s.ctl.modeLaw → t.ctl.modeLaw)
    ∧ (i.losesVolatile = false → s.ctl.sched.mode = .readOnly →
      t.ctl.sched.mode = .readOnly ∧ t.ctl.sched.reason = s.ctl.sched.reason)

/-- Once the stored image is locked, every later stored image of the session carries the lock and the same settings (R172). -/
def Obligations.LockedSettingsStay : Prop :=
  ∀ (i : Instr) (s t : State) (x : Settings), i.losesVolatile = false → s.ctl.lockedWith x → exec i s = .next t →
    t.ctl.lockedWith x

/-- The state after reset has every law: the bases of the invariants. -/
def Obligations.ResetHasEveryLaw : Prop :=
  State.reset.cells.wf ∧ State.reset.ctl.attentionLaw ∧ State.reset.ctl.noticeLaw ∧ State.reset.ctl.claimLaw
    ∧ State.reset.ctl.creditLaw ∧ State.reset.ctl.disturbLaw ∧ State.reset.ctl.modeLaw ∧ State.reset.ctl.storeLaw
end

