-- ==== Sys2Proof/Laws/State.lean ====
section
/-! SUPPORT. State laws: one port's part after an update, and one lemma per field per update of `Ctl`, true by definition. -/

namespace Sys2Proof.Machine

/-! ### One port's part -/

section PerPort

variable {α β : Type}

@[simp] theorem PerPort.get_set_same (f : PerPort α) (p : Port) (a : α) : (f.set p a).get p = a := by cases p <;> rfl

theorem PerPort.get_set_other (f : PerPort α) {p q : Port} (h : q ≠ p) (a : α) : (f.set p a).get q = f.get q := by
  cases p <;> cases q <;> first | rfl | exact absurd rfl h

theorem PerPort.get_set (f : PerPort α) (p q : Port) (a : α) : (f.set p a).get q = if q = p then a else f.get q := by
  cases p <;> cases q <;> rfl

@[simp] theorem PerPort.set_get (f : PerPort α) (p : Port) : f.set p (f.get p) = f := by cases p <;> rfl

@[simp] theorem PerPort.set_set (f : PerPort α) (p : Port) (a b : α) : (f.set p a).set p b = f.set p b := by cases p <;> rfl

theorem PerPort.set_comm (f : PerPort α) {p q : Port} (h : p ≠ q) (a b : α) :
    (f.set p a).set q b = (f.set q b).set p a := by
  cases p <;> cases q <;> first | rfl | exact absurd rfl h

@[simp] theorem PerPort.get_map (f : PerPort α) (g : Port → α → β) (p : Port) : (f.map g).get p = g p (f.get p) := by
  cases p <;> rfl

@[simp] theorem PerPort.get_const (a : α) (p : Port) : (PerPort.const a).get p = a := by cases p <;> rfl

theorem PerPort.ext_get {f g : PerPort α} (h : ∀ p, f.get p = g.get p) : f = g := by
  cases f
  cases g
  have h0 := h .p0
  have h1 := h .p1
  have h2 := h .p2
  have h3 := h .p3
  simp only [PerPort.get] at h0 h1 h2 h3
  subst h0 h1 h2 h3
  rfl

end PerPort

/-! ### One lemma per field per update -/


@[simp] theorem Ctl.onPort_powered (c : Ctl) (p : Port) (g : PortUnit → PortUnit) : (c.onPort p g).powered = c.powered := rfl
@[simp] theorem Ctl.onPort_inReset (c : Ctl) (p : Port) (g : PortUnit → PortUnit) : (c.onPort p g).inReset = c.inReset := rfl
@[simp] theorem Ctl.onPort_notifs (c : Ctl) (p : Port) (g : PortUnit → PortUnit) : (c.onPort p g).notifs = c.notifs := rfl
@[simp] theorem Ctl.onPort_claims (c : Ctl) (p : Port) (g : PortUnit → PortUnit) : (c.onPort p g).claims = c.claims := rfl
@[simp] theorem Ctl.onPort_dir (c : Ctl) (p : Port) (g : PortUnit → PortUnit) : (c.onPort p g).dir = c.dir := rfl
@[simp] theorem Ctl.onPort_sched (c : Ctl) (p : Port) (g : PortUnit → PortUnit) : (c.onPort p g).sched = c.sched := rfl
@[simp] theorem Ctl.onPort_rows (c : Ctl) (p : Port) (g : PortUnit → PortUnit) : (c.onPort p g).rows = c.rows := rfl
@[simp] theorem Ctl.onPort_media (c : Ctl) (p : Port) (g : PortUnit → PortUnit) : (c.onPort p g).media = c.media := rfl
@[simp] theorem Ctl.onPort_agent (c : Ctl) (p : Port) (g : PortUnit → PortUnit) : (c.onPort p g).agent = c.agent := rfl
@[simp] theorem Ctl.onPort_conf (c : Ctl) (p : Port) (g : PortUnit → PortUnit) : (c.onPort p g).conf = c.conf := rfl
@[simp] theorem Ctl.onPort_mount (c : Ctl) (p : Port) (g : PortUnit → PortUnit) : (c.onPort p g).mount = c.mount := rfl

@[simp] theorem Ctl.onNotif_powered (c : Ctl) (p : Port) (g : NotifUnit → NotifUnit) : (c.onNotif p g).powered = c.powered := rfl
@[simp] theorem Ctl.onNotif_inReset (c : Ctl) (p : Port) (g : NotifUnit → NotifUnit) : (c.onNotif p g).inReset = c.inReset := rfl
@[simp] theorem Ctl.onNotif_ports (c : Ctl) (p : Port) (g : NotifUnit → NotifUnit) : (c.onNotif p g).ports = c.ports := rfl
@[simp] theorem Ctl.onNotif_claims (c : Ctl) (p : Port) (g : NotifUnit → NotifUnit) : (c.onNotif p g).claims = c.claims := rfl
@[simp] theorem Ctl.onNotif_dir (c : Ctl) (p : Port) (g : NotifUnit → NotifUnit) : (c.onNotif p g).dir = c.dir := rfl
@[simp] theorem Ctl.onNotif_sched (c : Ctl) (p : Port) (g : NotifUnit → NotifUnit) : (c.onNotif p g).sched = c.sched := rfl
@[simp] theorem Ctl.onNotif_rows (c : Ctl) (p : Port) (g : NotifUnit → NotifUnit) : (c.onNotif p g).rows = c.rows := rfl
@[simp] theorem Ctl.onNotif_media (c : Ctl) (p : Port) (g : NotifUnit → NotifUnit) : (c.onNotif p g).media = c.media := rfl
@[simp] theorem Ctl.onNotif_agent (c : Ctl) (p : Port) (g : NotifUnit → NotifUnit) : (c.onNotif p g).agent = c.agent := rfl
@[simp] theorem Ctl.onNotif_conf (c : Ctl) (p : Port) (g : NotifUnit → NotifUnit) : (c.onNotif p g).conf = c.conf := rfl
@[simp] theorem Ctl.onNotif_mount (c : Ctl) (p : Port) (g : NotifUnit → NotifUnit) : (c.onNotif p g).mount = c.mount := rfl

@[simp] theorem Ctl.setRequests_powered (c : Ctl) (p : Port) (l : List Request) : (c.setRequests p l).powered = c.powered := rfl
@[simp] theorem Ctl.setRequests_inReset (c : Ctl) (p : Port) (l : List Request) : (c.setRequests p l).inReset = c.inReset := rfl
@[simp] theorem Ctl.setRequests_ports (c : Ctl) (p : Port) (l : List Request) : (c.setRequests p l).ports = c.ports := rfl
@[simp] theorem Ctl.setRequests_notifs (c : Ctl) (p : Port) (l : List Request) : (c.setRequests p l).notifs = c.notifs := rfl
@[simp] theorem Ctl.setRequests_claims (c : Ctl) (p : Port) (l : List Request) : (c.setRequests p l).claims = c.claims := rfl
@[simp] theorem Ctl.setRequests_dir (c : Ctl) (p : Port) (l : List Request) : (c.setRequests p l).dir = c.dir := rfl
@[simp] theorem Ctl.setRequests_rows (c : Ctl) (p : Port) (l : List Request) : (c.setRequests p l).rows = c.rows := rfl
@[simp] theorem Ctl.setRequests_media (c : Ctl) (p : Port) (l : List Request) : (c.setRequests p l).media = c.media := rfl
@[simp] theorem Ctl.setRequests_agent (c : Ctl) (p : Port) (l : List Request) : (c.setRequests p l).agent = c.agent := rfl
@[simp] theorem Ctl.setRequests_conf (c : Ctl) (p : Port) (l : List Request) : (c.setRequests p l).conf = c.conf := rfl
@[simp] theorem Ctl.setRequests_mount (c : Ctl) (p : Port) (l : List Request) : (c.setRequests p l).mount = c.mount := rfl

@[simp] theorem Ctl.setWait_powered (c : Ctl) (p : Port) (w : Option SpaceWait) : (c.setWait p w).powered = c.powered := rfl
@[simp] theorem Ctl.setWait_inReset (c : Ctl) (p : Port) (w : Option SpaceWait) : (c.setWait p w).inReset = c.inReset := rfl
@[simp] theorem Ctl.setWait_ports (c : Ctl) (p : Port) (w : Option SpaceWait) : (c.setWait p w).ports = c.ports := rfl
@[simp] theorem Ctl.setWait_notifs (c : Ctl) (p : Port) (w : Option SpaceWait) : (c.setWait p w).notifs = c.notifs := rfl
@[simp] theorem Ctl.setWait_claims (c : Ctl) (p : Port) (w : Option SpaceWait) : (c.setWait p w).claims = c.claims := rfl
@[simp] theorem Ctl.setWait_dir (c : Ctl) (p : Port) (w : Option SpaceWait) : (c.setWait p w).dir = c.dir := rfl
@[simp] theorem Ctl.setWait_rows (c : Ctl) (p : Port) (w : Option SpaceWait) : (c.setWait p w).rows = c.rows := rfl
@[simp] theorem Ctl.setWait_media (c : Ctl) (p : Port) (w : Option SpaceWait) : (c.setWait p w).media = c.media := rfl
@[simp] theorem Ctl.setWait_agent (c : Ctl) (p : Port) (w : Option SpaceWait) : (c.setWait p w).agent = c.agent := rfl
@[simp] theorem Ctl.setWait_conf (c : Ctl) (p : Port) (w : Option SpaceWait) : (c.setWait p w).conf = c.conf := rfl
@[simp] theorem Ctl.setWait_mount (c : Ctl) (p : Port) (w : Option SpaceWait) : (c.setWait p w).mount = c.mount := rfl

@[simp] theorem Ctl.setCurrent_powered (c : Ctl) (x : CurrentStep) : (c.setCurrent x).powered = c.powered := rfl
@[simp] theorem Ctl.setCurrent_inReset (c : Ctl) (x : CurrentStep) : (c.setCurrent x).inReset = c.inReset := rfl
@[simp] theorem Ctl.setCurrent_ports (c : Ctl) (x : CurrentStep) : (c.setCurrent x).ports = c.ports := rfl
@[simp] theorem Ctl.setCurrent_notifs (c : Ctl) (x : CurrentStep) : (c.setCurrent x).notifs = c.notifs := rfl
@[simp] theorem Ctl.setCurrent_claims (c : Ctl) (x : CurrentStep) : (c.setCurrent x).claims = c.claims := rfl
@[simp] theorem Ctl.setCurrent_dir (c : Ctl) (x : CurrentStep) : (c.setCurrent x).dir = c.dir := rfl
@[simp] theorem Ctl.setCurrent_rows (c : Ctl) (x : CurrentStep) : (c.setCurrent x).rows = c.rows := rfl
@[simp] theorem Ctl.setCurrent_media (c : Ctl) (x : CurrentStep) : (c.setCurrent x).media = c.media := rfl
@[simp] theorem Ctl.setCurrent_agent (c : Ctl) (x : CurrentStep) : (c.setCurrent x).agent = c.agent := rfl
@[simp] theorem Ctl.setCurrent_conf (c : Ctl) (x : CurrentStep) : (c.setCurrent x).conf = c.conf := rfl
@[simp] theorem Ctl.setCurrent_mount (c : Ctl) (x : CurrentStep) : (c.setCurrent x).mount = c.mount := rfl

@[simp] theorem Ctl.setActivity_powered (c : Ctl) (act : Activity) : (c.setActivity act).powered = c.powered := rfl
@[simp] theorem Ctl.setActivity_inReset (c : Ctl) (act : Activity) : (c.setActivity act).inReset = c.inReset := rfl
@[simp] theorem Ctl.setActivity_ports (c : Ctl) (act : Activity) : (c.setActivity act).ports = c.ports := rfl
@[simp] theorem Ctl.setActivity_notifs (c : Ctl) (act : Activity) : (c.setActivity act).notifs = c.notifs := rfl
@[simp] theorem Ctl.setActivity_claims (c : Ctl) (act : Activity) : (c.setActivity act).claims = c.claims := rfl
@[simp] theorem Ctl.setActivity_dir (c : Ctl) (act : Activity) : (c.setActivity act).dir = c.dir := rfl
@[simp] theorem Ctl.setActivity_rows (c : Ctl) (act : Activity) : (c.setActivity act).rows = c.rows := rfl
@[simp] theorem Ctl.setActivity_media (c : Ctl) (act : Activity) : (c.setActivity act).media = c.media := rfl
@[simp] theorem Ctl.setActivity_agent (c : Ctl) (act : Activity) : (c.setActivity act).agent = c.agent := rfl
@[simp] theorem Ctl.setActivity_conf (c : Ctl) (act : Activity) : (c.setActivity act).conf = c.conf := rfl
@[simp] theorem Ctl.setActivity_mount (c : Ctl) (act : Activity) : (c.setActivity act).mount = c.mount := rfl

@[simp] theorem Ctl.enter_powered (c : Ctl) (p : Port) (r : Response) : (c.enter p r).powered = c.powered := rfl
@[simp] theorem Ctl.enter_inReset (c : Ctl) (p : Port) (r : Response) : (c.enter p r).inReset = c.inReset := rfl
@[simp] theorem Ctl.enter_notifs (c : Ctl) (p : Port) (r : Response) : (c.enter p r).notifs = c.notifs := rfl
@[simp] theorem Ctl.enter_claims (c : Ctl) (p : Port) (r : Response) : (c.enter p r).claims = c.claims := rfl
@[simp] theorem Ctl.enter_dir (c : Ctl) (p : Port) (r : Response) : (c.enter p r).dir = c.dir := rfl
@[simp] theorem Ctl.enter_sched (c : Ctl) (p : Port) (r : Response) : (c.enter p r).sched = c.sched := rfl
@[simp] theorem Ctl.enter_rows (c : Ctl) (p : Port) (r : Response) : (c.enter p r).rows = c.rows := rfl
@[simp] theorem Ctl.enter_media (c : Ctl) (p : Port) (r : Response) : (c.enter p r).media = c.media := rfl
@[simp] theorem Ctl.enter_agent (c : Ctl) (p : Port) (r : Response) : (c.enter p r).agent = c.agent := rfl
@[simp] theorem Ctl.enter_conf (c : Ctl) (p : Port) (r : Response) : (c.enter p r).conf = c.conf := rfl
@[simp] theorem Ctl.enter_mount (c : Ctl) (p : Port) (r : Response) : (c.enter p r).mount = c.mount := rfl

@[simp] theorem Ctl.dropCredit_powered (c : Ctl) (p : Port) : (c.dropCredit p).powered = c.powered := rfl
@[simp] theorem Ctl.dropCredit_inReset (c : Ctl) (p : Port) : (c.dropCredit p).inReset = c.inReset := rfl
@[simp] theorem Ctl.dropCredit_notifs (c : Ctl) (p : Port) : (c.dropCredit p).notifs = c.notifs := rfl
@[simp] theorem Ctl.dropCredit_claims (c : Ctl) (p : Port) : (c.dropCredit p).claims = c.claims := rfl
@[simp] theorem Ctl.dropCredit_dir (c : Ctl) (p : Port) : (c.dropCredit p).dir = c.dir := rfl
@[simp] theorem Ctl.dropCredit_sched (c : Ctl) (p : Port) : (c.dropCredit p).sched = c.sched := rfl
@[simp] theorem Ctl.dropCredit_rows (c : Ctl) (p : Port) : (c.dropCredit p).rows = c.rows := rfl
@[simp] theorem Ctl.dropCredit_media (c : Ctl) (p : Port) : (c.dropCredit p).media = c.media := rfl
@[simp] theorem Ctl.dropCredit_agent (c : Ctl) (p : Port) : (c.dropCredit p).agent = c.agent := rfl
@[simp] theorem Ctl.dropCredit_conf (c : Ctl) (p : Port) : (c.dropCredit p).conf = c.conf := rfl
@[simp] theorem Ctl.dropCredit_mount (c : Ctl) (p : Port) : (c.dropCredit p).mount = c.mount := rfl

@[simp] theorem Ctl.trail_powered (c : Ctl) (p : Port) : (c.trail p).powered = c.powered := rfl
@[simp] theorem Ctl.trail_inReset (c : Ctl) (p : Port) : (c.trail p).inReset = c.inReset := rfl
@[simp] theorem Ctl.trail_notifs (c : Ctl) (p : Port) : (c.trail p).notifs = c.notifs := rfl
@[simp] theorem Ctl.trail_claims (c : Ctl) (p : Port) : (c.trail p).claims = c.claims := rfl
@[simp] theorem Ctl.trail_dir (c : Ctl) (p : Port) : (c.trail p).dir = c.dir := rfl
@[simp] theorem Ctl.trail_sched (c : Ctl) (p : Port) : (c.trail p).sched = c.sched := rfl
@[simp] theorem Ctl.trail_rows (c : Ctl) (p : Port) : (c.trail p).rows = c.rows := rfl
@[simp] theorem Ctl.trail_media (c : Ctl) (p : Port) : (c.trail p).media = c.media := rfl
@[simp] theorem Ctl.trail_agent (c : Ctl) (p : Port) : (c.trail p).agent = c.agent := rfl
@[simp] theorem Ctl.trail_conf (c : Ctl) (p : Port) : (c.trail p).conf = c.conf := rfl
@[simp] theorem Ctl.trail_mount (c : Ctl) (p : Port) : (c.trail p).mount = c.mount := rfl

@[simp] theorem Ctl.settle_powered (c : Ctl) : (c.settle).powered = c.powered := rfl
@[simp] theorem Ctl.settle_inReset (c : Ctl) : (c.settle).inReset = c.inReset := rfl
@[simp] theorem Ctl.settle_notifs (c : Ctl) : (c.settle).notifs = c.notifs := rfl
@[simp] theorem Ctl.settle_claims (c : Ctl) : (c.settle).claims = c.claims := rfl
@[simp] theorem Ctl.settle_dir (c : Ctl) : (c.settle).dir = c.dir := rfl
@[simp] theorem Ctl.settle_sched (c : Ctl) : (c.settle).sched = c.sched := rfl
@[simp] theorem Ctl.settle_rows (c : Ctl) : (c.settle).rows = c.rows := rfl
@[simp] theorem Ctl.settle_media (c : Ctl) : (c.settle).media = c.media := rfl
@[simp] theorem Ctl.settle_agent (c : Ctl) : (c.settle).agent = c.agent := rfl
@[simp] theorem Ctl.settle_conf (c : Ctl) : (c.settle).conf = c.conf := rfl
@[simp] theorem Ctl.settle_mount (c : Ctl) : (c.settle).mount = c.mount := rfl

@[simp] theorem Ctl.deliver_powered (c : Ctl) (n : Notice) : (c.deliver n).powered = c.powered := rfl
@[simp] theorem Ctl.deliver_inReset (c : Ctl) (n : Notice) : (c.deliver n).inReset = c.inReset := rfl
@[simp] theorem Ctl.deliver_ports (c : Ctl) (n : Notice) : (c.deliver n).ports = c.ports := rfl
@[simp] theorem Ctl.deliver_claims (c : Ctl) (n : Notice) : (c.deliver n).claims = c.claims := rfl
@[simp] theorem Ctl.deliver_dir (c : Ctl) (n : Notice) : (c.deliver n).dir = c.dir := rfl
@[simp] theorem Ctl.deliver_sched (c : Ctl) (n : Notice) : (c.deliver n).sched = c.sched := rfl
@[simp] theorem Ctl.deliver_rows (c : Ctl) (n : Notice) : (c.deliver n).rows = c.rows := rfl
@[simp] theorem Ctl.deliver_media (c : Ctl) (n : Notice) : (c.deliver n).media = c.media := rfl
@[simp] theorem Ctl.deliver_agent (c : Ctl) (n : Notice) : (c.deliver n).agent = c.agent := rfl
@[simp] theorem Ctl.deliver_conf (c : Ctl) (n : Notice) : (c.deliver n).conf = c.conf := rfl
@[simp] theorem Ctl.deliver_mount (c : Ctl) (n : Notice) : (c.deliver n).mount = c.mount := rfl

@[simp] theorem Ctl.judgeWaits_powered (c : Ctl) : (c.judgeWaits).powered = c.powered := rfl
@[simp] theorem Ctl.judgeWaits_inReset (c : Ctl) : (c.judgeWaits).inReset = c.inReset := rfl
@[simp] theorem Ctl.judgeWaits_ports (c : Ctl) : (c.judgeWaits).ports = c.ports := rfl
@[simp] theorem Ctl.judgeWaits_notifs (c : Ctl) : (c.judgeWaits).notifs = c.notifs := rfl
@[simp] theorem Ctl.judgeWaits_claims (c : Ctl) : (c.judgeWaits).claims = c.claims := rfl
@[simp] theorem Ctl.judgeWaits_dir (c : Ctl) : (c.judgeWaits).dir = c.dir := rfl
@[simp] theorem Ctl.judgeWaits_rows (c : Ctl) : (c.judgeWaits).rows = c.rows := rfl
@[simp] theorem Ctl.judgeWaits_media (c : Ctl) : (c.judgeWaits).media = c.media := rfl
@[simp] theorem Ctl.judgeWaits_agent (c : Ctl) : (c.judgeWaits).agent = c.agent := rfl
@[simp] theorem Ctl.judgeWaits_conf (c : Ctl) : (c.judgeWaits).conf = c.conf := rfl
@[simp] theorem Ctl.judgeWaits_mount (c : Ctl) : (c.judgeWaits).mount = c.mount := rfl

@[simp] theorem Ctl.mediaIdle_powered (c : Ctl) : (c.mediaIdle).powered = c.powered := rfl
@[simp] theorem Ctl.mediaIdle_inReset (c : Ctl) : (c.mediaIdle).inReset = c.inReset := rfl
@[simp] theorem Ctl.mediaIdle_ports (c : Ctl) : (c.mediaIdle).ports = c.ports := rfl
@[simp] theorem Ctl.mediaIdle_notifs (c : Ctl) : (c.mediaIdle).notifs = c.notifs := rfl
@[simp] theorem Ctl.mediaIdle_claims (c : Ctl) : (c.mediaIdle).claims = c.claims := rfl
@[simp] theorem Ctl.mediaIdle_dir (c : Ctl) : (c.mediaIdle).dir = c.dir := rfl
@[simp] theorem Ctl.mediaIdle_sched (c : Ctl) : (c.mediaIdle).sched = c.sched := rfl
@[simp] theorem Ctl.mediaIdle_rows (c : Ctl) : (c.mediaIdle).rows = c.rows := rfl
@[simp] theorem Ctl.mediaIdle_agent (c : Ctl) : (c.mediaIdle).agent = c.agent := rfl
@[simp] theorem Ctl.mediaIdle_conf (c : Ctl) : (c.mediaIdle).conf = c.conf := rfl
@[simp] theorem Ctl.mediaIdle_mount (c : Ctl) : (c.mediaIdle).mount = c.mount := rfl

/-! ### The same through the readers -/

@[simp] theorem Ctl.port_onPort_same (c : Ctl) (p : Port) (g : PortUnit → PortUnit) : (c.onPort p g).port p = g (c.port p) := by
  simp [Ctl.port, Ctl.onPort]

theorem Ctl.port_onPort_other (c : Ctl) {p q : Port} (h : q ≠ p) (g : PortUnit → PortUnit) :
    (c.onPort p g).port q = c.port q := by
  simp [Ctl.port, Ctl.onPort, PerPort.get_set_other _ h]

theorem Ctl.port_onPort (c : Ctl) (p q : Port) (g : PortUnit → PortUnit) :
    (c.onPort p g).port q = if q = p then g (c.port p) else c.port q := by
  by_cases h : q = p
  · subst h; simp
  · simp [h, Ctl.port_onPort_other c h]

@[simp] theorem Ctl.notif_onPort (c : Ctl) (p q : Port) (g : PortUnit → PortUnit) : (c.onPort p g).notif q = c.notif q := rfl

@[simp] theorem Ctl.requests_onPort (c : Ctl) (p q : Port) (g : PortUnit → PortUnit) :
    (c.onPort p g).requests q = c.requests q := rfl

@[simp] theorem Ctl.claimOf_onPort (c : Ctl) (p : Port) (g : PortUnit → PortUnit) (k : Half) :
    (c.onPort p g).claimOf k = c.claimOf k := rfl

@[simp] theorem Ctl.lookup_onPort (c : Ctl) (p : Port) (g : PortUnit → PortUnit) (k : Half) :
    (c.onPort p g).lookup k = c.lookup k := rfl

@[simp] theorem Ctl.notif_onNotif_same (c : Ctl) (p : Port) (g : NotifUnit → NotifUnit) :
    (c.onNotif p g).notif p = g (c.notif p) := by
  simp [Ctl.notif, Ctl.onNotif]

theorem Ctl.notif_onNotif_other (c : Ctl) {p q : Port} (h : q ≠ p) (g : NotifUnit → NotifUnit) :
    (c.onNotif p g).notif q = c.notif q := by
  simp [Ctl.notif, Ctl.onNotif, PerPort.get_set_other _ h]

@[simp] theorem Ctl.port_onNotif (c : Ctl) (p q : Port) (g : NotifUnit → NotifUnit) : (c.onNotif p g).port q = c.port q := rfl

@[simp] theorem Ctl.requests_setRequests_same (c : Ctl) (p : Port) (l : List Request) : (c.setRequests p l).requests p = l := by
  simp [Ctl.requests, Ctl.setRequests]

theorem Ctl.requests_setRequests_other (c : Ctl) {p q : Port} (h : q ≠ p) (l : List Request) :
    (c.setRequests p l).requests q = c.requests q := by
  simp [Ctl.requests, Ctl.setRequests, PerPort.get_set_other _ h]

@[simp] theorem Ctl.port_setRequests (c : Ctl) (p q : Port) (l : List Request) : (c.setRequests p l).port q = c.port q := rfl

/-- Two updates of one Port Unit are one. -/
@[simp] theorem Ctl.onPort_onPort (c : Ctl) (p : Port) (f g : PortUnit → PortUnit) :
    (c.onPort p f).onPort p g = c.onPort p fun u => g (f u) := by
  simp [Ctl.onPort, Ctl.port]

/-- Updates that leave a Port Unit as it is. -/
theorem Ctl.onPort_eq_self (c : Ctl) (p : Port) (f : PortUnit → PortUnit) (h : f (c.port p) = c.port p) : c.onPort p f = c := by
  simp [Ctl.onPort, h]
  simp [Ctl.port]

/-- An update of a Port Unit depends on its value there alone. -/
theorem Ctl.onPort_congr (c : Ctl) (p : Port) (f g : PortUnit → PortUnit) (h : f (c.port p) = g (c.port p)) :
    c.onPort p f = c.onPort p g := by
  simp [Ctl.onPort, h]

/-- An update of the notices of a port depends on their value there alone. -/
theorem Ctl.onNotif_congr (c : Ctl) (p : Port) (f g : NotifUnit → NotifUnit) (h : f (c.notif p) = g (c.notif p)) :
    c.onNotif p f = c.onNotif p g := by
  simp [Ctl.onNotif, h]

/-- Two updates of the notices of one port are one. -/
@[simp] theorem Ctl.onNotif_onNotif (c : Ctl) (p : Port) (f g : NotifUnit → NotifUnit) :
    (c.onNotif p f).onNotif p g = c.onNotif p fun u => g (f u) := by
  simp [Ctl.onNotif, Ctl.notif]

theorem Ctl.onPort_onNotif (c : Ctl) (p q : Port) (f : PortUnit → PortUnit) (g : NotifUnit → NotifUnit) :
    (c.onPort p f).onNotif q g = (c.onNotif q g).onPort p f := rfl

theorem Ctl.onPort_setRequests (c : Ctl) (p q : Port) (f : PortUnit → PortUnit) (l : List Request) :
    (c.onPort p f).setRequests q l = (c.setRequests q l).onPort p f := rfl

/-- A command taken: the receiver is TRAILING and one credit more is in use, in one update. -/
theorem Ctl.trail_taken (c : Ctl) (p : Port) :
    ((c.trail p).onPort p fun u => { u with outstanding := u.outstanding + 1 }) = c.onPort p PortUnit.taken := by
  rw [Ctl.trail, Ctl.onPort_onPort]
  rfl

theorem State.after_eq (s : State) (c : Ctl) : s.after c = .next (s.settled c) := rfl

end Sys2Proof.Machine
end

