-- ==== Sys2Proof/Laws/Arrivals.lean ====
section
/-! SUPPORT. Arrival laws: what the completion of a command's frame does (R60, R64, R66, R75), once for every command. -/

namespace Sys2Proof.Machine

/-- Which bodies an arrival runs: the whole effect of a command whose frame completes. -/
theorem State.arrival_ready {s : State} {p : Port} {op tag : Byte} {args : List Byte} (f : Ctl → Ctl)
    (h : s.ctl.frameReady p op tag args = true) : s.arrival p op tag args f = .next (s.settled (f s.ctl)) := by
  rw [State.arrival, if_pos h, State.after_eq]

/-- Where no such frame is being received nothing happens. -/
theorem State.arrival_unready {s : State} {p : Port} {op tag : Byte} {args : List Byte} (f : Ctl → Ctl)
    (h : s.ctl.frameReady p op tag args = false) : s.arrival p op tag args f = .next s := by
  rw [State.arrival, if_neg (by simp [h])]

/-- An arrival answers a next state, and what it can be. -/
theorem State.arrival_cases (s : State) (p : Port) (op tag : Byte) (args : List Byte) (f : Ctl → Ctl) :
    s.arrival p op tag args f = .next (s.settled (f s.ctl)) ∨ s.arrival p op tag args f = .next s := by
  cases h : s.ctl.frameReady p op tag args
  · exact Or.inr (State.arrival_unready f h)
  · exact Or.inl (State.arrival_ready f h)

/-- With a credit free a command is accepted and handled (R64). -/
theorem Ctl.accept_credit {c : Ctl} {p : Port} (body : Ctl → Ctl) (h : (c.port p).outstanding < Config.creditLimit) :
    c.accept p body = body (c.onPort p PortUnit.taken) := by
  have h' : ((c.trail p).port p).outstanding < Config.creditLimit := by simpa [Ctl.trail] using h
  simp only [Ctl.accept]
  rw [if_pos h', Ctl.trail_taken]

/-- Without a credit a command is dropped with OVR set (R64). -/
theorem Ctl.accept_dropped {c : Ctl} {p : Port} (body : Ctl → Ctl) (h : Config.creditLimit ≤ (c.port p).outstanding) :
    c.accept p body = c.onPort p fun u => { u with rx := .trailing, sdo := some 0xFF, ovr := true } := by
  have h' : ¬ ((c.trail p).port p).outstanding < Config.creditLimit := by simpa [Ctl.trail] using h
  simp only [Ctl.accept]
  rw [if_neg h', Ctl.setOvr, Ctl.trail, Ctl.onPort_onPort]

/-- Outside MOUNTING an accepted command is handled by its body (R75). -/
theorem Ctl.arrive_serves {c : Ctl} {p : Port} (cmd : Cmd) (tag : Byte) (body : Ctl → Ctl)
    (h : (c.port p).outstanding < Config.creditLimit) (hm : c.sched.mode ≠ .mounting) :
    c.arrive p cmd tag body = body (c.onPort p PortUnit.taken) := by
  rw [Ctl.arrive, Ctl.accept_credit _ h, if_neg (by simpa using hm)]

/-- A command taken and answered, in one update. -/
theorem Ctl.answer_taken (c : Ctl) (p : Port) (cmd : Cmd) (tag : Byte) (st : Status) (result : List Byte) :
    (c.onPort p PortUnit.taken).answer p cmd tag st result = c.answered p ⟨st, tag, cmd.code, result⟩ := by
  rw [Ctl.answer, Ctl.enter, Ctl.onPort_onPort]
  rfl

/-- An array command taken joins its port's list, a moment of choice (R90, R101). -/
theorem Ctl.submit_taken (c : Ctl) (p : Port) (tag : Byte) (body : ReqBody) :
    (c.onPort p PortUnit.taken).submit p tag body = (c.queued p tag body).schedule := rfl

/-- An array command taken and judged is answered, or joins its port's list (R90). -/
theorem Ctl.judge_taken (c : Ctl) (p : Port) (tag : Byte) (body : ReqBody) (refusal : Option Status) :
    (c.onPort p PortUnit.taken).judge p tag body refusal = match refusal with
      | some st => c.answered p ⟨st, tag, body.cmd.code, refusedResult body.cmd⟩
      | none => (c.queued p tag body).schedule := by
  cases refusal with
  | some st => exact Ctl.answer_taken _ _ _ _ _ _
  | none => rfl

/-- An answer and a change of the notices are made in either order. -/
theorem Ctl.answer_onNotif (c : Ctl) (p q : Port) (g : NotifUnit → NotifUnit) (cmd : Cmd) (tag : Byte) (st : Status)
    (result : List Byte) : (c.onNotif q g).answer p cmd tag st result = (c.answer p cmd tag st result).onNotif q g := rfl

/-- During MOUNTING an accepted command is answered NOT_READY (R75). -/
theorem Ctl.arrive_mounting {c : Ctl} {p : Port} (cmd : Cmd) (tag : Byte) (body : Ctl → Ctl)
    (h : (c.port p).outstanding < Config.creditLimit) (hm : c.sched.mode = .mounting) :
    c.arrive p cmd tag body = c.answered p ⟨.notReady, tag, cmd.code, refusedResult cmd⟩ := by
  rw [Ctl.arrive, Ctl.accept_credit _ h, if_pos (by simpa using hm), Ctl.answer_taken]

/-- A command of a device that serves it answers the state its body gives. -/
theorem State.arrive_serves {s : State} {p : Port} {tag : Byte} {args : List Byte} (cmd : Cmd) (body : Ctl → Ctl)
    (h : s.serves p cmd.code tag args) :
    (s.arrival p cmd.code tag args fun c => c.arrive p cmd tag body)
      = .next (s.settled (body (s.ctl.onPort p PortUnit.taken))) := by
  rw [State.arrival_ready _ h.1.1, Ctl.arrive_serves _ _ _ h.1.2 h.2]

/-- A command by its opcode: every arrival row is the one operation on its command. -/
theorem exec_instr (cmd : Cmd) (p : Port) (tag : Byte) (args : List Byte) (s : State) :
    exec (cmd.instr p tag args) s = s.arrival p cmd.code tag args fun c => c.arriveOpcode p cmd.code tag args := by
  cases cmd <;> rfl

/-- An opcode that is no command. -/
theorem exec_badCmd {op : Byte} (h : Cmd.ofCode op = none) (p : Port) (tag : Byte) (args : List Byte) (s : State) :
    exec (.badCmd p op tag args) s = s.arrival p op tag args fun c => c.arriveOpcode p op tag args := by
  show (if _ then _ else _) = _
  rw [if_pos (by simp [h])]
  simp [Ctl.arriveOpcode, h]

/-- Each command's opcode names it. -/
@[simp] theorem Cmd.ofCode_code (cmd : Cmd) : Cmd.ofCode cmd.code = some cmd := by cases cmd <;> rfl

/-- A command that needs a credit, other than IDENT, arrives by the one operation that answers NOT_READY during MOUNTING. -/
theorem Ctl.arriveOpcode_arrive {cmd : Cmd} (h : cmd.needsCredit = true) (hi : cmd ≠ .ident) (p : Port) (tag : Byte)
    (args : List Byte) : ∃ body : Ctl → Ctl, ∀ c : Ctl, c.arriveOpcode p cmd.code tag args = c.arrive p cmd tag body := by
  simp only [Ctl.arriveOpcode, Cmd.ofCode_code]
  cases cmd
  case ident => exact absurd rfl hi
  case collect => simp [Cmd.needsCredit] at h
  case drain => simp [Cmd.needsCredit] at h
  case resync => simp [Cmd.needsCredit] at h
  all_goals exact ⟨_, fun c => rfl⟩

/-- A command that needs a credit is accepted or dropped. -/
theorem Ctl.arriveOpcode_accept {cmd : Cmd} (h : cmd.needsCredit = true) (p : Port) (tag : Byte) (args : List Byte) :
    ∃ body : Ctl → Ctl, ∀ c : Ctl, c.arriveOpcode p cmd.code tag args = c.accept p body := by
  by_cases hi : cmd = .ident
  · subst hi
    simp only [Ctl.arriveOpcode, Cmd.ofCode_code]
    exact ⟨_, fun c => rfl⟩
  · obtain ⟨body, hb⟩ := Ctl.arriveOpcode_arrive h hi p tag args
    exact ⟨_, fun c => (hb c).trans rfl⟩

/-- The Directory, the claim table, the lists, the notices and the configuration read the same once a command is taken. -/
@[simp] theorem Ctl.taken_staging (c : Ctl) (p : Port) : ((c.onPort p PortUnit.taken).port p).staging = (c.port p).staging := by
  simp [PortUnit.taken]

end Sys2Proof.Machine
end

