-- ==== Sys2Proof/Laws/Bytes.lean ====
section
/-! SUPPORT. Byte laws: fields of known value, and lengths of fields. -/

namespace Sys2Proof.Machine

theorem natHalf_zero : natHalf 0 = [0, 0] := by decide

@[simp] theorem halfBytes_length (h : Half) : (halfBytes h).length = 2 := rfl

@[simp] theorem natHalf_length (n : Nat) : (natHalf n).length = 2 := rfl

@[simp] theorem wordBytes_length (w : Word) : (wordBytes w).length = 4 := rfl

@[simp] theorem withCrc16_length (l : List Byte) : (withCrc16 l).length = l.length + 2 := by simp [withCrc16]

theorem boolByte_decide (P : Prop) [Decidable P] : boolByte (decide P) = if P then 1 else 0 := by
  by_cases h : P <;> simp [boolByte, h]

end Sys2Proof.Machine
end

