-- ==== Sys2Proof/Laws/Memory.lean ====
section
/-! SUPPORT. Laws of the sparse memory: every operation keeps the canonical form, a byte written reads back, every other byte
reads as before. -/

namespace Sys2Proof.Machine

section Mem

variable {d : Byte}

theorem Memory.wf_nil : Memory.wf d [] := ⟨List.Pairwise.nil, by simp⟩

theorem Memory.wf_cons {x : Host.Cell} {t : List Host.Cell} :
    Memory.wf d (x :: t) ↔ (∀ y ∈ t, x.1 < y.1) ∧ x.2 ≠ d ∧ Memory.wf d t := by
  constructor
  · rintro ⟨h1, h2⟩
    rw [List.pairwise_cons] at h1
    exact ⟨h1.1, h2 x List.mem_cons_self, h1.2, fun y hy => h2 y (List.mem_cons_of_mem _ hy)⟩
  · rintro ⟨h1, h2, h3, h4⟩
    refine ⟨List.pairwise_cons.2 ⟨h1, h3⟩, fun y hy => ?_⟩
    rcases List.mem_cons.1 hy with h | h
    · exact h ▸ h2
    · exact h4 y h

/-- An address below every one listed reads as unlisted. -/
theorem Memory.read_below {m : List Host.Cell} {a : Nat} (h : ∀ y ∈ m, a < y.1) : Memory.read d m a = d := by
  induction m with
  | nil => rfl
  | cons x t ih =>
    obtain ⟨x, v⟩ := x
    have h1 := h (x, v) List.mem_cons_self
    have h2 := ih fun y hy => h y (List.mem_cons_of_mem _ hy)
    simp only [Memory.read]
    split
    · next he => simp only at h1; omega
    · exact h2

theorem Memory.mem_write {m : List Host.Cell} {a : Nat} {b : Byte} {y : Host.Cell} (h : y ∈ Memory.write d m a b) :
    (y = (a, b) ∧ b ≠ d) ∨ y ∈ m := by
  induction m with
  | nil =>
    simp only [Memory.write] at h
    split at h
    · cases h
    · next hb => exact .inl ⟨by simpa using h, hb⟩
  | cons x t ih =>
    obtain ⟨x, v⟩ := x
    simp only [Memory.write] at h
    split at h
    · split at h
      · exact .inr h
      · next hb =>
        rcases List.mem_cons.1 h with h | h
        · exact .inl ⟨h, hb⟩
        · exact .inr h
    · split at h
      · split at h
        · exact .inr (List.mem_cons_of_mem _ h)
        · next hb =>
          rcases List.mem_cons.1 h with h | h
          · exact .inl ⟨h, hb⟩
          · exact .inr (List.mem_cons_of_mem _ h)
      · rcases List.mem_cons.1 h with h | h
        · exact .inr (h ▸ List.mem_cons_self)
        · rcases ih h with h | h
          · exact .inl h
          · exact .inr (List.mem_cons_of_mem _ h)

/-- A write keeps the canonical form. -/
theorem Memory.write_wf {m : List Host.Cell} (h : Memory.wf d m) (a : Nat) (b : Byte) : Memory.wf d (Memory.write d m a b) := by
  induction m with
  | nil =>
    simp only [Memory.write]
    split
    · exact Memory.wf_nil
    · next hb => exact Memory.wf_cons.2 ⟨by simp, hb, Memory.wf_nil⟩
  | cons x t ih =>
    obtain ⟨x, v⟩ := x
    have h' := Memory.wf_cons.1 h
    obtain ⟨h1, h2, h3⟩ := h'
    simp only [Memory.write]
    split
    · next hlt =>
      split
      · exact h
      · next hb =>
        refine Memory.wf_cons.2 ⟨fun y hy => ?_, hb, h⟩
        rcases List.mem_cons.1 hy with hy | hy
        · subst hy; exact hlt
        · exact Nat.lt_trans hlt (h1 y hy)
    · split
      · next he =>
        subst he
        split
        · exact h3
        · next hb => exact Memory.wf_cons.2 ⟨h1, hb, h3⟩
      · next hlt hne =>
        refine Memory.wf_cons.2 ⟨fun y hy => ?_, h2, ih h3⟩
        rcases Memory.mem_write hy with hy | hy
        · rw [hy.1]; simp only; omega
        · exact h1 y hy

/-- A byte written reads back. -/
theorem Memory.read_write_same {m : List Host.Cell} (h : Memory.wf d m) (a : Nat) (b : Byte) :
    Memory.read d (Memory.write d m a b) a = b := by
  induction m with
  | nil =>
    simp only [Memory.write]
    split
    · next hb => simp [Memory.read, hb]
    · simp [Memory.read]
  | cons x t ih =>
    obtain ⟨x, v⟩ := x
    have h' := Memory.wf_cons.1 h
    obtain ⟨h1, h2, h3⟩ := h'
    simp only [Memory.write]
    split
    · next hlt =>
      split
      · next hb =>
        subst hb
        apply Memory.read_below
        intro y hy
        rcases List.mem_cons.1 hy with hy | hy
        · subst hy; exact hlt
        · exact Nat.lt_trans hlt (h1 y hy)
      · simp [Memory.read]
    · split
      · next he =>
        subst he
        split
        · next hb => subst hb; exact Memory.read_below h1
        · simp [Memory.read]
      · next hlt hne => simp [Memory.read, hne, ih h3]

/-- Every other byte reads as before. -/
theorem Memory.read_write_other {m : List Host.Cell} (h : Memory.wf d m) {a a' : Nat} (hne : a' ≠ a) (b : Byte) :
    Memory.read d (Memory.write d m a b) a' = Memory.read d m a' := by
  induction m with
  | nil =>
    simp only [Memory.write]
    split
    · rfl
    · simp [Memory.read, hne]
  | cons x t ih =>
    obtain ⟨x, v⟩ := x
    have h' := Memory.wf_cons.1 h
    obtain ⟨h1, h2, h3⟩ := h'
    simp only [Memory.write]
    split
    · split
      · rfl
      · simp [Memory.read, hne]
    · split
      · next he =>
        subst he
        split
        · simp [Memory.read, hne]
        · simp [Memory.read, hne]
      · simp [Memory.read, ih h3]

theorem Memory.writeRun_wf {m : List Host.Cell} (h : Memory.wf d m) (base : Nat) (f : Nat → Byte) (n : Nat) :
    Memory.wf d (Memory.writeRun d m base f n) := by
  induction n with
  | zero => exact h
  | succ n ih => exact Memory.write_wf ih _ _

/-- A run written reads back inside it. -/
theorem Memory.read_writeRun_in {m : List Host.Cell} (h : Memory.wf d m) (base : Nat) (f : Nat → Byte) {n i : Nat} (hi : i < n) :
    Memory.read d (Memory.writeRun d m base f n) (base + i) = f i := by
  induction n with
  | zero => omega
  | succ n ih =>
    simp only [Memory.writeRun]
    by_cases he : i = n
    · subst he; exact Memory.read_write_same (Memory.writeRun_wf h _ _ _) _ _
    · rw [Memory.read_write_other (Memory.writeRun_wf h _ _ _) (by omega)]
      exact ih (by omega)

/-- A run written leaves every byte outside it. -/
theorem Memory.read_writeRun_out {m : List Host.Cell} (h : Memory.wf d m) (base : Nat) (f : Nat → Byte) {n a : Nat}
    (ha : a < base ∨ base + n ≤ a) : Memory.read d (Memory.writeRun d m base f n) a = Memory.read d m a := by
  induction n with
  | zero => rfl
  | succ n ih =>
    simp only [Memory.writeRun]
    rw [Memory.read_write_other (Memory.writeRun_wf h _ _ _) (by omega)]
    exact ih (by omega)

theorem Memory.clear_wf {m : List Host.Cell} (h : Memory.wf d m) (base n : Nat) : Memory.wf d (Memory.clear m base n) :=
  ⟨h.1.filter _, fun x hx => h.2 x (List.mem_of_mem_filter hx)⟩

/-- A run cleared reads as unlisted. -/
theorem Memory.read_clear_in {m : List Host.Cell} (base n : Nat) {a : Nat} (ha : base ≤ a ∧ a < base + n) :
    Memory.read d (Memory.clear m base n) a = d := by
  induction m with
  | nil => rfl
  | cons x t ih =>
    obtain ⟨x, v⟩ := x
    unfold Memory.clear at ih ⊢
    rw [List.filter_cons]
    split
    · next hc =>
      simp only [Bool.or_eq_true, decide_eq_true_eq] at hc
      simp only [Memory.read]
      rw [if_neg (by omega)]
      exact ih
    · exact ih

/-- A run cleared leaves every byte outside it. -/
theorem Memory.read_clear_out {m : List Host.Cell} (base n : Nat) {a : Nat} (ha : a < base ∨ base + n ≤ a) :
    Memory.read d (Memory.clear m base n) a = Memory.read d m a := by
  induction m with
  | nil => rfl
  | cons x t ih =>
    obtain ⟨x, v⟩ := x
    unfold Memory.clear at ih ⊢
    rw [List.filter_cons]
    split
    · simp only [Memory.read, ih]
    · next hc =>
      simp only [Bool.or_eq_true, decide_eq_true_eq] at hc
      simp only [Memory.read]
      rw [if_neg (by omega)]
      exact ih

/-- A listed address does not read as an unlisted one. -/
theorem Memory.read_of_mem {m : List Host.Cell} (h : Memory.wf d m) {x : Host.Cell} (hx : x ∈ m) : Memory.read d m x.1 = x.2 := by
  induction m with
  | nil => cases hx
  | cons y t ih =>
    obtain ⟨y, v⟩ := y
    have h' := Memory.wf_cons.1 h
    rcases List.mem_cons.1 hx with hx | hx
    · subst hx; simp [Memory.read]
    · have := h'.1 x hx
      simp only [Memory.read]
      rw [if_neg (by simp only at this; omega)]
      exact ih h'.2.2 hx

/-- Clearing a run changes nothing exactly when every byte of it reads as unlisted. -/
theorem Memory.clear_length_eq {m : List Host.Cell} (h : Memory.wf d m) (base n : Nat) :
    (Memory.clear m base n).length = m.length ↔ ∀ a, base ≤ a → a < base + n → Memory.read d m a = d := by
  constructor
  · intro hl a h1 h2
    have he : Memory.clear m base n = m := by
      unfold Memory.clear at hl ⊢
      exact List.filter_eq_self.2 (List.length_filter_eq_length_iff.1 hl)
    rw [← he]
    exact Memory.read_clear_in base n ⟨h1, h2⟩
  · intro hr
    have he : Memory.clear m base n = m := by
      unfold Memory.clear
      refine List.filter_eq_self.2 fun x hx => ?_
      simp only [Bool.or_eq_true, decide_eq_true_eq]
      by_contra hc
      have := hr x.1 (by omega) (by omega)
      rw [Memory.read_of_mem h hx] at this
      exact h.2 x hx this
    rw [he]

end Mem

end Sys2Proof.Machine
end

