-- ==== Sys2Proof/Laws/Cells.lean ====
section
/-! SUPPORT. Laws of the array's cells: every operation keeps the canonical form and stays within its page or row, and what it
leaves in each byte there. -/

namespace Sys2Proof.Machine

theorem address_off (row page off : Nat) : address row page off = address row page 0 + off := by
  simp [address]

theorem address_row (row page off : Nat) : address row page off = address row 0 0 + (page * 64 + off) := by
  simp [address, Config.pageSize]
  omega

/-! ### Pages -/

theorem Cells.setPage_value (c : Cells) (row page : Nat) (f : Nat → Byte × Byte) :
    (c.setPage row page f).value
      = Memory.writeRun Config.erasedByte c.value (address row page 0) (fun i => (f i).1) Config.pageSize := by
  simp only [Cells.setPage]

theorem Cells.setPage_weak (c : Cells) (row page : Nat) (f : Nat → Byte × Byte) :
    (c.setPage row page f).weak
      = Memory.writeRun Config.noWeak c.weak (address row page 0) (fun i => (f i).2) Config.pageSize := by
  simp only [Cells.setPage]

theorem Cells.setPage_wf {c : Cells} (h : c.wf) (row page : Nat) (f : Nat → Byte × Byte) : (c.setPage row page f).wf := by
  unfold Cells.wf
  rw [Cells.setPage_value, Cells.setPage_weak]
  exact And.intro (Memory.writeRun_wf h.1 _ _ _) (Memory.writeRun_wf h.2 _ _ _)

/-- A page set reads as what it was set to. -/
theorem Cells.setPage_in {c : Cells} (h : c.wf) (row page : Nat) (f : Nat → Byte × Byte) {off : Nat} (ho : off < 64) :
    (c.setPage row page f).readByte (address row page off) = (f off).1
      ∧ (c.setPage row page f).weakByte (address row page off) = (f off).2 := by
  unfold Cells.readByte Cells.weakByte
  rw [Cells.setPage_value, Cells.setPage_weak, address_off row page off]
  exact And.intro (Memory.read_writeRun_in h.1 _ _ ho) (Memory.read_writeRun_in h.2 _ _ ho)

/-- A page set leaves every byte outside it. -/
theorem Cells.setPage_out {c : Cells} (h : c.wf) (row page : Nat) (f : Nat → Byte × Byte) {a : Nat}
    (ha : a < address row page 0 ∨ address row page 0 + 64 ≤ a) :
    (c.setPage row page f).readByte a = c.readByte a ∧ (c.setPage row page f).weakByte a = c.weakByte a := by
  unfold Cells.readByte Cells.weakByte
  rw [Cells.setPage_value, Cells.setPage_weak]
  exact And.intro (Memory.read_writeRun_out h.1 _ _ ha) (Memory.read_writeRun_out h.2 _ _ ha)

/-! ### One byte's cells under a pulse -/

/-- A pulse leaves every cell whose target is 1 and every cell programmed already (R7). -/
theorem pulseByte_keeps (target value weak : Byte) (r : CellResidue) :
    (pulseByte target value weak r).1 &&& (target ||| (~~~value &&& ~~~weak)) = value &&& (target ||| (~~~value &&& ~~~weak))
      ∧ (pulseByte target value weak r).2 &&& (target ||| (~~~value &&& ~~~weak))
        = weak &&& (target ||| (~~~value &&& ~~~weak)) := by
  constructor <;>
    · ext i hi
      simp only [pulseByte, BitVec.getElem_and, BitVec.getElem_or, BitVec.getElem_not]
      cases target[i] <;> cases value[i] <;> cases weak[i] <;> simp

/-- A pulse that leaves nothing behind programs every cell whose target is 0 (R8). -/
theorem pulseByte_done (target value weak : Byte) (off : Nat) :
    ((pulseByte target value weak ⟨off, 0, 0, 0⟩).1 ||| (pulseByte target value weak ⟨off, 0, 0, 0⟩).2) &&& ~~~target = 0 := by
  ext i hi
  simp only [pulseByte, BitVec.getElem_and, BitVec.getElem_or, BitVec.getElem_not, BitVec.getElem_zero, BitVec.ofNat_eq_ofNat]
  cases target[i] <;> cases value[i] <;> cases weak[i] <;> simp

/-- An abandoned program keeps each cell whose target is 1, and each other cell reads its old value or 0 (R16). -/
theorem tornByte_reads (target old value weak : Byte) (r : CellResidue) :
    (tornByte target old value weak r).1 &&& target = value &&& target
      ∧ (tornByte target old value weak r).1 &&& ~~~target &&& ~~~old = 0 := by
  constructor <;>
    · ext i hi
      simp only [tornByte, pulseByte, BitVec.getElem_and, BitVec.getElem_or, BitVec.getElem_not, BitVec.getElem_zero,
        BitVec.ofNat_eq_ofNat]
      cases target[i] <;> cases value[i] <;> cases weak[i] <;> cases old[i] <;> simp

theorem residueAt_nil (off : Nat) : residueAt [] off = ⟨off, 0, 0, 0⟩ := rfl

theorem Cells.programPulse_wf {c : Cells} (h : c.wf) (row page : Nat) (target : Page) (left : Residue) :
    (c.programPulse row page target left).wf := Cells.setPage_wf h _ _ _

theorem Cells.tearPage_wf {c : Cells} (h : c.wf) (row page : Nat) (target before : Page) (left : Residue) :
    (c.tearPage row page target before left).wf := Cells.setPage_wf h _ _ _

/-! ### Rows -/

theorem Cells.leaveByte_wf (old : Cells) (row : Nat) (r : CellResidue) {c : Cells} (h : c.wf) : (old.leaveByte row r c).wf := by
  unfold Cells.leaveByte
  split
  · exact ⟨Memory.write_wf h.1 _ _, Memory.write_wf h.2 _ _⟩
  · exact h

theorem Cells.leaveAll_wf (old : Cells) (row : Nat) (left : Residue) {c : Cells} (h : c.wf) :
    (left.foldr (old.leaveByte row) c).wf := by
  induction left with
  | nil => exact h
  | cons r t ih => exact Cells.leaveByte_wf old row r ih

theorem Cells.clearRow_wf {c : Cells} (h : c.wf) (row : Nat) :
    Cells.wf ⟨Memory.clear c.value (address row 0 0) Config.rowSize, Memory.clear c.weak (address row 0 0) Config.rowSize⟩ :=
  ⟨Memory.clear_wf h.1 _ _, Memory.clear_wf h.2 _ _⟩

theorem Cells.erasePulse_wf {c : Cells} (h : c.wf) (row : Nat) (left : Residue) : (c.erasePulse row left).wf :=
  Cells.leaveAll_wf c row left (Cells.clearRow_wf h row)

/-- The byte a residue names lies in its row: bytes outside the row stay. -/
theorem Cells.leaveByte_out (old : Cells) (row : Nat) (r : CellResidue) {c : Cells} (h : c.wf) {a : Nat}
    (ha : a < address row 0 0 ∨ address row 0 0 + 1024 ≤ a) :
    (old.leaveByte row r c).readByte a = c.readByte a ∧ (old.leaveByte row r c).weakByte a = c.weakByte a := by
  unfold Cells.leaveByte
  split
  · next ho =>
    have hne : a ≠ address row 0 r.off := by
      rw [address_off]
      simp only [Config.rowSize] at ho
      omega
    exact ⟨Memory.read_write_other h.1 hne _, Memory.read_write_other h.2 hne _⟩
  · exact ⟨rfl, rfl⟩

/-- An erase pulse leaves every byte outside its row (R11). -/
theorem Cells.erasePulse_out {c : Cells} (h : c.wf) (row : Nat) (left : Residue) {a : Nat}
    (ha : a < address row 0 0 ∨ address row 0 0 + 1024 ≤ a) :
    (c.erasePulse row left).readByte a = c.readByte a ∧ (c.erasePulse row left).weakByte a = c.weakByte a := by
  unfold Cells.erasePulse
  induction left with
  | nil => exact ⟨Memory.read_clear_out _ _ ha, Memory.read_clear_out _ _ ha⟩
  | cons r t ih =>
    have := Cells.leaveByte_out c row r (Cells.leaveAll_wf c row t (Cells.clearRow_wf h row)) ha
    exact ⟨this.1.trans ih.1, this.2.trans ih.2⟩

/-- What an erase pulse makes of each byte of its row (R3, R10, R11): erased, but for what the residue leaves behind. -/
theorem Cells.erasePulse_in {c : Cells} (h : c.wf) (row : Nat) (left : Residue) {off : Nat} (ho : off < 1024) :
    (c.erasePulse row left).readByte (address row 0 off)
        = (eraseByte (c.readByte (address row 0 off)) (c.weakByte (address row 0 off)) (residueAt left off)).1
      ∧ (c.erasePulse row left).weakByte (address row 0 off)
        = (eraseByte (c.readByte (address row 0 off)) (c.weakByte (address row 0 off)) (residueAt left off)).2 := by
  unfold Cells.erasePulse
  induction left with
  | nil =>
    have ha := address_off row 0 off
    have h1 : address row 0 0 ≤ address row 0 off ∧ address row 0 off < address row 0 0 + Config.rowSize := by
      rw [ha]
      simp only [Config.rowSize]
      omega
    have e1 := Memory.read_clear_in (d := Config.erasedByte) (m := c.value) (address row 0 0) Config.rowSize h1
    have e2 := Memory.read_clear_in (d := Config.noWeak) (m := c.weak) (address row 0 0) Config.rowSize h1
    refine ⟨e1.trans ?_, e2.trans ?_⟩
    · simp [eraseByte, residueAt_nil, Config.erasedByte]
    · simp [eraseByte, residueAt_nil, Config.noWeak]
  | cons r t ih =>
    have hw := Cells.leaveAll_wf c row t (Cells.clearRow_wf h row)
    simp only [List.foldr_cons]
    unfold Cells.leaveByte
    by_cases hr : r.off = off
    · subst hr
      rw [if_pos (show r.off < Config.rowSize from ho), show residueAt (r :: t) r.off = r by simp [residueAt]]
      exact ⟨Memory.read_write_same hw.1 _ _, Memory.read_write_same hw.2 _ _⟩
    · rw [show residueAt (r :: t) off = residueAt t off by simp [residueAt, hr]]
      split
      · have hne : address row 0 off ≠ address row 0 r.off := by
          rw [address_off row 0 off, address_off row 0 r.off]
          omega
        exact ⟨(Memory.read_write_other hw.1 hne _).trans ih.1, (Memory.read_write_other hw.2 hne _).trans ih.2⟩
      · exact ih

/-- The erase verify is a test of every byte of the row (R10). -/
theorem Cells.rowErased_iff {c : Cells} (h : c.wf) (row : Nat) :
    c.rowErased row = true ↔
      ∀ off, off < 1024 → c.readByte (address row 0 off) = 0xFF ∧ c.weakByte (address row 0 off) = 0 := by
  unfold Cells.rowErased
  rw [Bool.and_eq_true, decide_eq_true_eq, decide_eq_true_eq, Memory.clear_length_eq h.1, Memory.clear_length_eq h.2]
  constructor
  · rintro ⟨h1, h2⟩ off ho
    rw [address_off]
    exact ⟨h1 _ (by omega) (by simp [Config.rowSize]; omega), h2 _ (by omega) (by simp [Config.rowSize]; omega)⟩
  · intro hr
    have hs : ∀ a, address row 0 0 ≤ a → a < address row 0 0 + Config.rowSize →
        c.readByte a = 0xFF ∧ c.weakByte a = 0 := by
      intro a h1 h2
      have := hr (a - address row 0 0) (by simp [Config.rowSize] at h2; omega)
      rw [address_off, show address row 0 0 + (a - address row 0 0) = a by omega] at this
      exact this
    exact ⟨fun a h1 h2 => (hs a h1 h2).1, fun a h1 h2 => (hs a h1 h2).2⟩

/-! ### Damage -/

theorem Cells.damageByte_wf (row page : Nat) (d : CellDamage) {c : Cells} (h : c.wf) : (Cells.damageByte row page c d).wf := by
  unfold Cells.damageByte
  split
  · exact ⟨Memory.write_wf h.1 _ _, Memory.write_wf h.2 _ _⟩
  · exact h

theorem Cells.damage_wf (row page : Nat) (marks : List CellDamage) {c : Cells} (h : c.wf) : (c.damage row page marks).wf := by
  unfold Cells.damage
  induction marks generalizing c with
  | nil => exact h
  | cons d t ih => exact ih (Cells.damageByte_wf row page d h)

/-- Damage of one byte leaves every other byte. -/
theorem Cells.damageByte_out (row page : Nat) (d : CellDamage) {c : Cells} (h : c.wf) {a : Nat}
    (ha : a ≠ address row page d.off) :
    (Cells.damageByte row page c d).readByte a = c.readByte a ∧ (Cells.damageByte row page c d).weakByte a = c.weakByte a := by
  unfold Cells.damageByte
  split
  · exact ⟨Memory.read_write_other h.1 ha _, Memory.read_write_other h.2 ha _⟩
  · exact ⟨rfl, rfl⟩

/-- Damage leaves every byte it does not name. -/
theorem Cells.damage_out (row page : Nat) (marks : List CellDamage) {c : Cells} (h : c.wf) {a : Nat}
    (ha : ∀ d ∈ marks, a ≠ address row page d.off) :
    (c.damage row page marks).readByte a = c.readByte a ∧ (c.damage row page marks).weakByte a = c.weakByte a := by
  unfold Cells.damage
  induction marks generalizing c with
  | nil => exact ⟨rfl, rfl⟩
  | cons d t ih =>
    have h1 := ih (Cells.damageByte_wf row page d h) fun x hx => ha x (List.mem_cons_of_mem _ hx)
    have h2 := Cells.damageByte_out row page d h (ha d List.mem_cons_self)
    exact ⟨h1.1.trans h2.1, h1.2.trans h2.2⟩

/-- What damage makes of a byte that it names (R15). -/
theorem Cells.damageByte_in (row page : Nat) (d : CellDamage) {c : Cells} (h : c.wf) (ho : d.off < 64) :
    (Cells.damageByte row page c d).readByte (address row page d.off)
        = c.readByte (address row page d.off) ^^^ (d.flip &&& ~~~c.weakByte (address row page d.off))
      ∧ (Cells.damageByte row page c d).weakByte (address row page d.off)
        = c.weakByte (address row page d.off) ||| (d.flip &&& d.weak) := by
  unfold Cells.damageByte
  rw [if_pos (by simpa [Config.pageSize] using ho)]
  exact ⟨Memory.read_write_same h.1 _ _, Memory.read_write_same h.2 _ _⟩

theorem address_ne {row page off off' : Nat} (h : off ≠ off') : address row page off ≠ address row page off' := by
  rw [address_off row page off, address_off row page off']
  omega

/-- What damage makes of each byte that it names once. -/
theorem Cells.damage_in (row page : Nat) (marks : List CellDamage) {c : Cells} (h : c.wf)
    (hn : (marks.map CellDamage.off).Nodup) (ho : ∀ d ∈ marks, d.off < 64) {d : CellDamage} (hd : d ∈ marks) :
    (c.damage row page marks).readByte (address row page d.off)
        = c.readByte (address row page d.off) ^^^ (d.flip &&& ~~~c.weakByte (address row page d.off))
      ∧ (c.damage row page marks).weakByte (address row page d.off)
        = c.weakByte (address row page d.off) ||| (d.flip &&& d.weak) := by
  unfold Cells.damage
  induction marks generalizing c with
  | nil => simp at hd
  | cons x t ih =>
    simp only [List.map_cons, List.nodup_cons] at hn
    rcases List.mem_cons.1 hd with rfl | hd
    · have hout := Cells.damage_out row page t (Cells.damageByte_wf row page d h) (a := address row page d.off) (by
        intro y hy
        exact address_ne fun hh => hn.1 (by rw [hh]; exact List.mem_map_of_mem hy))
      have hin := Cells.damageByte_in row page d h (ho d List.mem_cons_self)
      exact ⟨hout.1.trans hin.1, hout.2.trans hin.2⟩
    · have hne : d.off ≠ x.off := fun hh => hn.1 (by rw [← hh]; exact List.mem_map_of_mem hd)
      have hx := Cells.damageByte_out row page x h (address_ne hne)
      have := ih (Cells.damageByte_wf row page x h) hn.2 (fun y hy => ho y (List.mem_cons_of_mem _ hy)) hd
      rw [hx.1, hx.2] at this
      exact this

/-- A page that passed its verify reads as its target (R8). -/
theorem Cells.verifies_reads {c : Cells} {row page : Nat} {target : Page} (hl : target.length = 64)
    (h : c.verifies row page target = true) : c.readPage row page = target := by
  unfold Cells.verifies at h
  rw [List.all_eq_true] at h
  unfold Cells.readPage
  apply List.ext_getElem
  · simp [Config.pageSize, hl]
  · intro i h1 h2
    have hi : i < 64 := by omega
    have := h i (by simpa [Config.pageSize] using hi)
    simp only [Bool.and_eq_true, decide_eq_true_eq] at this
    simp only [List.getElem_map, List.getElem_range]
    rw [this.1, imageByte, List.getD_eq_getElem?_getD, List.getElem?_eq_getElem h2]
    rfl

/-! ### Interruption -/

theorem Cells.interrupt_wf {c : Cells} (h : c.wf) (op : MediaOp) (torn : Residue) : (c.interrupt op torn).wf := by
  cases op with
  | idle => exact h
  | reading _ _ => exact h
  | programming row page target pulse before => exact Cells.tearPage_wf h _ _ _ _ _
  | erasing row _ => exact Cells.erasePulse_wf h _ _

end Sys2Proof.Machine
end

