-- ==== Sys2Proof/Laws/Tables.lean ====
section
/-! SUPPORT. Laws of the sorted tables: what `insertBy` holds, its order, its length, and what a search by key finds in it. -/

namespace Sys2Proof.Machine

section InsertBy

variable {α : Type} (k : α → Nat)

theorem mem_insertBy {x y : α} {l : List α} (h : y ∈ insertBy k x l) : y = x ∨ y ∈ l := by
  induction l with
  | nil => simpa [insertBy] using h
  | cons z t ih =>
    unfold insertBy at h
    split at h
    · rcases List.mem_cons.1 h with h | h
      · exact .inl h
      · exact .inr h
    · split at h
      · rcases List.mem_cons.1 h with h | h
        · exact .inl h
        · exact .inr (List.mem_cons_of_mem _ h)
      · rcases List.mem_cons.1 h with h | h
        · exact .inr (h ▸ List.mem_cons_self)
        · rcases ih h with h | h
          · exact .inl h
          · exact .inr (List.mem_cons_of_mem _ h)

theorem self_mem_insertBy (x : α) (l : List α) : x ∈ insertBy k x l := by
  induction l with
  | nil => simp [insertBy]
  | cons z t ih =>
    unfold insertBy
    split
    · simp
    · split
      · simp
      · exact List.mem_cons_of_mem _ ih

/-- An entry of another key stays. -/
theorem mem_insertBy_of_ne {x y : α} {l : List α} (h : y ∈ l) (hk : k x ≠ k y) : y ∈ insertBy k x l := by
  induction l with
  | nil => cases h
  | cons z t ih =>
    unfold insertBy
    split
    · exact List.mem_cons_of_mem _ h
    · split
      · next he =>
        rcases List.mem_cons.1 h with h | h
        · exact absurd (h ▸ he) hk
        · exact List.mem_cons_of_mem _ h
      · rcases List.mem_cons.1 h with h | h
        · exact h ▸ List.mem_cons_self
        · exact List.mem_cons_of_mem _ (ih h)

theorem length_insertBy_le (x : α) (l : List α) : (insertBy k x l).length ≤ l.length + 1 := by
  induction l with
  | nil => simp [insertBy]
  | cons z t ih =>
    unfold insertBy
    split
    · simp
    · split
      · simp
      · simpa using ih

/-- A new key makes the table longer by one. -/
theorem length_insertBy_new {x : α} {l : List α} (h : ∀ y ∈ l, k y ≠ k x) : (insertBy k x l).length = l.length + 1 := by
  induction l with
  | nil => simp [insertBy]
  | cons z t ih =>
    unfold insertBy
    split
    · simp
    · split
      · next he => exact absurd he.symm (h z List.mem_cons_self)
      · simpa using ih fun y hy => h y (List.mem_cons_of_mem _ hy)

/-- In an ascending table an entry of a key already there takes its place. -/
theorem length_insertBy_old {x : α} {l : List α} (hs : l.Pairwise fun a b => k a < k b) (h : ∃ y ∈ l, k y = k x) :
    (insertBy k x l).length = l.length := by
  induction l with
  | nil => simp at h
  | cons z t ih =>
    rw [List.pairwise_cons] at hs
    obtain ⟨y, hy, he⟩ := h
    unfold insertBy
    split
    · next hlt =>
      rcases List.mem_cons.1 hy with h' | h'
      · subst h'; omega
      · have := hs.1 y h'; omega
    · split
      · simp
      · next hne =>
        rcases List.mem_cons.1 hy with h' | h'
        · subst h'; exact absurd he.symm hne
        · simpa using ih hs.2 ⟨y, h', he⟩

theorem insertBy_pairwise {x : α} {l : List α} (h : l.Pairwise fun a b => k a < k b) :
    (insertBy k x l).Pairwise fun a b => k a < k b := by
  induction l with
  | nil => simp [insertBy]
  | cons z t ih =>
    rw [List.pairwise_cons] at h
    unfold insertBy
    split
    · next hlt =>
      refine List.pairwise_cons.2 ⟨fun y hy => ?_, List.pairwise_cons.2 h⟩
      rcases List.mem_cons.1 hy with h' | h'
      · exact h' ▸ hlt
      · exact Nat.lt_trans hlt (h.1 y h')
    · split
      · next he => exact List.pairwise_cons.2 ⟨fun y hy => he ▸ h.1 y hy, h.2⟩
      · next hlt hne =>
        refine List.pairwise_cons.2 ⟨fun y hy => ?_, ih h.2⟩
        rcases mem_insertBy k hy with h' | h'
        · subst h'; omega
        · exact h.1 y h'

/-- A search by key finds the entry put there. -/
theorem find_insertBy_same {x : α} {l : List α} {q : α → Bool} (hx : q x = true) (hq : ∀ y ∈ l, q y = true → k y = k x) :
    (insertBy k x l).find? q = some x := by
  induction l with
  | nil => simp [insertBy, hx]
  | cons z t ih =>
    unfold insertBy
    split
    · simp [hx]
    · split
      · simp [hx]
      · next hne =>
        have hz : q z = false := by
          cases hqz : q z with
          | false => rfl
          | true => exact absurd (hq z List.mem_cons_self hqz).symm hne
        rw [List.find?_cons_of_neg (by simp [hz])]
        exact ih fun y hy => hq y (List.mem_cons_of_mem _ hy)

/-- A search for another key finds what it found before. -/
theorem find_insertBy_other {x : α} {l : List α} {q : α → Bool} (hx : q x = false)
    (hq : ∀ y ∈ l, k y = k x → q y = false) : (insertBy k x l).find? q = l.find? q := by
  induction l with
  | nil => simp [insertBy, hx]
  | cons z t ih =>
    unfold insertBy
    split
    · simp [List.find?_cons, hx]
    · split
      · next he =>
        have hz := hq z List.mem_cons_self he.symm
        simp [hx, hz]
      · have := ih fun y hy => hq y (List.mem_cons_of_mem _ hy)
        simp [List.find?_cons, this]

/-- In an ascending table a sum over the entries changes by the entry put in place of the one found. -/
theorem sum_insertBy_old {x y : α} {l : List α} (f : α → Nat) (hs : l.Pairwise fun a b => k a < k b) (hy : y ∈ l)
    (he : k y = k x) : ((insertBy k x l).map f).sum + f y = (l.map f).sum + f x := by
  induction l with
  | nil => cases hy
  | cons z t ih =>
    rw [List.pairwise_cons] at hs
    unfold insertBy
    split
    · next hlt =>
      rcases List.mem_cons.1 hy with h' | h'
      · subst h'; omega
      · have := hs.1 y h'; omega
    · split
      · next hez =>
        rcases List.mem_cons.1 hy with h' | h'
        · subst h'; simp; omega
        · have := hs.1 y h'; omega
      · next hne =>
        rcases List.mem_cons.1 hy with h' | h'
        · subst h'; exact absurd he.symm hne
        · have := ih hs.2 h'
          simp only [List.map_cons, List.sum_cons]
          omega

/-- Putting an entry in adds at most its own share to a sum. -/
theorem sum_insertBy_le {x : α} {l : List α} (f : α → Nat) : ((insertBy k x l).map f).sum ≤ (l.map f).sum + f x := by
  induction l with
  | nil => simp [insertBy]
  | cons z t ih =>
    unfold insertBy
    split
    · simp; omega
    · split
      · simp; omega
      · simp only [List.map_cons, List.sum_cons]; omega

end InsertBy

end Sys2Proof.Machine
end

