-- ==== Sys2Proof/Laws/Claims.lean ====
section
/-! SUPPORT. Claim laws: the claim table after a change of one key, the promotion along a waiter list (R144), and what a change
of the table leaves of everything else. -/

namespace Sys2Proof.Machine

/-- Keys are told apart by their numbers. -/
theorem half_toNat_ne {a b : Half} (h : a ≠ b) : a.toNat ≠ b.toNat := fun hh => h (BitVec.eq_of_toNat_eq hh)

/-! ### The claim table after a change of one key -/

theorem Ctl.claimOf_key {c : Ctl} {k : Half} {e : ClaimEntry} (h : c.claimOf k = some e) : e.key = k := by
  simpa using List.find?_some h

theorem Ctl.claimOf_mem {c : Ctl} {k : Half} {e : ClaimEntry} (h : c.claimOf k = some e) : e ∈ c.claims :=
  List.mem_of_find?_eq_some h

theorem Ctl.claimOf_setClaim_same (c : Ctl) {k : Half} {e : ClaimEntry} (h : e.key = k) :
    (c.setClaim k (some e)).claimOf k = some e :=
  find_insertBy_same _ (by simpa using h) (by
    intro y _ hy
    simp only [decide_eq_true_eq] at hy
    rw [hy, h])

theorem Ctl.claimOf_setClaim_other (c : Ctl) {k k' : Half} {e : ClaimEntry} (h : e.key = k) (hk : k' ≠ k) :
    (c.setClaim k (some e)).claimOf k' = c.claimOf k' :=
  find_insertBy_other _ (by simpa [h] using hk.symm) (by
    intro y _ hy
    have hyk : y.key = k := (BitVec.eq_of_toNat_eq hy).trans h
    simp [hyk, hk.symm])

theorem Ctl.claimOf_freeClaim_same (c : Ctl) (k : Half) : (c.setClaim k none).claimOf k = none := by
  simp [Ctl.claimOf, Ctl.setClaim]

theorem Ctl.claimOf_freeClaim_other (c : Ctl) {k k' : Half} (hk : k' ≠ k) :
    (c.setClaim k none).claimOf k' = c.claimOf k' := by
  simp only [Ctl.claimOf, Ctl.setClaim, List.find?_filter]
  congr 1
  funext e
  by_cases he : e.key = k'
  · simp [he, hk]
  · simp [he]

/-! ### What a change of the claim table leaves -/

section Leaves

variable (c : Ctl) (k : Half) (e : Option ClaimEntry)

@[simp] theorem Ctl.setClaim_powered : (c.setClaim k e).powered = c.powered := by cases e <;> rfl
@[simp] theorem Ctl.setClaim_inReset : (c.setClaim k e).inReset = c.inReset := by cases e <;> rfl
@[simp] theorem Ctl.setClaim_ports : (c.setClaim k e).ports = c.ports := by cases e <;> rfl
@[simp] theorem Ctl.setClaim_notifs : (c.setClaim k e).notifs = c.notifs := by cases e <;> rfl
@[simp] theorem Ctl.setClaim_dir : (c.setClaim k e).dir = c.dir := by cases e <;> rfl
@[simp] theorem Ctl.setClaim_sched : (c.setClaim k e).sched = c.sched := by cases e <;> rfl
@[simp] theorem Ctl.setClaim_rows : (c.setClaim k e).rows = c.rows := by cases e <;> rfl
@[simp] theorem Ctl.setClaim_media : (c.setClaim k e).media = c.media := by cases e <;> rfl
@[simp] theorem Ctl.setClaim_agent : (c.setClaim k e).agent = c.agent := by cases e <;> rfl
@[simp] theorem Ctl.setClaim_conf : (c.setClaim k e).conf = c.conf := by cases e <;> rfl
@[simp] theorem Ctl.setClaim_mount : (c.setClaim k e).mount = c.mount := by cases e <;> rfl

@[simp] theorem Ctl.port_setClaim (p : Port) : (c.setClaim k e).port p = c.port p := by cases e <;> rfl
@[simp] theorem Ctl.notif_setClaim (p : Port) : (c.setClaim k e).notif p = c.notif p := by cases e <;> rfl
@[simp] theorem Ctl.requests_setClaim (p : Port) : (c.setClaim k e).requests p = c.requests p := by cases e <;> rfl

theorem Ctl.setClaim_onPort (p : Port) (g : PortUnit → PortUnit) :
    (c.onPort p g).setClaim k e = (c.setClaim k e).onPort p g := by cases e <;> rfl

theorem Ctl.answer_setClaim (p : Port) (cmd : Cmd) (tag : Byte) (st : Status) (result : List Byte) :
    (c.setClaim k e).answer p cmd tag st result = (c.answer p cmd tag st result).setClaim k e := by cases e <;> rfl

end Leaves

/-- Rights questions read the Directory and the configuration, which no claim changes. -/
@[simp] theorem Ctl.writeRefusal_onPort (c : Ctl) (q : Port) (g : PortUnit → PortUnit) (p : Port) (k : Half) :
    (c.onPort q g).writeRefusal p k = c.writeRefusal p k := rfl

/-- In a list where no port stands twice, a port's waiter entries are the one. -/
theorem waiters_of_port {l : List Waiter} (hn : (l.map Waiter.port).Nodup) {w : Waiter} (hw : w ∈ l) {p : Port}
    (hp : w.port = p) : l.filter (fun x => decide (x.port = p)) = [w] := by
  induction l with
  | nil => simp at hw
  | cons x t ih =>
    simp only [List.map_cons, List.nodup_cons] at hn
    rcases List.mem_cons.1 hw with rfl | hw
    · rw [List.filter_cons_of_pos (by simp [hp])]
      congr 1
      rw [List.filter_eq_nil_iff]
      intro y hy hyp
      simp at hyp
      exact hn.1 (by rw [hp, ← hyp]; exact List.mem_map_of_mem hy)
    · rw [List.filter_cons_of_neg]
      · exact ih hn.2 hw
      · simp
        rintro rfl
        exact hn.1 (by rw [← hp]; exact List.mem_map_of_mem hw)

/-! ### Promotion (R144) -/

theorem Ctl.enterAll_append (c : Ctl) (l m : List (Port × Response)) : c.enterAll (l ++ m) = (c.enterAll l).enterAll m := by
  simp [Ctl.enterAll]

/-- The waiters before the first that has the right are refused in order; that one takes the key. -/
theorem Ctl.promote_granted (c : Ctl) (k : Half) (refused : List Waiter) (w : Waiter) (rest : List Waiter)
    (hr : ∀ x ∈ refused, c.writeRefusal x.port k ≠ none) (hw : c.writeRefusal w.port k = none) :
    c.promote k (refused ++ w :: rest)
      = (some ⟨k, w.port, w.hold, rest⟩,
          refused.map (fun x => (x.port, x.response .denied []))
            ++ [(w.port, w.response .ok (claimResult outcomeGranted w.hold))]) := by
  induction refused with
  | nil => simp [Ctl.promote, hw]
  | cons x t ih =>
    have hx := hr x List.mem_cons_self
    cases hxr : c.writeRefusal x.port k with
    | none => exact absurd hxr hx
    | some st =>
      have := ih fun y hy => hr y (List.mem_cons_of_mem _ hy)
      simp [Ctl.promote, hxr, this]

/-- Where every waiter is refused the key is freed. -/
theorem Ctl.promote_freed (c : Ctl) (k : Half) (refused : List Waiter)
    (hr : ∀ x ∈ refused, c.writeRefusal x.port k ≠ none) :
    c.promote k refused = (none, refused.map fun x => (x.port, x.response .denied [])) := by
  induction refused with
  | nil => rfl
  | cons x t ih =>
    have hx := hr x List.mem_cons_self
    cases hxr : c.writeRefusal x.port k with
    | none => exact absurd hxr hx
    | some st =>
      have := ih fun y hy => hr y (List.mem_cons_of_mem _ hy)
      simp [Ctl.promote, hxr, this]

/-- A waiter list splits at the first waiter that has the right, or has none. -/
theorem Ctl.promote_split (c : Ctl) (k : Half) (ws : List Waiter) :
    (∀ x ∈ ws, c.writeRefusal x.port k ≠ none)
      ∨ ∃ refused w rest, ws = refused ++ w :: rest ∧ (∀ x ∈ refused, c.writeRefusal x.port k ≠ none)
        ∧ c.writeRefusal w.port k = none := by
  induction ws with
  | nil => exact Or.inl (by simp)
  | cons x t ih =>
    cases hxr : c.writeRefusal x.port k with
    | none => exact Or.inr ⟨[], x, t, rfl, by simp, hxr⟩
    | some st =>
      rcases ih with h | ⟨refused, w, rest, ht, hr, hw⟩
      · refine Or.inl fun y hy => ?_
        rcases List.mem_cons.1 hy with rfl | hy
        · simp [hxr]
        · exact h y hy
      · refine Or.inr ⟨x :: refused, w, rest, by simp [ht], fun y hy => ?_, hw⟩
        rcases List.mem_cons.1 hy with rfl | hy
        · simp [hxr]
        · exact hr y hy

/-! ### What responses of a promotion leave -/

section EnterAll

theorem Ctl.enterAll_keeps {α : Type} (read : Ctl → α) (h : ∀ (c : Ctl) (p : Port) (r : Response), read (c.enter p r) = read c)
    (c : Ctl) (rs : List (Port × Response)) : read (c.enterAll rs) = read c := by
  induction rs generalizing c with
  | nil => rfl
  | cons r t ih => exact (ih (c.enter r.1 r.2)).trans (h c r.1 r.2)

variable (c : Ctl) (rs : List (Port × Response))

@[simp] theorem Ctl.enterAll_powered : (c.enterAll rs).powered = c.powered := Ctl.enterAll_keeps (·.powered) (fun _ _ _ => rfl) c rs
@[simp] theorem Ctl.enterAll_inReset : (c.enterAll rs).inReset = c.inReset := Ctl.enterAll_keeps (·.inReset) (fun _ _ _ => rfl) c rs
@[simp] theorem Ctl.enterAll_notifs : (c.enterAll rs).notifs = c.notifs := Ctl.enterAll_keeps (·.notifs) (fun _ _ _ => rfl) c rs
@[simp] theorem Ctl.enterAll_claims : (c.enterAll rs).claims = c.claims := Ctl.enterAll_keeps (·.claims) (fun _ _ _ => rfl) c rs
@[simp] theorem Ctl.enterAll_dir : (c.enterAll rs).dir = c.dir := Ctl.enterAll_keeps (·.dir) (fun _ _ _ => rfl) c rs
@[simp] theorem Ctl.enterAll_sched : (c.enterAll rs).sched = c.sched := Ctl.enterAll_keeps (·.sched) (fun _ _ _ => rfl) c rs
@[simp] theorem Ctl.enterAll_rows : (c.enterAll rs).rows = c.rows := Ctl.enterAll_keeps (·.rows) (fun _ _ _ => rfl) c rs
@[simp] theorem Ctl.enterAll_media : (c.enterAll rs).media = c.media := Ctl.enterAll_keeps (·.media) (fun _ _ _ => rfl) c rs
@[simp] theorem Ctl.enterAll_agent : (c.enterAll rs).agent = c.agent := Ctl.enterAll_keeps (·.agent) (fun _ _ _ => rfl) c rs
@[simp] theorem Ctl.enterAll_conf : (c.enterAll rs).conf = c.conf := Ctl.enterAll_keeps (·.conf) (fun _ _ _ => rfl) c rs
@[simp] theorem Ctl.enterAll_mount : (c.enterAll rs).mount = c.mount := Ctl.enterAll_keeps (·.mount) (fun _ _ _ => rfl) c rs

/-- Each Port Unit keeps everything but its queue, which takes its responses in order at its end. -/
theorem Ctl.port_enterAll (c : Ctl) (rs : List (Port × Response)) (p : Port) :
    (c.enterAll rs).port p
      = { c.port p with queue := (c.port p).queue ++ (rs.filter fun r => r.1 = p).map (·.2) } := by
  induction rs generalizing c with
  | nil => simp [Ctl.enterAll]
  | cons r t ih =>
    have := ih (c.enter r.1 r.2)
    rw [show c.enterAll (r :: t) = (c.enter r.1 r.2).enterAll t from rfl, this]
    by_cases hp : r.1 = p
    · subst hp
      simp [Ctl.enter]
    · simp [Ctl.enter, Ctl.port_onPort_other _ (Ne.symm hp), hp]

end EnterAll

/-! ### The end of a hold -/

/-- The end of a hold is one change of the claim table and responses: what `promote` gives. -/
theorem Ctl.endHold_eq (c : Ctl) {k : Half} {e : ClaimEntry} (h : c.claimOf k = some e) :
    c.endHold k = (c.setClaim k (c.promote k e.waiters).1).enterAll (c.promote k e.waiters).2 := by
  rw [Ctl.endHold, h]

theorem Ctl.endHold_none (c : Ctl) {k : Half} (h : c.claimOf k = none) : c.endHold k = c := by rw [Ctl.endHold, h]

section EndHold

theorem Ctl.endHold_keeps {α : Type} (read : Ctl → α) (h : ∀ (c : Ctl) (p : Port) (r : Response), read (c.enter p r) = read c)
    (h' : ∀ (c : Ctl) (k : Half) (e : Option ClaimEntry), read (c.setClaim k e) = read c) (c : Ctl) (k : Half) :
    read (c.endHold k) = read c := by
  unfold Ctl.endHold
  split
  · exact (Ctl.enterAll_keeps read h _ _).trans (h' _ _ _)
  · rfl

variable (c : Ctl) (k : Half)

@[simp] theorem Ctl.endHold_powered : (c.endHold k).powered = c.powered := Ctl.endHold_keeps (·.powered) (fun _ _ _ => rfl) (by simp) c k
@[simp] theorem Ctl.endHold_inReset : (c.endHold k).inReset = c.inReset := Ctl.endHold_keeps (·.inReset) (fun _ _ _ => rfl) (by simp) c k
@[simp] theorem Ctl.endHold_notifs : (c.endHold k).notifs = c.notifs := Ctl.endHold_keeps (·.notifs) (fun _ _ _ => rfl) (by simp) c k
@[simp] theorem Ctl.endHold_dir : (c.endHold k).dir = c.dir := Ctl.endHold_keeps (·.dir) (fun _ _ _ => rfl) (by simp) c k
@[simp] theorem Ctl.endHold_sched : (c.endHold k).sched = c.sched := Ctl.endHold_keeps (·.sched) (fun _ _ _ => rfl) (by simp) c k
@[simp] theorem Ctl.endHold_rows : (c.endHold k).rows = c.rows := Ctl.endHold_keeps (·.rows) (fun _ _ _ => rfl) (by simp) c k
@[simp] theorem Ctl.endHold_media : (c.endHold k).media = c.media := Ctl.endHold_keeps (·.media) (fun _ _ _ => rfl) (by simp) c k
@[simp] theorem Ctl.endHold_agent : (c.endHold k).agent = c.agent := Ctl.endHold_keeps (·.agent) (fun _ _ _ => rfl) (by simp) c k
@[simp] theorem Ctl.endHold_conf : (c.endHold k).conf = c.conf := Ctl.endHold_keeps (·.conf) (fun _ _ _ => rfl) (by simp) c k
@[simp] theorem Ctl.endHold_mount : (c.endHold k).mount = c.mount := Ctl.endHold_keeps (·.mount) (fun _ _ _ => rfl) (by simp) c k

end EndHold

/-! ### What the other changes of the claim table leave: everything but the Port Units and the table -/

section ClaimFrames

variable {α : Type} (read : Ctl → α) (he : ∀ (c : Ctl) (p : Port) (r : Response), read (c.enter p r) = read c)
  (hk : ∀ (c : Ctl) (k : Half) (e : Option ClaimEntry), read (c.setClaim k e) = read c)
  (hl : ∀ (c : Ctl) (l : List ClaimEntry), read { c with claims := l } = read c)

include he hk

theorem Ctl.releaseHold_keeps (c : Ctl) (p : Port) (k : Half) : read (c.releaseHold p k) = read c := by
  unfold Ctl.releaseHold
  split
  · split
    · exact Ctl.endHold_keeps read he hk c k
    · rfl
  · rfl

theorem Ctl.freezeClaim_keeps (c : Ctl) (k : Half) : read (c.freezeClaim k) = read c := by
  unfold Ctl.freezeClaim
  split
  · exact (Ctl.enterAll_keeps read he _ _).trans (hk _ _ _)
  · rfl

theorem Ctl.endWait_keeps (c : Ctl) (e : ClaimEntry) (p : Port) (st : Status) : read (c.endWait e p st) = read c :=
  (Ctl.enterAll_keeps read he _ _).trans (hk _ _ _)

theorem Ctl.handleClaim_keeps (c : Ctl) (p : Port) (tag : Byte) (k hold wait : Half) :
    read (c.handleClaim p tag k hold wait) = read c := by
  unfold Ctl.handleClaim Ctl.claimHeld Ctl.answer
  split
  · exact he _ _ _
  · split
    · split
      · exact he _ _ _
      · exact (he _ _ _).trans (hk _ _ _)
    · split
      · exact (he _ _ _).trans (hk _ _ _)
      · split
        · exact he _ _ _
        · split
          · exact he _ _ _
          · split
            · exact he _ _ _
            · exact hk _ _ _

include hl

theorem Ctl.resyncClaims_keeps (c : Ctl) (p : Port) : read (c.resyncClaims p) = read c := by
  have hf : ∀ (l : List Half) (d : Ctl), read (l.foldl Ctl.endHold d) = read d := by
    intro l
    induction l with
    | nil => exact fun d => rfl
    | cons k t ih => exact fun d => (ih _).trans (Ctl.endHold_keeps read he hk d k)
  simp only [Ctl.resyncClaims]
  exact (hf _ _).trans (hl _ _)

end ClaimFrames

@[simp] theorem Ctl.releaseHold_powered (c : Ctl) (p : Port) (k : Half) : (c.releaseHold p k).powered = c.powered :=
  Ctl.releaseHold_keeps (·.powered) (fun _ _ _ => rfl) (by simp) c p k
@[simp] theorem Ctl.releaseHold_inReset (c : Ctl) (p : Port) (k : Half) : (c.releaseHold p k).inReset = c.inReset :=
  Ctl.releaseHold_keeps (·.inReset) (fun _ _ _ => rfl) (by simp) c p k
@[simp] theorem Ctl.releaseHold_notifs (c : Ctl) (p : Port) (k : Half) : (c.releaseHold p k).notifs = c.notifs :=
  Ctl.releaseHold_keeps (·.notifs) (fun _ _ _ => rfl) (by simp) c p k
@[simp] theorem Ctl.releaseHold_dir (c : Ctl) (p : Port) (k : Half) : (c.releaseHold p k).dir = c.dir :=
  Ctl.releaseHold_keeps (·.dir) (fun _ _ _ => rfl) (by simp) c p k
@[simp] theorem Ctl.releaseHold_sched (c : Ctl) (p : Port) (k : Half) : (c.releaseHold p k).sched = c.sched :=
  Ctl.releaseHold_keeps (·.sched) (fun _ _ _ => rfl) (by simp) c p k
@[simp] theorem Ctl.releaseHold_rows (c : Ctl) (p : Port) (k : Half) : (c.releaseHold p k).rows = c.rows :=
  Ctl.releaseHold_keeps (·.rows) (fun _ _ _ => rfl) (by simp) c p k
@[simp] theorem Ctl.releaseHold_media (c : Ctl) (p : Port) (k : Half) : (c.releaseHold p k).media = c.media :=
  Ctl.releaseHold_keeps (·.media) (fun _ _ _ => rfl) (by simp) c p k
@[simp] theorem Ctl.releaseHold_agent (c : Ctl) (p : Port) (k : Half) : (c.releaseHold p k).agent = c.agent :=
  Ctl.releaseHold_keeps (·.agent) (fun _ _ _ => rfl) (by simp) c p k
@[simp] theorem Ctl.releaseHold_conf (c : Ctl) (p : Port) (k : Half) : (c.releaseHold p k).conf = c.conf :=
  Ctl.releaseHold_keeps (·.conf) (fun _ _ _ => rfl) (by simp) c p k
@[simp] theorem Ctl.releaseHold_mount (c : Ctl) (p : Port) (k : Half) : (c.releaseHold p k).mount = c.mount :=
  Ctl.releaseHold_keeps (·.mount) (fun _ _ _ => rfl) (by simp) c p k

@[simp] theorem Ctl.freezeClaim_powered (c : Ctl) (k : Half) : (c.freezeClaim k).powered = c.powered :=
  Ctl.freezeClaim_keeps (·.powered) (fun _ _ _ => rfl) (by simp) c k
@[simp] theorem Ctl.freezeClaim_inReset (c : Ctl) (k : Half) : (c.freezeClaim k).inReset = c.inReset :=
  Ctl.freezeClaim_keeps (·.inReset) (fun _ _ _ => rfl) (by simp) c k
@[simp] theorem Ctl.freezeClaim_notifs (c : Ctl) (k : Half) : (c.freezeClaim k).notifs = c.notifs :=
  Ctl.freezeClaim_keeps (·.notifs) (fun _ _ _ => rfl) (by simp) c k
@[simp] theorem Ctl.freezeClaim_dir (c : Ctl) (k : Half) : (c.freezeClaim k).dir = c.dir :=
  Ctl.freezeClaim_keeps (·.dir) (fun _ _ _ => rfl) (by simp) c k
@[simp] theorem Ctl.freezeClaim_sched (c : Ctl) (k : Half) : (c.freezeClaim k).sched = c.sched :=
  Ctl.freezeClaim_keeps (·.sched) (fun _ _ _ => rfl) (by simp) c k
@[simp] theorem Ctl.freezeClaim_rows (c : Ctl) (k : Half) : (c.freezeClaim k).rows = c.rows :=
  Ctl.freezeClaim_keeps (·.rows) (fun _ _ _ => rfl) (by simp) c k
@[simp] theorem Ctl.freezeClaim_media (c : Ctl) (k : Half) : (c.freezeClaim k).media = c.media :=
  Ctl.freezeClaim_keeps (·.media) (fun _ _ _ => rfl) (by simp) c k
@[simp] theorem Ctl.freezeClaim_agent (c : Ctl) (k : Half) : (c.freezeClaim k).agent = c.agent :=
  Ctl.freezeClaim_keeps (·.agent) (fun _ _ _ => rfl) (by simp) c k
@[simp] theorem Ctl.freezeClaim_conf (c : Ctl) (k : Half) : (c.freezeClaim k).conf = c.conf :=
  Ctl.freezeClaim_keeps (·.conf) (fun _ _ _ => rfl) (by simp) c k
@[simp] theorem Ctl.freezeClaim_mount (c : Ctl) (k : Half) : (c.freezeClaim k).mount = c.mount :=
  Ctl.freezeClaim_keeps (·.mount) (fun _ _ _ => rfl) (by simp) c k

@[simp] theorem Ctl.endWait_powered (c : Ctl) (e : ClaimEntry) (p : Port) (st : Status) : (c.endWait e p st).powered = c.powered :=
  Ctl.endWait_keeps (·.powered) (fun _ _ _ => rfl) (by simp) c e p st
@[simp] theorem Ctl.endWait_inReset (c : Ctl) (e : ClaimEntry) (p : Port) (st : Status) : (c.endWait e p st).inReset = c.inReset :=
  Ctl.endWait_keeps (·.inReset) (fun _ _ _ => rfl) (by simp) c e p st
@[simp] theorem Ctl.endWait_notifs (c : Ctl) (e : ClaimEntry) (p : Port) (st : Status) : (c.endWait e p st).notifs = c.notifs :=
  Ctl.endWait_keeps (·.notifs) (fun _ _ _ => rfl) (by simp) c e p st
@[simp] theorem Ctl.endWait_dir (c : Ctl) (e : ClaimEntry) (p : Port) (st : Status) : (c.endWait e p st).dir = c.dir :=
  Ctl.endWait_keeps (·.dir) (fun _ _ _ => rfl) (by simp) c e p st
@[simp] theorem Ctl.endWait_sched (c : Ctl) (e : ClaimEntry) (p : Port) (st : Status) : (c.endWait e p st).sched = c.sched :=
  Ctl.endWait_keeps (·.sched) (fun _ _ _ => rfl) (by simp) c e p st
@[simp] theorem Ctl.endWait_rows (c : Ctl) (e : ClaimEntry) (p : Port) (st : Status) : (c.endWait e p st).rows = c.rows :=
  Ctl.endWait_keeps (·.rows) (fun _ _ _ => rfl) (by simp) c e p st
@[simp] theorem Ctl.endWait_media (c : Ctl) (e : ClaimEntry) (p : Port) (st : Status) : (c.endWait e p st).media = c.media :=
  Ctl.endWait_keeps (·.media) (fun _ _ _ => rfl) (by simp) c e p st
@[simp] theorem Ctl.endWait_agent (c : Ctl) (e : ClaimEntry) (p : Port) (st : Status) : (c.endWait e p st).agent = c.agent :=
  Ctl.endWait_keeps (·.agent) (fun _ _ _ => rfl) (by simp) c e p st
@[simp] theorem Ctl.endWait_conf (c : Ctl) (e : ClaimEntry) (p : Port) (st : Status) : (c.endWait e p st).conf = c.conf :=
  Ctl.endWait_keeps (·.conf) (fun _ _ _ => rfl) (by simp) c e p st
@[simp] theorem Ctl.endWait_mount (c : Ctl) (e : ClaimEntry) (p : Port) (st : Status) : (c.endWait e p st).mount = c.mount :=
  Ctl.endWait_keeps (·.mount) (fun _ _ _ => rfl) (by simp) c e p st

@[simp] theorem Ctl.handleClaim_powered (c : Ctl) (p : Port) (tag : Byte) (k hold wait : Half) : (c.handleClaim p tag k hold wait).powered = c.powered :=
  Ctl.handleClaim_keeps (·.powered) (fun _ _ _ => rfl) (by simp) c p tag k hold wait
@[simp] theorem Ctl.handleClaim_inReset (c : Ctl) (p : Port) (tag : Byte) (k hold wait : Half) : (c.handleClaim p tag k hold wait).inReset = c.inReset :=
  Ctl.handleClaim_keeps (·.inReset) (fun _ _ _ => rfl) (by simp) c p tag k hold wait
@[simp] theorem Ctl.handleClaim_notifs (c : Ctl) (p : Port) (tag : Byte) (k hold wait : Half) : (c.handleClaim p tag k hold wait).notifs = c.notifs :=
  Ctl.handleClaim_keeps (·.notifs) (fun _ _ _ => rfl) (by simp) c p tag k hold wait
@[simp] theorem Ctl.handleClaim_dir (c : Ctl) (p : Port) (tag : Byte) (k hold wait : Half) : (c.handleClaim p tag k hold wait).dir = c.dir :=
  Ctl.handleClaim_keeps (·.dir) (fun _ _ _ => rfl) (by simp) c p tag k hold wait
@[simp] theorem Ctl.handleClaim_sched (c : Ctl) (p : Port) (tag : Byte) (k hold wait : Half) : (c.handleClaim p tag k hold wait).sched = c.sched :=
  Ctl.handleClaim_keeps (·.sched) (fun _ _ _ => rfl) (by simp) c p tag k hold wait
@[simp] theorem Ctl.handleClaim_rows (c : Ctl) (p : Port) (tag : Byte) (k hold wait : Half) : (c.handleClaim p tag k hold wait).rows = c.rows :=
  Ctl.handleClaim_keeps (·.rows) (fun _ _ _ => rfl) (by simp) c p tag k hold wait
@[simp] theorem Ctl.handleClaim_media (c : Ctl) (p : Port) (tag : Byte) (k hold wait : Half) : (c.handleClaim p tag k hold wait).media = c.media :=
  Ctl.handleClaim_keeps (·.media) (fun _ _ _ => rfl) (by simp) c p tag k hold wait
@[simp] theorem Ctl.handleClaim_agent (c : Ctl) (p : Port) (tag : Byte) (k hold wait : Half) : (c.handleClaim p tag k hold wait).agent = c.agent :=
  Ctl.handleClaim_keeps (·.agent) (fun _ _ _ => rfl) (by simp) c p tag k hold wait
@[simp] theorem Ctl.handleClaim_conf (c : Ctl) (p : Port) (tag : Byte) (k hold wait : Half) : (c.handleClaim p tag k hold wait).conf = c.conf :=
  Ctl.handleClaim_keeps (·.conf) (fun _ _ _ => rfl) (by simp) c p tag k hold wait
@[simp] theorem Ctl.handleClaim_mount (c : Ctl) (p : Port) (tag : Byte) (k hold wait : Half) : (c.handleClaim p tag k hold wait).mount = c.mount :=
  Ctl.handleClaim_keeps (·.mount) (fun _ _ _ => rfl) (by simp) c p tag k hold wait

@[simp] theorem Ctl.resyncClaims_powered (c : Ctl) (p : Port) : (c.resyncClaims p).powered = c.powered :=
  Ctl.resyncClaims_keeps (·.powered) (fun _ _ _ => rfl) (by simp) (fun _ _ => rfl) c p
@[simp] theorem Ctl.resyncClaims_inReset (c : Ctl) (p : Port) : (c.resyncClaims p).inReset = c.inReset :=
  Ctl.resyncClaims_keeps (·.inReset) (fun _ _ _ => rfl) (by simp) (fun _ _ => rfl) c p
@[simp] theorem Ctl.resyncClaims_notifs (c : Ctl) (p : Port) : (c.resyncClaims p).notifs = c.notifs :=
  Ctl.resyncClaims_keeps (·.notifs) (fun _ _ _ => rfl) (by simp) (fun _ _ => rfl) c p
@[simp] theorem Ctl.resyncClaims_dir (c : Ctl) (p : Port) : (c.resyncClaims p).dir = c.dir :=
  Ctl.resyncClaims_keeps (·.dir) (fun _ _ _ => rfl) (by simp) (fun _ _ => rfl) c p
@[simp] theorem Ctl.resyncClaims_sched (c : Ctl) (p : Port) : (c.resyncClaims p).sched = c.sched :=
  Ctl.resyncClaims_keeps (·.sched) (fun _ _ _ => rfl) (by simp) (fun _ _ => rfl) c p
@[simp] theorem Ctl.resyncClaims_rows (c : Ctl) (p : Port) : (c.resyncClaims p).rows = c.rows :=
  Ctl.resyncClaims_keeps (·.rows) (fun _ _ _ => rfl) (by simp) (fun _ _ => rfl) c p
@[simp] theorem Ctl.resyncClaims_media (c : Ctl) (p : Port) : (c.resyncClaims p).media = c.media :=
  Ctl.resyncClaims_keeps (·.media) (fun _ _ _ => rfl) (by simp) (fun _ _ => rfl) c p
@[simp] theorem Ctl.resyncClaims_agent (c : Ctl) (p : Port) : (c.resyncClaims p).agent = c.agent :=
  Ctl.resyncClaims_keeps (·.agent) (fun _ _ _ => rfl) (by simp) (fun _ _ => rfl) c p
@[simp] theorem Ctl.resyncClaims_conf (c : Ctl) (p : Port) : (c.resyncClaims p).conf = c.conf :=
  Ctl.resyncClaims_keeps (·.conf) (fun _ _ _ => rfl) (by simp) (fun _ _ => rfl) c p
@[simp] theorem Ctl.resyncClaims_mount (c : Ctl) (p : Port) : (c.resyncClaims p).mount = c.mount :=
  Ctl.resyncClaims_keeps (·.mount) (fun _ _ _ => rfl) (by simp) (fun _ _ => rfl) c p

end Sys2Proof.Machine
end

