-- ==== Sys2Proof/Laws/Compaction.lean ====
section
/-! SUPPORT. Compaction laws: what the answers to the COMPACT request list leave (R134 to R136), as responses that enter the
queues in the list's order, for the halt, the end of a pass and the entry into READ_ONLY to cite. -/

namespace Sys2Proof.Machine

/-- Answers made one after another are responses that enter in order, those of discarded requests left out. -/
theorem Ctl.foldAnswers_eq {g : Ctl → CompactReq → Ctl} (f : CompactReq → Status × List Byte)
    (hg : ∀ d r, g d r = d.answerCompact r (f r).1 (f r).2) (l : List CompactReq) (c : Ctl) :
    l.foldl g c = c.enterAll (compactAnswers l f) := by
  induction l generalizing c with
  | nil => rfl
  | cons r t ih =>
    rw [List.foldl_cons, ih, hg]
    unfold Ctl.answerCompact compactAnswers
    cases hr : r.discard
    · rw [List.filter_cons_of_pos (by simp [hr])]
      rfl
    · rw [List.filter_cons_of_neg (by simp [hr])]
      rfl

/-- The COMPACT request list answered at an entry into READ_ONLY (R136). -/
theorem Ctl.answerCompactList_eq (c : Ctl) (st : Status) :
    c.answerCompactList st
      = { c.enterAll (c.readOnlyAnswers st) with sched := { c.sched with compactList := [] } } := by
  unfold Ctl.answerCompactList
  rw [Ctl.foldAnswers_eq (fun r : CompactReq =>
    if r.tied then (st, [0, natByte c.agent.copied, natByte c.agent.dropped]) else (.readOnly, [0, 0, 0]))]
  · simp only [Ctl.enterAll_sched]
    rfl
  · intro d r
    split <;> rfl

/-- The tied request answered at the end of its pass (R135). -/
theorem Ctl.answerTied_eq (c : Ctl) (n : Nat) :
    c.answerTied n
      = { c.enterAll (compactAnswers (c.sched.compactList.filter fun r => r.tied)
            fun _ => (.ok, [natByte n, natByte c.agent.copied, natByte c.agent.dropped])) with
          sched := { c.sched with compactList := c.sched.compactList.filter fun r => !r.tied } } := by
  unfold Ctl.answerTied
  rw [Ctl.foldAnswers_eq fun _ => (.ok, [natByte n, natByte c.agent.copied, natByte c.agent.dropped])]
  · simp only [Ctl.enterAll_sched]
  · intro d r
    rfl

/-- The rest of the list answered with zeros (R134, step 5). -/
theorem Ctl.answerAllZero_eq (c : Ctl) :
    c.answerAllZero
      = { c.enterAll (compactAnswers c.sched.compactList fun _ => (.ok, [0, 0, 0])) with
          sched := { c.sched with compactList := [] } } := by
  unfold Ctl.answerAllZero
  rw [Ctl.foldAnswers_eq fun _ => (.ok, [0, 0, 0])]
  · simp only [Ctl.enterAll_sched]
  · intro d r
    rfl

/-- Responses enter whatever else of the device is then replaced. -/
theorem Ctl.enterAll_with (c : Ctl) (rs : List (Port × Response)) (a : Agent) (s : Sched) :
    Ctl.enterAll { c with agent := a, sched := s } rs = { c.enterAll rs with agent := a, sched := s } := by
  induction rs generalizing c with
  | nil => rfl
  | cons r t ih => exact ih (c.enter r.1 r.2)

end Sys2Proof.Machine
end

