-- ==== Sys2Proof/Laws/Directory.lean ====
section
/-! SUPPORT. Directory laws: the lookups after each update point (R49 to R53), and what an update point leaves. -/

namespace Sys2Proof.Machine

theorem Ctl.lookup_key {c : Ctl} {k : Half} {e : DirEntry} (h : c.lookup k = some e) : e.key = k := by
  simpa using List.find?_some h

theorem Ctl.lookup_mem {c : Ctl} {k : Half} {e : DirEntry} (h : c.lookup k = some e) : e ∈ c.dir :=
  List.mem_of_find?_eq_some h

/-! ### The tables of entries -/

theorem find_insertEntry_same (dir : List DirEntry) {k : Half} {e : DirEntry} (h : e.key = k) :
    (insertBy (fun x => x.key.toNat) e dir).find? (fun x => x.key = k) = some e :=
  find_insertBy_same _ (by simpa using h) (by
    intro y _ hy
    simp only [decide_eq_true_eq] at hy
    rw [hy, h])

theorem find_insertEntry_other (dir : List DirEntry) {k k' : Half} {e : DirEntry} (h : e.key = k) (hk : k' ≠ k) :
    (insertBy (fun x => x.key.toNat) e dir).find? (fun x => x.key = k') = dir.find? fun x => x.key = k' :=
  find_insertBy_other _ (by simpa [h] using hk.symm) (by
    intro y _ hy
    have hyk : y.key = k := (BitVec.eq_of_toNat_eq hy).trans h
    simp [hyk, hk.symm])

/-! ### Old pages -/

theorem Ctl.oldPagesDie_eq (c : Ctl) (k : Half) : c.oldPagesDie k = { c with rows := (c.oldPagesDie k).rows } := by
  unfold Ctl.oldPagesDie
  split <;> rfl

@[simp] theorem Ctl.oldPagesDie_dir (c : Ctl) (k : Half) : (c.oldPagesDie k).dir = c.dir := by rw [Ctl.oldPagesDie_eq]

/-! ### Placing, removing and moving an entry -/

theorem Ctl.lookup_placeEntry_same (c : Ctl) {k : Half} {e : DirEntry} (h : e.key = k) :
    (c.placeEntry e).lookup k = some e := by
  simp only [Ctl.lookup, Ctl.placeEntry]
  exact find_insertEntry_same _ h

theorem Ctl.lookup_placeEntry_other (c : Ctl) {k k' : Half} {e : DirEntry} (h : e.key = k) (hk : k' ≠ k) :
    (c.placeEntry e).lookup k' = c.lookup k' := by
  simp only [Ctl.lookup, Ctl.placeEntry, Ctl.oldPagesDie_dir]
  exact find_insertEntry_other _ h hk

theorem Ctl.lookup_removeEntry_same (c : Ctl) (k : Half) : (c.removeEntry k).lookup k = none := by
  simp [Ctl.lookup, Ctl.removeEntry]

theorem Ctl.lookup_removeEntry_other (c : Ctl) {k k' : Half} (hk : k' ≠ k) :
    (c.removeEntry k).lookup k' = c.lookup k' := by
  simp only [Ctl.lookup, Ctl.removeEntry, List.find?_filter]
  congr 1
  funext e
  by_cases he : e.key = k'
  · simp [he, hk]
  · simp [he]

theorem Ctl.lookup_relocate_same (c : Ctl) (k : Half) (row page : Nat) :
    (c.relocate k row page).lookup k = (c.lookup k).map fun e => { e with row := row, page := page } := by
  unfold Ctl.relocate
  cases h : c.lookup k with
  | none => simpa using h
  | some e =>
    have hk := Ctl.lookup_key h
    simp only [Ctl.lookup, Option.map_some]
    exact find_insertEntry_same _ hk

theorem Ctl.lookup_relocate_other (c : Ctl) {k k' : Half} (row page : Nat) (hk : k' ≠ k) :
    (c.relocate k row page).lookup k' = c.lookup k' := by
  unfold Ctl.relocate
  cases h : c.lookup k with
  | none => rfl
  | some e =>
    have he := Ctl.lookup_key h
    simp only [Ctl.lookup]
    exact find_insertEntry_other (e := { e with row := row, page := page }) _ he hk

end Sys2Proof.Machine
end

