-- ==== Sys2Proof/Laws/Steps.lean ====
section
/-! SUPPORT. Step laws: a property of everything but the array that the elementary changes of an array step keep is kept by
whatever the Scheduler chooses and whatever an array operation's outcome brings about. `StepLaws` lists the elementary
changes; one theorem for each operation of the Scheduler, the Row Manager, the Compaction Agent and the Configuration Unit
follows. -/

namespace Sys2Proof.Machine

/-- An activity that is no image write. -/
def Activity.plain : Activity → Bool
  | .image _ _ _ => false
  | _ => true

/-- The elementary changes of an array step keep `P`. -/
structure StepLaws (P : Ctl → Prop) : Prop where
  rows : ∀ c m, P c → P { c with rows := m }
  dir : ∀ c d, P c → P { c with dir := d }
  agent : ∀ c a, P c → P { c with agent := a }
  op : ∀ (c : Ctl) op, P c → P { c with media := { c.media with op := op } }
  forget : ∀ (c : Ctl) row, P c → P { c with media := c.media.forget row }
  turn : ∀ (c : Ctl) t, P c → P { c with sched := { c.sched with turn := t } }
  waits : ∀ (c : Ctl) w, P c → P { c with sched := { c.sched with waits := w } }
  mark : ∀ (c : Ctl) b, P c → P { c with sched := { c.sched with limitMark := b } }
  stop : ∀ c : Ctl, P c → P (c.setCurrent .none)
  startAgent : ∀ c : Ctl, c.sched.current = .none → P c → P (c.setCurrent (.agent .starting))
  goOn : ∀ (c : Ctl) act, act.plain = true → P c → P (c.setActivity act)
  newPlan : ∀ (c : Ctl) stage plan asker,
    (plan.image.settings = c.conf.settings ∧ plan.image.lock = c.conf.lock) ∨ c.conf.lock ≠ 1 → P c →
    P (c.setActivity (.image stage plan asker))
  samePlan : ∀ (c : Ctl) stage plan asker stage' asker', c.sched.current.activity = some (.image stage plan asker) → P c →
    P (c.setActivity (.image stage' plan asker'))
  written : ∀ (c : Ctl) stage plan asker b, c.sched.current.activity = some (.image stage plan asker) → P c →
    P { c with conf := { c.conf.setFaulted plan.target b with stored := some ⟨plan.target, plan.image⟩ } }
  faulted : ∀ (c : Ctl) row b, P c → P { c with conf := c.conf.setFaulted row b }
  retired : ∀ (c : Ctl) l, P c → P { c with conf := { c.conf with retired := l } }
  active : ∀ (c : Ctl) s, P c → P { c with conf := { c.conf with active := some s } }
  disable : ∀ (c : Ctl) p, P c → P (c.disable p)
  enable : ∀ (c : Ctl) p, P c → P (c.enable p)
  deliver : ∀ (c : Ctl) n, P c → P (c.deliver n)
  releaseHold : ∀ (c : Ctl) p k, P c → P (c.releaseHold p k)
  freezeClaim : ∀ (c : Ctl) k, P c → P (c.freezeClaim k)
  emptyStaging : ∀ (c : Ctl) p, P c → P (c.emptyStaging p)
  enterReadOnly : ∀ (c : Ctl) r, r ≠ .none → P c → P (c.enterReadOnly r)
  answerCompactList : ∀ (c : Ctl) st, P c → P (c.answerCompactList st)
  answerTied : ∀ (c : Ctl) n, P c → P (c.answerTied n)
  answerAllZero : ∀ c : Ctl, P c → P c.answerAllZero
  tie : ∀ c : Ctl, P c → P { c with sched := { c.sched with compactList := tieOldest c.sched.compactList } }
  respond : ∀ (c : Ctl) req act st result, c.sched.current = .port req act → P c →
    P (((c.respond req st result).endMark).endTurn)
  respondReload : ∀ (c : Ctl) req act st result, c.sched.current = .port req act → P c →
    P ((c.respond req st result).setCurrent .none)
  handOn : ∀ (c : Ctl) req act, c.sched.current = .port req act → P c → P (c.handOn req)
  serve : ∀ (c : Ctl) p req rest, c.sched.current = .none → c.requests p = req :: rest → P c →
    P { c with
        sched := { c.sched with
          lists := c.sched.lists.set p rest
          waits := c.sched.waits.set p none
          searchStart := nextPort p
          current := .port req .starting } }

namespace StepLaws

variable {P : Ctl → Prop} (h : StepLaws P)

include h

/-! ### Completions -/

theorem endTurn {c : Ctl} (hc : P c) : P c.endTurn := h.turn _ _ (h.stop _ hc)

theorem endAgentStep {c : Ctl} (hc : P c) : P c.endAgentStep := h.turn _ _ (h.stop _ hc)

theorem oldPagesDie {c : Ctl} (k : Half) (hc : P c) : P (c.oldPagesDie k) := by
  rw [Ctl.oldPagesDie_eq]
  exact h.rows _ _ hc

theorem removeEntry {c : Ctl} (k : Half) (hc : P c) : P (c.removeEntry k) := h.dir _ _ (h.oldPagesDie k hc)

theorem placeEntry {c : Ctl} (e : DirEntry) (hc : P c) : P (c.placeEntry e) :=
  h.dir _ _ (h.rows _ ((c.oldPagesDie e.key).rows.pagesLive e.row e.pages) (h.oldPagesDie e.key hc))

theorem relocate {c : Ctl} (k : Half) (row page : Nat) (hc : P c) : P (c.relocate k row page) := by
  unfold Ctl.relocate
  split
  · next e _ => exact h.dir _ _ (h.rows _ ((c.rows.pagesLive row e.pages).pagesDie e.row e.pages) hc)
  · exact hc

theorem releaseOnDone {c : Ctl} (p : Port) (b : Bool) (hc : P c) : P (c.releaseOnDone p b) := by
  unfold Ctl.releaseOnDone
  split
  · exact h.releaseHold _ _ _ hc
  · exact hc
  · exact hc

end StepLaws

@[simp] theorem Ctl.releaseOnDone_sched (c : Ctl) (p : Port) (b : Bool) : (c.releaseOnDone p b).sched = c.sched := by
  unfold Ctl.releaseOnDone
  split <;> simp

@[simp] theorem Ctl.oldPagesDie_sched (c : Ctl) (k : Half) : (c.oldPagesDie k).sched = c.sched := by rw [Ctl.oldPagesDie_eq]

@[simp] theorem Ctl.removeEntry_sched (c : Ctl) (k : Half) : (c.removeEntry k).sched = c.sched := Ctl.oldPagesDie_sched c k

@[simp] theorem Ctl.placeEntry_sched (c : Ctl) (e : DirEntry) : (c.placeEntry e).sched = c.sched := Ctl.oldPagesDie_sched c e.key

@[simp] theorem Ctl.emptyStaging_sched (c : Ctl) (p : Port) : (c.emptyStaging p).sched = c.sched := rfl

@[simp] theorem Ctl.endStaging_sched (c : Ctl) (req : Request) : (c.endStaging req).sched = c.sched := by
  unfold Ctl.endStaging
  split <;> rfl

@[simp] theorem Ctl.writeEffects_sched (c : Ctl) (req : Request) (hd : RecHeader) (row first : Nat) :
    (c.writeEffects req hd row first).sched = c.sched := by
  unfold Ctl.writeEffects
  split <;> simp

namespace StepLaws

variable {P : Ctl → Prop} (h : StepLaws P)

include h

theorem endStaging {c : Ctl} (req : Request) (hc : P c) : P (c.endStaging req) := by
  unfold Ctl.endStaging
  split
  · exact h.emptyStaging _ _ hc
  · exact hc

theorem writeEffects {c : Ctl} (req : Request) (hd : RecHeader) (row first : Nat) (hc : P c) :
    P (c.writeEffects req hd row first) := by
  unfold Ctl.writeEffects
  split
  · exact h.releaseOnDone _ _ (h.deliver _ _ (h.placeEntry _ hc))
  · exact h.deliver _ _ (h.removeEntry _ hc)
  · exact h.freezeClaim _ _ (h.deliver _ _ (h.placeEntry _ hc))
  · exact hc

theorem completeWrite {c : Ctl} {req : Request} {act : Activity} (hd : RecHeader) (row first : Nat)
    (hs : c.sched.current = .port req act) (hc : P c) : P (c.completeWrite req hd row first) :=
  h.respond _ req act _ _ (by simpa using hs) (h.endStaging req (h.writeEffects req hd row first hc))

theorem complete {c : Ctl} {req : Request} {act : Activity} (st : Status) (result : List Byte)
    (hs : c.sched.current = .port req act) (hc : P c) : P (c.complete req st result) := by
  unfold Ctl.complete
  refine h.respond _ req act _ _ ?_ (h.endStaging req ?_)
  · rw [Ctl.endStaging_sched]
    split
    · simpa using hs
    · exact hs
  · split
    · exact h.releaseOnDone _ _ hc
    · exact hc

theorem refuse {c : Ctl} {req : Request} {act : Activity} (st : Status) (hs : c.sched.current = .port req act) (hc : P c) :
    P (c.refuse req st) := h.complete st _ hs hc

end StepLaws

/-! ### The application of a configuration -/

/-- A RESYNC or disable marks the operation executing, and a step that does not execute stays away. -/
theorem Ctl.resync_current (c : Ctl) (p : Port) : (c.resync p).sched.current = c.sched.current.markDiscard p := by
  simp only [Ctl.resync, Ctl.onNotif_sched, Ctl.resyncClaims_sched]
  rfl

theorem Ctl.disable_current {c : Ctl} (p : Port) (hs : c.sched.current = .none) : (c.disable p).sched.current = .none := by
  simp only [Ctl.disable, Ctl.onNotif_sched, Ctl.onPort_sched, Ctl.resync_current, hs]
  rfl

namespace StepLaws

variable {P : Ctl → Prop} (h : StepLaws P)

include h

theorem applyEnableMask {c : Ctl} (mask : Byte) (hc : P c) : P (c.applyEnableMask mask) := by
  have h1 : ∀ (l : List Port) (d : Ctl), P d →
      P (l.foldl (fun (d : Ctl) p => if (d.port p).enabled && !inMask mask p then d.disable p else d) d) := by
    intro l
    induction l with
    | nil => exact fun d hp => hp
    | cons p t ih =>
      intro d hp
      simp only [List.foldl_cons]
      split
      · exact ih _ (h.disable _ _ hp)
      · exact ih _ hp
  have h2 : ∀ (l : List Port) (d : Ctl), P d →
      P (l.foldl (fun (d : Ctl) p => if !(d.port p).enabled && inMask mask p then d.enable p else d) d) := by
    intro l
    induction l with
    | nil => exact fun d hp => hp
    | cons p t ih =>
      intro d hp
      simp only [List.foldl_cons]
      split
      · exact ih _ (h.enable _ _ hp)
      · exact ih _ hp
  unfold Ctl.applyEnableMask
  simp only
  exact h2 allPorts _ (h1 allPorts c hc)

theorem completeReload {c : Ctl} {req : Request} {act : Activity} (s : Settings) (g : Word)
    (hs : c.sched.current = .port req act) (hc : P c) : P (c.completeReload req s g) := by
  have h1 := h.active _ s (h.respondReload c req act .ok (wordBytes g) hs hc)
  have h2 := h.applyEnableMask s.enable h1
  exact h.endTurn h2

/-! ### Compaction -/

theorem haltAgent {c : Ctl} (hc : P c) : P c.haltAgent :=
  h.endAgentStep (h.answerCompactList _ _ (h.enterReadOnly _ _ (by decide) (h.agent _ _ hc)))

theorem beginPass {c : Ctl} (hc : P c) : P c.beginPass := h.agent _ _ (h.tie _ hc)

theorem removeDamaged {c : Ctl} (e : DirEntry) (hc : P c) : P (c.removeDamaged e) :=
  h.agent _ _ (h.deliver _ _ (h.removeEntry _ hc))

theorem endWalk {c : Ctl} (row : Nat) (hc : P c) : P (c.endWalk row) := by
  have hf : ∀ (l : List DirEntry) (d : Ctl), P d → P (l.foldl Ctl.removeDamaged d) := by
    intro l
    induction l with
    | nil => exact fun d hd => hd
    | cons e t ih => exact fun d hd => ih _ (h.removeDamaged e hd)
  exact h.endAgentStep (h.agent _ _ (hf _ _ hc))

theorem advanceCursor {c : Ctl} (row cursor q : Nat) (hc : P c) : P (c.advanceCursor row cursor q) := by
  unfold Ctl.advanceCursor
  simp only
  split
  · exact h.endWalk _ (h.agent _ _ hc)
  · exact h.endAgentStep (h.agent _ _ hc)

theorem dropRecord {c : Ctl} (row cursor q : Nat) (hc : P c) : P (c.dropRecord row cursor q) :=
  h.advanceCursor _ _ _ (h.agent _ _ hc)

theorem copyWritten {c : Ctl} (hd : RecHeader) (row first : Nat) (hc : P c) : P (c.copyWritten hd row first) := by
  unfold Ctl.copyWritten
  split
  · exact h.advanceCursor _ _ _ (h.agent _ _ (h.relocate _ _ _ hc))
  all_goals exact h.endAgentStep hc

theorem copyFailed {c : Ctl} (hc : P c) : P c.copyFailed := by
  unfold Ctl.copyFailed
  split
  · split
    · exact h.haltAgent hc
    · exact h.endAgentStep (h.agent _ _ hc)
  all_goals exact h.endAgentStep hc

theorem endPass {c : Ctl} (n : Nat) (hc : P c) : P (c.endPass n) := by
  unfold Ctl.endPass
  simp only
  have h1 := h.agent _ Agent.reset (h.answerTied c n hc)
  refine h.endAgentStep ?_
  split
  · exact h.answerCompactList _ _ h1
  · split
    · exact h1
    · exact h.answerAllZero _ h1
  · exact h1

/-! ### Array operations asked for -/

theorem askRead {c : Ctl} (row page : Nat) {act : Activity} (ha : act.plain = true) (hc : P c) : P (c.askRead row page act) :=
  h.goOn _ _ ha (h.op _ _ hc)

theorem askErase {c : Ctl} (row : Nat) {act : Activity} (ha : act.plain = true) (hc : P c) : P (c.askErase row act) :=
  h.goOn _ _ ha (h.op _ (.erasing row 0) (h.forget _ row hc))

theorem askProgram {c : Ctl} (row page : Nat) (target : Page) {act : Activity} (ha : act.plain = true) (hc : P c) :
    P (c.askProgram row page target act) := h.goOn _ _ ha (h.op _ _ hc)

/-! ### Head opens and record writes -/

theorem recordWritten {c : Ctl} (job : WriteJob) (row first : Nat) (hc : P c) : P (c.recordWritten job row first) := by
  unfold Ctl.recordWritten
  split
  · exact h.copyWritten _ _ _ hc
  · next hs => exact h.completeWrite _ _ _ hs hc
  · exact hc
  · exact hc

theorem openFailed {c : Ctl} (job : WriteJob) (hc : P c) : P (c.openFailed job) := by
  unfold Ctl.openFailed
  split
  · exact h.haltAgent hc
  · next hs => exact h.refuse _ hs hc
  · exact hc
  · exact hc

theorem programHeader {again : Ctl → Ctl} (ha : ∀ c, P c → P (again c)) (job : WriteJob) (row left : Nat) {c : Ctl}
    (hc : P c) : P (Ctl.programHeader again job row left c) := by
  unfold Ctl.programHeader
  split
  · exact h.openFailed _ (h.enterReadOnly _ _ (by decide) hc)
  · simp only
    split
    · exact h.askProgram _ _ _ rfl (h.rows _ _ hc)
    · exact ha _ (h.rows _ _ hc)

theorem tryOpen (job : WriteJob) (left : Nat) {c : Ctl} (hc : P c) : P (Machine.tryOpen job left c) := by
  induction left generalizing c with
  | zero => exact h.openFailed job hc
  | succ n ih =>
    unfold Machine.tryOpen
    split
    · exact h.openFailed job hc
    · split
      · exact h.openFailed job hc
      · simp only
        split
        · exact h.askErase _ rfl (h.rows _ _ hc)
        · exact h.programHeader (fun c hc => ih hc) _ _ _ (h.rows _ _ hc)

theorem openHead {c : Ctl} (job : WriteJob) (hc : P c) : P (c.openHead job) := by
  unfold Ctl.openHead
  split
  · exact h.tryOpen _ _ (h.rows _ _ hc)
  · exact h.openFailed _ hc

theorem recordFailed {c : Ctl} (job : WriteJob) (row : Nat) (hc : P c) : P (c.recordFailed job row) := by
  unfold Ctl.recordFailed
  simp only
  have h1 := h.rows _ (c.rows.markSuspect row).closeHead hc
  split
  · exact h.copyFailed h1
  · exact h.openHead _ h1
  · next hs => exact h.refuse _ hs h1
  · exact h1
  · exact h1

theorem programPage {c : Ctl} (job : WriteJob) (row first idx : Nat) (hc : P c) : P (c.programPage job row first idx) := by
  unfold Ctl.programPage
  split
  · exact h.askProgram _ _ _ rfl hc
  · exact h.recordFailed _ _ hc

theorem startRecord {c : Ctl} (job : WriteJob) (hc : P c) : P (c.startRecord job) := by
  unfold Ctl.startRecord
  split
  · exact h.programPage _ _ _ _ (h.rows _ _ hc)
  · exact hc

theorem placeRecord {c : Ctl} (job : WriteJob) (hc : P c) : P (c.placeRecord job) := by
  unfold Ctl.placeRecord
  split
  · exact h.startRecord _ hc
  · exact h.openHead _ hc

theorem pageWritten {c : Ctl} (job : WriteJob) (row first idx : Nat) (hc : P c) : P (c.pageWritten job row first idx) := by
  unfold Ctl.pageWritten
  split
  · exact h.recordWritten _ _ _ hc
  · exact h.programPage _ _ _ _ hc

theorem headOpened {c : Ctl} (job : WriteJob) (row : Nat) (n : Word) (hc : P c) : P (c.headOpened job row n) :=
  h.startRecord _ (h.rows _ _ hc)

theorem headerFailed {c : Ctl} (job : WriteJob) (row left : Nat) (hc : P c) : P (c.headerFailed job row left) :=
  h.tryOpen _ _ (h.rows _ _ hc)

/-! ### Image writes and retirement -/

theorem imageEnded {c : Ctl} (asker : ImageFor) (g : Option Word) (hc : P c) : P (c.imageEnded asker g) := by
  unfold Ctl.imageEnded
  split
  · split
    · next hs => exact h.complete _ _ hs hc
    · next hs => exact h.refuse _ hs hc
    · exact hc
    · exact hc
  · refine h.tryOpen _ _ ?_
    split
    · exact hc
    · exact h.enterReadOnly _ _ (by decide) hc
  · refine h.endPass _ ?_
    split
    · exact hc
    · exact h.enterReadOnly _ _ (by decide) hc

theorem writeImage {c : Ctl} {settings : Settings} {lock : Byte} (retired : List Byte) (asker : ImageFor)
    (hp : (settings = c.conf.settings ∧ lock = c.conf.lock) ∨ c.conf.lock ≠ 1) (hc : P c) :
    P (c.writeImage settings lock retired asker) := by
  unfold Ctl.writeImage
  split
  · exact h.imageEnded _ _ hc
  · exact h.newPlan _ _ _ _ hp (h.op _ (.erasing _ 0) (h.forget _ _ hc))

theorem imageWritten {c : Ctl} {stage : ImageStage} {plan : ImagePlan} {asker : ImageFor} (b : Bool)
    (hs : c.sched.current.activity = some (.image stage plan asker)) (hc : P c) : P (c.imageWritten plan asker b) :=
  h.imageEnded _ _ (h.written c stage plan asker b hs hc)

theorem imageFailed {c : Ctl} (plan : ImagePlan) (asker : ImageFor) (hc : P c) : P (c.imageFailed plan asker) :=
  h.imageEnded _ _ (h.faulted _ _ _ hc)

theorem programImage {c : Ctl} {stage : ImageStage} {plan : ImagePlan} {asker : ImageFor}
    (hs : c.sched.current.activity = some (.image stage plan asker)) (hc : P c) : P (c.programImage plan asker) := by
  unfold Ctl.programImage
  split
  · exact h.samePlan _ stage plan asker _ _ hs (h.op _ _ hc)
  · exact h.samePlan _ stage plan asker _ _ hs (h.op _ _ hc)

theorem retireRow {c : Ctl} (row : Nat) (asker : ImageFor) (hc : P c) : P (c.retireRow row asker) := by
  unfold Ctl.retireRow
  split
  · simp only
    split
    · exact h.enterReadOnly _ _ (by decide) hc
    · exact h.tryOpen _ _ (h.enterReadOnly _ _ (by decide) hc)
    · exact h.endPass _ (h.enterReadOnly _ _ (by decide) hc)
  · exact h.writeImage _ _ (Or.inl ⟨rfl, rfl⟩) (h.retired _ _ hc)

theorem openErased {c : Ctl} (job : WriteJob) (row left : Nat) (b : Bool) (hc : P c) : P (c.openErased job row left b) := by
  unfold Ctl.openErased
  split
  · exact h.programHeader (fun c hc => h.tryOpen _ _ hc) _ _ _ (h.rows _ _ hc)
  · exact h.retireRow _ _ (h.rows _ _ hc)

theorem tailErased {c : Ctl} (row : Nat) (b : Bool) (hc : P c) : P (c.tailErased row b) := by
  unfold Ctl.tailErased
  simp only
  have h1 : P { c with sched := c.sched.countReclaim } := h.waits _ _ hc
  split
  · exact h.endPass _ (h.rows _ _ h1)
  · exact h.retireRow _ _ (h.rows _ _ h1)

/-! ### The starts of port operations -/

theorem startWrite {c : Ctl} (hd : RecHeader) (payload : List Byte) (hc : P c) : P (c.startWrite hd payload) :=
  h.placeRecord _ (h.mark _ _ (h.rows _ { c.rows with seqCounter := c.rows.seqCounter + 1 } hc))

theorem beginRead {c : Ctl} (k : Half) (full : Bool) (hc : P c) : P (c.beginRead k full) := by
  unfold Ctl.beginRead
  split
  · exact h.askRead _ _ rfl hc
  · exact hc

theorem beginSetconf {c : Ctl} {req : Request} {act : Activity} (a : ConfArgs) (hs : c.sched.current = .port req act)
    (hc : P c) : P (c.beginSetconf req a) := by
  unfold Ctl.beginSetconf
  split
  · exact h.refuse _ hs hc
  · next hl => exact h.writeImage _ _ (Or.inr hl) hc

theorem beginReload {c : Ctl} {req : Request} {act : Activity} (hs : c.sched.current = .port req act) (hc : P c) :
    P (c.beginReload req) := by
  unfold Ctl.beginReload
  split
  · exact h.completeReload _ _ hs hc
  · exact h.askRead _ _ rfl hc

theorem beginCommit {c : Ctl} {req : Request} {act : Activity} (full : Bool) (hs : c.sched.current = .port req act)
    (hc : P c) : P (c.beginCommit req full) := by
  unfold Ctl.beginCommit
  split
  · split
    · exact h.refuse _ hs hc
    · exact h.startWrite _ _ hc
  · exact hc

theorem beginDelete {c : Ctl} {req : Request} {act : Activity} (k : Half) (full : Bool) (hs : c.sched.current = .port req act)
    (hc : P c) : P (c.beginDelete req k full) := by
  unfold Ctl.beginDelete
  split
  · split
    · exact h.refuse _ hs hc
    · exact h.startWrite _ _ hc
  · exact hc

theorem execute {c : Ctl} {req : Request} {act : Activity} (full : Bool) (hs : c.sched.current = .port req act) (hc : P c) :
    P (c.execute req full) := by
  unfold Ctl.execute
  split
  · exact h.refuse _ hs hc
  · split
    · exact h.beginCommit _ hs hc
    · exact h.beginDelete _ _ hs hc
    · exact h.beginRead _ _ hc
    · exact h.beginRead _ _ hc
    · exact h.handOn _ _ act hs hc
    · exact h.beginSetconf _ hs hc
    · exact h.beginReload hs hc

theorem servePort {c : Ctl} (p : Port) (hs : c.sched.current = .none) (hc : P c) : P (c.servePort p) := by
  unfold Ctl.servePort
  split
  · exact hc
  · next req rest hl => exact h.execute (act := .starting) _ rfl (h.serve c p req rest hs hl hc)

theorem startAgentStep {c : Ctl} (hs : c.sched.current = .none) (hc : P c) : P c.startAgent := by
  unfold Ctl.startAgent
  simp only
  have h1 := h.startAgent c hs hc
  have h2 : P (if (c.setCurrent (.agent .starting)).agent.state = .idle then (c.setCurrent (.agent .starting)).beginPass
      else c.setCurrent (.agent .starting)) := by
    split
    · exact h.beginPass h1
    · exact h1
  split
  · exact h.askRead _ _ rfl h2
  · exact h.askErase _ rfl h2
  · exact h.endAgentStep h2
  · exact h.endAgentStep h2

theorem chooseSteps (n : Nat) {c : Ctl} (hs : c.sched.current = .none) (hc : P c) : P (Machine.chooseSteps n c) := by
  induction n generalizing c with
  | zero => exact hc
  | succ n ih =>
    unfold Machine.chooseSteps
    simp only
    have h1 : P c.judgeWaits := h.waits _ _ hc
    split
    · exact h1
    · exact h.startAgentStep hs h1
    · split
      · next hd => exact ih hd (h.servePort _ hs h1)
      · exact h.servePort _ hs h1

theorem schedule {c : Ctl} (hc : P c) : P c.schedule := by
  unfold Ctl.schedule
  split
  · next hs => exact h.chooseSteps _ hs hc
  · exact hc

/-! ### The outcomes of array operations -/

theorem recordRead {c : Ctl} {req : Request} {act : Activity} (e : DirEntry) (pages : List Page) (full : Bool)
    (hs : c.sched.current = .port req act) (hc : P c) : P (c.recordRead req e pages full) := by
  unfold Ctl.recordRead
  split
  · exact h.refuse _ hs hc
  · split
    · exact h.complete _ _ hs hc
    · split
      · exact h.refuse _ hs hc
      · exact h.startWrite _ _ hc
    all_goals exact hc

theorem imageRead {c : Ctl} {req : Request} {act : Activity} (data : Page) (hs : c.sched.current = .port req act) (hc : P c) :
    P (c.imageRead req data) := by
  unfold Ctl.imageRead
  split
  · split
    · exact h.completeReload _ _ hs hc
    · exact h.refuse _ hs hc
  · exact h.refuse _ hs hc

theorem handleRecord {c : Ctl} (hd : RecHeader) (pages : List Page) (row cursor : Nat) (hc : P c) :
    P (c.handleRecord hd pages row cursor) := by
  unfold Ctl.handleRecord
  split
  · split
    · split
      · exact h.placeRecord _ hc
      · exact h.advanceCursor _ _ _ (h.removeDamaged _ hc)
    · exact h.dropRecord _ _ _ hc
  · exact h.dropRecord _ _ _ hc

theorem scanRead {c : Ctl} (pages : List Page) (hc : P c) : P (c.scanRead pages) := by
  unfold Ctl.scanRead
  split
  · split
    · exact h.endWalk _ hc
    · split
      · exact h.askRead _ _ rfl hc
      · exact h.handleRecord _ _ _ _ hc
  all_goals exact hc

theorem readEnded {c : Ctl} (data : Page) (hc : P c) : P (c.readEnded data) := by
  unfold Ctl.readEnded
  split
  · next hs =>
    simp only
    split
    · exact h.askRead _ _ rfl hc
    · exact h.recordRead _ _ _ hs hc
  · next hs => exact h.imageRead _ hs hc
  · exact h.scanRead _ hc
  · next hs =>
    split
    · exact h.imageWritten _ (by rw [hs]; rfl) hc
    · exact h.imageFailed _ _ hc
  · next hs =>
    split
    · exact h.imageWritten _ (by rw [hs]; rfl) hc
    · exact h.imageFailed _ _ hc
  · exact hc

theorem programEnded {c : Ctl} (o : ProgramOutcome) (hc : P c) : P (c.programEnded o) := by
  unfold Ctl.programEnded
  split
  · next act ha =>
    unfold Ctl.programEndedFor
    split
    · split
      · exact h.headOpened _ _ _ hc
      · exact h.headerFailed _ _ _ hc
    · split
      · exact h.pageWritten _ _ _ _ hc
      · exact h.recordFailed _ _ hc
    · split
      · exact h.imageWritten _ ha hc
      · exact h.samePlan _ _ _ _ _ _ ha (h.op _ _ hc)
    · exact hc
  · exact hc

theorem eraseEnded {c : Ctl} (b : Bool) (hc : P c) : P (c.eraseEnded b) := by
  unfold Ctl.eraseEnded
  split
  · next act ha =>
    unfold Ctl.eraseEndedFor
    split
    · exact h.openErased _ _ _ _ hc
    · split
      · exact h.tailErased _ _ hc
      · exact hc
    · split
      · exact h.programImage ha hc
      · exact h.imageFailed _ _ hc
    · exact hc
  · exact hc

end StepLaws

end Sys2Proof.Machine
end

