-- ==== Sys2Proof/Laws/Choice.lean ====
section
/-! SUPPORT. Choice laws: an array step takes requests from the ports' lists and adds none, so the moments of choice that follow one
another at one event (R101) end before their bound, and `Ctl.schedule` goes on after an operation that completes at its start as it
would begin. -/

namespace Sys2Proof.Machine

/-! ### What leaves the ports' lists as they were -/

@[simp] theorem Ctl.answerCompact_sched (c : Ctl) (r : CompactReq) (st : Status) (result : List Byte) :
    (c.answerCompact r st result).sched = c.sched := by
  unfold Ctl.answerCompact
  split <;> rfl

@[simp] theorem Ctl.answerCompactList_lists (c : Ctl) (st : Status) : (c.answerCompactList st).sched.lists = c.sched.lists := by
  rw [Ctl.answerCompactList_eq]

@[simp] theorem Ctl.answerTied_lists (c : Ctl) (n : Nat) : (c.answerTied n).sched.lists = c.sched.lists := by
  rw [Ctl.answerTied_eq]

@[simp] theorem Ctl.answerAllZero_lists (c : Ctl) : c.answerAllZero.sched.lists = c.sched.lists := by
  rw [Ctl.answerAllZero_eq]

@[simp] theorem Ctl.enterReadOnly_lists (c : Ctl) (r : Reason) : (c.enterReadOnly r).sched.lists = c.sched.lists := by
  unfold Ctl.enterReadOnly
  split
  · simp only
    split <;> simp only [Ctl.answerCompactList_lists]
  · rfl
  · rfl

@[simp] theorem Ctl.respond_sched (c : Ctl) (req : Request) (st : Status) (result : List Byte) :
    (c.respond req st result).sched = c.sched := by
  unfold Ctl.respond
  split <;> rfl

@[simp] theorem Ctl.endMark_lists (c : Ctl) : c.endMark.sched.lists = c.sched.lists := by
  unfold Ctl.endMark
  split
  · exact Ctl.enterReadOnly_lists c _
  · rfl

@[simp] theorem Ctl.handOn_lists (c : Ctl) (req : Request) : (c.handOn req).sched.lists = c.sched.lists := by
  unfold Ctl.handOn
  split
  · rfl
  · simp only
    split
    · show (c.answerCompact _ _ _).sched.lists = _
      rw [Ctl.answerCompact_sched]
    · rfl

/-! ### The requests waiting -/

theorem Ctl.requestCount_lists {c d : Ctl} (h : d.sched.lists = c.sched.lists) : d.requestCount = c.requestCount := by
  unfold Ctl.requestCount Ctl.requests
  rw [h]

/-- With port `p`'s list replaced, the requests are those of the other ports and of the new list. -/
theorem Ctl.requestCount_set {c d : Ctl} {p : Port} {l : List Request} (h : d.sched.lists = c.sched.lists.set p l) :
    d.requestCount + (c.requests p).length = c.requestCount + l.length := by
  unfold Ctl.requestCount Ctl.requests
  rw [h]
  cases p <;> simp only [PerPort.set, PerPort.get] <;> omega

theorem Ctl.disable_lists (c : Ctl) (p : Port) : (c.disable p).sched.lists = c.sched.lists.set p [] := by
  simp only [Ctl.disable, Ctl.resync, Ctl.onNotif_sched, Ctl.onPort_sched, Ctl.resyncClaims_sched]
  rfl

/-- Port `p`'s front request has left its list and starts (R107). -/
def Ctl.withFront (c : Ctl) (p : Port) (req : Request) (rest : List Request) : Ctl :=
  { c with
    sched := { c.sched with
      lists := c.sched.lists.set p rest
      waits := c.sched.waits.set p none
      searchStart := nextPort p
      current := .port req .starting } }

theorem Ctl.servePort_eq {c : Ctl} {p : Port} {req : Request} {rest : List Request} (hr : c.requests p = req :: rest) :
    c.servePort p = (c.withFront p req rest).execute req (c.fullDue p req) := by
  unfold Ctl.servePort
  rw [hr]
  rfl

/-- Every elementary change of an array step leaves at most as many requests. -/
theorem requestSteps (n : Nat) : StepLaws fun c : Ctl => c.requestCount ≤ n where
  rows _ _ h := h
  dir _ _ h := h
  agent _ _ h := h
  op _ _ h := h
  forget _ _ h := h
  turn _ _ h := h
  waits _ _ h := h
  mark _ _ h := h
  stop _ h := h
  startAgent _ _ h := h
  goOn _ _ _ h := h
  newPlan _ _ _ _ _ h := h
  samePlan _ _ _ _ _ _ _ h := h
  written _ _ _ _ _ _ h := h
  faulted _ _ _ h := h
  retired _ _ h := h
  active _ _ h := h
  disable c p h := by
    have := Ctl.requestCount_set (c.disable_lists p)
    rw [List.length_nil] at this
    omega
  enable _ _ h := h
  deliver _ _ h := h
  releaseHold c p k h := Ctl.requestCount_lists (congrArg _ (c.releaseHold_sched p k)) ▸ h
  freezeClaim c k h := Ctl.requestCount_lists (congrArg _ (c.freezeClaim_sched k)) ▸ h
  emptyStaging _ _ h := h
  enterReadOnly c r _ h := Ctl.requestCount_lists (c.enterReadOnly_lists r) ▸ h
  answerCompactList c st h := Ctl.requestCount_lists (c.answerCompactList_lists st) ▸ h
  answerTied c n h := Ctl.requestCount_lists (c.answerTied_lists n) ▸ h
  answerAllZero c h := Ctl.requestCount_lists c.answerAllZero_lists ▸ h
  tie _ h := h
  respond c req _ st result _ h :=
    Ctl.requestCount_lists (c := c)
      ((Ctl.endMark_lists _).trans (congrArg _ (c.respond_sched req st result)) :
        (((c.respond req st result).endMark).endTurn).sched.lists = c.sched.lists) ▸ h
  respondReload c req _ st result _ h :=
    Ctl.requestCount_lists (c := c) (d := (c.respond req st result).setCurrent .none)
      (congrArg Sched.lists (c.respond_sched req st result) :) ▸ h
  handOn c req _ _ h := Ctl.requestCount_lists (c.handOn_lists req) ▸ h
  serve c p req rest _ hr h := by
    have := Ctl.requestCount_set (c := c) (p := p) (l := rest) (d := c.withFront p req rest) rfl
    rw [hr, List.length_cons] at this
    exact Nat.le_trans (show (c.withFront p req rest).requestCount ≤ c.requestCount by omega) h

/-- A port served leaves fewer requests (R107). -/
theorem Ctl.servePort_fewer {c : Ctl} {p : Port} {req : Request} {rest : List Request} (hr : c.requests p = req :: rest) :
    (c.servePort p).requestCount + 1 ≤ c.requestCount := by
  have hs := Ctl.requestCount_set (c := c) (p := p) (l := rest) (d := c.withFront p req rest) rfl
  rw [hr, List.length_cons] at hs
  have he := (requestSteps (c.requestCount - 1)).execute (c := c.withFront p req rest) (c.fullDue p req) rfl (by omega)
  rw [Ctl.servePort_eq hr]
  omega

/-! ### The choice (R101, R106, R107) -/

theorem Ctl.portServed_eligible {c : Ctl} {p : Port} (h : c.portServed = some p) : c.eligible p = true :=
  List.find?_some h

theorem Ctl.eligible_front {c : Ctl} {p : Port} (h : c.eligible p = true) : ∃ req rest, c.requests p = req :: rest := by
  unfold Ctl.eligible at h
  split at h
  · cases h
  · next req rest hr => exact ⟨req, rest, hr⟩

theorem Ctl.choose_port {c : Ctl} {p : Port} (h : c.choose = .port p) : c.portServed = some p := by
  unfold Ctl.choose at h
  split at h <;> cases h <;> assumption

/-- Moments of choice enough for the requests waiting and one more are enough: more change nothing. -/
theorem chooseSteps_enough (m n : Nat) {c : Ctl} (hm : c.requestCount < m) (hn : c.requestCount < n) :
    chooseSteps m c = chooseSteps n c := by
  induction m generalizing n c with
  | zero => omega
  | succ m ih =>
    cases n with
    | zero => omega
    | succ n =>
      unfold chooseSteps
      simp only
      split
      · rfl
      · rfl
      · next p hp =>
        obtain ⟨req, rest, hr⟩ := Ctl.eligible_front (Ctl.portServed_eligible (Ctl.choose_port hp))
        have hf := Ctl.servePort_fewer hr
        have hj : c.judgeWaits.requestCount = c.requestCount := Ctl.requestCount_lists rfl
        split
        · exact ih n (by omega) (by omega)
        · rfl

/-- The Scheduler at a moment of choice (R101): what was chosen starts, and when a port operation completes at its start the next
choice follows. -/
theorem Ctl.schedule_eq {c : Ctl} (hs : c.sched.current = .none) :
    c.schedule = match c.judgeWaits.choose with
      | .nothing => c.judgeWaits
      | .agent => c.judgeWaits.startAgent
      | .port p => (c.judgeWaits.servePort p).schedule := by
  have h0 : c.schedule = chooseSteps (c.requestCount + 1) c := by
    unfold Ctl.schedule
    rw [if_pos hs]
  rw [h0, chooseSteps]
  simp only
  cases hc : c.judgeWaits.choose with
  | nothing => rfl
  | agent => rfl
  | port p =>
    obtain ⟨req, rest, hr⟩ := Ctl.eligible_front (Ctl.portServed_eligible (Ctl.choose_port hc))
    have hf := Ctl.servePort_fewer hr
    have hj : c.judgeWaits.requestCount = c.requestCount := Ctl.requestCount_lists rfl
    simp only
    unfold Ctl.schedule
    split
    · exact chooseSteps_enough _ _ (by omega) (by omega)
    · rfl

/-- With no request waiting and no work for the agent, a choice only ends the space waits (R103, R104). -/
theorem Ctl.schedule_idle {c : Ctl} (hs : c.sched.current = .none) (hl : ∀ q, c.requests q = []) (ha : c.agentHasWork = false) :
    c.schedule = { c with sched := { c.sched with waits := PerPort.const none } } := by
  have hw : c.judgeWaits = { c with sched := { c.sched with waits := PerPort.const none } } := by
    unfold Ctl.judgeWaits
    have : (c.sched.waits.map fun p w => c.waitNow p w) = PerPort.const none := by
      simp [PerPort.map, Ctl.waitNow, hl, PerPort.const]
    rw [this]
  have hp : c.judgeWaits.portServed = none := by
    rw [hw]
    unfold Ctl.portServed
    refine List.find?_eq_none.2 fun q _ => ?_
    have := hl q
    unfold Ctl.requests at this
    simp [Ctl.eligible, Ctl.requests, this]
  have hag : c.judgeWaits.agentHasWork = false := by rw [hw]; exact ha
  rw [Ctl.schedule_eq hs]
  unfold Ctl.choose
  rw [hp, hag]
  exact hw

end Sys2Proof.Machine
end

