-- ==== Sys2Proof/Laws/Frames.lean ====
section
/-! SUPPORT. Frame laws: what the receiver reads back from the request bytes of a frame (R60), and the readouts' bytes. -/

namespace Sys2Proof.Machine

theorem halfAt_halfBytes (h : Half) (l m : List Byte) (n : Nat) (hn : l.length = n) : halfAt (l ++ (halfBytes h ++ m)) n = h := by
  have h0 : byteAt (l ++ (halfBytes h ++ m)) n = h.extractLsb' 8 8 := by
    subst hn
    simp [byteAt, halfBytes]
  have h1 : byteAt (l ++ (halfBytes h ++ m)) (n + 1) = h.extractLsb' 0 8 := by
    subst hn
    simp [byteAt, halfBytes]
  rw [halfAt, h0, h1]
  apply BitVec.eq_of_getLsbD_eq
  intro i hi
  rw [BitVec.getLsbD_append]
  by_cases h8 : i < 8
  · simp [h8]
  · have h8' : i - 8 < 8 := by omega
    simp [h8, h8', show 8 + (i - 8) = i by omega]

theorem frameBody_length (op tag : Byte) (args : List Byte) : (frameBody op tag args).length = 3 + args.length := by
  simp [frameBody]
  omega

theorem frameBytes_length (op tag : Byte) (args : List Byte) : (frameBytes op tag args).length = 5 + args.length := by
  simp [frameBytes, frameBody_length]
  omega

@[simp] theorem frameBytes_op (op tag : Byte) (args : List Byte) : byteAt (frameBytes op tag args) 0 = op := rfl

@[simp] theorem frameBytes_tag (op tag : Byte) (args : List Byte) : byteAt (frameBytes op tag args) 1 = tag := rfl

theorem frameBytes_argLength (op tag : Byte) {args : List Byte} (h : args.length ≤ 56) :
    (byteAt (frameBytes op tag args) 2).toNat = args.length := by
  show (natByte args.length).toNat = _
  simp [natByte]
  omega

theorem frameBytes_args (op tag : Byte) {args : List Byte} (h : args.length ≤ 56) :
    ((frameBytes op tag args).drop 3).take (byteAt (frameBytes op tag args) 2).toNat = args := by
  rw [frameBytes_argLength op tag h]
  show (args ++ halfBytes _).take args.length = args
  simp

/-- Request bytes are whole exactly when they are 5 + n (R60). -/
theorem frameWhole_iff (bytes : List Byte) :
    frameWhole bytes = true ↔ 3 ≤ bytes.length ∧ bytes.length = 5 + (byteAt bytes 2).toNat := by
  simp [frameWhole]

/-- A frame is discarded at the last of `bytes` exactly when they complete a length byte above 56, or a whole frame whose CRC-16
does not match (R61). -/
theorem frameFails_iff (bytes : List Byte) :
    frameFails bytes = true ↔ (bytes.length = 3 ∧ 56 < (byteAt bytes 2).toNat)
      ∨ (3 ≤ bytes.length ∧ bytes.length = 5 + (byteAt bytes 2).toNat)
        ∧ crc16 (bytes.take (bytes.length - 2)) ≠ halfAt bytes (bytes.length - 2) := by
  rw [← frameWhole_iff]
  simp only [frameFails, frameChecks, Bool.or_eq_true, Bool.and_eq_true, Bool.not_eq_true', decide_eq_true_eq,
    decide_eq_false_iff_not, ne_eq]
  exact Iff.rfl

/-- A frame formed by R60 is whole and its CRC-16 checks. -/
theorem frameBytes_whole (op tag : Byte) {args : List Byte} (h : args.length ≤ 56) :
    frameWhole (frameBytes op tag args) = true := by
  simp [frameWhole, frameBytes_argLength op tag h, frameBytes_length]
  omega

theorem frameBytes_checks (op tag : Byte) (args : List Byte) : frameChecks (frameBytes op tag args) = true := by
  have hl := frameBytes_length op tag args
  have hb := frameBody_length op tag args
  have hn : (frameBytes op tag args).length - 2 = (frameBody op tag args).length := by omega
  unfold frameChecks
  rw [hn]
  simp only [frameBytes, withCrc16, List.take_left']
  have := halfAt_halfBytes (crc16 (frameBody op tag args)) (frameBody op tag args) [] _ rfl
  rw [List.append_nil] at this
  rw [this]
  simp

/-- A frame formed by R60 with at most 56 arguments is not discarded. -/
theorem frameBytes_ok (op tag : Byte) {args : List Byte} (h : args.length ≤ 56) :
    frameFails (frameBytes op tag args) = false := by
  have hl := frameBytes_length op tag args
  unfold frameFails
  rw [frameBytes_checks]
  simp
  omega

/-- Bytes held that a frame's bytes continue make that frame possible. -/
theorem Ctl.frameReady_of_held {c : Ctl} {p : Port} {held : List Byte} (hr : (c.port p).rx = .receiving held) {op tag : Byte}
    {args : List Byte} (ha : args.length ≤ 56) (h : held <+: frameBytes op tag args) : c.frameReady p op tag args = true := by
  simp [Ctl.frameReady, hr, Config.argumentLimit, ha, h]

/-- A receiver that has taken no byte is ready for every frame of at most 56 arguments. -/
theorem Ctl.frameReady_of_fresh {c : Ctl} {p : Port} (hr : (c.port p).rx = .receiving []) (op tag : Byte) {args : List Byte}
    (ha : args.length ≤ 56) : c.frameReady p op tag args = true :=
  Ctl.frameReady_of_held hr ha List.nil_prefix

end Sys2Proof.Machine
end

