-- ==== Sys2Proof/Laws/Events.lean ====
section
/-! SUPPORT. Event laws: what each command can make of everything but the array, so that an invariant is shown by showing it for
the operations that the commands call. -/

namespace Sys2Proof.Machine

/-- The operations by which the commands change everything but the array lead from `P` to `Q`; a reset and a power loss are
apart. -/
structure EventLaws (P Q : Ctl → Prop) : Prop where
  release : ∀ c : Ctl, P c → Q ({ c with inReset := false }.beginMount)
  select : ∀ (c : Ctl) p, P c → Q (c.selectFalls p)
  deselect : ∀ (c : Ctl) p, P c → Q (c.selectRises p)
  discard : ∀ (c : Ctl) p held, (c.port p).rx = .receiving held → P c → Q (c.discardFrame p)
  receive : ∀ (c : Ctl) p held bytes, (c.port p).rx = .receiving held → P c →
    Q (c.onPort p fun u => { u with rx := .receiving bytes, sdo := some 0x00 })
  arrive : ∀ (c : Ctl) p held op tag args, (c.port p).rx = .receiving held → P c → Q (c.arriveOpcode p op tag args)
  readout : ∀ (c : Ctl) p kind x b rest, (c.port p).rx = .readout kind (x :: b :: rest) → P c →
    Q (c.onPort p fun u => { u with rx := .readout kind (b :: rest), sdo := some b })
  readoutDone : ∀ (c : Ctl) p kind rest, (c.port p).rx = .readout kind rest → P c → Q (c.readoutDone p kind)
  holdEnds : ∀ (c : Ctl) k e, c.claimOf k = some e → P c → Q (c.endHold k)
  waitEnds : ∀ (c : Ctl) k p e, c.claimOf k = some e → e.waits p = true → P c → Q (c.endWait e p .timeout)
  handData : ∀ (c : Ctl) data, P c → Q (c.mediaIdle.handData data)
  pulseGoesOn : ∀ (c : Ctl) row n op, n ≤ Config.disturbLimit → P c →
    Q { c with media := { c.media.setCount row n with op := op } }
  pulseEnds : ∀ (c : Ctl) row n op o, n ≤ Config.disturbLimit → P c →
    Q (Ctl.handProgram { c with media := { c.media.setCount row n with op := op } } o)
  programEnds : ∀ (c : Ctl) o, P c → Q (c.handProgram o)
  erased : ∀ (c : Ctl) row, P c → Q (Ctl.handErase { c with media := c.media.setCount row 0 } true)
  eraseFails : ∀ c : Ctl, P c → Q (c.handErase false)
  eraseGoesOn : ∀ (c : Ctl) op, P c → Q { c with media := { c.media with op := op } }

/-- A command leaves everything but the array as it was, or as one of the operations listed makes it, with every ATNn#
following its condition. -/
theorem exec_event {P Q : Ctl → Prop} (h : EventLaws P Q) {i : Instr}
    (hr : i.losesVolatile = true → ∀ c : Ctl, P c → Q c.afterReset ∧ Q { c.afterReset with powered := false }) {s t : State}
    (hs : P s.ctl) (ht : exec i s = .next t) : t.ctl = s.ctl ∨ ∃ c, Q c ∧ t.ctl = c.settle := by
  let R : Ctl → Prop := fun d => d = s.ctl ∨ ∃ c, Q c ∧ d = c.settle
  have same : R s.ctl := Or.inl rfl
  have settled : ∀ c, Q c → R c.settle := fun c hc => Or.inr ⟨c, hc, rfl⟩
  show R t.ctl
  have arrival : ∀ {p : Port} {op tag : Byte} {args : List Byte} {f : Ctl → Ctl},
      (∀ held, (s.ctl.port p).rx = .receiving held → Q (f s.ctl)) → s.arrival p op tag args f = .next t → R t.ctl := by
    intro p op tag args f hf ha
    cases hready : s.ctl.frameReady p op tag args
    · rw [State.arrival_unready _ hready] at ha
      injection ha with ha
      rw [← ha]
      exact same
    · rw [State.arrival_ready _ hready] at ha
      injection ha with ha
      rw [← ha]
      refine settled _ ?_
      cases hx : (s.ctl.port p).rx with
      | receiving held => exact hf held hx
      | idle => simp [Ctl.frameReady, hx] at hready
      | discarding => simp [Ctl.frameReady, hx] at hready
      | readout _ _ => simp [Ctl.frameReady, hx] at hready
      | trailing => simp [Ctl.frameReady, hx] at hready
  have command : ∀ (cmd : Cmd) (p : Port) (tag : Byte) (args : List Byte), exec (cmd.instr p tag args) s = .next t → R t.ctl := by
    intro cmd p tag args hc
    rw [exec_instr] at hc
    exact arrival (fun held hx => h.arrive _ p held _ _ _ hx hs) hc
  cases i with
  | ident p tag args => exact command .ident p tag args ht
  | query p tag args => exact command .query p tag args ht
  | list p tag args => exact command .list p tag args ht
  | opn p tag args => exact command .opn p tag args ht
  | fill p tag args => exact command .fill p tag args ht
  | abandon p tag args => exact command .abandon p tag args ht
  | commit p tag args => exact command .commit p tag args ht
  | delete p tag args => exact command .delete p tag args ht
  | read p tag args => exact command .read p tag args ht
  | freeze p tag args => exact command .freeze p tag args ht
  | compact p tag args => exact command .compact p tag args ht
  | setconf p tag args => exact command .setconf p tag args ht
  | reload p tag args => exact command .reload p tag args ht
  | claim p tag args => exact command .claim p tag args ht
  | release p tag args => exact command .release p tag args ht
  | watch p tag args => exact command .watch p tag args ht
  | unwatch p tag args => exact command .unwatch p tag args ht
  | attnmask p tag args => exact command .attnmask p tag args ht
  | collect p tag args => exact command .collect p tag args ht
  | drain p tag args => exact command .drain p tag args ht
  | resync p tag args => exact command .resync p tag args ht
  | badCmd p op tag args =>
    cases ho : Cmd.ofCode op with
    | none =>
      rw [exec_badCmd ho] at ht
      exact arrival (fun held hx => h.arrive _ p held _ _ _ hx hs) ht
    | some cmd =>
      simp only [exec, execBadCmd, ho, Option.isNone_some, Bool.false_eq_true, if_false] at ht
      injection ht with ht
      rw [← ht]
      exact same
  | deviceReset torn =>
    simp only [exec, execDeviceReset, State.after_eq] at ht
    injection ht with ht
    rw [← ht]
    exact settled _ (hr rfl _ hs).1
  | powerLoss torn =>
    simp only [exec, execPowerLoss, State.after_eq] at ht
    split at ht
    · injection ht with ht
      rw [← ht]
      exact settled _ (hr rfl _ hs).2
    · injection ht with ht
      rw [← ht]
      exact same
  | resetRelease =>
    simp only [exec, execResetRelease, State.after_eq] at ht
    split at ht
    · injection ht with ht
      rw [← ht]
      exact settled _ (h.release _ hs)
    · injection ht with ht
      rw [← ht]
      exact same
  | frameStart p =>
    simp only [exec, execFrameStart, State.after_eq] at ht
    split at ht
    · injection ht with ht
      rw [← ht]
      exact same
    · injection ht with ht
      rw [← ht]
      exact settled _ (h.select _ _ hs)
  | frameEnd p =>
    simp only [exec, execFrameEnd, State.after_eq] at ht
    split at ht
    · injection ht with ht
      rw [← ht]
      exact settled _ (h.deselect _ _ hs)
    · injection ht with ht
      rw [← ht]
      exact same
  | frameDiscard p bytes =>
    simp only [exec, execFrameDiscard, State.after_eq] at ht
    split at ht
    · next held hx =>
      split at ht
      · injection ht with ht
        rw [← ht]
        exact settled _ (h.discard _ _ _ hx hs)
      · injection ht with ht
        rw [← ht]
        exact same
    all_goals
      injection ht with ht
      rw [← ht]
      exact same
  | byteComplete p b =>
    simp only [exec, execByteComplete, State.after_eq] at ht
    split at ht
    · next held hx =>
      injection ht with ht
      rw [← ht]
      refine settled _ ?_
      unfold Ctl.receiveBytes
      split
      · exact h.discard _ _ _ hx hs
      · split
        · exact h.arrive _ _ _ _ _ _ hx hs
        · exact h.receive _ _ _ _ hx hs
    · next kind rest hx =>
      injection ht with ht
      rw [← ht]
      refine settled _ ?_
      unfold Ctl.readoutByte
      split
      · exact h.readout _ _ _ _ _ _ hx hs
      · exact h.readoutDone _ _ _ _ hx hs
    all_goals
      injection ht with ht
      rw [← ht]
      exact same
  | collectReadoutComplete p =>
    simp only [exec, execCollectReadoutComplete, State.after_eq] at ht
    split at ht
    · next resp rest hx =>
      injection ht with ht
      rw [← ht]
      exact settled _ (h.readoutDone _ _ _ _ hx hs)
    all_goals
      injection ht with ht
      rw [← ht]
      exact same
  | drainReadoutComplete p =>
    simp only [exec, execDrainReadoutComplete, State.after_eq] at ht
    split at ht
    · next rest hx =>
      injection ht with ht
      rw [← ht]
      exact settled _ (h.readoutDone _ _ _ _ hx hs)
    all_goals
      injection ht with ht
      rw [← ht]
      exact same
  | holdTimerExpiry k =>
    simp only [exec, execHoldTimerExpiry, State.after_eq] at ht
    split at ht
    · next e hk =>
      injection ht with ht
      rw [← ht]
      exact settled _ (h.holdEnds _ _ _ hk hs)
    · injection ht with ht
      rw [← ht]
      exact same
  | waitTimerExpiry k p =>
    simp only [exec, execWaitTimerExpiry, State.after_eq] at ht
    split at ht
    · next e hk =>
      split at ht
      · next hw =>
        injection ht with ht
        rw [← ht]
        exact settled _ (h.waitEnds _ _ _ _ hk hw hs)
      · injection ht with ht
        rw [← ht]
        exact same
    · injection ht with ht
      rw [← ht]
      exact same
  | pageRead =>
    simp only [exec, execPageRead, State.after_eq] at ht
    split at ht
    · injection ht with ht
      rw [← ht]
      exact settled _ (h.handData _ _ hs)
    all_goals
      injection ht with ht
      rw [← ht]
      exact same
  | programPulse left =>
    simp only [exec, execProgramPulse, State.pulse, State.after_eq] at ht
    split at ht
    · split at ht
      · next n hn =>
        split at ht
        · next h40 =>
          split at ht
          · injection ht with ht
            rw [← ht]
            exact settled _ (h.pulseEnds _ _ (n + 1) _ _ h40 hs)
          · injection ht with ht
            rw [← ht]
            exact settled _ (h.pulseGoesOn _ _ (n + 1) _ h40 hs)
        · injection ht with ht
          rw [← ht]
          exact settled _ (h.programEnds _ _ hs)
      · injection ht with ht
        rw [← ht]
        exact settled _ (h.programEnds _ _ hs)
    all_goals
      injection ht with ht
      rw [← ht]
      exact same
  | erasePulse left =>
    simp only [exec, execErasePulse, State.after_eq] at ht
    split at ht
    · split at ht
      · injection ht with ht
        rw [← ht]
        exact settled _ (h.erased _ _ hs)
      · split at ht
        · injection ht with ht
          rw [← ht]
          exact settled _ (h.eraseFails _ hs)
        · injection ht with ht
          rw [← ht]
          exact settled _ (h.eraseGoesOn _ _ hs)
    all_goals
      injection ht with ht
      rw [← ht]
      exact same
  | damage row page marks =>
    simp only [exec, execDamage] at ht
    split at ht
    · injection ht
    · split at ht
      · injection ht with ht
        rw [← ht]
        exact same
      · injection ht with ht
        rw [← ht]
        exact same

/-- An invariant of everything but the array: the operations keep it, and so do the lines of ATNn#. -/
theorem exec_keeps {P : Ctl → Prop} (h : EventLaws P P) (hsettle : ∀ c : Ctl, P c → P c.settle) {i : Instr}
    (hr : i.losesVolatile = true → ∀ c : Ctl, P c → P c.afterReset ∧ P { c.afterReset with powered := false }) {s t : State}
    (hs : P s.ctl) (ht : exec i s = .next t) : P t.ctl := by
  rcases exec_event h hr hs ht with he | ⟨c, hc, he⟩
  · exact he ▸ hs
  · exact he ▸ hsettle c hc

/-- What holds of the state after every command holds of the state after every step. -/
theorem step_of_exec {P : Ctl → Prop} (h : ∀ (i : Instr) (s t : State), P s.ctl → exec i s = .next t → P t.ctl) (s t : State)
    (hs : P s.ctl) (ht : step s = .next t) : P t.ctl := by
  unfold step at ht
  split at ht
  · injection ht with ht
    exact ht ▸ hs
  · next c rest _ => exact h c { s with pending := rest } t hs ht

end Sys2Proof.Machine
end

