-- ==== Sys2Proof/Laws/Invariants.lean ====
section
/-! SUPPORT. How an invariant that no credit enters is shown: the changes that arrivals, mount and the array's events make, each
kept by `P`, give every field of `EventLaws`. -/

namespace Sys2Proof.Machine

theorem keyArg_ok {args : List Byte} {k : Half} (hk : keyArg args = some k) : keyOk k = true := by
  unfold keyArg at hk
  split at hk
  · next hc =>
    injection hk with hk
    rw [Bool.and_eq_true] at hc
    exact hk ▸ hc.2
  · cases hk

theorem claimArgs_ok {args : List Byte} {k hold wait : Half} (hk : claimArgs args = some (k, hold, wait)) : keyOk k = true := by
  unfold claimArgs at hk
  split at hk
  · next hc =>
    injection hk with hk
    rw [Bool.and_eq_true] at hc
    exact (Prod.mk.inj hk).1 ▸ hc.2
  · cases hk

/-- A composition within its range (R84). -/
theorem openArgs_sound {args : List Byte} {k : Composition} (h : openArgs args = some k) : (Staging.composing k).sound := by
  unfold openArgs at h
  split at h
  · next hc =>
    injection h with h
    simp only [Bool.and_eq_true, decide_eq_true_eq] at hc
    exact h ▸ hc.2
  · cases h

theorem Staging.take_sound {st : Staging} (h : st.sound) : st.take.sound := by cases st <;> exact h

/-- Every change of a Port Unit that keeps the bound of its staging buffer keeps `P`. -/
abbrev PortLaw (P : Ctl → Prop) : Prop :=
  ∀ (c : Ctl) (p : Port) (g : PortUnit → PortUnit), ((c.port p).staging.sound → (g (c.port p)).staging.sound) → P c →
    P (c.onPort p g)

/-- The changes that a command's arrival makes keep `P`, where `P` says nothing of the Port Units but that each staging buffer's
composition is within its bound. -/
structure ArrivalLaws (P : Ctl → Prop) : Prop where
  onPort : PortLaw P
  addWatch : ∀ (c : Ctl) p k, k ∉ (c.notif p).watch → (c.notif p).watch.length < Config.watchLimit → P c →
    P (c.onNotif p fun u => u.addWatch k)
  dropWatch : ∀ (c : Ctl) p k, P c → P (c.onNotif p fun u => u.dropWatch k)
  select : ∀ (c : Ctl) p, P c → P (c.onNotif p NotifUnit.select)
  setRequests : ∀ (c : Ctl) p l, c.sched.mode ≠ .mounting → P c → P (c.setRequests p l)
  setWait : ∀ (c : Ctl) p w, P c → P (c.setWait p w)
  endHold : ∀ (c : Ctl) k, P c → P (c.endHold k)
  endWait : ∀ (c : Ctl) e p st, c.claimOf e.key = some e → P c → P (c.endWait e p st)
  handleClaim : ∀ (c : Ctl) p tag k hold wait, keyOk k = true → P c → P (c.handleClaim p tag k hold wait)
  resync : ∀ (c : Ctl) p, P c → P (c.resync p)
  schedule : ∀ c : Ctl, P c → P c.schedule

namespace ArrivalLaws

variable {P : Ctl → Prop} (h : ArrivalLaws P)

include h

theorem answer {c : Ctl} (p : Port) (cmd : Cmd) (tag : Byte) (st : Status) (result : List Byte) (hc : P c) :
    P (c.answer p cmd tag st result) := by
  unfold Ctl.answer Ctl.enter
  exact h.onPort _ _ _ id hc

theorem answerFill {c : Ctl} (p : Port) (cmd : Cmd) (tag : Byte) (st : Status) (hc : P c) : P (c.answerFill p cmd tag st) :=
  h.answer _ _ _ _ _ hc

theorem accept {c : Ctl} (p : Port) {body : Ctl → Ctl} (hb : ∀ d, P d → P (body d)) (hc : P c) : P (c.accept p body) := by
  unfold Ctl.accept
  simp only
  split
  · exact hb _ (h.onPort _ _ _ id (h.onPort _ _ _ id hc))
  · exact h.onPort _ _ _ id (h.onPort _ _ _ id hc)

theorem arrive {c : Ctl} (p : Port) (cmd : Cmd) (tag : Byte) {body : Ctl → Ctl}
    (hb : ∀ d : Ctl, d.sched.mode ≠ .mounting → P d → P (body d)) (hc : P c) : P (c.arrive p cmd tag body) := by
  refine h.accept p (fun d hd => ?_) hc
  split
  · exact h.answer _ _ _ _ _ hd
  · next hm => exact hb d hm hd

theorem judge {c : Ctl} (p : Port) (tag : Byte) (body : ReqBody) (r : Option Status)
    (hm : c.sched.mode ≠ .mounting) (hc : P c) : P (c.judge p tag body r) := by
  unfold Ctl.judge
  split
  · exact h.answer _ _ _ _ _ hc
  · exact h.schedule _ (h.setRequests _ _ _ hm hc)

theorem releaseHold {c : Ctl} (p : Port) (k : Half) (hc : P c) : P (c.releaseHold p k) := by
  unfold Ctl.releaseHold
  split
  · split
    · exact h.endHold _ _ hc
    · exact hc
  · exact hc

theorem withdrawCommit {c : Ctl} (p : Port) (hm : c.sched.mode ≠ .mounting) (hc : P c) : P (c.withdrawCommit p) := by
  unfold Ctl.withdrawCommit
  split
  · next r _ =>
    have h1 : P (c.removeCommit p) := by
      unfold Ctl.removeCommit
      simp only
      split
      · split
        · exact h.setWait _ _ _ (h.setRequests _ _ _ hm hc)
        · exact h.setRequests _ _ _ hm hc
      · exact h.setRequests _ _ _ hm hc
    have h2 : P ((c.removeCommit p).releaseOnDone p r.body.releases) := by
      unfold Ctl.releaseOnDone
      split
      · exact h.releaseHold _ _ h1
      · exact h1
      · exact h1
    exact h.onPort _ _ _ id (h.onPort _ _ _ (fun _ => trivial) h2)
  · exact h.onPort _ _ _ (fun _ => trivial) hc

/-- The arrival of any frame's command keeps `P`. -/
theorem arriveOpcode {c : Ctl} (p : Port) (op tag : Byte) (args : List Byte) (hc : P c) : P (c.arriveOpcode p op tag args) := by
  unfold Ctl.arriveOpcode
  split
  · exact h.accept p (fun d hd => h.onPort _ _ _ id hd) hc
  · refine h.accept p (fun d hd => ?_) hc
    split <;> exact h.answer _ _ _ _ _ hd
  · refine h.arrive p _ _ (fun d hm hd => ?_) hc
    split <;> exact h.answer _ _ _ _ _ hd
  · refine h.arrive p _ _ (fun d hm hd => ?_) hc
    split <;> exact h.answer _ _ _ _ _ hd
  · refine h.arrive p _ _ (fun d hm hd => ?_) hc
    split
    · exact h.answerFill _ _ _ _ hd
    · next k hk =>
      have hk := openArgs_sound hk
      split
      · exact h.answerFill _ _ _ _ hd
      · exact h.answerFill _ _ _ _ (h.onPort _ _ _ (fun _ => hk) hd)
      · exact h.answerFill _ _ _ _ (h.onPort _ _ _ (fun _ => hk) hd)
  · refine h.arrive p _ _ (fun d hm hd => ?_) hc
    split
    · exact h.answerFill _ _ _ _ hd
    · split
      · exact h.answerFill _ _ _ _ hd
      · exact h.answerFill _ _ _ _ hd
      · next hs =>
        split
        · exact h.answerFill _ _ _ _ hd
        · exact h.answerFill _ _ _ _ (h.onPort _ _ _ (fun hu => by rw [hs] at hu; exact hu) hd)
  · refine h.arrive p _ _ (fun d hm hd => ?_) hc
    split
    · exact h.answerFill _ _ _ _ hd
    · split
      · exact h.answerFill _ _ _ _ hd
      · exact h.answerFill _ _ _ _ (h.onPort _ _ _ (fun _ => trivial) hd)
      · split
        · exact h.answerFill _ _ _ _ hd
        · exact h.answerFill _ _ _ _ (h.withdrawCommit p hm hd)
  · refine h.arrive p _ _ (fun d hm hd => ?_) hc
    split
    · exact h.answer _ _ _ _ _ hd
    · split
      · exact h.answer _ _ _ _ _ hd
      · exact h.schedule _ (h.setRequests _ _ _ hm (h.onPort _ _ _ Staging.take_sound hd))
  · refine h.arrive p _ _ (fun d hm hd => ?_) hc
    split
    · exact h.answer _ _ _ _ _ hd
    · exact h.judge _ _ _ _ hm hd
  · refine h.arrive p _ _ (fun d hm hd => ?_) hc
    split
    · exact h.answer _ _ _ _ _ hd
    · exact h.judge _ _ _ _ hm hd
  · refine h.arrive p _ _ (fun d hm hd => ?_) hc
    split
    · exact h.answer _ _ _ _ _ hd
    · next k hold wait hk =>
      split
      · exact h.handleClaim _ _ _ _ _ _ (claimArgs_ok hk) hd
      · exact h.answer _ _ _ _ _ hd
  · refine h.arrive p _ _ (fun d hm hd => ?_) hc
    split
    · exact h.answer _ _ _ _ _ hd
    · next k hk =>
      split
      · exact h.answer _ _ _ _ _ hd
      · next e he =>
        split
        · exact h.answer _ _ _ _ _ (h.endHold _ _ hd)
        · split
          · exact h.answer _ _ _ _ _ (h.endWait _ _ _ _ (by rw [Ctl.claimOf_key he]; exact he) hd)
          · exact h.answer _ _ _ _ _ hd
  · refine h.arrive p _ _ (fun d hm hd => ?_) hc
    split
    · exact h.answer _ _ _ _ _ hd
    · split
      · exact h.answer _ _ _ _ _ hd
      · next hn =>
        split
        · next hl => exact h.answer _ _ _ _ _ (h.addWatch _ _ _ (by simpa using hn) hl hd)
        · exact h.answer _ _ _ _ _ hd
  · refine h.arrive p _ _ (fun d hm hd => ?_) hc
    split
    · exact h.answer _ _ _ _ _ hd
    · exact h.answer _ _ _ _ _ (h.dropWatch _ _ _ hd)
  · refine h.arrive p _ _ (fun d hm hd => ?_) hc
    split
    · exact h.answer _ _ _ _ _ hd
    · exact h.answer _ _ _ _ _ (h.onPort _ _ _ id hd)
  · refine h.arrive p _ _ (fun d hm hd => ?_) hc
    split
    · exact h.answer _ _ _ _ _ hd
    · exact h.judge _ _ _ _ hm hd
  · refine h.arrive p _ _ (fun d hm hd => ?_) hc
    split
    · exact h.answer _ _ _ _ _ hd
    · exact h.judge _ _ _ _ hm hd
  · refine h.arrive p _ _ (fun d hm hd => ?_) hc
    split
    · exact h.answer _ _ _ _ _ hd
    · exact h.judge _ _ _ _ hm hd
  · refine h.arrive p _ _ (fun d hm hd => ?_) hc
    split
    · exact h.answer _ _ _ _ _ hd
    · exact h.judge _ _ _ _ hm hd
  · unfold Ctl.arriveCollect
    split <;> exact h.onPort _ _ _ id hc
  · exact h.select _ _ (h.onPort _ _ _ id hc)
  · unfold Ctl.arriveResync Ctl.trail
    exact h.onPort _ _ _ id (h.resync _ _ hc)

end ArrivalLaws

/-- The elementary changes, apart from those of the Port Units, keep `P`, and every change of the Port Units does. -/
structure QuietLaws (P : Ctl → Prop) : Prop where
  ports : ∀ (c : Ctl) f, P c → P { c with ports := f }
  endHold : ∀ (c : Ctl) k, P c → P (c.endHold k)
  freezeClaim : ∀ (c : Ctl) k, P c → P (c.freezeClaim k)
  resyncClaims : ∀ (c : Ctl) p, P c → P (c.resyncClaims p)
  deliver : ∀ (c : Ctl) n, P c → P (c.deliver n)
  resyncNotif : ∀ (c : Ctl) p, P c → P (c.onNotif p fun u => { NotifUnit.reset with selection := u.selection })
  abandonDrain : ∀ (c : Ctl) p, P c → P (c.onNotif p NotifUnit.abandonDrain)
  lists : ∀ (c : Ctl) l, P c → P { c with sched := { c.sched with lists := l } }
  searchStart : ∀ (c : Ctl) p, P c → P { c with sched := { c.sched with searchStart := p } }
  compactList : ∀ (c : Ctl) l, P c → P { c with sched := { c.sched with compactList := l } }
  markDiscard : ∀ (c : Ctl) p, P c → P { c with sched := { c.sched with current := c.sched.current.markDiscard p } }
  readOnly : ∀ (c : Ctl) r, c.sched.mode = .ready → r ≠ .none → P c →
    P { c with sched := { c.sched with mode := .readOnly, reason := r } }
  starting : ∀ (c : Ctl) s, c.sched.current = .none → s.activity = some .starting ∨ s.activity = none → P c →
    P (c.setCurrent s)
  rows : ∀ c m, P c → P { c with rows := m }
  dir : ∀ c d, P c → P { c with dir := d }
  agent : ∀ c a, P c → P { c with agent := a }
  op : ∀ (c : Ctl) op, P c → P { c with media := { c.media with op := op } }
  forget : ∀ (c : Ctl) row, P c → P { c with media := c.media.forget row }
  turn : ∀ (c : Ctl) t, P c → P { c with sched := { c.sched with turn := t } }
  waits : ∀ (c : Ctl) w, P c → P { c with sched := { c.sched with waits := w } }
  mark : ∀ (c : Ctl) b, P c → P { c with sched := { c.sched with limitMark := b } }
  stop : ∀ c : Ctl, P c → P (c.setCurrent .none)
  goOn : ∀ (c : Ctl) act, act.plain = true → P c → P (c.setActivity act)
  newPlan : ∀ (c : Ctl) stage plan asker,
    (plan.image.settings = c.conf.settings ∧ plan.image.lock = c.conf.lock) ∨ c.conf.lock ≠ 1 → P c →
    P (c.setActivity (.image stage plan asker))
  samePlan : ∀ (c : Ctl) stage plan asker stage' asker', c.sched.current.activity = some (.image stage plan asker) → P c →
    P (c.setActivity (.image stage' plan asker'))
  written : ∀ (c : Ctl) stage plan asker b, c.sched.current.activity = some (.image stage plan asker) → P c →
    P { c with conf := { c.conf.setFaulted plan.target b with stored := some ⟨plan.target, plan.image⟩ } }
  faulted : ∀ (c : Ctl) row b, P c → P { c with conf := c.conf.setFaulted row b }
  retired : ∀ (c : Ctl) l, P c → P { c with conf := { c.conf with retired := l } }
  active : ∀ (c : Ctl) s, P c → P { c with conf := { c.conf with active := some s } }

namespace QuietLaws

variable {P : Ctl → Prop} (h : QuietLaws P)

include h

theorem onPort {c : Ctl} (p : Port) (g : PortUnit → PortUnit) (hc : P c) : P (c.onPort p g) := h.ports _ _ hc

theorem enter {c : Ctl} (p : Port) (r : Response) (hc : P c) : P (c.enter p r) := h.ports _ _ hc

theorem answerCompact {c : Ctl} (r : CompactReq) (st : Status) (result : List Byte) (hc : P c) :
    P (c.answerCompact r st result) := by
  unfold Ctl.answerCompact
  split
  · exact hc
  · exact h.enter _ _ hc

theorem foldAnswers {f : Ctl → CompactReq → Ctl} (hf : ∀ d r, P d → P (f d r)) (l : List CompactReq) {c : Ctl} (hc : P c) :
    P (l.foldl f c) := by
  induction l generalizing c with
  | nil => exact hc
  | cons r t ih => exact ih (hf _ _ hc)

theorem answerCompactList {c : Ctl} (st : Status) (hc : P c) : P (c.answerCompactList st) := by
  unfold Ctl.answerCompactList
  refine h.compactList _ _ (h.foldAnswers (fun d r hd => ?_) _ hc)
  split <;> exact h.answerCompact _ _ _ hd

theorem enterReadOnly {c : Ctl} {r : Reason} (hr : r ≠ .none) (hc : P c) : P (c.enterReadOnly r) := by
  unfold Ctl.enterReadOnly
  split
  · next hm =>
    have h1 := h.readOnly c r hm hr hc
    simp only
    split
    · exact h.agent _ _ (h.answerCompactList _ h1)
    · exact h1
    · exact h1
  · exact hc
  · exact hc

theorem respond {c : Ctl} (req : Request) (st : Status) (result : List Byte) (hc : P c) : P (c.respond req st result) := by
  unfold Ctl.respond
  split
  · exact h.onPort _ _ hc
  · exact h.enter _ _ hc

theorem endMark {c : Ctl} (hc : P c) : P c.endMark := by
  unfold Ctl.endMark
  split
  · exact h.mark _ _ (h.enterReadOnly (by decide) hc)
  · exact hc

theorem endTurn {c : Ctl} (hc : P c) : P c.endTurn := h.turn _ _ (h.stop _ hc)

theorem resync {c : Ctl} (p : Port) (hc : P c) : P (c.resync p) := by
  unfold Ctl.resync
  refine h.resyncNotif _ _ (h.resyncClaims _ _ ?_)
  have h1 : P (c.resyncPort p) := h.ports _ _ hc
  generalize c.resyncPort p = d at h1
  exact h.compactList _ _ (h.markDiscard _ p (h.waits _ (d.sched.waits.set p none) (h.lists _ (d.sched.lists.set p []) h1)))

theorem releaseHold {c : Ctl} (p : Port) (k : Half) (hc : P c) : P (c.releaseHold p k) := by
  unfold Ctl.releaseHold
  split
  · split
    · exact h.endHold _ _ hc
    · exact hc
  · exact hc

theorem handOn {c : Ctl} (req : Request) (hc : P c) : P (c.handOn req) := by
  unfold Ctl.handOn
  split
  · exact h.endTurn (h.onPort _ _ hc)
  · simp only
    split
    · exact h.endTurn (h.answerCompact _ _ _ hc)
    · exact h.endTurn (h.compactList _ _ hc)

/-- Every change of an array step keeps `P`. -/
theorem steps : StepLaws P where
  rows := h.rows
  dir := h.dir
  agent := h.agent
  op := h.op
  forget := h.forget
  turn := h.turn
  waits := h.waits
  mark := h.mark
  stop := h.stop
  startAgent c hs hc := h.starting c _ hs (Or.inl rfl) hc
  goOn := h.goOn
  newPlan := h.newPlan
  samePlan := h.samePlan
  written := h.written
  faulted := h.faulted
  retired := h.retired
  active := h.active
  disable c p hc := h.abandonDrain _ _ (h.onPort _ _ (h.resync p hc))
  enable c p hc := h.ports _ _ hc
  deliver := h.deliver
  releaseHold c p k hc := h.releaseHold p k hc
  freezeClaim := h.freezeClaim
  emptyStaging c p hc := h.ports _ _ hc
  enterReadOnly c r hr hc := h.enterReadOnly hr hc
  answerCompactList c st hc := h.answerCompactList st hc
  answerTied c n hc := by
    unfold Ctl.answerTied
    exact h.compactList _ _ (h.foldAnswers (fun d r hd => h.answerCompact _ _ _ hd) _ hc)
  answerAllZero c hc := by
    unfold Ctl.answerAllZero
    exact h.compactList _ _ (h.foldAnswers (fun d r hd => h.answerCompact _ _ _ hd) _ hc)
  tie c hc := h.compactList _ _ hc
  respond c req act st result _ hc := h.endTurn (h.endMark (h.respond _ _ _ hc))
  respondReload c req act st result _ hc := h.stop _ (h.respond _ _ _ hc)
  handOn c req act _ hc := h.handOn req hc
  serve c p req rest hs _ hc := by
    have h1 := h.lists c (c.sched.lists.set p rest) hc
    have h2 := h.waits _ (c.sched.waits.set p none) h1
    have h3 := h.searchStart _ (nextPort p) h2
    refine h.starting _ (.port req .starting) ?_ (Or.inl rfl) h3
    exact hs

/-- The changes of an arrival keep `P` when those of the notices and of the claim table do. -/
theorem arrivals
    (addWatch : ∀ (c : Ctl) p k, k ∉ (c.notif p).watch → (c.notif p).watch.length < Config.watchLimit → P c →
      P (c.onNotif p fun u => u.addWatch k))
    (dropWatch : ∀ (c : Ctl) p k, P c → P (c.onNotif p fun u => u.dropWatch k))
    (select : ∀ (c : Ctl) p, P c → P (c.onNotif p NotifUnit.select))
    (endWait : ∀ (c : Ctl) e p st, c.claimOf e.key = some e → P c → P (c.endWait e p st))
    (handleClaim : ∀ (c : Ctl) p tag k hold wait, keyOk k = true → P c → P (c.handleClaim p tag k hold wait)) :
    ArrivalLaws P where
  onPort c p g _ hc := h.onPort p g hc
  addWatch := addWatch
  dropWatch := dropWatch
  select := select
  setRequests c p l _ hc := h.lists c (c.sched.lists.set p l) hc
  setWait c p w hc := h.waits c (c.sched.waits.set p w) hc
  endHold := h.endHold
  endWait := endWait
  handleClaim := handleClaim
  resync c p hc := h.resync p hc
  schedule c hc := h.steps.schedule hc

end QuietLaws

/-- The changes that mount makes keep `P`. -/
structure MountLaws (P : Ctl → Prop) : Prop where
  op : ∀ (c : Ctl) op, P c → P { c with media := { c.media with op := op } }
  mount : ∀ (c : Ctl) m, P c → P { c with mount := m }
  loadConf : ∀ (c : Ctl) choice, P c → P (c.loadConf choice)
  finish : ∀ (c : Ctl) ring candidates fragments, P c → P (c.finishMount ring candidates fragments)

namespace MountLaws

variable {P : Ctl → Prop} (h : MountLaws P)

include h

theorem mountAsk {c : Ctl} (row page : Nat) (phase : MountPhase) (hc : P c) : P (c.mountAsk row page phase) :=
  h.mount _ _ (h.op _ (.reading row page) hc)

theorem scanNextRow {c : Ctl} (st : ScanState) (hc : P c) : P (c.scanNextRow st) := by
  unfold Ctl.scanNextRow
  split
  · exact h.mountAsk _ _ _ hc
  · exact h.finish _ _ _ _ hc

theorem scanMount {c : Ctl} (st : ScanState) (data : Page) (hc : P c) : P (c.scanMount st data) := by
  unfold Ctl.scanMount
  simp only
  split
  · exact h.scanNextRow _ hc
  · split
    · exact h.mountAsk _ _ _ hc
    · split
      · exact h.scanNextRow _ hc
      · exact h.mountAsk _ _ _ hc

theorem surveyFrom {c : Ctl} (row : Nat) (found : List (Nat × Word)) (hc : P c) : P (c.surveyFrom row found) := by
  unfold Ctl.surveyFrom
  split
  · exact h.mountAsk _ _ _ hc
  · exact h.scanNextRow _ hc

/-- A page read of mount keeps `P`. -/
theorem mountRead {c : Ctl} (data : Page) (hc : P c) : P (c.mountRead data) := by
  unfold Ctl.mountRead
  split
  · exact hc
  · exact h.mountAsk _ _ _ hc
  · exact h.surveyFrom _ _ (h.loadConf _ _ hc)
  · exact h.surveyFrom _ _ hc
  · exact h.scanMount _ _ hc
  · exact hc

end MountLaws

/-- The events of a port's lines, where `P` says nothing of the Port Units. -/
theorem select_keeps {P : Ctl → Prop} (h : PortLaw P) {c : Ctl} (p : Port) (hc : P c) :
    P (c.selectFalls p) := by
  unfold Ctl.selectFalls
  split <;> exact h _ _ _ id hc

theorem deselect_keeps {P : Ctl → Prop} (h : PortLaw P)
    (hn : ∀ (c : Ctl) p, P c → P (c.onNotif p NotifUnit.abandonDrain)) {c : Ctl} (p : Port) (hc : P c) :
    P (c.selectRises p) := by
  unfold Ctl.selectRises
  simp only
  split
  · exact h _ _ _ id (h _ _ _ id hc)
  · exact h _ _ _ id (hn _ _ hc)
  all_goals exact h _ _ _ id hc

theorem readoutDone_keeps {P : Ctl → Prop} (h : PortLaw P)
    (hn : ∀ (c : Ctl) p, P c → P (c.onNotif p NotifUnit.finishDrain)) {c : Ctl} (p : Port) (kind : ReadoutKind) (hc : P c) :
    P (c.readoutDone p kind) := by
  unfold Ctl.readoutDone
  split
  · unfold Ctl.collectDone Ctl.trail
    exact h _ _ _ id (h _ _ _ id hc)
  · unfold Ctl.drainDone Ctl.trail
    exact h _ _ _ id (hn _ _ hc)

/-- An invariant that says nothing of the Port Units is kept by every event when the changes of steps, arrivals and mount keep
it. -/
theorem eventLaws_of {P : Ctl → Prop} (hs : StepLaws P) (ha : ArrivalLaws P)
    (hm : ∀ (c : Ctl) data, c.sched.mode = .mounting → P c → P (c.mountRead data))
    (hrelease : ∀ c : Ctl, P c → P ({ c with inReset := false }.beginMount))
    (habandon : ∀ (c : Ctl) p, P c → P (c.onNotif p NotifUnit.abandonDrain))
    (hfinish : ∀ (c : Ctl) p, P c → P (c.onNotif p NotifUnit.finishDrain))
    (hcount : ∀ (c : Ctl) row n, n ≤ Config.disturbLimit → P c → P { c with media := c.media.setCount row n }) :
    EventLaws P P where
  release := hrelease
  select _ _ hc := select_keeps ha.onPort _ hc
  deselect _ _ hc := deselect_keeps ha.onPort habandon _ hc
  discard _ _ _ _ hc := ha.onPort _ _ _ id hc
  receive _ _ _ _ _ hc := ha.onPort _ _ _ id hc
  arrive _ _ _ _ _ _ _ hc := ha.arriveOpcode _ _ _ _ hc
  readout _ _ _ _ _ _ _ hc := ha.onPort _ _ _ id hc
  readoutDone _ _ _ _ _ hc := readoutDone_keeps ha.onPort hfinish _ _ hc
  holdEnds _ _ _ _ hc := ha.endHold _ _ hc
  waitEnds _ _ _ _ he _ hc := ha.endWait _ _ _ _ (by rw [Ctl.claimOf_key he]; exact he) hc
  handData c data hc := by
    have h1 : P c.mediaIdle := hs.op _ _ hc
    unfold Ctl.handData
    split
    · next hmode => exact hm _ _ hmode h1
    · exact hs.schedule (hs.readEnded _ h1)
  pulseGoesOn c row n op hn hc := hs.op _ op (hcount c row n hn hc)
  pulseEnds c row n op o hn hc := hs.schedule (hs.programEnded o (hs.op _ .idle (hs.op _ op (hcount c row n hn hc))))
  programEnds c o hc := hs.schedule (hs.programEnded o (hs.op _ .idle hc))
  erased c row hc := hs.schedule (hs.eraseEnded true (hs.op _ .idle (hcount c row 0 (Nat.zero_le _) hc)))
  eraseFails c hc := hs.schedule (hs.eraseEnded false (hs.op _ .idle hc))
  eraseGoesOn c op hc := hs.op c op hc

end Sys2Proof.Machine
end

