-- ==== Sys2Proof/Laws/RowTable.lean ====
section
/-! SUPPORT. Laws of the row table and the Directory's page counts (R26, R27, R29): what a change of one row's state leaves of the
Row Manager's law, and what a change of one entry makes of the live pages of each row. -/

namespace Sys2Proof.Machine

/-! ### Row states -/

@[simp] theorem RowState.toDead_inRing (q : Nat) (st : RowState) : (st.toDead q).inRing = st.inRing := by cases st <;> rfl
@[simp] theorem RowState.toDead_isHead (q : Nat) (st : RowState) : (st.toDead q).isHead = st.isHead := by cases st <;> rfl
@[simp] theorem RowState.toDead_isClosed (q : Nat) (st : RowState) : (st.toDead q).isClosed = st.isClosed := by cases st <;> rfl
@[simp] theorem RowState.toDead_openNumber (q : Nat) (st : RowState) : (st.toDead q).openNumber = st.openNumber := by
  cases st <;> rfl
@[simp] theorem RowState.toLive_inRing (q : Nat) (st : RowState) : (st.toLive q).inRing = st.inRing := by cases st <;> rfl
@[simp] theorem RowState.toLive_isHead (q : Nat) (st : RowState) : (st.toLive q).isHead = st.isHead := by cases st <;> rfl
@[simp] theorem RowState.toLive_isClosed (q : Nat) (st : RowState) : (st.toLive q).isClosed = st.isClosed := by cases st <;> rfl
@[simp] theorem RowState.toLive_openNumber (q : Nat) (st : RowState) : (st.toLive q).openNumber = st.openNumber := by
  cases st <;> rfl
@[simp] theorem RowState.close_inRing (st : RowState) : st.close.inRing = st.inRing := by cases st <;> rfl
@[simp] theorem RowState.close_isHead (st : RowState) : st.close.isHead = false := by cases st <;> rfl
@[simp] theorem RowState.close_openNumber (st : RowState) : st.close.openNumber = st.openNumber := by cases st <;> rfl
@[simp] theorem RowState.allocate_inRing (p : Nat) (st : RowState) : (st.allocate p).inRing = st.inRing := by cases st <;> rfl
@[simp] theorem RowState.allocate_isHead (p : Nat) (st : RowState) : (st.allocate p).isHead = st.isHead := by cases st <;> rfl
@[simp] theorem RowState.allocate_isClosed (p : Nat) (st : RowState) : (st.allocate p).isClosed = st.isClosed := by
  cases st <;> rfl
@[simp] theorem RowState.allocate_openNumber (p : Nat) (st : RowState) : (st.allocate p).openNumber = st.openNumber := by
  cases st <;> rfl

theorem RowState.inRing_of_isHead {st : RowState} (h : st.isHead = true) : st.inRing = true := by
  cases st <;> first | rfl | cases h

theorem RowState.inRing_of_isClosed {st : RowState} (h : st.isClosed = true) : st.inRing = true := by
  cases st <;> first | rfl | cases h

theorem RowState.isHead_of_isClosed {st : RowState} (h : st.isClosed = true) : st.isHead = false := by
  cases st <;> first | rfl | cases h

theorem RowState.ne_system_of_inRing {st : RowState} (h : st.inRing = true) : st ≠ .system := by
  rintro rfl
  cases h

/-- A page that no entry names any more moves from live to dead. -/
theorem RowState.counted_toDead {st : RowState} {live q : Nat} (h : st.counted (live + q)) : (st.toDead q).counted live := by
  cases st <;> simp only [RowState.counted, RowState.toDead] at h ⊢ <;> omega

/-- A page that an entry now names moves from dead to live. -/
theorem RowState.counted_toLive {st : RowState} {live q : Nat} (h : st.counted live) (hr : st.inRing = true)
    (hq : q ≤ st.deadPages) : (st.toLive q).counted (live + q) := by
  cases st <;> simp only [RowState.counted, RowState.toLive, RowState.deadPages, RowState.inRing] at h hr hq ⊢ <;> omega

theorem RowState.counted_close {st : RowState} {live : Nat} (h : st.counted live) (hh : st.isHead = true) :
    st.close.counted live := by
  cases st <;> simp only [RowState.counted, RowState.close, RowState.isHead] at h hh ⊢ <;> omega

theorem RowState.counted_allocate {st : RowState} {live p : Nat} (h : st.counted live) (hh : st.isHead = true)
    (hp : p ≤ st.freePages) : (st.allocate p).counted live := by
  cases st <;> simp only [RowState.counted, RowState.allocate, RowState.isHead, RowState.freePages] at h hh hp ⊢ <;>
    omega

theorem RowState.deadPages_allocate {st : RowState} {p : Nat} (hh : st.isHead = true) : p ≤ (st.allocate p).deadPages := by
  cases st <;> simp only [RowState.allocate, RowState.isHead, RowState.deadPages] at hh ⊢ <;> first | omega | cases hh

theorem RowState.deadPages_toDead (q : Nat) (st : RowState) : st.deadPages ≤ (st.toDead q).deadPages := by
  cases st <;> simp [RowState.toDead, RowState.deadPages]

/-- A row that is no ring row has no entry's page. -/
theorem RowState.counted_out {st : RowState} {live : Nat} (h : st.counted live) (hr : st.inRing = false) : live = 0 := by
  cases st <;> simp_all [RowState.counted, RowState.inRing]

/-! ### One row's state replaced -/

theorem RowMgr.lt_of_state {m : RowMgr} {r : Nat} (h : m.state r ≠ .system) : r < m.table.length := by
  refine Nat.lt_of_not_le fun hle => h ?_
  simp [RowMgr.state, RowMgr.entry, List.getD_eq_getElem?_getD, List.getElem?_eq_none hle]

theorem RowMgr.state_setState {m : RowMgr} {r : Nat} (st : RowState) (h : m.state r ≠ .system) (r' : Nat) :
    (m.setState r st).state r' = if r' = r then st else m.state r' := by
  have hlt := RowMgr.lt_of_state h
  simp only [RowMgr.state, RowMgr.entry, RowMgr.setState, List.getD_eq_getElem?_getD, List.getElem?_modify]
  by_cases hr : r' = r
  · subst hr
    simp [List.getElem?_eq_getElem hlt]
  · simp [hr, Ne.symm hr]

theorem RowMgr.state_setState_same {m : RowMgr} {r : Nat} (st : RowState) (h : m.state r ≠ .system) :
    (m.setState r st).state r = st := by rw [RowMgr.state_setState st h, if_pos rfl]

theorem RowMgr.state_setState_other {m : RowMgr} {r r' : Nat} (st : RowState) (h : m.state r ≠ .system) (hr : r' ≠ r) :
    (m.setState r st).state r' = m.state r' := by rw [RowMgr.state_setState st h, if_neg hr]

@[simp] theorem RowMgr.setState_length (m : RowMgr) (r : Nat) (st : RowState) :
    (m.setState r st).table.length = m.table.length := by simp [RowMgr.setState]

@[simp] theorem RowMgr.markSuspect_length (m : RowMgr) (r : Nat) : (m.markSuspect r).table.length = m.table.length := by
  simp [RowMgr.markSuspect]

@[simp] theorem RowMgr.state_markSuspect (m : RowMgr) (r r' : Nat) : (m.markSuspect r).state r' = m.state r' := by
  simp only [RowMgr.state, RowMgr.entry, RowMgr.markSuspect, List.getD_eq_getElem?_getD, List.getElem?_modify]
  by_cases hr : r = r'
  · subst hr
    cases m.table[r]? <;> simp
  · simp [hr]

/-- A row whose state is SYSTEM, or that the table does not have, is not changed into another row's state. -/
theorem RowMgr.setState_system {m : RowMgr} {r : Nat} (h : m.table.length ≤ r) (st : RowState) : m.setState r st = m := by
  simp [RowMgr.setState, List.modify_eq_self h]

/-! ### The law after one row's change -/

/-- The law speaks of the states, the ring and the open counter. -/
theorem RowMgr.lawful_congr {m m' : RowMgr} {dir : List DirEntry} (h : m.lawful dir) (hs : ∀ r, m'.state r = m.state r)
    (hr : m'.ring = m.ring) (ho : m'.openCounter = m.openCounter) : m'.lawful dir := by
  obtain ⟨h1, h2, h3, h4, h5⟩ := h
  refine ⟨?_, ?_, ?_, ?_, ?_⟩
  · simpa only [hs] using h1
  · simpa only [hs, hr] using h2
  · simpa only [RowMgr.place, hs, hr] using h3
  · simpa only [hs, hr] using h4
  · simpa only [hs, hr, ho] using h5

/-- One ring row's counts change, and it stays where it is in the ring. -/
theorem RowMgr.lawful_setState {m : RowMgr} {dir dir' : List DirEntry} {r : Nat} {st : RowState} (h : m.lawful dir)
    (hsys : m.state r ≠ .system) (hin : st.inRing = (m.state r).inRing)
    (hhead : st.isHead = true → (m.state r).isHead = true) (hno : st.openNumber = (m.state r).openNumber)
    (hc : st.counted (livePages dir' r)) (ho : ∀ r', r' ≠ r → livePages dir' r' = livePages dir r') :
    (m.setState r st).lawful dir' := by
  obtain ⟨h1, h2, h3, h4, h5⟩ := h
  have hs := RowMgr.state_setState (m := m) st hsys
  have hno' : ∀ r', ((m.setState r st).state r').openNumber = (m.state r').openNumber := by
    intro r'
    rw [hs]
    split
    · next e => rw [e, hno]
    · rfl
  refine ⟨fun r' => ?_, fun r' => ?_, ?_, fun r' hr' => ?_, fun r' hr' => ?_⟩
  · rw [hs]
    split
    · next e => rw [e]; exact hc
    · next e => rw [ho r' e]; exact h1 r'
  · rw [hs]
    split
    · next e => rw [e, hin]; exact h2 r
    · exact h2 r'
  · simp only [RowMgr.place, hno']
    exact h3
  · rw [hs] at hr'
    split at hr'
    · next e => exact h4 r' (e ▸ hhead hr')
    · exact h4 r' hr'
  · rw [hno']
    exact h5 r' hr'

/-- A row that is no ring row takes another state outside the ring. -/
theorem RowMgr.lawful_setState_out {m : RowMgr} {dir : List DirEntry} {r : Nat} {st : RowState} (h : m.lawful dir)
    (hsys : m.state r ≠ .system) (hout : (m.state r).inRing = false) (hst : st.inRing = false) :
    (m.setState r st).lawful dir := by
  have hl := RowState.counted_out (h.1 r) hout
  refine RowMgr.lawful_setState h hsys (hst.trans hout.symm) ?_ ?_ ?_ fun _ _ => rfl
  · intro hh
    rw [RowState.inRing_of_isHead hh] at hst
    cases hst
  · have h0 : ∀ x : RowState, x.inRing = false → x.openNumber = 0 := by intro x hx; cases x <;> first | rfl | cases hx
    rw [h0 _ hst, h0 _ hout]
  · rw [hl]
    cases st <;> first | rfl | cases hst

/-! ### Live pages -/

theorem livePages_perm {l l' : List DirEntry} (h : l.Perm l') (r : Nat) : livePages l r = livePages l' r :=
  ((h.filter _).map _).sum_eq

theorem livePages_cons (e : DirEntry) (l : List DirEntry) (r : Nat) :
    livePages (e :: l) r = livePages l r + if e.row = r then e.pages else 0 := by
  unfold livePages
  by_cases h : e.row = r <;> simp [h, Nat.add_comm]

theorem pagesFor_pos (n : Nat) : 1 ≤ pagesFor n := by
  unfold pagesFor
  omega

theorem pagesFor_le {n : Nat} (h : n ≤ Config.payloadLimit) : pagesFor n ≤ 9 := by
  have h' : n ≤ 512 := h
  unfold pagesFor
  omega

/-- A row without live pages is named by no entry. -/
theorem livePages_zero {dir : List DirEntry} (hd : dirLaw dir) {r : Nat} (h : livePages dir r = 0) : ∀ e ∈ dir, e.row ≠ r := by
  intro e he hr
  have : e.pages ≤ livePages dir r := by
    unfold livePages
    exact List.single_le_sum (by simp) _ (List.mem_map.2 ⟨e, List.mem_filter.2 ⟨he, by simpa using hr⟩, rfl⟩)
  have := pagesFor_pos e.length
  rw [(hd.2.2 e he).2] at *
  omega

theorem livePages_none {dir : List DirEntry} {r : Nat} (h : ∀ e ∈ dir, e.row ≠ r) : livePages dir r = 0 := by
  unfold livePages
  rw [List.filter_eq_nil_iff.2 (by simpa using h)]
  rfl

section Sorted

variable {α : Type} (k : α → Nat)

/-- In an ascending table the entry put in comes before the entries of other keys, up to order. -/
theorem insertBy_perm {x : α} {l : List α} (h : l.Pairwise fun a b => k a < k b) :
    (insertBy k x l).Perm (x :: l.filter fun y => k y ≠ k x) := by
  induction l with
  | nil => simp [insertBy]
  | cons z t ih =>
    rw [List.pairwise_cons] at h
    unfold insertBy
    split
    · next hlt =>
      rw [List.filter_eq_self.2]
      intro y hy
      rcases List.mem_cons.1 hy with rfl | hy
      · simpa using Nat.ne_of_gt hlt
      · simpa using Nat.ne_of_gt (Nat.lt_trans hlt (h.1 y hy))
    · split
      · next he =>
        rw [List.filter_cons_of_neg (by simp [he]), List.filter_eq_self.2]
        intro y hy
        simpa [he] using Nat.ne_of_gt (h.1 y hy)
      · next hne =>
        rw [List.filter_cons_of_pos (by simpa using Ne.symm hne)]
        exact ((ih h.2).cons z).trans (List.Perm.swap _ _ _)

/-- In an ascending table an entry and the entries of other keys are the table, up to order. -/
theorem perm_of_mem {x : α} {l : List α} (h : l.Pairwise fun a b => k a < k b) (hx : x ∈ l) :
    l.Perm (x :: l.filter fun y => k y ≠ k x) := by
  induction l with
  | nil => cases hx
  | cons z t ih =>
    rw [List.pairwise_cons] at h
    rcases List.mem_cons.1 hx with rfl | hx
    · rw [List.filter_cons_of_neg (by simp), List.filter_eq_self.2]
      intro y hy
      simpa using Nat.ne_of_gt (h.1 y hy)
    · rw [List.filter_cons_of_pos (by simpa using Nat.ne_of_lt (h.1 x hx))]
      exact ((ih h.2 hx).cons z).trans (List.Perm.swap _ _ _)

theorem insertBy_subperm (x : α) (l : List α) : (insertBy k x l).Subperm (x :: l) := by
  induction l with
  | nil => simp [insertBy]
  | cons z t ih =>
    unfold insertBy
    split
    · exact List.Subperm.refl _
    · split
      · exact ((List.subperm_cons x).2 (List.sublist_cons_self z t).subperm)
      · exact ((List.subperm_cons z).2 ih).trans (List.Perm.swap _ _ _).subperm

end Sorted

/-- The entries of other keys. -/
def otherKeys (dir : List DirEntry) (k : Half) : List DirEntry := dir.filter fun e => e.key ≠ k

theorem otherKeys_eq (dir : List DirEntry) (k : Half) : otherKeys dir k = dir.filter fun y => y.key.toNat ≠ k.toNat := by
  unfold otherKeys
  congr 1
  funext e
  simp [BitVec.toNat_inj]

theorem livePages_of_mem {dir : List DirEntry} (hd : dirLaw dir) {e : DirEntry} (he : e ∈ dir) (r : Nat) :
    livePages dir r = livePages (otherKeys dir e.key) r + if e.row = r then e.pages else 0 := by
  rw [livePages_perm (perm_of_mem (fun x : DirEntry => x.key.toNat) hd.2.1 he), livePages_cons, otherKeys_eq]

theorem livePages_insert {dir : List DirEntry} (hd : dirLaw dir) (e : DirEntry) (r : Nat) :
    livePages (insertBy (fun x => x.key.toNat) e dir) r
      = livePages (otherKeys dir e.key) r + if e.row = r then e.pages else 0 := by
  rw [livePages_perm (insertBy_perm (fun x : DirEntry => x.key.toNat) hd.2.1), livePages_cons, otherKeys_eq]

theorem otherKeys_of_absent {dir : List DirEntry} {k : Half} (h : ∀ e ∈ dir, e.key ≠ k) : otherKeys dir k = dir :=
  List.filter_eq_self.2 (by simpa using h)

theorem dirLaw_otherKeys {dir : List DirEntry} (hd : dirLaw dir) (k : Half) : dirLaw (otherKeys dir k) :=
  ⟨Nat.le_trans (List.length_filter_le _ _) hd.1, hd.2.1.filter _, fun e he => hd.2.2 e (List.mem_of_mem_filter he)⟩

theorem dirLaw_insert {dir : List DirEntry} (hd : dirLaw dir) {e : DirEntry} (hl : e.length ≤ Config.payloadLimit)
    (hp : e.pages = pagesFor e.length) (hr : (∃ x ∈ dir, x.key = e.key) ∨ dir.length < Config.directoryLimit) :
    dirLaw (insertBy (fun x => x.key.toNat) e dir) := by
  refine ⟨?_, insertBy_pairwise _ hd.2.1, fun x hx => ?_⟩
  · rcases hr with ⟨x, hx, hk⟩ | hr
    · rw [length_insertBy_old _ hd.2.1 ⟨x, hx, by rw [hk]⟩]
      exact hd.1
    · exact Nat.le_trans (length_insertBy_le _ _ _) hr
  · rcases mem_insertBy _ hx with rfl | hx
    · exact ⟨hl, hp⟩
    · exact hd.2.2 x hx

/-! ### The head -/

theorem RowMgr.headRow_isHead {m : RowMgr} {r : Nat} (h : m.headRow = some r) : (m.state r).isHead = true := by
  unfold RowMgr.headRow at h
  rw [List.findIdx?_eq_some_iff_getElem] at h
  obtain ⟨hlt, hh, _⟩ := h
  simpa [RowMgr.state, RowMgr.entry, List.getD_eq_getElem?_getD, List.getElem?_eq_getElem hlt] using hh

theorem RowMgr.headless_of_headRow {m : RowMgr} (h : m.headRow = none) : m.headless := by
  intro r
  unfold RowMgr.headRow at h
  rw [List.findIdx?_eq_none_iff] at h
  by_cases hlt : r < m.table.length
  · have := h m.table[r] (List.getElem_mem hlt)
    simpa [RowMgr.state, RowMgr.entry, List.getD_eq_getElem?_getD, List.getElem?_eq_getElem hlt] using this
  · simp [RowMgr.state, RowMgr.entry, List.getD_eq_getElem?_getD, List.getElem?_eq_none (Nat.le_of_not_lt hlt),
      RowState.isHead]

/-- At most one row is HEAD (R29). -/
theorem RowMgr.head_unique {m : RowMgr} {dir : List DirEntry} (h : m.lawful dir) {r r' : Nat}
    (hr : (m.state r).isHead = true) (hr' : (m.state r').isHead = true) : r = r' :=
  Option.some.inj ((h.2.2.2.1 r hr).symm.trans (h.2.2.2.1 r' hr'))

theorem RowMgr.lawful_closeHead {m : RowMgr} {dir : List DirEntry} (h : m.lawful dir) :
    m.closeHead.lawful dir ∧ m.closeHead.headless ∧ m.closeHead.table.length = m.table.length ∧ m.closeHead.ring = m.ring
      ∧ m.closeHead.openCounter = m.openCounter
      ∧ ∀ r, (m.state r).isHead = false → m.closeHead.state r = m.state r := by
  unfold RowMgr.closeHead
  cases hh : m.headRow with
  | none => exact ⟨h, RowMgr.headless_of_headRow hh, rfl, rfl, rfl, fun _ _ => rfl⟩
  | some r =>
    have hr := RowMgr.headRow_isHead hh
    have hin := RowState.inRing_of_isHead hr
    have hsys := RowState.ne_system_of_inRing hin
    have hs := RowMgr.state_setState (m.state r).close hsys
    refine ⟨RowMgr.lawful_setState h hsys (by simp) (by simp) (by simp) (RowState.counted_close (h.1 r) hr) fun _ _ => rfl,
      fun r' => ?_, by simp, rfl, rfl, fun r' hr' => ?_⟩
    · show ((m.setState r (m.state r).close).state r').isHead = false
      rw [hs]
      split
      · simp
      · next hne =>
        cases hx : (m.state r').isHead with
        | false => rfl
        | true => exact absurd (RowMgr.head_unique h hx hr) hne
    · show (m.setState r (m.state r).close).state r' = _
      rw [hs, if_neg]
      rintro rfl
      rw [hr] at hr'
      cases hr'

theorem RowMgr.nodup_ring {m : RowMgr} {dir : List DirEntry} (h : m.lawful dir) : m.ring.Nodup :=
  h.2.2.1.imp fun {a b} hab => by
    rintro rfl
    exact absurd hab (Nat.lt_irrefl _)

/-- A free row becomes the head (R35, step 3). -/
theorem RowMgr.lawful_becomeHead {m : RowMgr} {dir : List DirEntry} (h : m.lawful dir) (hd : m.headless)
    (hlen : m.table.length = Config.rowCount) {row : Nat} {n : Word} (hrow : m.state row = .freeReady)
    (hn : ∀ r ∈ m.ring, (m.state r).openNumber < n.toNat) (ho : n.toNat < m.openCounter.toNat) :
    (m.becomeHead row n).lawful dir := by
  obtain ⟨h1, h2, h3, h4, h5⟩ := h
  have hsys : m.state row ≠ .system := by rw [hrow]; exact fun h => by cases h
  have hs : ∀ r, (m.becomeHead row n).state r = if r = row then .head n 0 0 1 else m.state r :=
    RowMgr.state_setState (.head n 0 0 1) hsys
  have hout : row ∉ m.ring := by
    intro hm
    have := (h2 row).1 hm
    rw [hrow] at this
    cases this
  have hne : ∀ r ∈ m.ring, r ≠ row := fun r hr he => hout (he ▸ hr)
  have hring : (m.becomeHead row n).ring = m.ring ++ [row] := rfl
  refine ⟨fun r => ?_, fun r => ?_, ?_, fun r hr => ?_, fun r hr => ?_⟩
  · rw [hs]
    split
    · next e =>
      have := RowState.counted_out (h1 row) (by rw [hrow]; rfl)
      rw [e]
      simp [RowState.counted, this]
    · exact h1 r
  · rw [hring, hs]
    split
    · next e => simp [e, RowState.inRing]
    · next e => simpa [e] using h2 r
  · rw [hring, List.pairwise_append]
    refine ⟨h3.imp_of_mem fun {a b} ha hb hab => ?_, by simp, fun a ha b hb => ?_⟩
    · simpa only [RowMgr.place, hs, if_neg (hne a ha), if_neg (hne b hb)] using hab
    · rw [List.mem_singleton.1 hb]
      have hlt : a < Config.rowCount :=
        hlen ▸ RowMgr.lt_of_state (RowState.ne_system_of_inRing ((h2 a).1 ha))
      have := hn a ha
      simp only [RowMgr.place, hs, if_neg (hne a ha), if_pos]
      show _ < n.toNat * Config.rowCount + row
      have hc : Config.rowCount = 256 := rfl
      rw [hc] at hlt ⊢
      omega
  · rw [hs] at hr
    split at hr
    · next e => rw [hring, e, List.getLast?_append]; rfl
    · rw [hd r] at hr
      cases hr
  · left
    rw [hring, List.mem_append, List.mem_singleton] at hr
    show _ < m.openCounter.toNat
    rw [hs]
    split
    · exact ho
    · next e =>
      rcases hr with hr | hr
      · exact Nat.lt_trans (hn r hr) ho
      · exact absurd hr e

/-- The tail leaves the ring, no entry naming it (R134, step 1). -/
theorem RowMgr.lawful_leaveRing {m : RowMgr} {dir : List DirEntry} (h : m.lawful dir) {row : Nat} {st : RowState}
    (hcl : (m.state row).isClosed = true) (hst : st.inRing = false)
    (hl : livePages dir row = 0) : ((m.setState row st).leaveRing row).lawful dir := by
  have hnd := RowMgr.nodup_ring h
  obtain ⟨h1, h2, h3, h4, h5⟩ := h
  have hsys := RowState.ne_system_of_inRing (RowState.inRing_of_isClosed hcl)
  have hs : ∀ r, ((m.setState row st).leaveRing row).state r = if r = row then st else m.state r :=
    RowMgr.state_setState st hsys
  have hring : ((m.setState row st).leaveRing row).ring = m.ring.filter fun r => r ≠ row := rfl
  refine ⟨fun r => ?_, fun r => ?_, ?_, fun r hr => ?_, fun r hr => ?_⟩
  · rw [hs]
    split
    · next e =>
      rw [e, hl]
      cases st <;> first | rfl | cases hst
    · exact h1 r
  · rw [hring, List.mem_filter, hs]
    split
    · next e => simp [e, hst]
    · next e => simpa [e] using h2 r
  · rw [hring]
    refine (h3.filter _).imp_of_mem fun {a b} ha hb hab => ?_
    have ha' : a ≠ row := by simpa using (List.mem_filter.1 ha).2
    have hb' : b ≠ row := by simpa using (List.mem_filter.1 hb).2
    simpa only [RowMgr.place, hs, if_neg ha', if_neg hb'] using hab
  · rw [hs] at hr
    split at hr
    · rw [RowState.inRing_of_isHead hr] at hst
      cases hst
    · next hne =>
      have hlast := h4 r hr
      rw [hring]
      obtain ⟨l, hl⟩ := List.getLast?_eq_some_iff.1 hlast
      rw [hl, List.filter_append]
      simp [hne]
  · rw [hring, List.mem_filter] at hr
    have hne : r ≠ row := by simpa using hr.2
    rw [hs, if_neg hne]
    exact h5 r hr.1

/-! ### Usable rows -/

theorem countP_table (p : RowState → Bool) (m : RowMgr) :
    ((List.range m.table.length).filter fun r => p (m.state r)).length = m.table.countP fun e => p e.state := by
  have ht : m.table = (List.range m.table.length).map m.entry := by
    apply List.ext_getElem
    · simp
    · intro i h1 h2
      simp [RowMgr.entry, List.getD_eq_getElem?_getD, List.getElem?_eq_getElem h1]
  conv => rhs; rw [ht]
  rw [List.countP_map, List.countP_eq_length_filter]
  rfl

/-- The ring lists as many rows as are HEAD or CLOSED. -/
theorem RowMgr.ring_length {m : RowMgr} {dir : List DirEntry} (h : m.lawful dir) :
    m.ring.length = m.table.countP fun e => e.state.inRing := by
  rw [← countP_table RowState.inRing m]
  refine List.Perm.length_eq ((List.perm_ext_iff_of_nodup (RowMgr.nodup_ring h) (List.nodup_range.filter _)).2 fun r => ?_)
  rw [h.2.1 r, List.mem_filter, List.mem_range]
  exact ⟨fun hr => ⟨RowMgr.lt_of_state (RowState.ne_system_of_inRing hr), hr⟩, And.right⟩

/-- The ring length plus F is the number of usable rows (R30). -/
theorem RowMgr.ring_free_usable {m : RowMgr} {dir : List DirEntry} (h : m.lawful dir) : m.ring.length + m.free = m.usable := by
  rw [RowMgr.ring_length h, RowMgr.free, RowMgr.usable]
  generalize m.table = l
  induction l with
  | nil => rfl
  | cons e t ih =>
    have he : (if e.state.inRing = true then 1 else 0) + (if e.state.isFree = true then 1 else 0)
        = if e.state.isUsable = true then 1 else 0 := by cases e.state <;> rfl
    simp only [List.countP_cons]
    omega

/-! ### One entry's change (Table 10) -/

theorem RowState.deadPages_toLive_ge (q : Nat) (st : RowState) : st.deadPages - q ≤ (st.toLive q).deadPages := by
  cases st <;> simp [RowState.toLive, RowState.deadPages]

/-- An entry's pages die: what the row table then counts are the other entries. -/
theorem RowMgr.lawful_pagesDie {m : RowMgr} {dir : List DirEntry} (hd : dirLaw dir) (h : m.lawful dir) {e : DirEntry}
    (he : e ∈ dir) : (m.pagesDie e.row e.pages).lawful (otherKeys dir e.key)
      ∧ ∀ r, (m.pagesDie e.row e.pages).state r = if r = e.row then (m.state r).toDead e.pages else m.state r := by
  have hin : (m.state e.row).inRing = true := by
    cases hx : (m.state e.row).inRing with
    | true => rfl
    | false => exact absurd rfl (livePages_zero hd (RowState.counted_out (h.1 e.row) hx) e he)
  have hsys := RowState.ne_system_of_inRing hin
  have hl := livePages_of_mem hd he
  refine ⟨RowMgr.lawful_setState h hsys (by simp) (by simp) (by simp) (RowState.counted_toDead ?_) fun r hr => ?_, fun r => ?_⟩
  · have := h.1 e.row
    rwa [hl e.row, if_pos rfl] at this
  · rw [hl r, if_neg (Ne.symm hr), Nat.add_zero]
  · rw [RowMgr.pagesDie, RowMgr.state_setState _ hsys]
    split
    · next hr => rw [hr]
    · rfl

/-- A new entry's pages become live in a ring row that counts them as dead. -/
theorem RowMgr.lawful_pagesLive {m : RowMgr} {dir dir' : List DirEntry} (h : m.lawful dir) {row q : Nat}
    (hin : (m.state row).inRing = true) (hq : q ≤ (m.state row).deadPages)
    (hl : ∀ r, livePages dir' r = livePages dir r + if row = r then q else 0) :
    (m.pagesLive row q).lawful dir'
      ∧ ∀ r, (m.pagesLive row q).state r = if r = row then (m.state r).toLive q else m.state r := by
  have hsys := RowState.ne_system_of_inRing hin
  refine ⟨RowMgr.lawful_setState h hsys (by simp) (by simp) (by simp) ?_ fun r hr => ?_, fun r => ?_⟩
  · rw [hl row, if_pos rfl]
    exact RowState.counted_toLive (h.1 row) hin hq
  · rw [hl r, if_neg (Ne.symm hr), Nat.add_zero]
  · rw [RowMgr.pagesLive, RowMgr.state_setState _ hsys]
    split
    · next hr => rw [hr]
    · rfl

@[simp] theorem RowMgr.pagesDie_ring (m : RowMgr) (row q : Nat) : (m.pagesDie row q).ring = m.ring := rfl
@[simp] theorem RowMgr.pagesLive_ring (m : RowMgr) (row q : Nat) : (m.pagesLive row q).ring = m.ring := rfl
@[simp] theorem RowMgr.pagesDie_length (m : RowMgr) (row q : Nat) : (m.pagesDie row q).table.length = m.table.length := by
  simp [RowMgr.pagesDie]
@[simp] theorem RowMgr.pagesLive_length (m : RowMgr) (row q : Nat) : (m.pagesLive row q).table.length = m.table.length := by
  simp [RowMgr.pagesLive]

end Sys2Proof.Machine
end

