-- ==== Sys2Proof/Laws/MountOrder.lean ====
section
/-! SUPPORT. Mount order laws: what sorting by insertion leaves (the ring order of R180), and what resolution keeps of the candidates
(R182). -/

namespace Sys2Proof.Machine

variable {α : Type} (k : α → Nat)

/-- Insertion of a list whose keys are all different, and different from those of the sorted list it is put into, leaves the same
members, sorted. -/
theorem foldl_insertBy_sorted (l acc : List α) (hn : ((acc ++ l).map k).Nodup) (hs : acc.Pairwise fun a b => k a < k b) :
    (l.foldl (fun l x => insertBy k x l) acc).Perm (acc ++ l)
      ∧ (l.foldl (fun l x => insertBy k x l) acc).Pairwise fun a b => k a < k b := by
  induction l generalizing acc with
  | nil => simpa using hs
  | cons x t ih =>
    have hnew : acc.filter (fun y => k y ≠ k x) = acc := by
      refine List.filter_eq_self.2 fun y hy => ?_
      rw [List.map_append, List.map_cons] at hn
      exact decide_eq_true ((List.nodup_append.1 hn).2.2 (k y) (List.mem_map_of_mem hy) (k x) (by simp))
    have hp := insertBy_perm (x := x) k hs
    rw [hnew] at hp
    have hp' : (insertBy k x acc ++ t).Perm (acc ++ x :: t) := (hp.append_right t).trans List.perm_middle.symm
    have h := ih (insertBy k x acc) ((hp'.map k).nodup_iff.2 hn) (insertBy_pairwise k hs)
    exact ⟨h.1.trans hp', h.2⟩

/-- A list whose keys all differ, sorted by insertion. -/
theorem sortBy_insertion (l : List α) (hn : (l.map k).Nodup) :
    (l.foldl (fun l x => insertBy k x l) []).Perm l
      ∧ (l.foldl (fun l x => insertBy k x l) []).Pairwise fun a b => k a < k b := by
  simpa using foldl_insertBy_sorted k l [] (by simpa using hn) List.Pairwise.nil

/-- In a list sorted by a key, two members of one key are one. -/
theorem sorted_unique {l : List α} (hl : l.Pairwise fun a b => k a < k b) {a b : α} (ha : a ∈ l) (hb : b ∈ l) (h : k a = k b) :
    a = b := by
  induction l with
  | nil => cases ha
  | cons z t ih =>
    have hz := List.pairwise_cons.1 hl
    rcases List.mem_cons.1 ha with ha | ha <;> rcases List.mem_cons.1 hb with hb | hb
    · rw [ha, hb]
    · exact absurd (hz.1 b hb) (by rw [← ha, h]; omega)
    · exact absurd (hz.1 a ha) (by rw [← hb, h]; omega)
    · exact ih hz.2 ha hb

/-- One candidate joins the winners: in place of the winner of its key unless that one's sequence number is higher (R182). -/
def resolveOne (acc : List Candidate) (x : Candidate) : List Candidate :=
  match acc.find? fun w => w.header.key = x.header.key with
  | some w => if x.header.sequence.toNat < w.header.sequence.toNat then acc else insertBy (fun y => y.header.key.toNat) x acc
  | none => insertBy (fun y => y.header.key.toNat) x acc

theorem resolveKeys_eq (candidates : List Candidate) : resolveKeys candidates = candidates.foldl resolveOne [] := rfl

/-- `winners` are those of the candidates `done`: keys ascending, one for each key, each of a sequence number none before it exceeds
and all after it stay below (R182). -/
def winnersOf (done winners : List Candidate) : Prop :=
  (winners.Pairwise fun x y => x.header.key.toNat < y.header.key.toNat)
  ∧ (∀ y ∈ done, ∃ x ∈ winners, x.header.key = y.header.key)
  ∧ ∀ x ∈ winners, ∃ before after, done = before ++ x :: after
    ∧ (∀ y ∈ before, y.header.key = x.header.key → y.header.sequence.toNat ≤ x.header.sequence.toNat)
    ∧ ∀ y ∈ after, y.header.key = x.header.key → y.header.sequence.toNat < x.header.sequence.toNat

/-- One winner for each key, and its record: what resolution leaves for any winners it starts from. -/
theorem foldl_resolveOne (l : List Candidate) {done acc : List Candidate} (h : winnersOf done acc) :
    winnersOf (done ++ l) (l.foldl resolveOne acc) := by
  induction l generalizing done acc with
  | nil => simpa using h
  | cons x t ih =>
    obtain ⟨h1, h2, h3⟩ := h
    rw [List.foldl_cons, show done ++ x :: t = (done ++ [x]) ++ t by simp]
    apply ih
    have put : (∀ w ∈ acc, w.header.key = x.header.key → w.header.sequence.toNat ≤ x.header.sequence.toNat) →
        winnersOf (done ++ [x]) (insertBy (fun y : Candidate => y.header.key.toNat) x acc) := by
      intro hle
      refine ⟨insertBy_pairwise _ h1, fun y hy => ?_, fun w hw => ?_⟩
      · by_cases hk : y.header.key = x.header.key
        · exact ⟨x, self_mem_insertBy _ _ _, hk.symm⟩
        · rcases List.mem_append.1 hy with hy | hy
          · obtain ⟨w, hw, hwk⟩ := h2 y hy
            exact ⟨w, mem_insertBy_of_ne _ hw (fun he => hk (by rw [← hwk]; exact (BitVec.eq_of_toNat_eq he).symm)), hwk⟩
          · simp only [List.mem_singleton] at hy; exact absurd (by rw [hy]) hk
      · by_cases hwx : w.header.key = x.header.key
        · have hwe : w = x := by
            exact sorted_unique (fun y : Candidate => y.header.key.toNat) (insertBy_pairwise (fun y : Candidate => y.header.key.toNat) (x := x) h1) hw
              (self_mem_insertBy (fun y : Candidate => y.header.key.toNat) x acc) (by rw [hwx])
          subst hwe
          refine ⟨done, [], rfl, fun y hy hyk => ?_, by simp⟩
          obtain ⟨v, hv, hvk⟩ := h2 y hy
          have hv2 := hle v hv (hvk.trans hyk)
          obtain ⟨b, a, hd, hb, ha⟩ := h3 v hv
          rw [hd] at hy
          rcases List.mem_append.1 hy with hy | hy
          · exact Nat.le_trans (hb y hy hvk.symm) hv2
          · rcases List.mem_cons.1 hy with hy | hy
            · rw [hy]; exact hv2
            · exact Nat.le_trans (Nat.le_of_lt (ha y hy hvk.symm)) hv2
        · rcases mem_insertBy _ hw with hw | hw
          · exact absurd (by rw [hw]) hwx
          · obtain ⟨b, a, hd, hb, ha⟩ := h3 w hw
            refine ⟨b, a ++ [x], by rw [hd]; simp, hb, fun y hy hyk => ?_⟩
            rcases List.mem_append.1 hy with hy | hy
            · exact ha y hy hyk
            · simp only [List.mem_singleton] at hy; subst hy; exact absurd hyk.symm hwx
    show winnersOf _ (resolveOne acc x)
    unfold resolveOne
    split
    · next w hw =>
      have hwm := List.mem_of_find?_eq_some hw
      have hwk : w.header.key = x.header.key := by simpa using List.find?_some hw
      have huniq : ∀ v ∈ acc, v.header.key = x.header.key → v = w := fun v hv hk => sorted_unique _ h1 hv hwm (by rw [hk, hwk])
      split
      · next hlt =>
        refine ⟨h1, fun y hy => ?_, fun v hv => ?_⟩
        · rcases List.mem_append.1 hy with hy | hy
          · exact h2 y hy
          · simp only [List.mem_singleton] at hy; subst hy; exact ⟨w, hwm, hwk⟩
        · obtain ⟨b, a, hd, hb, ha⟩ := h3 v hv
          refine ⟨b, a ++ [x], by rw [hd]; simp, hb, fun y hy hyk => ?_⟩
          rcases List.mem_append.1 hy with hy | hy
          · exact ha y hy hyk
          · simp only [List.mem_singleton] at hy; subst hy
            rw [huniq v hv hyk.symm]; exact hlt
      · next hge => exact put fun v hv hvk => by rw [huniq v hv hvk]; omega
    · next hw =>
      refine put fun v hv hvk => ?_
      rw [List.find?_eq_none] at hw
      exact absurd (by simpa using hvk) (hw v hv)

/-- Resolution's winners (R182). -/
theorem resolveKeys_wins (candidates : List Candidate) : winnersOf candidates (resolveKeys candidates) := by
  rw [resolveKeys_eq]
  simpa using foldl_resolveOne candidates (done := []) (acc := []) ⟨List.Pairwise.nil, by simp, by simp⟩

end Sys2Proof.Machine
end

