-- ==== Sys2Proof/Laws/Operands.lean ====
section
/-! SUPPORT. Argument laws: when each argument layout of Table 48 is in form and what it then gives. -/

namespace Sys2Proof.Machine

theorem keyArg_some {args : List Byte} (h : args.length = 2) (hk : keyOk (halfAt args 0) = true) :
    keyArg args = some (halfAt args 0) := by
  rw [keyArg, if_pos (by rw [h, hk]; rfl)]

theorem keyArg_none {args : List Byte} (h : args.length ≠ 2 ∨ keyOk (halfAt args 0) = false) : keyArg args = none := by
  rw [keyArg, if_neg]
  rcases h with h | h
  · simp [h]
  · simp [h]

theorem listArg_some {args : List Byte} (h : args.length = 2) (hk : halfAt args 0 ≠ 0xFFFF) :
    listArg args = some (halfAt args 0) := by
  rw [listArg, if_pos]
  simpa [h] using hk

theorem listArg_none {args : List Byte} (h : args.length ≠ 2 ∨ halfAt args 0 = 0xFFFF) : listArg args = none := by
  rw [listArg, if_neg]
  rcases h with h | h
  · simp [h]
  · simp [h]

theorem openArgs_some {args : List Byte} (h : args.length = 5) (hk : keyOk (halfAt args 0) = true)
    (hl : (halfAt args 2).toNat ≤ 512) :
    openArgs args
      = some ⟨halfAt args 0, (halfAt args 2).toNat, (byteAt args 4).extractLsb' 4 4, (byteAt args 4).extractLsb' 0 4, []⟩ := by
  rw [openArgs, if_pos]
  · rfl
  · rw [h, hk]
    simp [Config.payloadLimit, hl]

theorem openArgs_none {args : List Byte} (h : args.length ≠ 5 ∨ keyOk (halfAt args 0) = false ∨ 512 < (halfAt args 2).toNat) :
    openArgs args = none := by
  rw [openArgs, if_neg]
  rcases h with h | h | h
  · simp [h]
  · simp [h]
  · have h' : ¬ (halfAt args 2).toNat ≤ Config.payloadLimit := Nat.not_le.mpr h
    simp [h']

theorem fillArgs_some {args : List Byte} (h : 3 ≤ args.length) (h' : args.length ≤ 50) :
    fillArgs args = some ((halfAt args 0).toNat, args.drop 2) := by
  rw [fillArgs, if_pos (by simp [h, h'])]

theorem fillArgs_none {args : List Byte} (h : args.length < 3 ∨ 50 < args.length) : fillArgs args = none := by
  rw [fillArgs, if_neg]
  simp
  omega

theorem commitArg_some {args : List Byte} (h : args.length = 1) (hf : byteAt args 0 &&& 0xFE = 0) :
    commitArg args = some ((byteAt args 0).getLsbD 0) := by
  rw [commitArg, if_pos]
  simp [h, show byteAt args 0 &&& 0xFE#8 = 0#8 from hf]

theorem commitArg_none {args : List Byte} (h : args.length ≠ 1 ∨ byteAt args 0 &&& 0xFE ≠ 0) : commitArg args = none := by
  rw [commitArg, if_neg]
  rcases h with h | h
  · simp [h]
  · have h' : ¬ byteAt args 0 &&& 0xFE#8 = 0#8 := h
    simp [h']

theorem readArgs_some {args : List Byte} (h : args.length = 5) (hk : keyOk (halfAt args 0) = true)
    (ho : (halfAt args 2).toNat ≤ 512) (hc : (byteAt args 4).toNat ≤ 48) :
    readArgs args = some (halfAt args 0, (halfAt args 2).toNat, (byteAt args 4).toNat) := by
  rw [readArgs, if_pos]
  rw [h, hk]
  simp [ho, hc]

theorem readArgs_none {args : List Byte}
    (h : args.length ≠ 5 ∨ keyOk (halfAt args 0) = false ∨ 512 < (halfAt args 2).toNat ∨ 48 < (byteAt args 4).toNat) :
    readArgs args = none := by
  rw [readArgs, if_neg]
  rcases h with h | h | h | h
  · simp [h]
  · simp [h]
  · simp
    omega
  · simp
    omega

theorem claimArgs_some {args : List Byte} (h : args.length = 6) (hk : keyOk (halfAt args 0) = true) :
    claimArgs args = some (halfAt args 0, halfAt args 2, halfAt args 4) := by
  rw [claimArgs, if_pos (by rw [h, hk]; rfl)]

theorem claimArgs_none {args : List Byte} (h : args.length ≠ 6 ∨ keyOk (halfAt args 0) = false) : claimArgs args = none := by
  rw [claimArgs, if_neg]
  rcases h with h | h
  · simp [h]
  · simp [h]

theorem maskArg_some {args : List Byte} (h : args.length = 1) (hm : (byteAt args 0).toNat ≤ 3) :
    maskArg args = some ((byteAt args 0).setWidth 2) := by
  rw [maskArg, if_pos (by simp [h, hm])]

theorem maskArg_none {args : List Byte} (h : args.length ≠ 1 ∨ 3 < (byteAt args 0).toNat) : maskArg args = none := by
  rw [maskArg, if_neg]
  rcases h with h | h
  · simp [h]
  · simp
    omega

theorem confArgs_length {args : List Byte} {a : ConfArgs} (h : confArgs args = some a) : args.length = 9 := by
  by_contra hn
  rw [confArgs, if_neg hn] at h
  cases h

/-- The mask byte that ATTNMASK echoes. -/
theorem mask_echo {b : Byte} (h : b.toNat ≤ 3) : (b.setWidth 2).setWidth 8 = b := by
  apply BitVec.eq_of_toNat_eq
  simp
  omega

end Sys2Proof.Machine
end

