-- ==== Sys2Proof/Laws/Store.lean ====
section
/-! SUPPORT. Store laws: every change that an array step makes keeps the law of the Directory, the row table, the ring and the
pass under way. `Good` is that law between two changes of a step; each operation of the Row Manager, the Scheduler, the
Compaction Agent and the Configuration Unit leads from it to the law of the store. -/

namespace Sys2Proof.Machine

/-! ### What the law reads -/

/-- Two Row Managers that the law does not tell apart: states, ring and open counter are the same. -/
structure SameRows (m m' : RowMgr) : Prop where
  state : ∀ r, m'.state r = m.state r
  ring : m'.ring = m.ring
  counter : m'.openCounter = m.openCounter
  length : m'.table.length = m.table.length

theorem SameRows.refl (m : RowMgr) : SameRows m m := ⟨fun _ => rfl, rfl, rfl, rfl⟩

theorem SameRows.of_eq {m m' : RowMgr} (h : m' = m) : SameRows m m' := h ▸ SameRows.refl m

/-- A change within a step that leaves the store as it is: a pass may be abandoned or the agent halt, the mode may become
READ_ONLY, and a composition within its bound stays so. -/
structure Quiet (c d : Ctl) : Prop where
  rows : SameRows c.rows d.rows
  dir : d.dir = c.dir
  agent : d.agent.state = c.agent.state ∨ d.agent.state = .idle ∨ d.agent.state = .halted
  mode : c.sched.mode ≠ .mounting → d.sched.mode ≠ .mounting
  staging : ∀ p, (c.port p).staging.sound → (d.port p).staging.sound

theorem Quiet.refl (c : Ctl) : Quiet c c := ⟨SameRows.refl _, rfl, Or.inl rfl, id, fun _ h => h⟩

theorem Quiet.trans {c d e : Ctl} (h : Quiet c d) (h' : Quiet d e) : Quiet c e where
  rows := ⟨fun r => (h'.rows.state r).trans (h.rows.state r), h'.rows.ring.trans h.rows.ring,
    h'.rows.counter.trans h.rows.counter, h'.rows.length.trans h.rows.length⟩
  dir := h'.dir.trans h.dir
  agent := by
    rcases h'.agent with h1 | h1
    · rcases h.agent with h2 | h2
      · exact Or.inl (h1.trans h2)
      · exact Or.inr (by rw [h1]; exact h2)
    · exact Or.inr h1
  mode := h'.mode ∘ h.mode
  staging := fun p hp => h'.staging p (h.staging p hp)

/-- The law of the store within a step, but for the pass under way. -/
structure Org (c : Ctl) : Prop where
  staging : c.stagingLaw
  dir : dirLaw c.dir
  rows : c.rows.lawful c.dir
  length : c.rows.table.length = Config.rowCount
  mode : c.sched.mode ≠ .mounting

/-- The law of the store within a step. -/
structure Good (c : Ctl) : Prop extends Org c where
  pass : passLaw c.rows c.dir c.agent.state

theorem Org.quiet {c d : Ctl} (h : Org c) (hq : Quiet c d) : Org d where
  staging p := hq.staging p (h.staging p)
  dir := hq.dir ▸ h.dir
  rows := hq.dir ▸ RowMgr.lawful_congr h.rows hq.rows.state hq.rows.ring hq.rows.counter
  length := hq.rows.length.trans h.length
  mode := hq.mode h.mode

/-- The pass's law is kept where its row stays the CLOSED tail and no entry comes to lie in it. -/
theorem passLaw_mono {m m' : RowMgr} {dir dir' : List DirEntry} {st : AgentState} (h : passLaw m dir st)
    (hh : m.ring.head? ≠ none → m'.ring.head? = m.ring.head?)
    (hc : ∀ r, (m.state r).isClosed = true → (m'.state r).isClosed = true)
    (hd : ∀ e ∈ dir', e ∈ dir ∨ (m.state e.row).isHead = true) : passLaw m' dir' st := by
  cases st with
  | scanning row cursor => exact ⟨(hh (by rw [h.1]; simp)).trans h.1, hc _ h.2.1, h.2.2⟩
  | erasing row =>
    refine ⟨(hh (by rw [h.1]; simp)).trans h.1, hc _ h.2.1, fun e he => ?_⟩
    rcases hd e he with h' | h'
    · exact h.2.2 e h'
    · intro hr
      rw [hr, RowState.isHead_of_isClosed h.2.1] at h'
      cases h'
  | idle => trivial
  | halted => trivial

theorem passLaw_stopped {m : RowMgr} {dir : List DirEntry} {st : AgentState} (h : st = .idle ∨ st = .halted) :
    passLaw m dir st := by
  rcases h with rfl | rfl <;> trivial

theorem Good.quiet {c d : Ctl} (h : Good c) (hq : Quiet c d) : Good d where
  toOrg := h.toOrg.quiet hq
  pass := by
    rcases hq.agent with ha | ha
    · rw [ha, hq.dir]
      exact passLaw_mono h.pass (fun _ => by rw [hq.rows.ring]) (fun r hr => by rw [hq.rows.state]; exact hr)
        fun e he => Or.inl he
    · exact passLaw_stopped ha

/-- Between two steps. -/
theorem Good.idle {c : Ctl} (h : Good c) (hs : c.sched.current = .none) : c.storeLaw :=
  ⟨h.staging, h.dir, h.rows, Or.inr h.pass, (fun act ha => by rw [hs] at ha; cases ha), fun hm => absurd hm h.mode,
    fun _ => h.length⟩

/-! ### Quiet changes -/

theorem Quiet.onPort (c : Ctl) (p : Port) (g : PortUnit → PortUnit)
    (hg : (c.port p).staging.sound → (g (c.port p)).staging.sound) : Quiet c (c.onPort p g) where
  rows := SameRows.refl _
  dir := rfl
  agent := Or.inl rfl
  mode := id
  staging q hq := by
    by_cases h : q = p
    · subst h
      rw [Ctl.port_onPort_same]
      exact hg hq
    · rw [Ctl.port_onPort_other _ h]
      exact hq

theorem Quiet.enter (c : Ctl) (p : Port) (r : Response) : Quiet c (c.enter p r) := Quiet.onPort c p _ id

/-- Changes of the notices, the claim table, the media operation, the configuration, and of the Scheduler but for its mode. -/
theorem Quiet.of_eq {c d : Ctl} (hr : d.rows = c.rows) (hd : d.dir = c.dir) (ha : d.agent.state = c.agent.state)
    (hm : d.sched.mode = c.sched.mode) (hp : ∀ p, (d.port p).staging = (c.port p).staging) : Quiet c d :=
  ⟨SameRows.of_eq hr, hd, Or.inl ha, fun h => hm ▸ h, fun p h => hp p ▸ h⟩

/-- The parts of the device that responses and claims leave as they are, with each port's staging buffer. -/
def Ctl.storeView (c : Ctl) : (RowMgr × List DirEntry × Agent) × (Sched × Mount × ConfUnit) × (Port → Staging) :=
  ((c.rows, c.dir, c.agent), (c.sched, c.mount, c.conf), fun p => (c.port p).staging)

theorem Ctl.storeView_enter (c : Ctl) (p : Port) (r : Response) : (c.enter p r).storeView = c.storeView := by
  unfold Ctl.storeView
  congr 2
  funext q
  by_cases h : q = p
  · subst h
    rw [Ctl.enter, Ctl.port_onPort_same]
  · rw [Ctl.enter, Ctl.port_onPort_other _ h]

theorem Ctl.storeView_setClaim (c : Ctl) (k : Half) (e : Option ClaimEntry) : (c.setClaim k e).storeView = c.storeView := by
  cases e <;> rfl

theorem Quiet.of_view {c d : Ctl} (h : d.storeView = c.storeView) : Quiet c d := by
  unfold Ctl.storeView at h
  simp only [Prod.mk.injEq] at h
  obtain ⟨⟨h1, h2, h3⟩, ⟨h4, _, _⟩, h7⟩ := h
  exact Quiet.of_eq h1 h2 (by rw [h3]) (by rw [h4]) (fun p => congrFun h7 p)

theorem Quiet.releaseHold (c : Ctl) (p : Port) (k : Half) : Quiet c (c.releaseHold p k) :=
  .of_view (Ctl.releaseHold_keeps Ctl.storeView Ctl.storeView_enter Ctl.storeView_setClaim c p k)

theorem Quiet.freezeClaim (c : Ctl) (k : Half) : Quiet c (c.freezeClaim k) :=
  .of_view (Ctl.freezeClaim_keeps Ctl.storeView Ctl.storeView_enter Ctl.storeView_setClaim c k)

theorem Quiet.resyncClaims (c : Ctl) (p : Port) : Quiet c (c.resyncClaims p) :=
  .of_view (Ctl.resyncClaims_keeps Ctl.storeView Ctl.storeView_enter Ctl.storeView_setClaim (fun _ _ => rfl) c p)

theorem Quiet.resync (c : Ctl) (p : Port) : Quiet c (c.resync p) := by
  have h1 : Quiet c (c.resyncPort p) := Quiet.onPort c p _ fun h => by
    revert h
    cases (c.port p).staging <;> simp only [Staging.resync]
    · exact id
    · exact fun _ => trivial
    · intro h
      split
      · exact h
      · trivial
  have h2 : Quiet (c.resyncPort p) ((c.resyncPort p).resyncSched p) := .of_eq rfl rfl rfl rfl fun _ => rfl
  exact ((h1.trans h2).trans (Quiet.resyncClaims _ p)).trans (.of_eq rfl rfl rfl rfl fun _ => rfl)

theorem Quiet.disable (c : Ctl) (p : Port) : Quiet c (c.disable p) :=
  ((Quiet.resync c p).trans
    (Quiet.onPort _ p (fun u => { u with enabled := false, rx := .idle, statusLatch := none, sdo := none }) id)).trans
    (.of_eq rfl rfl rfl rfl fun _ => rfl)

theorem Quiet.foldl {α : Type} (f : Ctl → α → Ctl) (hf : ∀ d a, Quiet d (f d a)) (l : List α) (c : Ctl) :
    Quiet c (l.foldl f c) := by
  induction l generalizing c with
  | nil => exact Quiet.refl c
  | cons a t ih => exact (hf c a).trans (ih _)

theorem Quiet.applyEnableMask (c : Ctl) (mask : Byte) : Quiet c (c.applyEnableMask mask) := by
  unfold Ctl.applyEnableMask
  refine (Quiet.foldl _ (fun d p => ?_) _ _).trans (Quiet.foldl _ (fun d p => ?_) _ _)
  · split
    · exact Quiet.disable d p
    · exact Quiet.refl d
  · split
    · exact Quiet.onPort d p _ id
    · exact Quiet.refl d

theorem Quiet.answerCompact (c : Ctl) (r : CompactReq) (st : Status) (result : List Byte) :
    Quiet c (c.answerCompact r st result) := by
  unfold Ctl.answerCompact
  split
  · exact Quiet.refl c
  · exact Quiet.enter c _ _

theorem Quiet.sched (c : Ctl) {s : Sched} (h : s.mode = c.sched.mode) : Quiet c { c with sched := s } :=
  .of_eq rfl rfl rfl h fun _ => rfl

theorem Quiet.answerCompactList (c : Ctl) (st : Status) : Quiet c (c.answerCompactList st) := by
  unfold Ctl.answerCompactList
  refine (Quiet.foldl _ (fun d r => ?_) _ c).trans (Quiet.sched _ rfl)
  split <;> exact Quiet.answerCompact d _ _ _

theorem Quiet.answerTied (c : Ctl) (n : Nat) : Quiet c (c.answerTied n) :=
  (Quiet.foldl _ (fun d _ => Quiet.answerCompact d _ _ _) _ c).trans (Quiet.sched _ rfl)

theorem Quiet.answerAllZero (c : Ctl) : Quiet c c.answerAllZero :=
  (Quiet.foldl _ (fun d _ => Quiet.answerCompact d _ _ _) _ c).trans (Quiet.sched _ rfl)

theorem Quiet.agentStops (c : Ctl) {a : Agent} (h : a.state = .idle ∨ a.state = .halted) : Quiet c { c with agent := a } :=
  ⟨SameRows.refl _, rfl, Or.inr h, id, fun _ h => h⟩

theorem Quiet.agentSame (c : Ctl) {a : Agent} (h : a.state = c.agent.state) : Quiet c { c with agent := a } :=
  .of_eq rfl rfl h rfl fun _ => rfl

theorem Quiet.enterReadOnly (c : Ctl) (r : Reason) : Quiet c (c.enterReadOnly r) := by
  unfold Ctl.enterReadOnly
  split
  · have h1 : Quiet c { c with sched := { c.sched with mode := .readOnly, reason := r } } :=
      ⟨SameRows.refl _, rfl, Or.inl rfl, fun _ h => (by cases h), fun _ h => h⟩
    simp only
    split
    · refine (h1.trans (Quiet.answerCompactList _ .readOnly)).trans ?_
      unfold Agent.abandonPass
      split
      · exact Quiet.agentStops _ (Or.inl rfl)
      · exact Quiet.agentStops _ (Or.inl rfl)
      · exact Quiet.agentSame _ rfl
      · exact Quiet.agentSame _ rfl
    · exact h1
    · exact h1
  · exact Quiet.refl c
  · exact Quiet.refl c

theorem Quiet.respond (c : Ctl) (req : Request) (st : Status) (result : List Byte) : Quiet c (c.respond req st result) := by
  unfold Ctl.respond
  split
  · exact Quiet.onPort c _ _ id
  · exact Quiet.enter c _ _

theorem Quiet.endMark (c : Ctl) : Quiet c c.endMark := by
  unfold Ctl.endMark
  split
  · exact (Quiet.enterReadOnly c _).trans (Quiet.sched _ rfl)
  · exact Quiet.refl c

theorem Quiet.endTurn (c : Ctl) : Quiet c c.endTurn := Quiet.sched c rfl

theorem Quiet.endAgentStep (c : Ctl) : Quiet c c.endAgentStep := Quiet.sched c rfl

theorem Quiet.endStaging (c : Ctl) (req : Request) : Quiet c (c.endStaging req) := by
  unfold Ctl.endStaging
  split
  · exact Quiet.onPort c _ _ fun _ => trivial
  · exact Quiet.refl c

theorem Quiet.deliver (c : Ctl) (n : Notice) : Quiet c (c.deliver n) := .of_eq rfl rfl rfl rfl fun _ => rfl

theorem Quiet.releaseOnDone (c : Ctl) (p : Port) (b : Bool) : Quiet c (c.releaseOnDone p b) := by
  unfold Ctl.releaseOnDone
  split
  · exact Quiet.releaseHold c _ _
  · exact Quiet.refl c
  · exact Quiet.refl c

theorem Quiet.conf (c : Ctl) (u : ConfUnit) : Quiet c { c with conf := u } := .of_eq rfl rfl rfl rfl fun _ => rfl

theorem Quiet.setCurrent (c : Ctl) (s : CurrentStep) : Quiet c (c.setCurrent s) := Quiet.sched c rfl

/-! ### The update points of the Directory (R49 to R53) -/

theorem Ctl.lookup_of_mem {c : Ctl} (hd : dirLaw c.dir) {e : DirEntry} (he : e ∈ c.dir) : c.lookup e.key = some e := by
  have hp := hd.2.1
  unfold Ctl.lookup
  generalize c.dir = l at he hp
  induction l with
  | nil => cases he
  | cons x t ih =>
    rw [List.pairwise_cons] at hp
    rcases List.mem_cons.1 he with rfl | he
    · simp
    · have hne : x.key ≠ e.key := by
        intro hh
        have := hp.1 e he
        rw [hh] at this
        exact absurd this (Nat.lt_irrefl _)
      rw [List.find?_cons_of_neg (by simpa using hne)]
      exact ih he hp.2

theorem Ctl.absent_of_lookup {c : Ctl} {k : Half} (h : c.lookup k = none) : ∀ e ∈ c.dir, e.key ≠ k := by
  unfold Ctl.lookup at h
  rw [List.find?_eq_none] at h
  simpa using h

/-- The old pages of a key die: the row table then counts the entries of the other keys. -/
theorem Ctl.oldPagesDie_law {c : Ctl} (h : Org c) (k : Half) :
    (c.oldPagesDie k).rows.lawful (otherKeys c.dir k) ∧ (c.oldPagesDie k).rows.ring = c.rows.ring
      ∧ (c.oldPagesDie k).rows.table.length = c.rows.table.length
      ∧ ∀ r, ((c.oldPagesDie k).rows.state r).inRing = (c.rows.state r).inRing
        ∧ ((c.oldPagesDie k).rows.state r).isHead = (c.rows.state r).isHead
        ∧ ((c.oldPagesDie k).rows.state r).isClosed = (c.rows.state r).isClosed
        ∧ (c.rows.state r).deadPages ≤ ((c.oldPagesDie k).rows.state r).deadPages := by
  unfold Ctl.oldPagesDie
  cases hk : c.lookup k with
  | none =>
    rw [otherKeys_of_absent (Ctl.absent_of_lookup hk)]
    exact ⟨h.rows, rfl, rfl, fun r => ⟨rfl, rfl, rfl, Nat.le_refl _⟩⟩
  | some e =>
    have hm := Ctl.lookup_mem hk
    obtain ⟨h1, h2⟩ := RowMgr.lawful_pagesDie h.dir h.rows hm
    rw [Ctl.lookup_key hk] at h1
    refine ⟨h1, rfl, by simp, fun r => ?_⟩
    simp only [h2 r]
    split
    · exact ⟨by simp, by simp, by simp, RowState.deadPages_toDead _ _⟩
    · exact ⟨rfl, rfl, rfl, Nat.le_refl _⟩

/-- A key's entry is removed (R50, R53). -/
theorem Org.removeEntry {c : Ctl} (h : Org c) (k : Half) : Org (c.removeEntry k) := by
  obtain ⟨h1, _, h3, _⟩ := Ctl.oldPagesDie_law h k
  have hdir : (c.removeEntry k).dir = otherKeys c.dir k := rfl
  have hrows : (c.removeEntry k).rows = (c.oldPagesDie k).rows := rfl
  refine ⟨fun p => ?_, ?_, ?_, ?_, ?_⟩
  · have : (c.removeEntry k).port p = (c.oldPagesDie k).port p := rfl
    rw [this, Ctl.oldPagesDie_eq]
    exact h.staging p
  · rw [hdir]
    exact dirLaw_otherKeys h.dir k
  · rw [hdir, hrows]
    exact h1
  · rw [hrows, h3]
    exact h.length
  · rw [Ctl.removeEntry_sched]
    exact h.mode

theorem Good.removeEntry {c : Ctl} (h : Good c) (k : Half) : Good (c.removeEntry k) := by
  obtain ⟨_, h2, _, h4⟩ := Ctl.oldPagesDie_law h.toOrg k
  have ha : (c.removeEntry k).agent = c.agent := by
    show (c.oldPagesDie k).agent = _
    rw [Ctl.oldPagesDie_eq]
  refine ⟨h.toOrg.removeEntry k, ?_⟩
  rw [ha]
  exact passLaw_mono h.pass (fun _ => congrArg List.head? h2) (fun r hr => ((h4 r).2.2.1).trans hr)
    fun e he => Or.inl (List.mem_of_mem_filter he)

/-- A record in the head becomes a key's current record (R49, R51). -/
theorem Good.placeEntry {c : Ctl} (h : Good c) {e : DirEntry} (hl : e.length ≤ Config.payloadLimit)
    (hp : e.pages = pagesFor e.length) (hr : (∃ x ∈ c.dir, x.key = e.key) ∨ c.dir.length < Config.directoryLimit)
    (hh : (c.rows.state e.row).isHead = true) (hq : e.pages ≤ (c.rows.state e.row).deadPages) : Good (c.placeEntry e) := by
  obtain ⟨h1, h2, h3, h4⟩ := Ctl.oldPagesDie_law h.toOrg e.key
  have hdir : (c.placeEntry e).dir = insertBy (fun x => x.key.toNat) e c.dir := by
    show insertBy _ e (c.oldPagesDie e.key).dir = _
    rw [Ctl.oldPagesDie_dir]
  have hrows : (c.placeEntry e).rows = (c.oldPagesDie e.key).rows.pagesLive e.row e.pages := rfl
  have hrest := Ctl.oldPagesDie_eq c e.key
  obtain ⟨l1, l2⟩ := RowMgr.lawful_pagesLive h1 (row := e.row) (q := e.pages) (dir' := (c.placeEntry e).dir)
    (by rw [(h4 _).1]; exact RowState.inRing_of_isHead hh) (Nat.le_trans hq (h4 _).2.2.2)
    (fun r => by rw [hdir]; exact livePages_insert h.dir e r)
  refine ⟨⟨fun p => ?_, ?_, ?_, ?_, ?_⟩, ?_⟩
  · have : (c.placeEntry e).port p = (c.oldPagesDie e.key).port p := rfl
    rw [this, hrest]
    exact h.staging p
  · rw [hdir]
    exact dirLaw_insert h.dir hl hp hr
  · exact l1
  · rw [hrows, RowMgr.pagesLive_length, h3]
    exact h.length
  · rw [Ctl.placeEntry_sched]
    exact h.mode
  · have ha : (c.placeEntry e).agent = c.agent := by
      show (c.oldPagesDie e.key).agent = _
      rw [hrest]
    rw [ha]
    refine passLaw_mono h.pass (fun _ => by rw [hrows, RowMgr.pagesLive_ring, h2]) (fun r hr => ?_) fun x hx => ?_
    · rw [hrows, l2 r]
      split
      · rw [RowState.toLive_isClosed, (h4 r).2.2.1]
        exact hr
      · rw [(h4 r).2.2.1]
        exact hr
    · rw [hdir] at hx
      rcases mem_insertBy _ hx with rfl | hx
      · exact Or.inr hh
      · exact Or.inl hx

/-- An entry takes another place for its record, in the head (R52). -/
theorem Good.relocate {c : Ctl} (h : Good c) {k : Half} {row page q : Nat} (hk : ∃ e ∈ c.dir, e.key = k ∧ e.pages = q)
    (hh : (c.rows.state row).isHead = true) (hq : q ≤ (c.rows.state row).deadPages) : Good (c.relocate k row page) := by
  obtain ⟨e, he, hek, heq⟩ := hk
  subst hek heq
  have hlk := Ctl.lookup_of_mem h.dir he
  unfold Ctl.relocate
  rw [hlk]
  simp only
  have hin := RowState.inRing_of_isHead hh
  have hsys := RowState.ne_system_of_inRing hin
  have hold : (c.rows.state e.row).inRing = true := by
    cases hx : (c.rows.state e.row).inRing with
    | true => rfl
    | false => exact absurd rfl (livePages_zero h.dir (RowState.counted_out (h.rows.1 e.row) hx) e he)
  have l1 : ∀ r, (c.rows.pagesLive row e.pages).state r = if r = row then (c.rows.state r).toLive e.pages else c.rows.state r := by
    intro r
    rw [RowMgr.pagesLive, RowMgr.state_setState _ hsys]
    split
    · next hr => rw [hr]
    · rfl
  have hsys' : (c.rows.pagesLive row e.pages).state e.row ≠ .system := by
    refine RowState.ne_system_of_inRing ?_
    rw [l1]
    split
    · simpa using hold
    · exact hold
  have l2 : ∀ r, ((c.rows.pagesLive row e.pages).pagesDie e.row e.pages).state r
      = if r = e.row then ((c.rows.pagesLive row e.pages).state r).toDead e.pages
        else (c.rows.pagesLive row e.pages).state r := by
    intro r
    rw [RowMgr.pagesDie, RowMgr.state_setState _ hsys']
    split
    · next hr => rw [hr]
    · rfl
  have hlive := livePages_of_mem h.dir he
  have hnew := livePages_insert h.dir { e with row := row, page := page }
  have hin' : ∀ r, (((c.rows.pagesLive row e.pages).pagesDie e.row e.pages).state r).inRing = (c.rows.state r).inRing
      ∧ (((c.rows.pagesLive row e.pages).pagesDie e.row e.pages).state r).isHead = (c.rows.state r).isHead
      ∧ (((c.rows.pagesLive row e.pages).pagesDie e.row e.pages).state r).isClosed = (c.rows.state r).isClosed
      ∧ (((c.rows.pagesLive row e.pages).pagesDie e.row e.pages).state r).openNumber = (c.rows.state r).openNumber := by
    intro r
    rw [l2, l1]
    split <;> split <;> simp
  have hdl : dirLaw (insertBy (fun x : DirEntry => x.key.toNat) { e with row := row, page := page } c.dir) :=
    dirLaw_insert h.dir (h.dir.2.2 e he).1 (h.dir.2.2 e he).2 (Or.inl ⟨e, he, rfl⟩)
  refine ⟨⟨h.staging, hdl, ?_, by simpa using h.length, h.mode⟩, ?_⟩
  · obtain ⟨h1, h2, h3, h4, h5⟩ := h.rows
    refine ⟨fun r => ?_, fun r => ?_, ?_, fun r hr => ?_, fun r hr => ?_⟩
    · show (((c.rows.pagesLive row e.pages).pagesDie e.row e.pages).state r).counted _
      rw [l2, l1, hnew r]
      have hr1 := h1 r
      rw [hlive r] at hr1
      by_cases hr : r = e.row
      · subst hr
        rw [if_pos rfl] at hr1 ⊢
        by_cases hrow : e.row = row
        · rw [if_pos hrow, if_pos hrow.symm]
          have := RowState.counted_toLive hr1 hold (q := e.pages) (by rw [hrow]; exact hq)
          exact RowState.counted_toDead this
        · rw [if_neg hrow, if_neg (Ne.symm hrow)]
          exact RowState.counted_toDead hr1
      · rw [if_neg hr]
        rw [if_neg (Ne.symm hr), Nat.add_zero] at hr1
        by_cases hrow : r = row
        · subst hrow
          rw [if_pos rfl, if_pos rfl]
          exact RowState.counted_toLive hr1 hin hq
        · rw [if_neg hrow, if_neg (Ne.symm hrow), Nat.add_zero]
          exact hr1
    · rw [(hin' r).1]
      exact h2 r
    · simp only [RowMgr.place, (hin' _).2.2.2]
      exact h3
    · rw [(hin' r).2.1] at hr
      exact h4 r hr
    · rw [(hin' r).2.2.2]
      exact h5 r hr
  · refine passLaw_mono h.pass (fun _ => rfl) (fun r hr => by rw [(hin' r).2.2.1]; exact hr) fun x hx => ?_
    rcases mem_insertBy _ hx with rfl | hx
    · exact Or.inr hh
    · exact Or.inl hx

/-! ### Completions -/

theorem Ctl.enterReadOnly_current (c : Ctl) (r : Reason) : (c.enterReadOnly r).sched.current = c.sched.current := by
  have hf : ∀ (st : Status) (d : Ctl), (d.answerCompactList st).sched.current = d.sched.current := by
    intro st d
    unfold Ctl.answerCompactList
    have : ∀ (l : List CompactReq) (f : Ctl → CompactReq → Ctl), (∀ d r, (f d r).sched.current = d.sched.current) →
        ∀ d, (l.foldl f d).sched.current = d.sched.current := by
      intro l f hf
      induction l with
      | nil => exact fun d => rfl
      | cons r t ih => exact fun d => (ih _).trans (hf d r)
    refine this _ _ (fun d r => ?_) d
    split <;> (unfold Ctl.answerCompact; split <;> rfl)
  unfold Ctl.enterReadOnly
  split
  · simp only
    split
    · next hs =>
      have := hf .readOnly { c with sched := { c.sched with mode := .readOnly, reason := r } }
      exact this
    · rfl
    · rfl
  · rfl
  · rfl

theorem Good.complete {c : Ctl} (h : Good c) (req : Request) (st : Status) (result : List Byte) :
    (c.complete req st result).storeLaw := by
  refine Good.idle ?_ rfl
  unfold Ctl.complete
  refine h.quiet (Quiet.trans ?_ (((Quiet.endStaging _ _).trans (Quiet.respond _ _ _ _)).trans ((Quiet.endMark _).trans
    (Quiet.endTurn _))))
  split
  · exact Quiet.releaseOnDone _ _ _
  · exact Quiet.refl _

theorem Good.refuse {c : Ctl} (h : Good c) (req : Request) (st : Status) : (c.refuse req st).storeLaw := h.complete req st _

theorem Good.completeReload {c : Ctl} (h : Good c) (req : Request) (s : Settings) (g : Word) :
    (c.completeReload req s g).storeLaw := by
  refine Good.idle ?_ rfl
  unfold Ctl.completeReload Ctl.applyConfig
  exact h.quiet ((Quiet.respond _ _ _ _).trans ((Quiet.setCurrent _ _).trans ((Quiet.conf _ _).trans
    ((Quiet.applyEnableMask _ _).trans (Quiet.endTurn _)))))

/-- A port write completes OK, its record in the head (R117). -/
theorem Good.completeWrite {c : Ctl} (h : Good c) (req : Request) {hd : RecHeader} {row first : Nat}
    (hl : hd.length ≤ Config.payloadLimit) (hp : hd.pages = pagesFor hd.length)
    (hr : (∃ x ∈ c.dir, x.key = hd.key) ∨ c.dir.length < Config.directoryLimit)
    (hh : (c.rows.state row).isHead = true) (hq : hd.pages ≤ (c.rows.state row).deadPages) :
    (c.completeWrite req hd row first).storeLaw := by
  refine Good.idle ?_ rfl
  have hplace : ∀ kind, Good (c.placeEntry (entryOf hd kind row first)) := fun kind => h.placeEntry hl hp hr hh hq
  have he : Good (c.writeEffects req hd row first) := by
    unfold Ctl.writeEffects
    split
    · exact (hplace .value).quiet ((Quiet.deliver _ _).trans (Quiet.releaseOnDone _ _ _))
    · exact (h.removeEntry _).quiet (Quiet.deliver _ _)
    · exact (hplace .frozen).quiet ((Quiet.deliver _ _).trans (Quiet.freezeClaim _ _))
    · exact h
  exact he.quiet ((Quiet.endStaging _ _).trans ((Quiet.respond _ _ _ _).trans ((Quiet.endMark _).trans (Quiet.endTurn _))))

/-! ### Compaction -/

theorem Good.haltAgent {c : Ctl} (h : Good c) : c.haltAgent.storeLaw := by
  refine Good.idle ?_ rfl
  unfold Ctl.haltAgent
  exact h.quiet ((Quiet.agentStops c (Or.inr rfl)).trans ((Quiet.enterReadOnly _ _).trans ((Quiet.answerCompactList _ _).trans
    (Quiet.endAgentStep _))))

theorem Good.endAgentStep {c : Ctl} (h : Good c) : c.endAgentStep.storeLaw :=
  Good.idle (h.quiet (Quiet.endAgentStep c)) rfl

theorem Ctl.removeDamaged_dir (c : Ctl) (e : DirEntry) : (c.removeDamaged e).dir = otherKeys c.dir e.key := rfl

theorem Org.removeDamaged {c : Ctl} (h : Org c) (e : DirEntry) :
    Org (c.removeDamaged e) ∧ (c.removeDamaged e).rows.ring = c.rows.ring
      ∧ ∀ r, ((c.removeDamaged e).rows.state r).isClosed = (c.rows.state r).isClosed := by
  obtain ⟨_, h2, _, h4⟩ := Ctl.oldPagesDie_law h e.key
  exact ⟨(h.removeEntry e.key).quiet ((Quiet.deliver _ _).trans (Quiet.agentSame _ rfl)), h2, fun r => (h4 r).2.2.1⟩

/-- A damaged entry is removed within a pass (R127). -/
theorem Good.removeDamaged {c : Ctl} (h : Good c) (e : DirEntry) : Good (c.removeDamaged e) := by
  obtain ⟨h1, h2, h3⟩ := h.toOrg.removeDamaged e
  have ha : (c.removeDamaged e).agent.state = c.agent.state := by
    show (c.oldPagesDie e.key).agent.state = _
    rw [Ctl.oldPagesDie_eq]
  refine ⟨h1, ?_⟩
  rw [ha]
  exact passLaw_mono h.pass (fun _ => by rw [h2]) (fun r hr => by rw [h3]; exact hr)
    fun x hx => Or.inl (List.mem_of_mem_filter hx)

theorem Org.removeAll {c : Ctl} (h : Org c) (l : List DirEntry) :
    Org (l.foldl Ctl.removeDamaged c) ∧ (l.foldl Ctl.removeDamaged c).rows.ring = c.rows.ring
      ∧ (∀ r, ((l.foldl Ctl.removeDamaged c).rows.state r).isClosed = (c.rows.state r).isClosed)
      ∧ ∀ e ∈ (l.foldl Ctl.removeDamaged c).dir, e ∈ c.dir ∧ e ∉ l := by
  induction l generalizing c with
  | nil => exact ⟨h, rfl, fun _ => rfl, fun e he => ⟨he, by simp⟩⟩
  | cons x t ih =>
    obtain ⟨h1, h2, h3⟩ := h.removeDamaged x
    obtain ⟨i1, i2, i3, i4⟩ := ih h1
    refine ⟨i1, i2.trans h2, fun r => (i3 r).trans (h3 r), fun e he => ?_⟩
    obtain ⟨j1, j2⟩ := i4 e he
    rw [Ctl.removeDamaged_dir] at j1
    refine ⟨List.mem_of_mem_filter j1, fun hm => ?_⟩
    rcases List.mem_cons.1 hm with rfl | hm
    · simp [otherKeys] at j1
    · exact j2 hm

/-- The walk ends: no entry names the pass row any more (R133). -/
theorem Org.endWalk {c : Ctl} (h : Org c) {row : Nat} (hh : c.rows.ring.head? = some row)
    (hc : (c.rows.state row).isClosed = true) : (c.endWalk row).storeLaw := by
  obtain ⟨i1, i2, i3, i4⟩ := h.removeAll (c.dir.filter fun e => e.row = row)
  refine Good.idle ?_ rfl
  unfold Ctl.endWalk
  refine Good.quiet ?_ (Quiet.endAgentStep _)
  refine ⟨⟨i1.staging, i1.dir, i1.rows, i1.length, i1.mode⟩, ?_, ?_, fun e he hr => ?_⟩
  · exact (congrArg List.head? i2).trans hh
  · exact (i3 row).trans hc
  · obtain ⟨j1, j2⟩ := i4 e he
    exact j2 (List.mem_filter.2 ⟨j1, by simpa using hr⟩)

/-- The cursor of a pass moves on past a record (R128, R132, R133). -/
theorem Good.advanceCursor {c : Ctl} (h : Good c) {row cursor q : Nat} (hs : c.agent.state = .scanning row cursor) :
    (c.advanceCursor row cursor q).storeLaw := by
  have hp := h.pass
  rw [hs] at hp
  unfold Ctl.advanceCursor
  simp only
  split
  · refine Org.endWalk ?_ hp.1 hp.2.1
    exact ⟨h.staging, h.dir, h.rows, h.length, h.mode⟩
  · next h16 =>
    refine Good.endAgentStep ⟨⟨h.staging, h.dir, h.rows, h.length, h.mode⟩, hp.1, hp.2.1, ?_, ?_⟩
    · exact Nat.le_trans hp.2.2.1 (Nat.le_add_right _ _)
    · show cursor + q ≤ 15
      omega

/-! ### Steps that go on -/

theorem CurrentStep.activity_withActivity {s : CurrentStep} {act act' : Activity}
    (h : (s.withActivity act).activity = some act') : act' = act := by
  cases s with
  | none => cases h
  | port _ _ => exact (Option.some.inj h).symm
  | agent _ => exact (Option.some.inj h).symm

theorem CurrentStep.owns_withActivity {s : CurrentStep} {job : WriteJob} (act : Activity) (h : s.owns job) :
    (s.withActivity act).owns job := by
  cases s <;> cases hj : job.owner <;> simp_all [CurrentStep.owns, CurrentStep.withActivity]

/-- A port's record is written by a port operation. -/
theorem CurrentStep.not_owns {s : CurrentStep} {job : WriteJob} {b : Bool} (hj : job.owner = .port b)
    (hs : s = .none ∨ ∃ act, s = .agent act) : ¬ s.owns job := by
  unfold CurrentStep.owns
  rw [hj]
  rcases hs with rfl | ⟨_, rfl⟩ <;> exact id

/-- A step asks the Media Unit for an operation and goes on to an activity that is lawful. -/
theorem Good.goOn {c : Ctl} (h : Good c) (m : Media) {act : Activity} (ha : act.lawful c.rows c.dir)
    (ho : ∀ job, act.job = some job → c.sched.current.owns job) : ({ c with media := m }.setActivity act).storeLaw := by
  refine ⟨h.staging, h.dir, h.rows, Or.inr h.pass, fun act' ha' => ?_, fun hm => absurd hm h.mode, fun _ => h.length⟩
  have he := CurrentStep.activity_withActivity ha'
  rw [he]
  exact ⟨ha, fun job hj => CurrentStep.owns_withActivity act (ho job hj)⟩

theorem Good.rowsSame {c : Ctl} (h : Good c) {m : RowMgr} (hm : SameRows c.rows m) : Good { c with rows := m } :=
  h.quiet ⟨hm, rfl, Or.inl rfl, id, fun _ h => h⟩

/-- The row table changes within a step, the pass row staying the CLOSED tail. -/
theorem Good.withRows {c : Ctl} (h : Good c) {m : RowMgr} (hm : m.lawful c.dir) (hl : m.table.length = c.rows.table.length)
    (hh : c.rows.ring.head? ≠ none → m.ring.head? = c.rows.ring.head?)
    (hc : ∀ r, (c.rows.state r).isClosed = true → (m.state r).isClosed = true) : Good { c with rows := m } :=
  ⟨⟨h.staging, h.dir, hm, hl.trans h.length, h.mode⟩, passLaw_mono h.pass hh hc fun _ he => Or.inl he⟩

/-- The head is closed, if there is one. -/
theorem Good.closeHead {c : Ctl} (h : Good c) : Good { c with rows := c.rows.closeHead } ∧ c.rows.closeHead.headless := by
  obtain ⟨h1, h2, h3, h4, _, h6⟩ := RowMgr.lawful_closeHead h.rows
  refine ⟨h.withRows h1 h3 (fun _ => by rw [h4]) fun r hr => ?_, h2⟩
  rw [h6 r (RowState.isHead_of_isClosed hr)]
  exact hr

/-- A free row takes another state outside the ring. -/
theorem Good.setFree {c : Ctl} (h : Good c) {row : Nat} {st : RowState} (hf : (c.rows.state row).isFree = true)
    (hst : st.inRing = false) (hd : c.rows.headless) :
    Good { c with rows := c.rows.setState row st } ∧ (c.rows.setState row st).headless
      ∧ (c.rows.setState row st).state row = st := by
  have hsys : c.rows.state row ≠ .system := by
    intro hs
    rw [hs] at hf
    cases hf
  have hout : (c.rows.state row).inRing = false := by
    cases hx : c.rows.state row <;> rw [hx] at hf <;> first | rfl | cases hf
  have hs := RowMgr.state_setState (m := c.rows) st hsys
  refine ⟨h.withRows (RowMgr.lawful_setState_out h.rows hsys hout hst) (by simp) (fun _ => rfl) fun r hr => ?_,
    fun r => ?_, RowMgr.state_setState_same st hsys⟩
  · rw [hs, if_neg]
    · exact hr
    · rintro rfl
      rw [RowState.inRing_of_isClosed hr] at hout
      cases hout
  · rw [hs]
    split
    · cases st <;> first | rfl | cases hst
    · exact hd r

/-! ### Copies -/

theorem Good.copyWritten {c : Ctl} (h : Good c) {job : WriteJob} {row first : Nat} (hj : job.lawful c.dir)
    (hown : job.owner = .agent) (hh : (c.rows.state row).isHead = true)
    (hq : job.header.pages ≤ (c.rows.state row).deadPages) : (c.copyWritten job.header row first).storeLaw := by
  unfold Ctl.copyWritten
  split
  · next pass cursor hs =>
    have hk : ∃ e ∈ c.dir, e.key = job.header.key ∧ e.pages = job.header.pages := by
      have := hj.2.2
      rw [hown] at this
      exact this
    have h1 := h.relocate (row := row) (page := first) hk hh hq
    have ha : (c.relocate job.header.key row first).agent = c.agent := by
      unfold Ctl.relocate
      split <;> rfl
    generalize c.relocate job.header.key row first = d at h1 ha
    have h2 : Good { d with agent := { d.agent with copied := d.agent.copied + job.header.pages } } :=
      h1.quiet (Quiet.agentSame d rfl)
    refine h2.advanceCursor ?_
    show d.agent.state = _
    rw [ha, hs]
  all_goals exact h.endAgentStep

theorem Good.copyFailed {c : Ctl} (h : Good c) : c.copyFailed.storeLaw := by
  unfold Ctl.copyFailed
  split
  · split
    · exact h.haltAgent
    · exact (h.quiet (Quiet.agentSame _ rfl)).endAgentStep
  all_goals exact h.endAgentStep

/-! ### Head opens -/

/-- A head open is under way: no row is HEAD, its record is lawful and the step's own. -/
structure Opening (job : WriteJob) (c : Ctl) : Prop extends Good c where
  headless : c.rows.headless
  law : job.lawful c.dir
  own : c.sched.current.owns job

theorem Opening.quiet {job : WriteJob} {c d : Ctl} (h : Opening job c) (hq : Quiet c d)
    (hs : d.sched.current = c.sched.current) : Opening job d :=
  ⟨h.toGood.quiet hq, fun r => by rw [hq.rows.state]; exact h.headless r, hq.dir ▸ h.law, hs ▸ h.own⟩

theorem Good.openFailed {c : Ctl} (h : Good c) {job : WriteJob} (ho : c.sched.current.owns job) :
    (c.openFailed job).storeLaw := by
  unfold Ctl.openFailed
  split
  · exact h.haltAgent
  · exact h.refuse _ _
  · next h1 h2 => exact absurd ho (CurrentStep.not_owns h1 (Or.inr ⟨_, h2⟩))
  · next h1 h2 => exact absurd ho (CurrentStep.not_owns h1 (Or.inl h2))

theorem Opening.askErase {job : WriteJob} {c : Ctl} (h : Opening job c) {row left : Nat}
    (hr : c.rows.state row = .freeStale) : (c.askErase row (.openErase job row left)).storeLaw :=
  h.toGood.goOn _ ⟨h.law, h.headless, hr⟩ fun _ hj => Option.some.inj hj ▸ h.own

theorem Opening.programHeader {job : WriteJob} {again : Ctl → Ctl} (ha : ∀ d, Opening job d → (again d).storeLaw) {c : Ctl}
    (h : Opening job c) {row left : Nat} (hr : c.rows.state row = .freeReady) :
    (Ctl.programHeader again job row left c).storeLaw := by
  unfold Ctl.programHeader
  split
  · refine Good.openFailed (h.toGood.quiet (Quiet.enterReadOnly _ _)) ?_
    rw [Ctl.enterReadOnly_current]
    exact h.own
  · next hn =>
    have hlim : c.rows.openCounter.toNat < (c.rows.openCounter + 1).toNat := by
      have h1 : c.rows.openCounter.toNat ≠ 4294967295 := fun he => hn (BitVec.eq_of_toNat_eq he)
      have h2 := c.rows.openCounter.isLt
      rw [BitVec.toNat_add, show (1 : Word).toNat = 1 from rfl]
      omega
    have hbelow : ∀ r ∈ c.rows.ring, (c.rows.state r).openNumber < c.rows.openCounter.toNat := by
      intro r hr
      rcases h.rows.2.2.2.2 r hr with h1 | h1
      · exact h1
      · exact absurd h1 hn
    have h1 : Opening job { c with rows := { c.rows with openCounter := c.rows.openCounter + 1 } } := by
      refine ⟨h.toGood.withRows ?_ rfl (fun _ => rfl) (fun _ hr => hr), h.headless, h.law, h.own⟩
      obtain ⟨l1, l2, l3, l4, _⟩ := h.rows
      exact ⟨l1, l2, l3, l4, fun r hr => Or.inl (Nat.lt_trans (hbelow r hr) hlim)⟩
    simp only
    split
    · exact h1.toGood.goOn _ ⟨h1.law, h1.headless, hr, hbelow, hlim⟩ fun _ hj => Option.some.inj hj ▸ h1.own
    · obtain ⟨g1, g2, _⟩ := h1.toGood.setFree (row := row) (st := .freeStale) (by
        show (c.rows.state row).isFree = true
        rw [hr]
        rfl) rfl h1.headless
      have g3 := g1.rowsSame (m := (RowMgr.headerFailed { c.rows with openCounter := c.rows.openCounter + 1 } row))
        ⟨fun r => RowMgr.state_markSuspect _ _ _, rfl, rfl, RowMgr.markSuspect_length _ _⟩
      refine ha _ ⟨g3, fun r => ?_, h1.law, h1.own⟩
      show ((RowMgr.markSuspect _ row).state r).isHead = false
      rw [RowMgr.state_markSuspect]
      exact g2 r

theorem RowMgr.chooseRow_free {m : RowMgr} {row : Nat} (h : m.chooseRow = some row) : (m.state row).isFree = true := by
  unfold RowMgr.chooseRow at h
  simp only at h
  split at h
  · next r hf =>
    injection h with h
    subst h
    have := List.mem_of_find?_eq_some hf
    simpa using (List.mem_filter.1 this).2
  · have := List.mem_of_mem_head? h
    simpa using (List.mem_filter.1 this).2

theorem Opening.tryOpen {job : WriteJob} (left : Nat) {c : Ctl} (h : Opening job c) : (Machine.tryOpen job left c).storeLaw := by
  induction left generalizing c with
  | zero => exact h.toGood.openFailed h.own
  | succ n ih =>
    unfold Machine.tryOpen
    split
    · exact h.toGood.openFailed h.own
    · split
      · exact h.toGood.openFailed h.own
      · next row hr =>
        have h1 : Opening job { c with rows := { c.rows with openPtr := row } } :=
          ⟨h.toGood.rowsSame ⟨fun _ => rfl, rfl, rfl, rfl⟩, h.headless, h.law, h.own⟩
        simp only
        split
        · next hs => exact h1.askErase hs
        · next hs =>
          refine h1.programHeader (fun d hd => ih hd) ?_
          have hf := RowMgr.chooseRow_free hr
          show c.rows.state row = _
          have hs' : c.rows.state row ≠ .freeStale := hs
          cases hx : c.rows.state row <;> rw [hx] at hf hs' <;> first | rfl | exact absurd rfl hs' | cases hf

theorem Good.openHead {c : Ctl} (h : Good c) {job : WriteJob} (hj : job.lawful c.dir) (ho : c.sched.current.owns job) :
    (c.openHead job).storeLaw := by
  unfold Ctl.openHead
  split
  · obtain ⟨h1, h2⟩ := h.closeHead
    exact Opening.tryOpen 2 ⟨h1, h2, hj, ho⟩
  · exact h.openFailed ho

/-! ### Record writes -/

/-- A record is being written into the head, where its pages count as dead (R32). -/
structure Writing (job : WriteJob) (row : Nat) (c : Ctl) : Prop extends Good c where
  law : job.lawful c.dir
  own : c.sched.current.owns job
  head : (c.rows.state row).isHead = true
  pages : job.header.pages ≤ (c.rows.state row).deadPages

theorem Writing.recordWritten {job : WriteJob} {row first : Nat} {c : Ctl} (h : Writing job row c) :
    (c.recordWritten job row first).storeLaw := by
  unfold Ctl.recordWritten
  split
  · next ho => exact h.toGood.copyWritten h.law ho h.head h.pages
  · next ho hs =>
    have hr : (∃ x ∈ c.dir, x.key = job.header.key) ∨ c.dir.length < Config.directoryLimit := by
      have := h.law.2.2
      rw [ho] at this
      exact this
    exact h.toGood.completeWrite _ h.law.1 h.law.2.1 hr h.head h.pages
  · next h1 h2 => exact absurd h.own (CurrentStep.not_owns h1 (Or.inr ⟨_, h2⟩))
  · next h1 h2 => exact absurd h.own (CurrentStep.not_owns h1 (Or.inl h2))

theorem WriteJob.lawful_retry {dir : List DirEntry} {job : WriteJob} (h : job.lawful dir) (ho : job.owner = .port false) :
    WriteJob.lawful dir { job with owner := .port true } := by
  obtain ⟨h1, h2, h3⟩ := h
  rw [ho] at h3
  exact ⟨h1, h2, h3⟩

theorem Good.recordFailed {c : Ctl} (h : Good c) {job : WriteJob} (hj : job.lawful c.dir) (ho : c.sched.current.owns job)
    (row : Nat) : (c.recordFailed job row).storeLaw := by
  have h0 := h.rowsSame (m := c.rows.markSuspect row)
    ⟨fun r => RowMgr.state_markSuspect _ _ _, rfl, rfl, RowMgr.markSuspect_length _ _⟩
  obtain ⟨h1, _⟩ := h0.closeHead
  unfold Ctl.recordFailed
  simp only
  split
  · exact h1.copyFailed
  · next hown =>
    refine h1.openHead (WriteJob.lawful_retry hj hown) ?_
    show c.sched.current.owns _
    revert ho
    unfold CurrentStep.owns
    rw [hown]
    cases c.sched.current <;> exact id
  · exact h1.refuse _ _
  · next h1 h2 => exact absurd ho (CurrentStep.not_owns h1 (Or.inr ⟨_, h2⟩))
  · next h1 h2 => exact absurd ho (CurrentStep.not_owns h1 (Or.inl h2))

theorem Writing.programPage {job : WriteJob} {row : Nat} {c : Ctl} (h : Writing job row c) (first idx : Nat) :
    (c.programPage job row first idx).storeLaw := by
  unfold Ctl.programPage
  split
  · exact h.toGood.goOn _ ⟨h.law, h.head, h.pages⟩ fun _ hj => Option.some.inj hj ▸ h.own
  · exact h.toGood.recordFailed h.law h.own row

theorem Writing.pageWritten {job : WriteJob} {row : Nat} {c : Ctl} (h : Writing job row c) (first idx : Nat) :
    (c.pageWritten job row first idx).storeLaw := by
  unfold Ctl.pageWritten
  split
  · exact h.recordWritten
  · exact h.programPage _ _

/-- A record is allocated in the head, where it fits (R32). -/
theorem Good.startRecord {c : Ctl} (h : Good c) {job : WriteJob} (hj : job.lawful c.dir) (ho : c.sched.current.owns job)
    {row : Nat} (hr : c.rows.headRow = some row) (hp : job.header.pages ≤ (c.rows.state row).freePages) :
    (c.startRecord job).storeLaw := by
  unfold Ctl.startRecord
  rw [hr]
  have hh := RowMgr.headRow_isHead hr
  have hsys := RowState.ne_system_of_inRing (RowState.inRing_of_isHead hh)
  have hs := RowMgr.state_setState (m := c.rows) ((c.rows.state row).allocate job.header.pages) hsys
  have hw : Writing job row { c with rows := c.rows.setState row ((c.rows.state row).allocate job.header.pages) } := ?_
  · exact hw.programPage _ _
  refine ⟨h.withRows ?_ (by simp) (fun _ => rfl) fun r hr' => ?_, hj, ho, ?_, ?_⟩
  · exact RowMgr.lawful_setState h.rows hsys (by simp) (by simp) (by simp) (RowState.counted_allocate (h.rows.1 row) hh hp)
      fun _ _ => rfl
  · rw [hs]
    split
    · next e => rw [RowState.allocate_isClosed, ← e]; exact hr'
    · exact hr'
  · show ((c.rows.setState row _).state row).isHead = true
    rw [hs, if_pos rfl, RowState.allocate_isHead]
    exact hh
  · show _ ≤ ((c.rows.setState row _).state row).deadPages
    rw [hs, if_pos rfl]
    exact RowState.deadPages_allocate hh

theorem Ctl.fitsHead_some {c : Ctl} {p : Nat} (h : c.fitsHead p = true) :
    ∃ row, c.rows.headRow = some row ∧ p ≤ (c.rows.state row).freePages := by
  unfold Ctl.fitsHead at h
  split at h
  · cases h
  · next r hr =>
    rw [Bool.and_eq_true] at h
    exact ⟨r, hr, by simpa using h.1⟩

theorem Good.placeRecord {c : Ctl} (h : Good c) {job : WriteJob} (hj : job.lawful c.dir) (ho : c.sched.current.owns job) :
    (c.placeRecord job).storeLaw := by
  unfold Ctl.placeRecord
  split
  · next hf =>
    obtain ⟨row, h1, h2⟩ := Ctl.fitsHead_some hf
    exact h.startRecord hj ho h1 h2
  · exact h.openHead hj ho

/-- The header program of a head open passes: the row becomes the head (R35, step 3). -/
theorem Opening.headOpened {job : WriteJob} {c : Ctl} (h : Opening job c) {row : Nat} {n : Word}
    (hr : c.rows.state row = .freeReady) (hn : ∀ r ∈ c.rows.ring, (c.rows.state r).openNumber < n.toNat)
    (ho : n.toNat < c.rows.openCounter.toNat) : (c.headOpened job row n).storeLaw := by
  have hsys : c.rows.state row ≠ .system := by rw [hr]; exact fun h => by cases h
  have hs : ∀ r, (c.rows.becomeHead row n).state r = if r = row then .head n 0 0 1 else c.rows.state r :=
    RowMgr.state_setState (.head n 0 0 1) hsys
  have hl := RowMgr.lawful_becomeHead h.rows h.headless h.length hr hn ho
  have hg : Good { c with rows := c.rows.becomeHead row n } := by
    refine h.toGood.withRows hl (RowMgr.setState_length _ _ _) (fun hne => ?_) fun r hc => ?_
    · show (c.rows.ring ++ [row]).head? = _
      cases hx : c.rows.ring with
      | nil => rw [hx] at hne; exact absurd rfl hne
      | cons a t => rfl
    · rw [hs, if_neg]
      · exact hc
      · rintro rfl
        rw [hr] at hc
        cases hc
  have hrow : (c.rows.becomeHead row n).headRow = some row := by
    cases hx : (c.rows.becomeHead row n).headRow with
    | none =>
      have := RowMgr.headless_of_headRow hx row
      rw [hs, if_pos rfl] at this
      cases this
    | some r =>
      have h1 := RowMgr.headRow_isHead hx
      rw [hs] at h1
      split at h1
      · next e => rw [e]
      · rw [h.headless r] at h1
        cases h1
  unfold Ctl.headOpened
  refine hg.startRecord h.law h.own hrow ?_
  show _ ≤ ((c.rows.becomeHead row n).state row).freePages
  rw [hs, if_pos rfl, h.law.2.1]
  exact Nat.le_trans (pagesFor_le h.law.1) (by show 9 ≤ 16 - 1; decide)

/-! ### Image writes, retirement and the end of a pass -/

/-- A pass ends, the agent IDLE (R134). -/
theorem Org.endPass {c : Ctl} (h : Org c) (n : Nat) : (c.endPass n).storeLaw := by
  have h0 : Org (c.answerTied n) := h.quiet (Quiet.answerTied c n)
  have h1 : Good { c.answerTied n with agent := Agent.reset } :=
    ⟨⟨h0.staging, h0.dir, h0.rows, h0.length, h0.mode⟩, trivial⟩
  unfold Ctl.endPass
  simp only
  refine Good.endAgentStep ?_
  split
  · exact h1.quiet (Quiet.answerCompactList _ _)
  · split
    · exact h1
    · exact h1.quiet (Quiet.answerAllZero _)
  · exact h1

/-- What an image write's asker rests on: the head open its record and the missing head, the tail's retirement the step under
way. -/
def Asking (asker : ImageFor) (c : Ctl) : Prop :=
  match asker with
  | .setconf => Good c ∧ c.sched.current.lawful c.rows c.dir
  | .openHead job _ => Opening job c
  | .tail => Org c ∧ c.sched.current ≠ .none

theorem Asking.quiet {asker : ImageFor} {c d : Ctl} (h : Asking asker c) (hq : Quiet c d) (hr : d.rows = c.rows)
    (hs : d.sched.current = c.sched.current) : Asking asker d := by
  cases asker with
  | setconf => exact ⟨h.1.quiet hq, by rw [hs, hr, hq.dir]; exact h.2⟩
  | openHead job left => exact Opening.quiet h hq hs
  | tail => exact ⟨h.1.quiet hq, hs ▸ h.2⟩

theorem Ctl.enterReadOnly_rows (c : Ctl) (r : Reason) : (c.enterReadOnly r).rows = c.rows := by
  have hf : ∀ (l : List CompactReq) (f : Ctl → CompactReq → Ctl), (∀ d r, (f d r).rows = d.rows) →
      ∀ d, (l.foldl f d).rows = d.rows := by
    intro l f hf
    induction l with
    | nil => exact fun d => rfl
    | cons r t ih => exact fun d => (ih _).trans (hf d r)
  unfold Ctl.enterReadOnly
  split
  · simp only
    split
    · refine hf _ _ (fun d r => ?_) _
      split <;> (unfold Ctl.answerCompact; split <;> rfl)
    · rfl
    · rfl
  · rfl
  · rfl

theorem Asking.readOnly {asker : ImageFor} {c : Ctl} (h : Asking asker c) (r : Reason) : Asking asker (c.enterReadOnly r) :=
  h.quiet (Quiet.enterReadOnly c r) (Ctl.enterReadOnly_rows c r) (Ctl.enterReadOnly_current c r)

theorem Asking.imageEnded {asker : ImageFor} {c : Ctl} (h : Asking asker c) (g : Option Word) :
    (c.imageEnded asker g).storeLaw := by
  unfold Ctl.imageEnded
  split
  · have hs : c.storeLaw :=
      ⟨h.1.staging, h.1.dir, h.1.rows, Or.inr h.1.pass, h.2, fun hm => absurd hm h.1.mode, fun _ => h.1.length⟩
    split
    · exact h.1.complete _ _ _
    · exact h.1.refuse _ _
    · exact hs
    · exact hs
  · next job left =>
    refine Opening.tryOpen left ?_
    split
    · exact h
    · exact h.readOnly .config
  · refine Org.endPass ?_ 0
    split
    · exact h.1
    · exact (h.readOnly .config).1

/-- An image write goes on to a stage. -/
theorem Asking.goOn {asker : ImageFor} {c : Ctl} (h : Asking asker c) (m : Media) (stage : ImageStage) (plan : ImagePlan) :
    ({ c with media := m }.setActivity (.image stage plan asker)).storeLaw := by
  cases asker with
  | setconf => exact h.1.goOn m trivial fun _ hj => by cases hj
  | openHead job left => exact h.toGood.goOn m ⟨h.law, h.headless⟩ fun _ hj => Option.some.inj hj ▸ h.own
  | tail =>
    refine ⟨h.1.staging, h.1.dir, h.1.rows, Or.inl ⟨stage, plan, ?_⟩, fun act ha => ?_, fun hm => absurd hm h.1.mode,
      fun _ => h.1.length⟩
    · show (c.sched.current.withActivity _).activity = _
      cases hs : c.sched.current with
      | none => exact absurd hs h.2
      | port _ _ => rfl
      | agent _ => rfl
    · rw [CurrentStep.activity_withActivity ha]
      exact ⟨trivial, fun _ hj => by cases hj⟩

theorem Asking.writeImage {asker : ImageFor} {c : Ctl} (h : Asking asker c) (settings : Settings) (lock : Byte)
    (retired : List Byte) : (c.writeImage settings lock retired asker).storeLaw := by
  unfold Ctl.writeImage
  split
  · exact h.imageEnded _
  · exact h.goOn _ _ _

theorem Asking.imageWritten {asker : ImageFor} {c : Ctl} (h : Asking asker c) (plan : ImagePlan) (b : Bool) :
    (c.imageWritten plan asker b).storeLaw := by
  have h1 : Asking asker { c with conf := { c.conf.setFaulted plan.target b with stored := some ⟨plan.target, plan.image⟩ } } :=
    h.quiet (Quiet.conf c _) rfl rfl
  exact h1.imageEnded _

theorem Asking.imageFailed {asker : ImageFor} {c : Ctl} (h : Asking asker c) (plan : ImagePlan) :
    (c.imageFailed plan asker).storeLaw := by
  have h1 : Asking asker { c with conf := c.conf.setFaulted plan.target true } := h.quiet (Quiet.conf c _) rfl rfl
  exact h1.imageEnded _

theorem Asking.programImage {asker : ImageFor} {c : Ctl} (h : Asking asker c) (plan : ImagePlan) :
    (c.programImage plan asker).storeLaw := by
  unfold Ctl.programImage
  split
  · exact h.goOn _ _ _
  · exact h.goOn _ _ _

/-- A retirement (R175), for a head open or the pass row. -/
theorem Asking.retireRow {asker : ImageFor} {c : Ctl} (h : Asking asker c) (ha : asker ≠ .setconf) (row : Nat) :
    (c.retireRow row asker).storeLaw := by
  unfold Ctl.retireRow
  split
  · have h1 := h.readOnly .media
    simp only
    split
    · exact absurd rfl ha
    · next job left => exact Opening.tryOpen left h1
    · exact h1.1.endPass 0
  · have h1 : Asking asker
        { c with conf := { c.conf with retired := insertBy BitVec.toNat (natByte row) c.conf.retired } } :=
      h.quiet (Quiet.conf c _) rfl rfl
    exact h1.writeImage _ _ _

theorem Opening.openErased {job : WriteJob} {c : Ctl} (h : Opening job c) {row left : Nat}
    (hr : c.rows.state row = .freeStale) (passed : Bool) : (c.openErased job row left passed).storeLaw := by
  have hf : (c.rows.state row).isFree = true := by rw [hr]; rfl
  unfold Ctl.openErased
  split
  · obtain ⟨h1, h2, h3⟩ := h.toGood.setFree (st := .freeReady) hf rfl h.headless
    exact Opening.programHeader (fun d hd => hd.tryOpen left) ⟨h1, h2, h.law, h.own⟩ h3
  · obtain ⟨h1, h2, _⟩ := h.toGood.setFree (st := .retired) hf rfl h.headless
    have ho : Opening job { c with rows := c.rows.retire row } := ⟨h1, h2, h.law, h.own⟩
    exact Asking.retireRow (asker := .openHead job left) ho (by simp) row

theorem Opening.headerFailed {job : WriteJob} {c : Ctl} (h : Opening job c) {row left : Nat}
    (hr : c.rows.state row = .freeReady) : (c.headerFailed job row left).storeLaw := by
  obtain ⟨h1, h2, _⟩ := h.toGood.setFree (row := row) (st := .freeStale) (by rw [hr]; rfl) rfl h.headless
  have g := h1.rowsSame (m := c.rows.headerFailed row)
    ⟨fun r => RowMgr.state_markSuspect _ _ _, rfl, rfl, RowMgr.markSuspect_length _ _⟩
  refine Opening.tryOpen left ⟨g, fun r => ?_, h.law, h.own⟩
  show ((RowMgr.markSuspect _ row).state r).isHead = false
  rw [RowMgr.state_markSuspect]
  exact h2 r

/-- The tail is erased or retired and leaves the ring (R134). -/
theorem Org.tailErased {c : Ctl} (h : Org c) {row : Nat} (hc : (c.rows.state row).isClosed = true) (hd : ∀ e ∈ c.dir, e.row ≠ row) (hs : c.sched.current ≠ .none) (passed : Bool) :
    (c.tailErased row passed).storeLaw := by
  have leave : ∀ st : RowState, st.inRing = false →
      Org { c with sched := c.sched.countReclaim, rows := (c.rows.setState row st).leaveRing row } := fun st hst =>
    ⟨h.staging, h.dir, RowMgr.lawful_leaveRing h.rows hc hst (livePages_none hd),
      (RowMgr.setState_length _ _ _).trans h.length, h.mode⟩
  unfold Ctl.tailErased
  simp only
  split
  · exact (leave .freeReady rfl).endPass 1
  · exact Asking.retireRow (asker := .tail) ⟨leave .retired rfl, hs⟩ (by simp) row

/-! ### The starts of port operations -/

theorem Good.askRead {c : Ctl} (h : Good c) (row page : Nat) {act : Activity} (ha : act.lawful c.rows c.dir)
    (ho : act.job = none) : (c.askRead row page act).storeLaw :=
  h.goOn _ ha fun _ hj => by rw [ho] at hj; cases hj

/-- A port write takes its number and is placed (R112). -/
theorem Good.startWrite {c : Ctl} (h : Good c) {hd : RecHeader} (payload : List Byte) {req : Request} {act : Activity}
    (hl : hd.length ≤ Config.payloadLimit) (hp : hd.pages = pagesFor hd.length)
    (hr : (∃ x ∈ c.dir, x.key = hd.key) ∨ c.dir.length < Config.directoryLimit) (hs : c.sched.current = .port req act) :
    (c.startWrite hd payload).storeLaw := by
  have h1 : Good c.takeSequence :=
    h.quiet ⟨⟨fun _ => rfl, rfl, rfl, rfl⟩, rfl, Or.inl rfl, id, fun _ h => h⟩
  refine h1.placeRecord ⟨hl, hp, hr⟩ ?_
  show c.sched.current.owns _
  rw [hs]
  trivial

theorem Good.beginRead {c : Ctl} (h : Good c) {k : Half} {e : DirEntry} (he : c.lookup k = some e) (full : Bool) :
    (c.beginRead k full).storeLaw := by
  unfold Ctl.beginRead
  rw [he]
  exact h.askRead _ _ (Ctl.lookup_mem he) rfl

theorem firstRefusal_none {l : List (Option Status)} (h : firstRefusal l = none) : ∀ x ∈ l, x = none := by
  induction l with
  | nil => simp
  | cons x t ih =>
    cases x with
    | none => simpa using ih h
    | some _ => cases h

theorem refuseIf_none {b : Bool} {st : Status} (h : refuseIf b st = none) : b = false := by
  cases b with
  | false => rfl
  | true => cases h

theorem Ctl.entry_of_refusal {c : Ctl} {k : Half} (h : c.entryRefusal k = none) : ∃ e, c.lookup k = some e := by
  have := refuseIf_none h
  cases hk : c.lookup k with
  | none => rw [hk] at this; cases this
  | some e => exact ⟨e, rfl⟩

/-- Where its re-checks pass, the room for a key without an entry is there (R43, R109). -/
theorem Ctl.room_of_refusal {c : Ctl} {k : Half} (h : c.roomRefusal k = none) :
    (∃ x ∈ c.dir, x.key = k) ∨ c.dir.length < Config.directoryLimit := by
  have := refuseIf_none h
  cases hk : c.lookup k with
  | none =>
    rw [hk] at this
    right
    simpa using this
  | some e => exact Or.inl ⟨e, Ctl.lookup_mem hk, Ctl.lookup_key hk⟩

theorem Ctl.submitted_sound {c : Ctl} (h : c.stagingLaw) {p : Port} {k : Composition} (hk : c.submitted p = some k) :
    k.declared ≤ Config.payloadLimit := by
  have hp := h p
  unfold Ctl.submitted at hk
  split at hk
  · next k' hs =>
    injection hk with hk
    rw [hs, hk] at hp
    exact hp
  · cases hk
  · cases hk

theorem Good.execute {c : Ctl} (h : Good c) (req : Request) (full : Bool) (hs : c.sched.current = .port req .starting) :
    (c.execute req full).storeLaw := by
  have hlaw : c.sched.current.lawful c.rows c.dir := by
    intro act ha
    rw [hs] at ha
    cases ha
    exact ⟨trivial, fun _ hj => by cases hj⟩
  have hstuck : c.storeLaw :=
    ⟨h.staging, h.dir, h.rows, Or.inr h.pass, hlaw, fun hm => absurd hm h.mode, fun _ => h.length⟩
  unfold Ctl.execute
  split
  · exact h.refuse _ _
  · next hr =>
    unfold Ctl.recheck at hr
    split
    · next release hb =>
      rw [hb] at hr
      unfold Ctl.beginCommit
      split
      · next k hk =>
        simp only [hk] at hr
        have hroom := firstRefusal_none hr (c.roomRefusal k.key) (by simp)
        split
        · exact h.refuse _ _
        · exact h.startWrite _ (Ctl.submitted_sound h.staging hk) rfl (Ctl.room_of_refusal hroom) hs
      · exact hstuck
    · next k hb =>
      rw [hb] at hr
      have he := firstRefusal_none hr (c.entryRefusal k) (by simp)
      unfold Ctl.beginDelete
      split
      · next e hk =>
        split
        · exact h.refuse _ _
        · exact h.startWrite _ (Nat.zero_le _) (show 1 = pagesFor 0 by decide) (Or.inl ⟨e, Ctl.lookup_mem hk, rfl⟩) hs
      · exact hstuck
    · next k offset count hb =>
      rw [hb] at hr
      have he := firstRefusal_none hr (c.readRefusal req.port k) (by simp)
      cases hk : c.lookup k with
      | none =>
        unfold Ctl.readRefusal at he
        rw [hk] at he
        cases he
      | some e => exact h.beginRead hk false
    · next k hb =>
      rw [hb] at hr
      obtain ⟨e, hk⟩ := Ctl.entry_of_refusal (firstRefusal_none hr (c.entryRefusal k) (by simp))
      exact h.beginRead hk full
    · unfold Ctl.handOn
      split
      · exact Good.idle (h.quiet ((Quiet.onPort c _ _ id).trans (Quiet.endTurn _))) rfl
      · simp only
        split
        · exact Good.idle (h.quiet ((Quiet.answerCompact c _ _ _).trans (Quiet.endTurn _))) rfl
        · have h1 : Good { c with sched := { c.sched with
              compactList := c.sched.compactList ++ [⟨req.port, req.tag, false, false⟩] } } := h.quiet (Quiet.sched c rfl)
          exact Good.idle (h1.quiet (Quiet.endTurn _)) rfl
    · unfold Ctl.beginSetconf
      split
      · exact h.refuse _ _
      · exact Asking.writeImage (asker := .setconf) ⟨h, hlaw⟩ _ _ _
    · unfold Ctl.beginReload
      split
      · exact h.completeReload _ _ _
      · exact h.askRead _ _ trivial rfl

theorem Good.servePort {c : Ctl} (h : Good c) (hs : c.sched.current = .none) (p : Port) : (c.servePort p).storeLaw := by
  unfold Ctl.servePort
  split
  · exact h.idle hs
  · next req rest _ =>
    have h1 : Good { c with sched := { c.sched with
        lists := c.sched.lists.set p rest
        waits := c.sched.waits.set p none
        searchStart := nextPort p
        current := .port req .starting } } := h.quiet (Quiet.sched c rfl)
    exact h1.execute req _ rfl

theorem Good.startAgent {c : Ctl} (h : Good c) (hw : c.agentHasWork = true) : c.startAgent.storeLaw := by
  have h1 : Good (c.setCurrent (.agent .starting)) := h.quiet (Quiet.setCurrent c _)
  have h2 : Good (if (c.setCurrent (.agent .starting)).agent.state = .idle then (c.setCurrent (.agent .starting)).beginPass
      else c.setCurrent (.agent .starting)) := by
    split
    · unfold Ctl.agentHasWork at hw
      simp only [Bool.and_eq_true] at hw
      have ht := hw.1.2
      unfold RowMgr.tailClosed at ht
      cases hr : c.rows.ring with
      | nil => rw [hr] at ht; cases ht
      | cons r t =>
        rw [hr] at ht
        refine ⟨⟨h.staging, h.dir, h.rows, h.length, h.mode⟩, ?_⟩
        show passLaw c.rows c.dir (.scanning (c.rows.ring.headD 0) 1)
        refine ⟨by rw [hr]; rfl, ?_, Nat.le_refl _, by decide⟩
        rw [hr]
        exact ht
    · exact h1
  unfold Ctl.startAgent
  simp only
  split
  · exact h2.askRead _ _ trivial rfl
  · exact h2.goOn _ trivial fun _ hj => by cases hj
  · exact h2.endAgentStep
  · exact h2.endAgentStep

end Sys2Proof.Machine
end

