-- ==== Sys2Proof/Laws/StoreSteps.lean ====
section
/-! SUPPORT. Store laws, continued: the Scheduler's choice, the outcomes of array operations and the arrivals of commands keep the
law of the store. -/

namespace Sys2Proof.Machine

/-! ### What the law gives at a step -/

theorem CurrentStep.eq_none {s : CurrentStep} (h : s.activity = Option.none) : s = .none := by
  cases s with
  | none => rfl
  | port _ _ => cases h
  | agent _ => cases h

/-- While a step executes mount has ended. -/
theorem Ctl.storeLaw.org {c : Ctl} (h : c.storeLaw) (hm : c.sched.mode ≠ .mounting) : Org c :=
  ⟨h.1, h.2.1, h.2.2.1, h.2.2.2.2.2.2 hm, hm⟩

theorem Ctl.storeLaw.ended {c : Ctl} (h : c.storeLaw) {act : Activity} (ha : c.sched.current.activity = some act) :
    c.sched.mode ≠ .mounting := by
  intro hm
  have := (h.2.2.2.2.2.1 hm).2.2.2.2.2.1
  rw [this] at ha
  cases ha

/-- The law between two changes of a step, while its activity is no retirement of the pass row. -/
theorem Ctl.storeLaw.good {c : Ctl} (h : c.storeLaw) (hm : c.sched.mode ≠ .mounting)
    (ha : ∀ stage plan, c.sched.current.activity ≠ some (.image stage plan .tail)) : Good c :=
  ⟨h.org hm, h.2.2.2.1.resolve_left fun ⟨stage, plan, hp⟩ => ha stage plan hp⟩

theorem Ctl.storeLaw.idleGood {c : Ctl} (h : c.storeLaw) (hs : c.sched.current = .none) (hm : c.sched.mode ≠ .mounting) :
    Good c := h.good hm fun _ _ => by rw [hs]; exact fun h => by cases h

/-- What an image write under way rests on. -/
theorem Ctl.storeLaw.asking {c : Ctl} (h : c.storeLaw) {stage : ImageStage} {plan : ImagePlan} {asker : ImageFor}
    (ha : c.sched.current.activity = some (.image stage plan asker)) : Asking asker c := by
  have hm := h.ended ha
  have hl := h.2.2.2.2.1 _ ha
  cases asker with
  | setconf => exact ⟨h.good hm (fun _ _ hp => by rw [ha] at hp; cases hp), h.2.2.2.2.1⟩
  | openHead job left =>
    exact ⟨h.good hm (fun _ _ hp => by rw [ha] at hp; cases hp), hl.1.2, hl.1.1, hl.2 job rfl⟩
  | tail =>
    refine ⟨h.org hm, fun hs => ?_⟩
    rw [hs] at ha
    cases ha

/-! ### The Scheduler's choice -/

/-- Changes that leave the store as it is, at any moment: what the law reads stays. -/
structure Still (c d : Ctl) : Prop where
  rows : d.rows = c.rows
  dir : d.dir = c.dir
  agent : d.agent.state = c.agent.state
  mode : d.sched.mode = c.sched.mode
  activity : d.sched.current.activity = c.sched.current.activity
  owns : ∀ job, c.sched.current.owns job → d.sched.current.owns job
  requests : c.sched.mode = .mounting → (∀ p, c.requests p = []) → ∀ p, d.requests p = []
  compact : c.sched.compactList = [] → d.sched.compactList = []
  phase : d.mount.phase = c.mount.phase
  retired : d.conf.retired = c.conf.retired
  staging : ∀ p, (c.port p).staging.sound → (d.port p).staging.sound

theorem Still.law {c d : Ctl} (hs : Still c d) (h : c.storeLaw) : d.storeLaw := by
  obtain ⟨h1, h2, h3, h4, h5, h6, h7⟩ := h
  refine ⟨fun p => hs.staging p (h1 p), hs.dir ▸ h2, by rw [hs.rows, hs.dir]; exact h3, ?_, fun act ha => ?_, fun hm => ?_,
    fun hm => ?_⟩
  · rcases h4 with ⟨stage, plan, hp⟩ | h4
    · exact Or.inl ⟨stage, plan, hs.activity.trans hp⟩
    · rw [hs.rows, hs.dir, hs.agent]
      exact Or.inr h4
  · rw [hs.activity] at ha
    rw [hs.rows, hs.dir]
    exact ⟨(h5 act ha).1, fun job hj => hs.owns job ((h5 act ha).2 job hj)⟩
  · rw [hs.mode] at hm
    obtain ⟨m1, m2, m3, m4, m5, m6, m7, m8⟩ := h6 hm
    refine ⟨by rw [hs.rows]; exact m1, by rw [hs.rows]; exact m2, hs.dir.trans m3, hs.requests hm m4, hs.compact m5, ?_,
      hs.agent.trans m7, ?_⟩
    · refine CurrentStep.eq_none (hs.activity.trans ?_)
      rw [m6]
      rfl
    · rw [hs.phase, hs.retired]
      exact m8
  · rw [hs.rows]
    exact h7 (hs.mode ▸ hm)

theorem Still.of_view {c d : Ctl} (h : d.storeView = c.storeView) : Still c d := by
  unfold Ctl.storeView at h
  simp only [Prod.mk.injEq] at h
  obtain ⟨⟨h1, h2, h3⟩, ⟨h4, h5, h6⟩, h7⟩ := h
  refine ⟨h1, h2, by rw [h3], by rw [h4], by rw [h4], fun job hj => by rw [h4]; exact hj, fun _ hr p => ?_,
    fun hc => by rw [h4]; exact hc, by rw [h5], by rw [h6], fun p hp => ?_⟩
  · show d.sched.lists.get p = []
    rw [h4]
    exact hr p
  · rw [show (d.port p).staging = (c.port p).staging from congrFun h7 p]
    exact hp

theorem Still.onPort (c : Ctl) (p : Port) (g : PortUnit → PortUnit)
    (hg : (c.port p).staging.sound → (g (c.port p)).staging.sound) : Still c (c.onPort p g) :=
  ⟨rfl, rfl, rfl, rfl, rfl, fun _ h => h, fun _ h => h, id, rfl, rfl, (Quiet.onPort c p g hg).staging⟩

/-- During mount the Scheduler has nothing to choose (R123). -/
theorem Ctl.mountLaw.nothing {c : Ctl} (h : c.mountLaw) (hm : c.sched.mode = .mounting) : c.choose = .nothing := by
  have hp : c.portServed = none := by
    unfold Ctl.portServed
    rw [List.find?_eq_none]
    intro p _
    unfold Ctl.eligible
    rw [h.2.2.2.1 p]
    simp
  have ha : c.agentHasWork = false := by
    unfold Ctl.agentHasWork
    rw [hm]
    rfl
  unfold Ctl.choose
  rw [hp, ha]

theorem Still.judgeWaits (c : Ctl) : Still c c.judgeWaits :=
  ⟨rfl, rfl, rfl, rfl, rfl, fun _ h => h, fun _ h => h, id, rfl, rfl, fun _ h => h⟩

theorem Ctl.storeLaw.chooseSteps (n : Nat) {c : Ctl} (h : c.storeLaw) (hs : c.sched.current = .none) :
    (Machine.chooseSteps n c).storeLaw := by
  induction n generalizing c with
  | zero => exact h
  | succ n ih =>
    have h1 := (Still.judgeWaits c).law h
    unfold Machine.chooseSteps
    simp only
    by_cases hm : c.sched.mode = .mounting
    · rw [(h1.2.2.2.2.2.1 hm).nothing hm]
      exact h1
    · have hg : Good c.judgeWaits := h1.idleGood hs hm
      split
      · exact h1
      · next hc =>
        refine hg.startAgent ?_
        unfold Ctl.choose at hc
        split at hc <;> first | (cases hc; done) | assumption
      · have h2 := hg.servePort hs
        split
        · next hd => exact ih (h2 _) hd
        · exact h2 _

theorem Ctl.storeLaw.schedule {c : Ctl} (h : c.storeLaw) : c.schedule.storeLaw := by
  unfold Ctl.schedule
  split
  · next hs => exact h.chooseSteps _ hs
  · exact h

/-! ### The outcomes of array operations -/

/-- What a valid header states (R24). -/
theorem parseHeader_law {page : Page} {first : Nat} {h : RecHeader} (hp : parseHeader page first = some h) :
    keyOk h.key = true ∧ h.length ≤ Config.payloadLimit ∧ h.pages = pagesFor h.length ∧ first + h.pages ≤ 16 := by
  unfold parseHeader at hp
  split at hp
  · simp only at hp
    split at hp
    · next hc =>
      injection hp with hp
      subst hp
      simp only [Bool.and_eq_true, decide_eq_true_eq] at hc
      obtain ⟨⟨⟨⟨⟨_, h1⟩, h2⟩, h3⟩, _⟩, h4⟩ := hc
      exact ⟨h1, h2, h3, by dsimp only at h4 ⊢; omega⟩
    · cases hp
  · cases hp

theorem checkRecord_law {e : DirEntry} {pages : List Page} {h : RecHeader} (hc : checkRecord e pages = some h) :
    h.length ≤ Config.payloadLimit ∧ h.pages = pagesFor h.length ∧ h.key = e.key := by
  unfold checkRecord at hc
  split at hc
  · next h' hp =>
    split at hc
    · next hk =>
      injection hc with hc
      subst hc
      simp only [RecHeader.agrees, Bool.and_eq_true, decide_eq_true_eq] at hk
      obtain ⟨_, h1, h2, _⟩ := parseHeader_law hp
      exact ⟨h1, h2, hk.1.1.1.1⟩
    · cases hc
  · cases hc

theorem Good.stuck {c : Ctl} (h : Good c) (hl : c.sched.current.lawful c.rows c.dir) : c.storeLaw :=
  ⟨h.staging, h.dir, h.rows, Or.inr h.pass, hl, fun hm => absurd hm h.mode, fun _ => h.length⟩

theorem Good.recordRead {c : Ctl} (h : Good c) {req : Request} {act : Activity} (hs : c.sched.current = .port req act)
    (hl : c.sched.current.lawful c.rows c.dir) {e : DirEntry} (he : e ∈ c.dir) (pages : List Page) (full : Bool) :
    (c.recordRead req e pages full).storeLaw := by
  unfold Ctl.recordRead
  split
  · exact h.refuse _ _
  · next hd hc =>
    obtain ⟨c1, c2, c3⟩ := checkRecord_law hc
    split
    · exact h.complete _ _ _
    · split
      · exact h.refuse _ _
      · exact h.startWrite (hd := { hd with kind := .frozen, writer := req.port }) _ c1 c2 (Or.inl ⟨e, he, c3.symm⟩) hs
    all_goals exact h.stuck hl

theorem Good.imageRead {c : Ctl} (h : Good c) (req : Request) (data : Page) : (c.imageRead req data).storeLaw := by
  unfold Ctl.imageRead
  split
  · split
    · exact h.completeReload _ _ _
    · exact h.refuse _ _
  · exact h.refuse _ _

/-- The agent handles the record at the cursor (Table 29). -/
theorem Good.handleRecord {c : Ctl} (h : Good c) {act : Activity} (hs : c.sched.current = .agent act) {hd : RecHeader}
    {page : Page} {row cursor : Nat} (ha : c.agent.state = .scanning row cursor) (hp : parseHeader page cursor = some hd)
    (pages : List Page) : (c.handleRecord hd pages row cursor).storeLaw := by
  obtain ⟨_, p1, p2, _⟩ := parseHeader_law hp
  have drop : (c.dropRecord row cursor hd.pages).storeLaw := by
    unfold Ctl.dropRecord
    have h1 : Good { c with agent := { c.agent with dropped := c.agent.dropped + 1 } } := h.quiet (Quiet.agentSame c rfl)
    exact h1.advanceCursor ha
  unfold Ctl.handleRecord
  split
  · next e hk =>
    split
    · split
      · next hc =>
        rw [Bool.and_eq_true] at hc
        simp only [RecHeader.agrees, Bool.and_eq_true, decide_eq_true_eq] at hc
        have he := Ctl.lookup_mem hk
        refine h.placeRecord ⟨p1, p2, e, he, hc.1.1.1.1.symm, ?_⟩ ?_
        · show e.pages = hd.pages
          rw [(h.dir.2.2 e he).2, p2, hc.1.2]
        · rw [hs]
          trivial
      · refine (h.removeDamaged e).advanceCursor ?_
        show (c.oldPagesDie e.key).agent.state = _
        rw [Ctl.oldPagesDie_eq]
        exact ha
    · exact drop
  · exact drop

theorem Good.scanRead {c : Ctl} (h : Good c) {act : Activity} (hs : c.sched.current = .agent act)
    (hl : c.sched.current.lawful c.rows c.dir) (pages : List Page) : (c.scanRead pages).storeLaw := by
  have hp := h.pass
  unfold Ctl.scanRead
  split
  · next row cursor ha =>
    rw [ha] at hp
    split
    · exact h.toOrg.endWalk hp.1 hp.2.1
    · next hd hh =>
      split
      · exact h.askRead _ _ trivial rfl
      · exact h.handleRecord hs ha hh pages
  all_goals exact h.stuck hl

theorem Ctl.storeLaw.readEnded {c : Ctl} (h : c.storeLaw) (data : Page) : (c.readEnded data).storeLaw := by
  unfold Ctl.readEnded
  split
  · next req e got full hs =>
    have ha : c.sched.current.activity = some (.readRecord e got full) := by rw [hs]; rfl
    have hg := h.good (h.ended ha) fun _ _ hp => by rw [ha] at hp; cases hp
    have he : e ∈ c.dir := (h.2.2.2.2.1 _ ha).1
    simp only
    split
    · exact hg.askRead _ _ he rfl
    · exact hg.recordRead hs h.2.2.2.2.1 he _ _
  · next hs =>
    have ha : c.sched.current.activity = some .readImage := by rw [hs]; rfl
    exact (h.good (h.ended ha) fun _ _ hp => by rw [ha] at hp; cases hp).imageRead _ _
  · next got hs =>
    have ha : c.sched.current.activity = some (.scan got) := by rw [hs]; rfl
    exact (h.good (h.ended ha) fun _ _ hp => by rw [ha] at hp; cases hp).scanRead hs h.2.2.2.2.1 _
  · next plan asker hs =>
    have ha := h.asking (stage := .readBack) (plan := plan) (asker := asker) (by rw [hs]; rfl)
    split
    · exact ha.imageWritten _ _
    · exact ha.imageFailed _
  · next plan asker hs =>
    have ha := h.asking (stage := .readBack) (plan := plan) (asker := asker) (by rw [hs]; rfl)
    split
    · exact ha.imageWritten _ _
    · exact ha.imageFailed _
  · exact h

theorem Ctl.storeLaw.programEnded {c : Ctl} (h : c.storeLaw) (o : ProgramOutcome) : (c.programEnded o).storeLaw := by
  unfold Ctl.programEnded
  split
  · next act ha =>
    have hl := h.2.2.2.2.1 act ha
    have hm := h.ended ha
    unfold Ctl.programEndedFor
    split
    · next job row left n =>
      have hg := h.good hm fun _ _ hp => by rw [ha] at hp; cases hp
      obtain ⟨⟨l1, l2, l3, l4, l5⟩, l6⟩ := hl
      have hop : Opening job c := ⟨hg, l2, l1, l6 job rfl⟩
      split
      · exact hop.headOpened l3 l4 l5
      · exact hop.headerFailed l3
    · next job row first idx =>
      have hg := h.good hm fun _ _ hp => by rw [ha] at hp; cases hp
      obtain ⟨⟨l1, l2, l3⟩, l4⟩ := hl
      split
      · exact Writing.pageWritten ⟨hg, l1, l4 job rfl, l2, l3⟩ _ _
      · exact hg.recordFailed l1 (l4 job rfl) row
    · next plan asker =>
      have hk := h.asking ha
      split
      · exact hk.imageWritten _ _
      · exact hk.goOn _ _ _
    · exact h
  · exact h

theorem Ctl.storeLaw.eraseEnded {c : Ctl} (h : c.storeLaw) (passed : Bool) : (c.eraseEnded passed).storeLaw := by
  unfold Ctl.eraseEnded
  split
  · next act ha =>
    have hl := h.2.2.2.2.1 act ha
    have hm := h.ended ha
    unfold Ctl.eraseEndedFor
    split
    · next job row left =>
      have hg := h.good hm fun _ _ hp => by rw [ha] at hp; cases hp
      obtain ⟨⟨l1, l2, l3⟩, l4⟩ := hl
      exact Opening.openErased ⟨hg, l2, l1, l4 job rfl⟩ l3 passed
    · have hg := h.good hm fun _ _ hp => by rw [ha] at hp; cases hp
      split
      · next row hst =>
        have hp := hg.pass
        rw [hst] at hp
        refine hg.toOrg.tailErased hp.2.1 hp.2.2 (fun hs => ?_) passed
        rw [hs] at ha
        cases ha
      · exact h
    · next plan asker =>
      have hk := h.asking ha
      split
      · exact hk.programImage _
      · exact hk.imageFailed _
    · exact h
  · exact h

/-! ### Arrivals -/

theorem Still.trans {c d e : Ctl} (h : Still c d) (h' : Still d e) : Still c e :=
  ⟨h'.rows.trans h.rows, h'.dir.trans h.dir, h'.agent.trans h.agent, h'.mode.trans h.mode, h'.activity.trans h.activity,
    fun job hj => h'.owns job (h.owns job hj), fun hm hr => h'.requests (h.mode.trans hm) (h.requests hm hr),
    fun hc => h'.compact (h.compact hc), h'.phase.trans h.phase, h'.retired.trans h.retired,
    fun p hp => h'.staging p (h.staging p hp)⟩

/-- Changes of the notices, the claims, the Media Unit and the lines. -/
theorem Still.of_eq {c d : Ctl} (hr : d.rows = c.rows) (hd : d.dir = c.dir) (ha : d.agent = c.agent) (hs : d.sched = c.sched)
    (hm : d.mount = c.mount) (hc : d.conf = c.conf) (hp : d.ports = c.ports) : Still c d :=
  ⟨hr, hd, by rw [ha], by rw [hs], by rw [hs], fun _ h => by rw [hs]; exact h,
    fun _ h p => by unfold Ctl.requests; rw [hs]; exact h p, fun h => by rw [hs]; exact h, by rw [hm], by rw [hc],
    fun p h => by unfold Ctl.port; rw [hp]; exact h⟩

theorem CurrentStep.activity_markDiscard (s : CurrentStep) (p : Port) : (s.markDiscard p).activity = s.activity := by
  unfold CurrentStep.markDiscard
  split
  · split <;> rfl
  · rfl
  · rfl

theorem CurrentStep.owns_markDiscard {s : CurrentStep} (p : Port) {job : WriteJob} (h : s.owns job) :
    (s.markDiscard p).owns job := by
  unfold CurrentStep.markDiscard
  split
  · split
    · cases ho : job.owner <;> simp_all [CurrentStep.owns]
    · exact h
  · exact h
  · exact h

theorem Still.resyncSched (c : Ctl) (p : Port) : Still c (c.resyncSched p) :=
  ⟨rfl, rfl, rfl, rfl, CurrentStep.activity_markDiscard _ _, fun _ h => CurrentStep.owns_markDiscard p h, fun _ h q => (by
      show (c.sched.lists.set p []).get q = []
      by_cases hq : q = p
      · subst hq
        simp
      · rw [PerPort.get_set_other _ hq]
        exact h q),
    fun h => (by
      show resyncCompactList c.sched.compactList p = []
      rw [h]
      rfl), rfl, rfl, fun _ h => h⟩

theorem Still.resync (c : Ctl) (p : Port) : Still c (c.resync p) := by
  have h1 : Still c (c.resyncPort p) := Still.onPort c p _ fun h => by
    revert h
    cases (c.port p).staging <;> simp only [Staging.resync]
    · exact id
    · exact fun _ => trivial
    · intro h
      split
      · exact h
      · trivial
  have h3 := Still.of_view (Ctl.resyncClaims_keeps Ctl.storeView Ctl.storeView_enter Ctl.storeView_setClaim (fun _ _ => rfl)
    ((c.resyncPort p).resyncSched p) p)
  exact ((h1.trans (Still.resyncSched _ p)).trans h3).trans (.of_eq rfl rfl rfl rfl rfl rfl rfl)

/-- Every change of an arrival keeps the law of the store. -/
theorem storeArrivals : ArrivalLaws Ctl.storeLaw where
  onPort c p g hg hc := (Still.onPort c p g hg).law hc
  addWatch _ _ _ _ _ hc := Still.law (.of_eq rfl rfl rfl rfl rfl rfl rfl) hc
  dropWatch _ _ _ hc := Still.law (.of_eq rfl rfl rfl rfl rfl rfl rfl) hc
  select _ _ hc := Still.law (.of_eq rfl rfl rfl rfl rfl rfl rfl) hc
  setRequests c _ _ hm hc := Still.law (c := c)
    ⟨rfl, rfl, rfl, rfl, rfl, fun _ h => h, fun hm' => absurd hm' hm, id, rfl, rfl, fun _ h => h⟩ hc
  setWait c _ _ hc := Still.law (c := c) ⟨rfl, rfl, rfl, rfl, rfl, fun _ h => h, fun _ h => h, id, rfl, rfl, fun _ h => h⟩ hc
  endHold c k hc := (Still.of_view (Ctl.endHold_keeps Ctl.storeView Ctl.storeView_enter Ctl.storeView_setClaim c k)).law hc
  endWait c e p st _ hc :=
    (Still.of_view (Ctl.endWait_keeps Ctl.storeView Ctl.storeView_enter Ctl.storeView_setClaim c e p st)).law hc
  handleClaim c p tag k hold wait _ hc :=
    (Still.of_view (Ctl.handleClaim_keeps Ctl.storeView Ctl.storeView_enter Ctl.storeView_setClaim c p tag k hold wait)).law hc
  resync c p hc := (Still.resync c p).law hc
  schedule _ hc := hc.schedule

end Sys2Proof.Machine
end

