-- ==== Sys2Proof/Laws/StoreMount.lean ====
section
/-! SUPPORT. Store laws, concluded: what mount finds keeps its law, the end of mount establishes the law of the store from it, and
every command keeps that law. -/

namespace Sys2Proof.Machine

/-! ### During mount -/

/-- Mount is under way: nothing but its phase is left to say. -/
structure Mounting (c : Ctl) : Prop where
  staging : c.stagingLaw
  mode : c.sched.mode = .mounting
  table : c.rows.table = []
  ring : c.rows.ring = []
  dir : c.dir = []
  requests : ∀ p, c.requests p = []
  compact : c.sched.compactList = []
  current : c.sched.current = .none
  agent : c.agent.state = .idle

theorem Ctl.storeLaw.mounting {c : Ctl} (h : c.storeLaw) (hm : c.sched.mode = .mounting) :
    Mounting c ∧ c.mount.phase.lawful c.conf.retired := by
  obtain ⟨m1, m2, m3, m4, m5, m6, m7, m8⟩ := h.2.2.2.2.2.1 hm
  exact ⟨⟨h.1, hm, m1, m2, m3, m4, m5, m6, m7⟩, m8⟩

theorem Mounting.state {c : Ctl} (h : Mounting c) (r : Nat) : c.rows.state r = .system := by
  simp [RowMgr.state, RowMgr.entry, h.table]

theorem Mounting.law {c : Ctl} (h : Mounting c) (hp : c.mount.phase.lawful c.conf.retired) : c.storeLaw := by
  refine ⟨h.staging, ?_, ?_, Or.inr ?_, fun act ha => ?_, fun _ =>
    ⟨h.table, h.ring, h.dir, h.requests, h.compact, h.current, h.agent, hp⟩, fun hm => absurd h.mode hm⟩
  · rw [h.dir]
    exact ⟨Nat.zero_le _, List.Pairwise.nil, by simp⟩
  · rw [h.dir]
    refine ⟨fun r => ?_, fun r => ?_, ?_, fun r hr => ?_, ?_⟩
    · rw [h.state]
      rfl
    · rw [h.state, h.ring]
      simp [RowState.inRing]
    · rw [h.ring]
      exact List.Pairwise.nil
    · rw [h.state] at hr
      cases hr
    · rw [h.ring]
      simp
  · rw [h.agent]
    trivial
  · rw [h.current] at ha
    cases ha

theorem Mounting.still {c d : Ctl} (h : Mounting c) (hs : Still c d) : Mounting d :=
  ⟨fun p => hs.staging p (h.staging p), hs.mode.trans h.mode, by rw [hs.rows]; exact h.table,
    by rw [hs.rows]; exact h.ring, hs.dir.trans h.dir, hs.requests h.mode h.requests, hs.compact h.compact,
    CurrentStep.eq_none (hs.activity.trans (by rw [h.current]; rfl)), hs.agent.trans h.agent⟩

theorem Mounting.ask {c : Ctl} (h : Mounting c) (row page : Nat) {phase : MountPhase} (hp : phase.lawful c.conf.retired) :
    (c.mountAsk row page phase).storeLaw :=
  Mounting.law ⟨h.staging, h.mode, h.table, h.ring, h.dir, h.requests, h.compact, h.current, h.agent⟩ hp

/-! ### The application of the enable mask -/

theorem Still.refl (c : Ctl) : Still c c := .of_eq rfl rfl rfl rfl rfl rfl rfl

theorem Still.foldl {α : Type} (f : Ctl → α → Ctl) (hf : ∀ d a, Still d (f d a)) (l : List α) (c : Ctl) :
    Still c (l.foldl f c) := by
  induction l generalizing c with
  | nil => exact Still.refl c
  | cons a t ih => exact (hf c a).trans (ih _)

theorem Still.disable (c : Ctl) (p : Port) : Still c (c.disable p) :=
  ((Still.resync c p).trans
    (Still.onPort _ p (fun u => { u with enabled := false, rx := .idle, statusLatch := none, sdo := none }) id)).trans
    (.of_eq rfl rfl rfl rfl rfl rfl rfl)

theorem Still.applyEnableMask (c : Ctl) (mask : Byte) : Still c (c.applyEnableMask mask) := by
  unfold Ctl.applyEnableMask
  refine (Still.foldl _ (fun d p => ?_) _ _).trans (Still.foldl _ (fun d p => ?_) _ _)
  · split
    · exact Still.disable d p
    · exact Still.refl d
  · split
    · exact Still.onPort d p _ id
    · exact Still.refl d

theorem Mounting.loadConf {c : Ctl} (h : Mounting c) (choice : Option StoredCopy) : Mounting (c.loadConf choice) := by
  have h1 : Mounting { c with conf := loadedConf choice, mount := { c.mount with imageAbsent := choice.isNone } } :=
    ⟨h.staging, h.mode, h.table, h.ring, h.dir, h.requests, h.compact, h.current, h.agent⟩
  exact h1.still (Still.applyEnableMask _ _)

/-! ### Resolution (R182) -/

/-- Resolution takes for each key one of its candidates, keys ascending. -/
theorem resolveKeys_law (candidates : List Candidate) :
    (resolveKeys candidates).Subperm candidates
      ∧ (resolveKeys candidates).Pairwise fun a b => a.header.key.toNat < b.header.key.toNat := by
  unfold resolveKeys
  have hstep : ∀ (l acc done : List Candidate), acc.Subperm done →
      acc.Pairwise (fun a b => a.header.key.toNat < b.header.key.toNat) →
      (l.foldl (fun acc x =>
        match acc.find? fun w => w.header.key = x.header.key with
        | some w => if x.header.sequence.toNat < w.header.sequence.toNat then acc
            else insertBy (fun y => y.header.key.toNat) x acc
        | none => insertBy (fun y => y.header.key.toNat) x acc) acc).Subperm (done ++ l)
      ∧ (l.foldl (fun acc x =>
        match acc.find? fun w => w.header.key = x.header.key with
        | some w => if x.header.sequence.toNat < w.header.sequence.toNat then acc
            else insertBy (fun y => y.header.key.toNat) x acc
        | none => insertBy (fun y => y.header.key.toNat) x acc) acc).Pairwise
          fun a b => a.header.key.toNat < b.header.key.toNat := by
    intro l
    induction l with
    | nil => exact fun acc done h1 h2 => ⟨by simpa using h1, h2⟩
    | cons x t ih =>
      intro acc done h1 h2
      have put : (insertBy (fun y : Candidate => y.header.key.toNat) x acc).Subperm (done ++ [x]) :=
        ((insertBy_subperm _ x acc).trans ((List.subperm_cons x).2 h1)).trans
          (List.perm_append_singleton x done).symm.subperm
      have skip : acc.Subperm (done ++ [x]) := h1.trans (List.sublist_append_left done [x]).subperm
      simp only [List.foldl_cons]
      rw [show done ++ x :: t = (done ++ [x]) ++ t by simp]
      split
      · split
        · exact ih _ _ skip h2
        · exact ih _ _ put (insertBy_pairwise _ h2)
      · exact ih _ _ put (insertBy_pairwise _ h2)
  exact hstep candidates [] [] (List.Subperm.refl _) List.Pairwise.nil

theorem winningEntries_mem {winners : List Candidate} {e : DirEntry} (h : e ∈ winningEntries winners) :
    ∃ x ∈ winners, e.key = x.header.key ∧ e.length = x.header.length ∧ e.pages = x.header.pages ∧ e.row = x.row := by
  unfold winningEntries at h
  obtain ⟨x, hx, he⟩ := List.mem_filterMap.1 h
  rw [Option.map_eq_some_iff] at he
  obtain ⟨k, _, rfl⟩ := he
  exact ⟨x, hx, rfl, rfl, rfl, rfl⟩

theorem winningEntries_pairwise {winners : List Candidate}
    (h : winners.Pairwise fun a b => a.header.key.toNat < b.header.key.toNat) :
    (winningEntries winners).Pairwise fun a b => a.key.toNat < b.key.toNat := by
  unfold winningEntries
  rw [List.pairwise_filterMap]
  refine h.imp fun {a b} hab x hx y hy => ?_
  rw [Option.map_eq_some_iff] at hx hy
  obtain ⟨_, _, rfl⟩ := hx
  obtain ⟨_, _, rfl⟩ := hy
  exact hab

theorem candidatePages_cons (x : Candidate) (l : List Candidate) (r : Nat) :
    candidatePages (x :: l) r = candidatePages l r + if x.row = r then x.header.pages else 0 := by
  unfold candidatePages
  by_cases h : x.row = r
  · simp [h, Nat.add_comm]
  · simp [h]

theorem candidatePages_append (l m : List Candidate) (r : Nat) :
    candidatePages (l ++ m) r = candidatePages l r + candidatePages m r := by
  simp [candidatePages]

theorem candidatePages_subperm {l m : List Candidate} (h : l.Subperm m) (r : Nat) : candidatePages l r ≤ candidatePages m r := by
  obtain ⟨n, hp, hs⟩ := h
  have h1 : candidatePages n r = candidatePages l r := ((hp.filter _).map _).sum_eq
  rw [← h1]
  exact ((hs.filter _).map _).sum_le_sum fun _ _ => Nat.zero_le _

theorem livePages_winning (winners : List Candidate) (r : Nat) :
    livePages (winningEntries winners) r ≤ candidatePages winners r := by
  induction winners with
  | nil => exact Nat.le_refl _
  | cons x t ih =>
    rw [candidatePages_cons]
    unfold winningEntries at ih ⊢
    cases hk : x.header.kind.entryKind with
    | none =>
      rw [List.filterMap_cons_none (by rw [hk]; rfl)]
      omega
    | some k =>
      rw [List.filterMap_cons_some (b := entryOf x.header k x.row x.page) (by rw [hk]; rfl), livePages_cons]
      show _ + (if x.row = r then x.header.pages else 0) ≤ _
      omega

theorem livePages_take (l : List DirEntry) (n r : Nat) : livePages (l.take n) r ≤ livePages l r :=
  (((List.take_sublist n l).filter _).map _).sum_le_sum fun _ _ => Nat.zero_le _

/-! ### The end of mount (R183 to R186) -/

/-- The scan between two rows. -/
structure Scanned (retired : List Byte) (st : ScanState) : Prop where
  rows : surveyed retired (st.ring.map (·.1))
  order : st.ring.Pairwise fun x y => x.2.toNat * 256 + x.1 < y.2.toNat * 256 + y.1
  todo : st.todo.Nodup
  left : ∀ r ∈ st.todo, r ∈ st.ring.map (·.1)
  found : ∀ x ∈ st.candidates, x.row ∈ st.ring.map (·.1) ∧ x.header.length ≤ Config.payloadLimit
    ∧ x.header.pages = pagesFor x.header.length
  none : ∀ r ∈ st.todo, candidatePages st.candidates r = 0
  fits : ∀ r, candidatePages st.candidates r ≤ 15

theorem ScanState.lawful.scanned {retired : List Byte} {st : ScanState} (h : st.lawful retired) : Scanned retired st := by
  obtain ⟨h1, h2, h3, h4, _, _, h7, h8, _, h10⟩ := h
  exact ⟨h1, h2, (List.nodup_cons.1 h3).2, fun r hr => h4 r (List.mem_cons_of_mem _ hr), h7, h8, h10⟩

theorem highest_ge {l : List Word} {x : Word} (hx : x ∈ l) : ∃ m, highest l = some m ∧ x.toNat ≤ m.toNat := by
  induction l with
  | nil => cases hx
  | cons w t ih =>
    unfold highest
    rcases List.mem_cons.1 hx with rfl | hx
    · split
      · next m _ =>
        split
        · exact ⟨_, rfl, Nat.le_refl _⟩
        · exact ⟨_, rfl, by omega⟩
      · exact ⟨_, rfl, Nat.le_refl _⟩
    · obtain ⟨m, hm, hle⟩ := ih hx
      rw [hm]
      simp only
      split
      · exact ⟨_, rfl, by omega⟩
      · exact ⟨_, rfl, hle⟩

theorem counterAbove_gt {limit : Word} {l : List Word} {x : Word} (hx : x ∈ l) :
    x.toNat < (counterAbove limit l).toNat ∨ counterAbove limit l = limit := by
  obtain ⟨m, hm, hle⟩ := highest_ge hx
  unfold counterAbove
  rw [hm]
  simp only
  split
  · exact Or.inr rfl
  · next h =>
    left
    rw [BitVec.toNat_add, show (1 : Word).toNat = 1 from rfl]
    have := limit.isLt
    omega

/-- The states mount gives the rows. -/
theorem mountRows_state (retired : List Byte) (ring : List (Nat × Word)) (dir : List DirEntry) (sequences : List Word) (r : Nat) :
    (mountRows retired ring dir sequences).state r
      = if 256 ≤ r ∨ r < 2 then .system
        else if (retired.any fun b => b.toNat = r) = true then .retired
        else match ring.find? fun x => x.1 = r with
          | some x => .closed x.2 (livePages dir r) (15 - livePages dir r)
          | none => .freeStale := by
  unfold RowMgr.state RowMgr.entry mountRows mountTable
  by_cases hr : r < 256
  · simp only [List.getD_eq_getElem?_getD, Config.rowCount]
    rw [List.getElem?_map, List.getElem?_range hr]
    simp only [Option.map_some, Option.getD_some]
    by_cases h2 : r < 2
    · simp [h2]
    · rw [if_neg h2, if_neg (show ¬(256 ≤ r ∨ r < 2) by omega)] <;> rfl
  · rw [if_pos (Or.inl (by omega)), List.getD_eq_getElem?_getD, List.getElem?_eq_none (by simp [Config.rowCount]; omega)]
    rfl

theorem mountRows_law {retired : List Byte} {ring : List (Nat × Word)} {dir : List DirEntry} (sequences : List Word)
    (hrows : surveyed retired (ring.map (·.1)))
    (horder : ring.Pairwise fun x y => x.2.toNat * 256 + x.1 < y.2.toNat * 256 + y.1)
    (hdir : ∀ e ∈ dir, e.row ∈ ring.map (·.1)) (hlive : ∀ r, livePages dir r ≤ 15) :
    (mountRows retired ring dir sequences).lawful dir := by
  have hs := mountRows_state retired ring dir sequences
  have hring : ∀ x ∈ ring, (mountRows retired ring dir sequences).state x.1
      = .closed x.2 (livePages dir x.1) (15 - livePages dir x.1) := by
    intro x hx
    obtain ⟨h2, h256, hret⟩ := hrows.2 x.1 (List.mem_map_of_mem hx)
    have hf : (ring.find? fun y => y.1 = x.1) = some x := by
      have hn := hrows.1
      clear horder hdir hrows hs
      induction ring with
      | nil => cases hx
      | cons y t ih =>
        rw [List.map_cons, List.nodup_cons] at hn
        rcases List.mem_cons.1 hx with rfl | hx
        · simp
        · rw [List.find?_cons_of_neg]
          · exact ih hx hn.2
          · have : y.1 ≠ x.1 := fun he => hn.1 (he ▸ List.mem_map_of_mem hx)
            simpa using this
    rw [hs, if_neg (by simp only [Config.rowCount] at h256; omega), if_neg (by rw [hret]; exact Bool.false_ne_true), hf]
  have hout : ∀ r, r ∉ ring.map (·.1) → ((mountRows retired ring dir sequences).state r).inRing = false := by
    intro r hr
    have hf : (ring.find? fun y => y.1 = r) = none := by
      rw [List.find?_eq_none]
      intro y hy he
      exact hr (by simpa using ⟨y.2, by simpa using (by simpa using he) ▸ hy⟩)
    rw [hs, hf]
    split
    · rfl
    · split <;> rfl
  have hmem : ∀ r, r ∈ ring.map (·.1) ↔ ((mountRows retired ring dir sequences).state r).inRing = true := by
    intro r
    constructor
    · intro hr
      obtain ⟨x, hx, rfl⟩ := List.mem_map.1 hr
      rw [hring x hx]
      rfl
    · intro hr
      by_contra hn
      rw [hout r hn] at hr
      cases hr
  refine ⟨fun r => ?_, hmem, ?_, fun r hr => ?_, fun r hr => ?_⟩
  · by_cases hr : r ∈ ring.map (·.1)
    · obtain ⟨x, hx, rfl⟩ := List.mem_map.1 hr
      rw [hring x hx]
      have := hlive x.1
      exact ⟨rfl, by omega⟩
    · have hz : livePages dir r = 0 := livePages_none fun e he her => hr (her ▸ hdir e he)
      have ho := hout r hr
      cases hst : (mountRows retired ring dir sequences).state r <;> rw [hst] at ho <;> first | exact hz | cases ho
  · show (ring.map (·.1)).Pairwise _
    rw [List.pairwise_map]
    refine List.Pairwise.imp_of_mem (fun {a b} ha hb hab => ?_) horder
    unfold RowMgr.place
    rw [hring a ha, hring b hb]
    exact hab
  · rw [hs] at hr
    split at hr
    · cases hr
    · split at hr
      · cases hr
      · split at hr <;> cases hr
  · obtain ⟨x, hx, rfl⟩ := List.mem_map.1 hr
    rw [hring x hx]
    exact counterAbove_gt (List.mem_map_of_mem hx)

theorem RowMgr.mountMode_ended (m : RowMgr) : m.mountMode.1 ≠ .mounting := by
  unfold RowMgr.mountMode
  split
  · decide
  · split <;> decide

/-- The end of mount establishes the law of the store. -/
theorem Mounting.finish {c : Ctl} (h : Mounting c) {st : ScanState} (hs : Scanned c.conf.retired st) :
    (c.finishMount st.ring st.candidates st.fragments).storeLaw := by
  obtain ⟨hsub, hkeys⟩ := resolveKeys_law st.candidates
  have hmem : ∀ e ∈ winningEntries (resolveKeys st.candidates), e.row ∈ st.ring.map (·.1)
      ∧ e.length ≤ Config.payloadLimit ∧ e.pages = pagesFor e.length := by
    intro e he
    obtain ⟨x, hx, _, h2, h3, h4⟩ := winningEntries_mem he
    obtain ⟨g1, g2, g3⟩ := hs.found x (hsub.subset hx)
    exact ⟨h4 ▸ g1, h2 ▸ g2, by rw [h3, h2]; exact g3⟩
  have hm := RowMgr.mountMode_ended (c.finishMount st.ring st.candidates st.fragments).rows
  refine Good.idle ⟨⟨h.staging, ?_, ?_, ?_, hm⟩, ?_⟩ h.current
  · refine ⟨?_, (winningEntries_pairwise hkeys).sublist (List.take_sublist _ _), fun e he => ?_⟩
    · exact List.length_take_le _ _
    · exact (hmem e (List.mem_of_mem_take he)).2
  · refine mountRows_law _ hs.rows hs.order (fun e he => (hmem e (List.mem_of_mem_take he)).1) fun r => ?_
    exact Nat.le_trans (livePages_take _ _ _) (Nat.le_trans (livePages_winning _ _)
      (Nat.le_trans (candidatePages_subperm hsub r) (hs.fits r)))
  · show (mountTable _ _ _).length = _
    simp [mountTable]
  · show passLaw _ _ c.agent.state
    rw [h.agent]
    trivial

/-! ### Scan and survey (R179 to R181) -/

theorem Mounting.scanNextRow {c : Ctl} (h : Mounting c) {st : ScanState} (hs : Scanned c.conf.retired st) :
    (c.scanNextRow st).storeLaw := by
  unfold Ctl.scanNextRow
  split
  · next r t ht =>
    obtain ⟨s1, s2, s3, s4, s5, s6, s7⟩ := hs
    rw [ht] at s3 s4 s6
    exact h.ask _ _ ⟨s1, s2, s3, s4, Nat.le_refl 1, show 1 ≤ 15 by decide, s5, fun x hx => s6 x (List.mem_cons_of_mem _ hx),
      by show candidatePages st.candidates r + 1 ≤ 1; rw [s6 r List.mem_cons_self], s7⟩
  · exact h.finish hs

/-- A record of the scan is noted, and the cursor goes past it. -/
theorem ScanState.lawful.note {retired : List Byte} {st : ScanState} (h : st.lawful retired) {page : Page} {hd : RecHeader}
    (hp : parseHeader page st.cursor = some hd) (pages : List Page) :
    Scanned retired (st.note hd pages)
      ∧ (st.cursor + hd.pages ≤ 15 →
        ScanState.lawful retired { st.note hd pages with cursor := st.cursor + hd.pages, got := [] }) := by
  have hsc := h.scanned
  obtain ⟨h1, h2, h3, h4, h5, h6, h7, h8, h9, h10⟩ := h
  obtain ⟨_, p1, p2, p3⟩ := parseHeader_law hp
  unfold ScanState.note
  split
  · have hrow : ∀ r, candidatePages (st.candidates ++ [⟨hd, st.row, st.cursor⟩]) r
        = candidatePages st.candidates r + if st.row = r then hd.pages else 0 := by
      intro r
      rw [candidatePages_append, candidatePages_cons]
      simp [candidatePages]
    have hfound : ∀ x ∈ st.candidates ++ [⟨hd, st.row, st.cursor⟩], x.row ∈ st.ring.map (·.1)
        ∧ x.header.length ≤ Config.payloadLimit ∧ x.header.pages = pagesFor x.header.length := by
      intro x hx
      rcases List.mem_append.1 hx with hx | hx
      · exact h7 x hx
      · rw [List.mem_singleton.1 hx]
        exact ⟨h4 _ List.mem_cons_self, p1, p2⟩
    have hnone : ∀ r ∈ st.todo, candidatePages (st.candidates ++ [⟨hd, st.row, st.cursor⟩]) r = 0 := by
      intro r hr
      rw [hrow, h8 r hr, if_neg]
      rintro rfl
      exact (List.nodup_cons.1 h3).1 hr
    have hfits : ∀ r, candidatePages (st.candidates ++ [⟨hd, st.row, st.cursor⟩]) r ≤ 15 := by
      intro r
      rw [hrow]
      split
      · next he => subst he; omega
      · exact h10 r
    refine ⟨⟨h1, h2, hsc.todo, hsc.left, hfound, hnone, hfits⟩, fun hc => ⟨h1, h2, h3, h4, ?_, hc, hfound, hnone, ?_, hfits⟩⟩
    · exact Nat.le_trans h5 (Nat.le_add_right _ _)
    · show candidatePages (st.candidates ++ [⟨hd, st.row, st.cursor⟩]) st.row + 1 ≤ st.cursor + hd.pages
      rw [hrow, if_pos rfl]
      omega
  · refine ⟨⟨h1, h2, hsc.todo, hsc.left, h7, h8, h10⟩, fun hc => ⟨h1, h2, h3, h4, ?_, hc, h7, h8, ?_, h10⟩⟩
    · exact Nat.le_trans h5 (Nat.le_add_right _ _)
    · exact Nat.le_trans h9 (Nat.le_add_right _ _)

theorem Mounting.scanMount {c : Ctl} (h : Mounting c) {st : ScanState} (hs : st.lawful c.conf.retired) (data : Page) :
    (c.scanMount st data).storeLaw := by
  unfold Ctl.scanMount
  simp only
  split
  · exact h.scanNextRow hs.scanned
  · next hd hp =>
    split
    · exact h.ask _ _ hs
    · obtain ⟨h1, h2⟩ := hs.note hp (st.got ++ [data])
      have hcur : (st.note hd (st.got ++ [data])).cursor = st.cursor := by
        unfold ScanState.note
        split <;> rfl
      split
      · exact h.scanNextRow h1
      · next hc =>
        rw [hcur] at hc
        rw [hcur]
        exact h.ask _ _ (h2 (by omega))

theorem ringOrder_law (found : List (Nat × Word)) :
    (ringOrder found).Subperm found
      ∧ (ringOrder found).Pairwise fun x y => x.2.toNat * 256 + x.1 < y.2.toNat * 256 + y.1 := by
  unfold ringOrder
  have hstep : ∀ (l acc done : List (Nat × Word)), acc.Subperm done →
      acc.Pairwise (fun x y => x.2.toNat * 256 + x.1 < y.2.toNat * 256 + y.1) →
      (l.foldl (fun l x => insertBy (fun y => y.2.toNat * 256 + y.1) x l) acc).Subperm (done ++ l)
      ∧ (l.foldl (fun l x => insertBy (fun y => y.2.toNat * 256 + y.1) x l) acc).Pairwise
          fun x y => x.2.toNat * 256 + x.1 < y.2.toNat * 256 + y.1 := by
    intro l
    induction l with
    | nil => exact fun acc done h1 h2 => ⟨by simpa using h1, h2⟩
    | cons x t ih =>
      intro acc done h1 h2
      rw [show done ++ x :: t = (done ++ [x]) ++ t by simp]
      exact ih _ _ (((insertBy_subperm _ x acc).trans ((List.subperm_cons x).2 h1)).trans
        (List.perm_append_singleton x done).symm.subperm) (insertBy_pairwise (fun y : Nat × Word => y.2.toNat * 256 + y.1) h2)
  exact hstep found [] [] (List.Subperm.refl _) List.Pairwise.nil

theorem Mounting.beginScan {c : Ctl} (h : Mounting c) {found : List (Nat × Word)}
    (hf : surveyed c.conf.retired (found.map (·.1))) : (c.beginScan found).storeLaw := by
  obtain ⟨h1, h2⟩ := ringOrder_law found
  have hsub : ((ringOrder found).map (·.1)).Subperm (found.map (·.1)) := by
    obtain ⟨m, hp, hs⟩ := h1
    exact ⟨m.map (·.1), hp.map _, hs.map _⟩
  have hn : ((ringOrder found).map (·.1)).Nodup := by
    obtain ⟨m, hp, hs⟩ := hsub
    exact hp.nodup_iff.1 (hf.1.sublist hs)
  exact h.scanNextRow ⟨⟨hn, fun r hr => hf.2 r (hsub.subset hr)⟩, h2, hn, fun r hr => hr, by simp, fun r _ => rfl,
    fun r => Nat.zero_le _⟩

theorem Mounting.surveyFrom {c : Ctl} (h : Mounting c) {row : Nat} {found : List (Nat × Word)}
    (hf : surveyed c.conf.retired (found.map (·.1))) (hr : ∀ x ∈ found, x.1 < row) : (c.surveyFrom row found).storeLaw := by
  unfold Ctl.surveyFrom
  split
  · next r hn =>
    have h1 := List.find?_some hn
    have h2 := List.mem_range.1 (List.mem_of_find?_eq_some hn)
    simp only [Bool.and_eq_true, decide_eq_true_eq, Bool.not_eq_true'] at h1
    obtain ⟨⟨g1, g2⟩, g3⟩ := h1
    have hlt : ∀ x ∈ found, x.1 < r := fun x hx => Nat.lt_of_lt_of_le (hr x hx) g2
    refine h.ask _ _ ⟨⟨List.nodup_cons.2 ⟨fun hm => ?_, hf.1⟩, fun y hy => ?_⟩, hlt⟩
    · obtain ⟨x, hx, he⟩ := List.mem_map.1 hm
      exact absurd (hlt x hx) (by rw [he]; exact Nat.lt_irrefl _)
    · rcases List.mem_cons.1 hy with rfl | hy
      · exact ⟨g1, h2, g3⟩
      · exact hf.2 y hy
  · exact h.beginScan hf

theorem Mounting.surveyRead {c : Ctl} (h : Mounting c) {row : Nat} {found : List (Nat × Word)}
    (hf : (MountPhase.survey row found).lawful c.conf.retired) (data : Page) : (c.surveyRead row found data).storeLaw := by
  obtain ⟨⟨h1, h2⟩, h3⟩ := hf
  have hold : surveyed c.conf.retired (found.map (·.1)) :=
    ⟨(List.nodup_cons.1 h1).2, fun r hr => h2 r (List.mem_cons_of_mem _ hr)⟩
  unfold Ctl.surveyRead
  split
  · refine h.surveyFrom ⟨?_, fun r hr => ?_⟩ fun x hx => ?_
    · rw [List.map_append]
      exact ((List.perm_append_singleton row (found.map (·.1))).nodup_iff).2 h1
    · rw [List.map_append, List.mem_append] at hr
      rcases hr with hr | hr
      · exact hold.2 r hr
      · exact h2 r (by simpa using Or.inl (List.mem_singleton.1 hr))
    · rcases List.mem_append.1 hx with hx | hx
      · exact Nat.lt_succ_of_lt (h3 x hx)
      · rw [List.mem_singleton.1 hx]
        exact Nat.lt_succ_self _
  · exact h.surveyFrom hold fun x hx => Nat.lt_succ_of_lt (h3 x hx)

theorem Ctl.storeLaw.mountRead {c : Ctl} (h : c.storeLaw) (hm : c.sched.mode = .mounting) (data : Page) :
    (c.mountRead data).storeLaw := by
  obtain ⟨h1, h2⟩ := h.mounting hm
  unfold Ctl.mountRead
  split
  · exact h
  · exact h1.ask _ _ trivial
  · exact (h1.loadConf _).surveyFrom ⟨List.nodup_nil, by simp⟩ (by simp)
  · next hp =>
    rw [hp] at h2
    exact h1.surveyRead h2 data
  · next hp =>
    rw [hp] at h2
    exact h1.scanMount h2 data
  · exact h

/-! ### Every command -/

/-- Changes of the Media Unit alone. -/
theorem Ctl.storeLaw.media {c : Ctl} (h : c.storeLaw) (m : Media) : Ctl.storeLaw { c with media := m } :=
  Still.law (.of_eq rfl rfl rfl rfl rfl rfl rfl) h

theorem Ctl.storeLaw.handData {c : Ctl} (h : c.storeLaw) (data : Page) : (c.mediaIdle.handData data).storeLaw := by
  have h1 : c.mediaIdle.storeLaw := h.media _
  unfold Ctl.handData
  split
  · next hm => exact h1.mountRead hm data
  · exact (h1.readEnded data).schedule

/-- The operations that commands call keep the law of the store. -/
theorem storeEvents : EventLaws Ctl.storeLaw Ctl.storeLaw where
  release c h := by
    by_cases hm : c.sched.mode = .mounting
    · obtain ⟨h1, _⟩ := h.mounting hm
      have h2 : Mounting { c with inReset := false } := h1.still (.of_eq rfl rfl rfl rfl rfl rfl rfl)
      exact h2.ask 0 0 (phase := .image0) trivial
    · obtain ⟨g1, g2, g3, g4, g5, _, g7⟩ := h
      exact ⟨g1, g2, g3, g4, g5, fun hm' => absurd hm' hm, g7⟩
  select _ p h := select_keeps storeArrivals.onPort p h
  deselect _ p h := deselect_keeps storeArrivals.onPort
    (fun _ _ h => Still.law (.of_eq rfl rfl rfl rfl rfl rfl rfl) h) p h
  discard c p _ _ h := storeArrivals.onPort c p _ id h
  receive c p _ _ _ h := storeArrivals.onPort c p _ id h
  arrive _ p _ op tag args _ h := storeArrivals.arriveOpcode p op tag args h
  readout c p _ _ _ _ _ h := storeArrivals.onPort c p _ id h
  readoutDone _ p kind _ _ h := readoutDone_keeps storeArrivals.onPort
    (fun _ _ h => Still.law (.of_eq rfl rfl rfl rfl rfl rfl rfl) h) p kind h
  holdEnds c k _ _ h := storeArrivals.endHold c k h
  waitEnds c k p e he _ h := storeArrivals.endWait c e p .timeout (by rw [Ctl.claimOf_key he]; exact he) h
  handData _ data h := h.handData data
  pulseGoesOn _ _ _ _ _ h := h.media _
  pulseEnds c row n _ o _ h :=
    ((h.media { c.media.setCount row n with op := .idle }).programEnded o).schedule
  programEnds c o h := ((h.media { c.media with op := .idle }).programEnded o).schedule
  erased c row h := ((h.media { c.media.setCount row 0 with op := .idle }).eraseEnded true).schedule
  eraseFails c h := ((h.media { c.media with op := .idle }).eraseEnded false).schedule
  eraseGoesOn _ _ h := h.media _

/-- A device reset and a power loss leave a store that has the law: mount stands at its start. -/
theorem Ctl.storeLaw_afterReset (c : Ctl) : c.afterReset.storeLaw ∧ Ctl.storeLaw { c.afterReset with powered := false } := by
  have h : Mounting c.afterReset := by
    refine ⟨fun p => ?_, rfl, rfl, rfl, rfl, fun p => ?_, rfl, rfl, rfl⟩
    · cases p <;> trivial
    · cases p <;> rfl
  exact ⟨h.law trivial, Mounting.law ⟨h.staging, rfl, rfl, rfl, rfl, h.requests, rfl, rfl, rfl⟩ trivial⟩

/-- The lines of ATNn# do not enter the law. -/
theorem Ctl.storeLaw.settle {c : Ctl} (h : c.storeLaw) : c.settle.storeLaw :=
  Still.law (c := c) ⟨rfl, rfl, rfl, rfl, rfl, fun _ h => h, fun _ h => h, id, rfl, rfl, fun p hp => by
    have : (c.settle.port p).staging = (c.port p).staging := by cases p <;> rfl
    rw [this]
    exact hp⟩ h

end Sys2Proof.Machine
end

