-- ==== Sys2Proof/Tests/Slice0.lean ====
section
/-! SUPPORT. Tests: the check values the specification prints, an ill-formed command for each check of WellFormed, small examples
of single commands, and for every statement with hypotheses a state and operands that meet them, clause by clause. -/

namespace Sys2Proof.Tests

open Sys2Proof Sys2Proof.Machine

-- One theorem at a time: an evaluation in the kernel waits for every theorem before it, and many that wait take a thread each.
set_option Elab.async false

/-! ### Small states -/

/-- A Port Unit whose frame has begun and of which no byte has completed. -/
def begun : PortUnit := { PortUnit.reset with selLow := true, rx := .receiving [], sdo := some 0x00 }

/-- Everything but the array of a READY device without records: every port in a frame, the default configuration. -/
def ctl0 : Ctl :=
  { Ctl.reset with
    inReset := false
    ports := PerPort.const begun
    sched := { Sched.reset with mode := .ready }
    conf := { ConfUnit.reset with active := some defaultSettings }
    mount := ⟨.done, true, false⟩ }

/-- An erased array, no command waiting. -/
def st (c : Ctl) : State := ⟨⟨[], []⟩, c, []⟩

/-- A VALUE entry of key 5 of 100 bytes at row 2, page 1, that every port may read and write. -/
def entry5 : DirEntry := ⟨5, 9, .value, 100, 2, 2, 1, 0xF, 0xF, .p1⟩

/-- The READY device with that entry. -/
def ctl5 : Ctl := { ctl0 with dir := [entry5] }

/-- Port P0's response to IDENT. -/
def response0 : Response := ⟨.ok, 1, 0x01, []⟩

/-- A composition of key 5 with two of its three bytes delivered. -/
def composing5 : Composition := ⟨5, 3, 1, 1, [0xAA, 0xBB]⟩

/-- The device with port P0's staging buffer `b`. -/
def staged (b : Staging) (c : Ctl) : Ctl := c.onPort .p0 fun u => { u with staging := b }

/-- The device in a mode. -/
def inMode (m : Mode) (c : Ctl) : Ctl := { c with sched := { c.sched with mode := m } }

/-- A READ request of port P3. -/
def readOf3 : Request := ⟨.p3, 7, .read 5 0 1, false⟩

/-- The device while that READ executes. -/
def busy (c : Ctl) : Ctl := { c with sched := { c.sched with current := .port readOf3 (.readRecord entry5 [] false) } }

/-- The device with the Media Unit in an operation. -/
def inMedia (op : MediaOp) (c : Ctl) : Ctl := { c with media := { c.media with op := op } }

/-- A claim of port P1 on key 5 with port P2 waiting. -/
def claim5 : ClaimEntry := ⟨5, .p1, 1000, [⟨.p2, 0x21, 300, 40⟩]⟩

/-- The device with that claim. -/
def claimed (c : Ctl) : Ctl := { c with claims := [claim5] }

/-- The device with a claim `e` alone. -/
def claimIs (e : ClaimEntry) : Ctl := { ctl5 with claims := [e] }

/-- A record of key 5 of three bytes in one page, its entry, and a record of 100 bytes in two pages. -/
def header3 : RecHeader := ⟨5, 3, 9, .value, 0xFF, .p1, 1⟩
def entry3 : DirEntry := ⟨5, 9, .value, 3, 1, 2, 1, 0xF, 0xF, .p1⟩
def page3 : Page := (recordImages header3 [1, 2, 3]).headD []
def header100 : RecHeader := { header3 with length := 100, pages := 2 }
def page100 : Page := (recordImages header100 (List.replicate 100 0)).headD []

/-- The array with a page's bytes at page 1 of row 2. -/
def holding (page : Page) : Cells := Cells.setPage ⟨[], []⟩ 2 1 fun i => (imageByte page i, 0)

/-- The device with a Directory. -/
def listing (dir : List DirEntry) : Ctl := { ctl0 with dir := dir }

/-- The device with one entry, of key 5, whose kind and masks are as given. -/
def guarded (kind : EntryKind) (mask : BitVec 4) : Ctl :=
  listing [{ entry5 with kind := kind, readMask := mask, writeMask := mask }]

/-- The device while a port's request executes. -/
def portStep (req : Request) (act : Activity) (c : Ctl) : Ctl :=
  { c with sched := { c.sched with current := .port req act } }

/-- The device in a step of its agent. -/
def agentStep (a : AgentState) (act : Activity) (c : Ctl) : Ctl :=
  { c with agent := { c.agent with state := a }, sched := { c.sched with current := .agent act } }

/-- The device with an image of generation `g` stored in S0 and `n` rows in the retired-row list. -/
def imageOf (g : Word) (n : Nat) (c : Ctl) : Ctl :=
  { c with
    conf := { c.conf with
      stored := some ⟨.s0, ⟨g, defaultSettings, 0, []⟩⟩
      retired := (List.range n).map fun i => natByte (i + 12) } }

/-- The device whose rows are the two system rows and then those of `l`, with a ring and an open counter. -/
def rowsOf (l : List RowState) (ring : List Nat) (openCounter : Word) (c : Ctl) : Ctl :=
  { c with rows := ⟨(.system :: .system :: l).map fun x => ⟨x, false⟩, ring, 10, openCounter, 255⟩ }

/-- Row 2 a CLOSED tail and `n` free rows after it. -/
def tailAnd (n : Nat) (c : Ctl) : Ctl := rowsOf (.closed 1 2 13 :: List.replicate n .freeReady) [2] 2 c

/-- The state a command leaves, the state before where it leaves none. -/
def afterCommand (i : Instr) (s : State) : State :=
  match exec i s with
  | .next t => t
  | .fault _ => s
  | .refused _ => s

/-! ### Check values of the two CRCs (R188, R189) -/

/-- The nine bytes of the check values, "123456789". -/
def checkBytes : List Byte := [0x31, 0x32, 0x33, 0x34, 0x35, 0x36, 0x37, 0x38, 0x39]

theorem test_crc16_check_value : crc16 checkBytes = 0x29B1 := by decide +kernel

theorem test_crc32_check_value : crc32 checkBytes = 0xCBF43926 := by decide +kernel

/-! ### WellFormed refuses each ill-formed command -/

theorem test_residue_beyond_page_refused : (Instr.programPulse [⟨64, 0, 0, 1⟩]).wf = false := by decide

theorem test_residue_named_twice_refused : (Instr.erasePulse [⟨9, 0, 0, 1⟩, ⟨9, 0, 0, 2⟩]).wf = false := by decide

theorem test_residue_beyond_row_refused :
    (Instr.deviceReset [⟨1024, 0, 0, 1⟩]).wf = false ∧ (Instr.powerLoss [⟨1024, 0, 0, 1⟩]).wf = false
      ∧ (Instr.erasePulse [⟨1024, 0, 0, 1⟩]).wf = false := by decide

theorem test_good_frame_as_discard_refused : (Instr.frameDiscard .p0 [0x01, 0x02, 0x38]).wf = false := by decide

theorem test_too_many_arguments_refused :
    let args : List Byte := List.replicate 57 0
    (Instr.ident .p0 0 args).wf = false ∧ (Instr.query .p0 0 args).wf = false ∧ (Instr.list .p0 0 args).wf = false
      ∧ (Instr.opn .p0 0 args).wf = false ∧ (Instr.fill .p0 0 args).wf = false ∧ (Instr.abandon .p0 0 args).wf = false
      ∧ (Instr.commit .p0 0 args).wf = false ∧ (Instr.delete .p0 0 args).wf = false ∧ (Instr.read .p0 0 args).wf = false
      ∧ (Instr.freeze .p0 0 args).wf = false ∧ (Instr.compact .p0 0 args).wf = false
      ∧ (Instr.setconf .p0 0 args).wf = false ∧ (Instr.reload .p0 0 args).wf = false
      ∧ (Instr.claim .p0 0 args).wf = false ∧ (Instr.release .p0 0 args).wf = false ∧ (Instr.watch .p0 0 args).wf = false
      ∧ (Instr.unwatch .p0 0 args).wf = false ∧ (Instr.attnmask .p0 0 args).wf = false
      ∧ (Instr.collect .p0 0 args).wf = false ∧ (Instr.drain .p0 0 args).wf = false
      ∧ (Instr.resync .p0 0 args).wf = false ∧ (Instr.badCmd .p0 0xFF 0 args).wf = false := by decide +kernel

theorem test_known_opcode_as_bad_refused : (Instr.badCmd .p0 0x01 0 []).wf = false := by decide

theorem test_timer_of_no_key_refused :
    (Instr.holdTimerExpiry 0).wf = false ∧ (Instr.holdTimerExpiry 0xFFFF).wf = false
      ∧ (Instr.waitTimerExpiry 0 .p0).wf = false := by decide

theorem test_damage_of_no_page_refused :
    (Instr.damage 256 0 [⟨0, 1, 0⟩]).wf = false ∧ (Instr.damage 0 16 [⟨0, 1, 0⟩]).wf = false := by decide

theorem test_ill_formed_damage_refused :
    (Instr.damage 0 0 []).wf = false ∧ (Instr.damage 0 0 [⟨64, 1, 0⟩]).wf = false ∧ (Instr.damage 0 0 [⟨0, 0, 0⟩]).wf = false
      ∧ (Instr.damage 0 0 [⟨0, 1, 2⟩]).wf = false ∧ (Instr.damage 0 0 [⟨0, 1, 0⟩, ⟨0, 2, 0⟩]).wf = false := by decide

theorem test_well_formed_commands :
    (Instr.programPulse [⟨63, 1, 1, 2⟩]).wf = true ∧ (Instr.erasePulse [⟨1023, 0, 0, 1⟩]).wf = true
      ∧ (Instr.frameDiscard .p0 [0x01, 0x02, 0x39]).wf = true ∧ (Instr.badCmd .p0 0xFF 0 []).wf = true
      ∧ (Instr.holdTimerExpiry 0xFFFE).wf = true ∧ (Instr.damage 255 15 [⟨63, 0x80, 0x80⟩]).wf = true := by decide

/-! ### Formats -/

/-- Every opcode of Table 47 names its command. -/
theorem test_opcodes_name_their_commands : Cmd.all.all (fun c => Cmd.ofCode c.code = some c) = true := by decide

/-- An opcode outside Table 47 names none. -/
theorem test_other_opcodes_name_none : Cmd.ofCode 0x00 = none ∧ Cmd.ofCode 0x04 = none ∧ Cmd.ofCode 0xFF = none := by decide

/-- Table 8, at the ends of its ranges. -/
theorem test_pages_per_record :
    [0, 40, 41, 104, 105, 168, 169, 232, 233, 296, 297, 360, 361, 424, 425, 488, 489, 512].map pagesFor
      = [1, 1, 2, 2, 3, 3, 4, 4, 5, 5, 6, 6, 7, 7, 8, 8, 9, 9] := by decide

/-- A row header page reads back as its open number. -/
theorem test_row_header_reads_back : parseRowHeader (rowHeaderPage 0x01020304) = some 0x01020304 := by decide +kernel

/-- An image page reads back as its fields. -/
theorem test_image_reads_back :
    parseImage (ImageFields.page ⟨7, defaultSettings, 1, [12, 77]⟩) = some ⟨7, defaultSettings, 1, [12, 77]⟩ := by
  decide +kernel

/-- A record of one page reads back as its header, and is complete. -/
theorem test_record_reads_back :
    let h : RecHeader := ⟨5, 3, 9, .value, 0xFF, .p1, 1⟩
    let page := (recordImages h [1, 2, 3]).headD []
    parseHeader page 15 = some h ∧ recordComplete h [page] = true ∧ recordPayload h [page] = [1, 2, 3] := by decide +kernel

/-! ### Single commands -/

/-- What a command leaves in a port's response queue. -/
def answers (i : Instr) (p : Port) (s : State) : List Response := ((afterCommand i s).ctl.port p).queue

theorem test_ident_while_mounting :
    answers (.ident .p2 7 []) .p2 (st (inMode .mounting { ctl0 with conf := ConfUnit.reset, mount := ⟨.image0, false, false⟩ }))
      = [⟨.ok, 7, 0x01, [0x57, 0x4A, 0x32, 0x04, 0x01, 0, 0, 0, 2, 0xFF, 0, 0, 0, 0, 0, 0, 0, 0]⟩] := by decide +kernel

theorem test_query_of_an_entry_and_a_claim :
    answers (.query .p0 7 [0, 5]) .p0 (st (claimed ctl5))
      = [⟨.ok, 7, 0x02, [1, 1, 0, 100, 0, 0, 0, 9, 0xFF, 1, 2, 1, 1]⟩] := by decide +kernel

theorem test_query_of_no_entry :
    answers (.query .p0 7 [0, 6]) .p0 (st ctl5) = [⟨.ok, 7, 0x02, [0, 0, 0, 0, 0, 0, 0, 0, 0, 0xFF, 0, 0xFF, 0]⟩] := by
  decide +kernel

theorem test_list_from_the_lowest_key :
    answers (.list .p0 7 [0, 0]) .p0 (st ctl5) = [⟨.ok, 7, 0x03, [1, 0, 0, 5]⟩]
      ∧ answers (.list .p0 7 [0, 5]) .p0 (st ctl5) = [⟨.ok, 7, 0x03, [0, 0]⟩] := by decide +kernel

theorem test_open_then_repeated_fill :
    let s := afterCommand (.opn .p0 1 [5, 0x20, 0, 100, 0x33]) (st ctl0)
    (s.ctl.port .p0).staging = .composing ⟨0x0520, 100, 3, 3, []⟩
      ∧ answers (.fill .p0 2 [0, 48, 1]) .p0 (st (staged (.composing ⟨0x0520, 100, 3, 3, [9]⟩) ctl0))
        = [⟨.badArg, 2, 0x11, [0, 1]⟩] := by decide +kernel

theorem test_fill_appends :
    ((afterCommand (.fill .p0 2 [0, 2, 0xCC]) (st (staged (.composing composing5) ctl0))).ctl.port .p0).staging
      = .composing { composing5 with data := [0xAA, 0xBB, 0xCC] } := by decide +kernel

theorem test_commit_of_a_short_composition :
    answers (.commit .p0 2 [0]) .p0 (st (staged (.composing composing5) ctl0)) = [⟨.short, 2, 0x13, []⟩] := by decide +kernel

/-- The first COMMIT of a device whose free rows are FREE_STALE erases the first of them, row 2 (R34, R35). -/
theorem test_commit_opens_a_head :
    let rows : RowMgr :=
      ⟨[⟨.system, false⟩, ⟨.system, false⟩, ⟨.freeStale, false⟩, ⟨.freeStale, false⟩, ⟨.freeStale, false⟩], [], 1, 1, 255⟩
    let c := { staged (.composing { composing5 with data := [1, 2, 3] }) ctl0 with rows := rows }
    (afterCommand (.commit .p0 2 [0]) (st c)).ctl.media.op = .erasing 2 0 := by decide +kernel

theorem test_delete_of_no_key : answers (.delete .p0 3 [0, 6]) .p0 (st ctl5) = [⟨.noKey, 3, 0x14, []⟩] := by decide +kernel

/-- Port P2 waits on key 5, which port P1 holds. -/
theorem test_delete_of_a_waiting_port :
    answers (.delete .p2 3 [0, 5]) .p2 (st (claimIs claim5)) = [⟨.held, 3, 0x14, []⟩] := by decide +kernel

theorem test_read_reads_the_records_first_page :
    (afterCommand (.read .p0 3 [0, 5, 0, 0, 1]) (st ctl5)).ctl.media.op = .reading 2 1 := by decide +kernel

theorem test_claims_in_order :
    answers (.claim .p0 1 [0, 5, 0, 50, 0, 0]) .p0 (st ctl5) = [⟨.ok, 1, 0x20, [1, 0, 50]⟩]
      ∧ answers (.claim .p0 1 [0, 5, 0, 50, 0, 0]) .p0 (st (claimed ctl5)) = [⟨.held, 1, 0x20, []⟩]
      ∧ answers (.claim .p1 1 [0, 5, 0, 50, 0, 0]) .p1 (st (claimed ctl5)) = [⟨.ok, 1, 0x20, [2, 0, 50]⟩] := by
  decide +kernel

theorem test_release_promotes_the_waiter :
    let s := afterCommand (.release .p1 2 [0, 5]) (st (claimed ctl5))
    (s.ctl.port .p1).queue = [⟨.ok, 2, 0x21, [1]⟩] ∧ (s.ctl.port .p2).queue = [⟨.ok, 0x21, 0x20, [3, 1, 44]⟩]
      ∧ s.ctl.claims = [⟨5, .p2, 300, []⟩] := by decide +kernel

theorem test_hold_timer_passes_the_key :
    (afterCommand (.holdTimerExpiry 5) (st (claimed ctl5))).ctl.claims = [⟨5, .p2, 300, []⟩] := by decide +kernel

theorem test_wait_timer_times_out :
    answers (.waitTimerExpiry 5 .p2) .p2 (st (claimed ctl5)) = [⟨.timeout, 0x21, 0x20, []⟩] := by decide +kernel

theorem test_watch_counts_its_keys :
    answers (.watch .p0 1 [0, 5]) .p0 (st ctl0) = [⟨.ok, 1, 0x28, [1]⟩]
      ∧ answers (.unwatch .p0 1 [0, 5]) .p0 (st ctl0) = [⟨.ok, 1, 0x29, [0, 0]⟩] := by decide +kernel

theorem test_attnmask_lets_its_own_response_assert :
    ((afterCommand (.attnmask .p0 1 [1]) (st ctl0)).ctl.port .p0).atn = true
      ∧ ((afterCommand (.attnmask .p0 1 [2]) (st ctl0)).ctl.port .p0).atn = false := by decide +kernel

theorem test_collect_and_its_completion :
    let c := ctl0.onPort .p0 fun u => { u with queue := [response0], outstanding := 1, ovr := true }
    let s := afterCommand (.collect .p0 0 []) (st c)
    (s.ctl.port .p0).queue = [response0] ∧ (s.ctl.port .p0).sdo = some 0
      ∧ ((afterCommand (.collectReadoutComplete .p0) s).ctl.port .p0).outstanding = 0 := by decide +kernel

theorem test_drain_of_an_empty_queue :
    ((afterCommand (.drain .p0 0 []) (st ctl0)).ctl.notif .p0).selection = some ⟨[], false, false⟩ := by decide +kernel

theorem test_resync_keeps_the_others :
    let s := afterCommand (.resync .p1 0 []) (st (claimed ctl5))
    s.ctl.claims = [⟨5, .p2, 300, []⟩] ∧ (s.ctl.port .p2).queue = [⟨.ok, 0x21, 0x20, [3, 1, 44]⟩] := by decide +kernel

theorem test_unknown_opcode : answers (.badCmd .p0 0x04 9 []) .p0 (st ctl0) = [⟨.badCmd, 9, 0x04, []⟩] := by decide +kernel

/-- The bytes of IDENT's frame, one at a time: the last one makes the command arrive (R60). -/
theorem test_last_byte_is_the_arrival :
    let c := ctl0.onPort .p0 fun u => { u with rx := .receiving ((frameBytes 0x01 7 []).take 4) }
    answers (.byteComplete .p0 ((frameBytes 0x01 7 []).getD 4 0)) .p0 (st c)
      = answers (.ident .p0 7 []) .p0 (st ctl0) := by decide +kernel

theorem test_bad_crc_discards :
    let c := ctl0.onPort .p0 fun u => { u with rx := .receiving [0x01, 7, 0, 0] }
    ((afterCommand (.byteComplete .p0 0) (st c)).ctl.port .p0).frm = true := by decide +kernel

theorem test_frame_start_shows_the_status_byte :
    let c := ctl0.onPort .p0 fun u => { u with selLow := false, rx := .idle, sdo := none, queue := [response0], frm := true }
    ((afterCommand (.frameStart .p0) (st c)).ctl.port .p0).sdo = some 0b11001001 := by decide +kernel

/-- A pulse that leaves one cell of byte 0 weak reads it as told, and does not verify. -/
theorem test_pulse_that_leaves_a_cell_weak :
    let target : Page := 0x00 :: List.replicate 63 0xFF
    let c := Cells.programPulse ⟨[], []⟩ 2 0 target [⟨0, 0x80, 0x80, 0x01⟩]
    c.readByte 2048 = 0x81 ∧ c.weakByte 2048 = 0x80 ∧ c.verifies 2 0 target = false := by decide +kernel

/-- Damage turns a programmed and an erased cell about and leaves a weak cell as it reads. -/
theorem test_damage_of_three_cells :
    let c := (Cells.mk [(2048, 0xF0)] [(2048, 0x80)]).damage 2 0 [⟨0, 0xC1, 0x01⟩]
    c.readByte 2048 = 0xB1 ∧ c.weakByte 2048 = 0x81 := by decide +kernel

/-- The end of the device reset starts mount with S0, and mount of S1 is next. -/
theorem test_mount_reads_the_system_rows_first :
    let s := afterCommand .resetRelease State.reset
    s.ctl.media.op = .reading 0 0 ∧ (afterCommand .pageRead s).ctl.media.op = .reading 1 0 := by decide +kernel

/-! ### Witnesses: the hypotheses of every statement are met

Each theorem names its statement and gives, clause by clause, a state and operands that meet the hypotheses together. -/

/-- What `State.serves` asks for, checked by evaluation. -/
theorem serves_of {s : State} {p : Port} {op tag : Byte} {args : List Byte}
    (h : s.ctl.frameReady p op tag args = true ∧ (s.ctl.port p).outstanding < 4 ∧ s.ctl.sched.mode ≠ .mounting) :
    s.serves p op tag args := by
  unfold State.serves State.accepts
  exact ⟨⟨h.1, h.2.1⟩, h.2.2⟩

theorem witness_StepRunsTheCommandInFront :
    { st ctl0 with pending := [.pageRead] }.pending = .pageRead :: [] ∧ (st ctl0).pending = [] := by decide

theorem witness_OnlyArrayEventsReachTheArray :
    Instr.reachesArray .pageRead = false ∧ exec .pageRead (st ctl0) = .next (st ctl0) := ⟨rfl, rfl⟩

theorem witness_PowerLossLosesTheVolatileState :
    (st ctl0).ctl.powered = true ∧ (st { ctl0 with powered := false }).ctl.powered = false := by decide

theorem witness_ResetReleaseBeginsMount :
    (State.reset.ctl.powered = true ∧ State.reset.ctl.inReset = true) ∧ (st ctl0).ctl.inReset = false
      ∧ (st { Ctl.reset with powered := false }).ctl.powered = false := by decide

theorem witness_InterruptionStaysWithinItsOperation :
    (st ctl0).cells.wf ∧ (st ctl0).ctl.powered = true ∧ (st ctl0).ctl.media.op = .idle
      ∧ (st (inMedia (.reading 255 15) ctl0)).ctl.media.op = .reading 255 15
      ∧ (st (inMedia (.programming 255 15 (List.replicate 64 0) 5 []) ctl0)).ctl.media.op
          = .programming 255 15 (List.replicate 64 0) 5 []
      ∧ (st (inMedia (.erasing 255 2) ctl0)).ctl.media.op = .erasing 255 2
      ∧ address 255 15 0 - 1 < address 255 15 0 ∧ address 255 15 0 + 64 ≤ address 255 15 64 ∧ 63 < 64
      ∧ address 255 0 0 + 1024 ≤ address 256 0 0 := by decide

/-- A row whose disturb count is `n`, its page 15 under program with target `target` after `k` pulses. -/
def programming (target : Page) (k n : Nat) : Ctl :=
  { ctl0 with media := ⟨.programming 255 15 target k [], [(255, n)]⟩ }

theorem witness_ProgramPulseActsOnItsPage :
    (st (programming [0] 0 39)).cells.wf
      ∧ (st (programming [0] 0 39)).ctl.media.op = .programming 255 15 [0] 0 []
      ∧ (st (programming [0] 0 39)).ctl.media.count 255 = some 39 ∧ 39 < 40
      ∧ address 255 15 0 - 1 < address 255 15 0 ∧ address 255 15 0 + 64 ≤ address 255 15 64 ∧ 63 < 64 := by decide

/-- A pulse that leaves one cell of the page unprogrammed. -/
def leftBehind : Residue := [⟨0, 0, 0, 0x01⟩]

theorem witness_ProgramPulseEndsOrGoesOn :
    (∀ x ∈ [(0, 0), (5, 39), (4, 39), (4, 38)],
        (programming [0] x.1 x.2).media.op = .programming 255 15 [0] x.1 []
          ∧ (programming [0] x.1 x.2).media.count 255 = some x.2 ∧ x.2 < 40)
      ∧ ((st ctl0).cells.programPulse 255 15 [0] []).verifies 255 15 [0] = true
      ∧ ((st ctl0).cells.programPulse 255 15 [0] leftBehind).verifies 255 15 [0] = false
      ∧ 6 ≤ 5 + 1 ∧ (4 + 1 < 6 ∧ 39 + 1 = 40) ∧ 4 + 1 < 6 ∧ 38 + 1 < 40 := by decide +kernel

theorem witness_VerifiesTestEveryCell :
    (List.replicate 64 (0xFF : Byte)).length = 64 ∧ (st ctl0).cells.verifies 255 15 (List.replicate 64 0xFF) = true
      ∧ (Cells.mk [] [(address 255 15 63, 0x01)]).verifies 255 15 (List.replicate 64 0xFF) = false ∧ 63 < 64
      ∧ (st ctl0).cells.wf ∧ (st ctl0).cells.rowErased 255 = true ∧ 1023 < 1024
      ∧ (Cells.mk [(address 255 0 1023, 0xFE)] []).rowErased 255 = false
      ∧ (Cells.mk [] [(address 255 0 1023, 0x01)]).rowErased 255 = false := by decide +kernel

theorem witness_ErasePulseEndsOrGoesOn :
    (∀ k ∈ [0, 1, 2], (st (inMedia (.erasing 255 k) ctl0)).ctl.media.op = .erasing 255 k) ∧ (st ctl0).cells.wf
      ∧ ((st ctl0).cells.erasePulse 255 []).rowErased 255 = true
      ∧ ((st ctl0).cells.erasePulse 255 [⟨1023, 0x01, 0, 0⟩]).rowErased 255 = false ∧ 3 ≤ 2 + 1 ∧ 1 + 1 < 3 ∧ 1023 < 1024
      ∧ address 255 0 0 - 1 < address 255 0 0 ∧ address 255 0 0 + 1024 ≤ address 256 0 0 := by decide +kernel

/-- The agent's tail erase ends: with a full retired-row list, with room in it and at or below the generation limit. -/
theorem witness_TailEraseEnds :
    (∀ c ∈ [imageOf 1 16 ctl0, imageOf 0xFFFFFFFF 15 ctl0, imageOf 0xFFFFFFFE 15 ctl0],
        (agentStep (.erasing 2) .tailErase c).sched.current = .agent .tailErase
          ∧ (agentStep (.erasing 2) .tailErase c).agent.state = .erasing 2)
      ∧ 16 ≤ (imageOf 1 16 ctl0).conf.retired.length
      ∧ (imageOf 0xFFFFFFFF 15 ctl0).conf.retired.length < 16 ∧ (imageOf 0xFFFFFFFF 15 ctl0).conf.generation = 0xFFFFFFFF
      ∧ (imageOf 0xFFFFFFFE 15 ctl0).conf.retired.length < 16 ∧ (imageOf 0xFFFFFFFE 15 ctl0).conf.generation ≠ 0xFFFFFFFF
      ∧ (inMode .readOnly ctl0).sched.mode = .readOnly ∧ (ctl0.sched.mode = .ready ∧ ctl0.rows.tailClosed = false)
      ∧ (tailAnd 1 ctl0).sched.mode = .ready ∧ (tailAnd 1 ctl0).rows.tailClosed = true := by decide +kernel

theorem witness_PageReadKeepsCellsAndGoesOn :
    let c := inMedia (.reading 2 1) (busy ctl5)
    c.media.op = .reading 2 1 ∧ c.sched.mode ≠ .mounting ∧ c.sched.current = .port readOf3 (.readRecord entry5 [] false)
      ∧ ([] : List Page).length + 1 < entry5.pages := by decide

/-- The agent reads a page at its cursor: no header, a header with a page to come, a record no entry places there, one its entry
places there, whole and agreeing or with another sequence number. -/
theorem witness_PageReadScans :
    let c := fun dir => inMedia (.reading 2 1) (agentStep (.scanning 2 1) (.scan []) (listing dir))
    let pages := fun page => [] ++ [(holding page).readPage 2 1]
    let older : DirEntry := { entry3 with sequence := 8 }
    (∀ dir ∈ [[], [entry3], [older], [{ entry3 with row := 3 }]], (c dir).media.op = .reading 2 1 ∧ (c dir).sched.mode ≠ .mounting
        ∧ (c dir).sched.current = .agent (.scan []) ∧ (c dir).agent.state = .scanning 2 1)
      ∧ parseHeader (([] ++ [(st (c [])).cells.readPage 2 1]).headD []) 1 = none
      ∧ (parseHeader ((pages page100).headD []) 1 = some header100 ∧ (pages page100).length < header100.pages)
      ∧ (parseHeader ((pages page3).headD []) 1 = some header3 ∧ header3.pages ≤ (pages page3).length)
      ∧ (c []).lookup header3.key = none ∧ (c [{ entry3 with row := 3 }]).lookup header3.key = some { entry3 with row := 3 }
      ∧ ((c [entry3]).lookup header3.key = some entry3 ∧ entry3.row = 2 ∧ entry3.page = 1)
      ∧ ((header3.sequence = entry3.sequence ∧ header3.kind = entry3.kind.recKind ∧ header3.length = entry3.length)
        ∧ recordComplete header3 (pages page3) = true)
      ∧ (c [older]).lookup header3.key = some older ∧ header3.sequence ≠ older.sequence := by decide +kernel

/-- The end of a walk: the cursor at the last pages of a row, and the entries that still name the row. -/
theorem witness_PageReadEndsTheWalk :
    let other : DirEntry := { entry3 with key := 4, row := 3 }
    15 + 1 = 16 ∧ 14 + 1 < 16 ∧ (∀ e ∈ [other], e.row ≠ 2)
      ∧ ([other, entry3].Pairwise fun x y => x.key.toNat < y.key.toNat)
      ∧ (listing [other, entry3]).dir = [other] ++ entry3 :: [] ∧ (∀ x ∈ [other], x.row ≠ 2) ∧ entry3.row = 2 := by decide

theorem witness_DamageReachesItsPageAlone :
    (256 ≤ 256 ∨ 16 ≤ 0) ∧ (256 ≤ 255 ∨ 16 ≤ 16)
      ∧ (st ctl0).cells.wf ∧ 255 < 256 ∧ 15 < 16 ∧ (∀ d ∈ [CellDamage.mk 63 1 1], d.off < 64)
      ∧ ([CellDamage.mk 63 1 1].map CellDamage.off).Nodup
      ∧ (st (inMedia (.programming 255 14 [] 0 []) ctl0)).ctl.media.op.touches 255 15 = false
      ∧ (∀ d ∈ [CellDamage.mk 63 1 1], address 255 15 62 ≠ address 255 15 d.off) := by decide

theorem witness_FrameStartLatchesTheStatusByte :
    let c := ctl0.onPort .p3 fun u => { u with rx := .idle, selLow := false }
    (c.powered = true ∧ c.inReset = false ∧ (c.port .p3).enabled = true ∧ (c.port .p3).rx = .idle
        ∧ (c.port .p3).selLow = false)
      ∧ (ctl0.port .p3).selLow = true ∧ ({ c with powered := false } : Ctl).powered = false
      ∧ ({ c with inReset := true } : Ctl).inReset = true
      ∧ ((ctl0.onPort .p3 fun u => { u with enabled := false, rx := .idle, selLow := false }).port .p3).enabled = false
      ∧ ((ctl0.onPort .p3 fun u => { u with selLow := false }).port .p3).rx ≠ .idle := by decide

/-- The device with port P0's receiver in a state. -/
def receiver (r : Receiver) : Ctl := ctl0.onPort .p0 fun u => { u with rx := r }

theorem witness_FrameEndByReceiverState :
    (∀ r ∈ [Receiver.receiving [1], .readout (.collect true) [0], .readout (.collect false) [0], .readout .drain [0], .idle,
        .discarding, .trailing],
      ((receiver r).port .p0).selLow = true ∧ ((receiver r).port .p0).rx = r) := by decide

theorem witness_DiscardedFrameSetsFrmAlone :
    ((receiver (.receiving [1])).port .p0).rx = .receiving [1] ∧ [1] <+: [1, 2, 57] ∧ [1] <+: ([1, 2, 0, 0, 0] : List Byte)
      ∧ ([1, 2, 57] : List Byte).length = 3 ∧ 56 < (byteAt [1, 2, 57] 2).toNat
      ∧ 3 ≤ ([1, 2, 0, 0, 0] : List Byte).length
      ∧ ([1, 2, 0, 0, 0] : List Byte).length = 5 + (byteAt [1, 2, 0, 0, 0] 2).toNat
      ∧ crc16 (([1, 2, 0, 0, 0] : List Byte).take 3) ≠ halfAt [1, 2, 0, 0, 0] 3 := by decide +kernel

/-- The receiver's states, a request byte that completes no frame, and the bytes that have a frame discarded: a length byte of 57
and the last of a frame of 5 bytes whose CRC-16 does not match. -/
theorem witness_ByteCompleteByReceiverState :
    let long : List Byte := [1, 2] ++ [57]
    let whole : List Byte := [1, 2, 0, 0] ++ [0]
    (∀ held ∈ ([[1, 2], [1, 2, 0, 0]] : List (List Byte)), ((receiver (.receiving held)).port .p0).rx = .receiving held)
      ∧ (¬ 56 < (byteAt ([1, 2] ++ [56]) 2).toNat ∧ ([1, 2] ++ [(56 : Byte)]).length ≠ 5 + (byteAt ([1, 2] ++ [56]) 2).toNat)
      ∧ (long.length = 3 ∧ 56 < (byteAt long 2).toNat)
      ∧ ((3 ≤ whole.length ∧ whole.length = 5 + (byteAt whole 2).toNat) ∧ crc16 (whole.take 3) ≠ halfAt whole 3)
      ∧ ((receiver (.readout .drain [1, 2])).port .p0).rx = .readout .drain [1, 2]
      ∧ (∀ r ∈ [Receiver.discarding, .trailing, .idle], ((receiver r).port .p0).rx = r) := by decide +kernel

/-- The byte at which a frame is discarded. -/
theorem test_bad_length_discards :
    ((afterCommand (.byteComplete .p0 57) (st (receiver (.receiving [1, 2])))).ctl.port .p0).rx = .discarding := by decide +kernel

theorem witness_LastByteMakesTheCommandArrive :
    let good := frameBytes Cmd.resync.code 3 []
    let other := frameBytes 0x00 3 []
    ([] : List Byte).length ≤ 56
      ∧ ((receiver (.receiving (good.take 4))).port .p0).rx = .receiving (good.take 4)
      ∧ good.take 4 ++ [good.getD 4 0] = good
      ∧ Cmd.ofCode 0x00 = none ∧ ((receiver (.receiving (other.take 4))).port .p0).rx = .receiving (other.take 4)
      ∧ other.take 4 ++ [other.getD 4 0] = other := by decide +kernel

theorem witness_NoCreditDropsTheCommand :
    let c := ctl0.onPort .p0 fun u => { u with outstanding := 4 }
    4 ≤ (c.port .p0).outstanding ∧ Cmd.needsCredit .release = true
      ∧ c.frameReady .p0 Cmd.release.code 0 [0, 5] = true ∧ Cmd.ofCode 0xFF = none
      ∧ c.frameReady .p0 0xFF 0 [] = true := by decide +kernel

theorem witness_MountingAnswersNotReady :
    Cmd.needsCredit .compact = true ∧ Cmd.compact ≠ .ident ∧ (st (inMode .mounting ctl0)).accepts .p0 Cmd.compact.code 1 []
      ∧ (st (inMode .mounting ctl0)).ctl.sched.mode = .mounting :=
  ⟨by decide, by decide, by unfold State.accepts; decide +kernel, by decide⟩

theorem witness_UnknownOpcodeIsAnsweredBadCmd : Cmd.ofCode 0xFF = none ∧ (st ctl0).accepts .p0 0xFF 1 [] :=
  ⟨by decide, by unfold State.accepts; decide +kernel⟩

theorem witness_IdentReportsTheDevice : (st ctl0).accepts .p0 0x01 1 [] ∧ (st ctl0).accepts .p0 0x01 1 [0] :=
  ⟨by unfold State.accepts; decide +kernel, by unfold State.accepts; decide +kernel⟩

theorem witness_QueryReportsEntryAndClaim :
    ((st ctl5).serves .p0 0x02 1 [0, 5] ∧ keyOk (halfAt [0, 5] 0) = true)
      ∧ ((st ctl5).serves .p0 0x02 1 [0xFF, 0xFF] ∧ keyOk (halfAt [0xFF, 0xFF] 0) = false) ∧ (st ctl5).serves .p0 0x02 1 [] :=
  ⟨⟨serves_of (by decide +kernel), by decide⟩, ⟨serves_of (by decide +kernel), by decide⟩, serves_of (by decide +kernel)⟩

theorem witness_ListReturnsTheNextKeys :
    ((st ctl5).serves .p0 0x03 1 [0xFF, 0xFE] ∧ halfAt [0xFF, 0xFE] 0 ≠ 0xFFFF ∧ dirLaw (st ctl5).ctl.dir)
      ∧ ((st ctl5).serves .p0 0x03 1 [0xFF, 0xFF] ∧ halfAt [0xFF, 0xFF] 0 = 0xFFFF) ∧ (st ctl5).serves .p0 0x03 1 [0] :=
  ⟨⟨serves_of (by decide +kernel), by decide, by unfold dirLaw; decide⟩, ⟨serves_of (by decide +kernel), by decide⟩,
    serves_of (by decide +kernel)⟩

theorem witness_OpenBeginsAComposition :
    (∀ b ∈ [Staging.empty, .composing composing5, .submitted composing5],
        (st (staged b ctl0)).serves .p0 0x10 1 [0, 5, 2, 0, 0] ∧ ((st (staged b ctl0)).ctl.port .p0).staging = b)
      ∧ ([0, 5, 2, 0, 0] : List Byte).length = 5 ∧ keyOk (halfAt [0, 5, 2, 0, 0] 0) = true
      ∧ (halfAt [0, 5, 2, 0, 0] 2).toNat ≤ 512
      ∧ (st ctl0).serves .p0 0x10 1 [0, 5, 2, 1, 0] ∧ 512 < (halfAt [0, 5, 2, 1, 0] 2).toNat :=
  ⟨by
    intro b hb
    fin_cases hb <;> exact ⟨serves_of (by decide +kernel), by decide⟩, by decide, by decide, by decide,
    serves_of (by decide +kernel), by decide⟩

theorem witness_FillAppendsInSequence :
    (∀ b ∈ [Staging.empty, .composing composing5, .submitted composing5],
        (st (staged b ctl0)).serves .p0 0x11 1 [0, 2, 7] ∧ ((st (staged b ctl0)).ctl.port .p0).staging = b)
      ∧ 3 ≤ ([0, 2, 7] : List Byte).length ∧ (halfAt [0, 2, 7] 0).toNat = composing5.data.length
      ∧ (halfAt [0, 2, 7] 0).toNat + (([0, 2, 7] : List Byte).length - 2) ≤ composing5.declared
      ∧ composing5.declared < (halfAt [0, 2, 7, 8] 0).toNat + (([0, 2, 7, 8] : List Byte).length - 2)
      ∧ (halfAt [0, 1, 7] 0).toNat ≠ composing5.data.length
      ∧ (st ctl0).serves .p0 0x11 1 [0, 0] ∧ (st ctl0).serves .p0 0x11 1 (List.replicate 51 0) :=
  ⟨by
    intro b hb
    fin_cases hb <;> exact ⟨serves_of (by decide +kernel), by decide⟩, by decide, by decide, by decide, by decide, by decide,
    serves_of (by decide +kernel), serves_of (by decide +kernel)⟩

/-- A COMMIT of port P0 that has not started, at the front of its list while a READ executes. -/
def withCommit : Ctl :=
  (busy (staged (.submitted composing5) ctl0)).setRequests .p0 [⟨.p0, 9, .commit true, false⟩]

/-- The same COMMIT executing. -/
def commitRuns : Ctl :=
  { staged (.submitted composing5) ctl0 with
    sched := { ctl0.sched with current := .port ⟨.p0, 9, .commit true, false⟩ (.writing ⟨⟨5, 3, 9, .value, 0, .p0, 1⟩, [], .agent⟩ 2 1 0) } }

theorem witness_AbandonDiscardsTheComposition :
    ((st ctl0).serves .p0 0x12 1 [] ∧ ((st ctl0).ctl.port .p0).staging = .empty) ∧ (st ctl0).serves .p0 0x12 1 [0]
      ∧ ((st (staged (.composing composing5) ctl0)).serves .p0 0x12 1 []
        ∧ ((st (staged (.composing composing5) ctl0)).ctl.port .p0).staging = .composing composing5)
      ∧ ((st commitRuns).serves .p0 0x12 1 [] ∧ ((st commitRuns).ctl.port .p0).staging = .submitted composing5
        ∧ (st commitRuns).ctl.commitExecuting .p0 = true)
      ∧ ((st withCommit).serves .p0 0x12 1 [] ∧ ((st withCommit).ctl.port .p0).staging = .submitted composing5
        ∧ (st withCommit).ctl.commitExecuting .p0 = false
        ∧ (st withCommit).ctl.waitingCommit .p0 = some ⟨.p0, 9, .commit true, false⟩) :=
  ⟨⟨serves_of (by decide +kernel), by decide⟩, serves_of (by decide +kernel), ⟨serves_of (by decide +kernel), by decide⟩,
    ⟨serves_of (by decide +kernel), by decide⟩, ⟨serves_of (by decide +kernel), by decide⟩⟩

theorem witness_AttnmaskSetsTheMask :
    ((st ctl0).serves .p0 0x2A 1 [3] ∧ (byteAt [3] 0).toNat ≤ 3) ∧ ((st ctl0).serves .p0 0x2A 1 [4] ∧ 3 < (byteAt [4] 0).toNat)
      ∧ (st ctl0).serves .p0 0x2A 1 [] :=
  ⟨⟨serves_of (by decide +kernel), by decide⟩, ⟨serves_of (by decide +kernel), by decide⟩, serves_of (by decide +kernel)⟩

/-- The device with port P0's watch set `w`. -/
def watching (w : List Half) : Ctl := ctl0.onNotif .p0 fun u => { u with watch := w }

/-- The keys 1 to `n`. -/
def keysTo (n : Nat) : List Half := (List.range n).map fun i => BitVec.ofNat 16 (i + 1)

theorem witness_WatchAddsAKey :
    ((st (watching [5])).serves .p0 0x28 1 [0, 5] ∧ keyOk (halfAt [0, 5] 0) = true ∧ halfAt [0, 5] 0 ∈ [(5 : Half)])
      ∧ ((st (watching (keysTo 32))).serves .p0 0x28 1 [0, 33] ∧ halfAt [0, 33] 0 ∉ keysTo 32 ∧ 32 ≤ (keysTo 32).length)
      ∧ ((st (watching (keysTo 31))).serves .p0 0x28 1 [0, 33] ∧ halfAt [0, 33] 0 ∉ keysTo 31 ∧ (keysTo 31).length < 32)
      ∧ ((st ctl0).serves .p0 0x28 1 [0, 0] ∧ keyOk (halfAt [0, 0] 0) = false) ∧ (st ctl0).serves .p0 0x28 1 [] :=
  ⟨⟨serves_of (by decide +kernel), by decide, by decide⟩, ⟨serves_of (by decide +kernel), by decide, by decide⟩,
    ⟨serves_of (by decide +kernel), by decide, by decide⟩, ⟨serves_of (by decide +kernel), by decide⟩,
    serves_of (by decide +kernel)⟩

theorem witness_UnwatchRemovesAKey :
    ((st (watching [5])).serves .p0 0x29 1 [0, 5] ∧ keyOk (halfAt [0, 5] 0) = true)
      ∧ ((st ctl0).serves .p0 0x29 1 [0, 0] ∧ keyOk (halfAt [0, 0] 0) = false) ∧ (st ctl0).serves .p0 0x29 1 [] :=
  ⟨⟨serves_of (by decide +kernel), by decide⟩, ⟨serves_of (by decide +kernel), by decide⟩, serves_of (by decide +kernel)⟩

/-- The device with sixteen claims of port P1, none on key 5. -/
def fullTable : Ctl := { ctl5 with claims := (List.range 16).map fun i => ⟨BitVec.ofNat 16 (i + 6), .p1, 1, []⟩ }

theorem witness_ClaimByItsTable :
    let args : List Byte := [0, 5, 0x27, 0x10, 0x07, 0xD0]
    let now : List Byte := [0, 5, 0x27, 0x10, 0, 0]
    let frozen := { ctl0 with dir := [{ entry5 with kind := .frozen }] }
    let w := fun q => Waiter.mk q 1 1 1
    args.length = 6 ∧ keyOk (halfAt args 0) = true ∧ halfAt args 2 ≠ 0 ∧ (halfAt args 2).toNat ≤ defaultSettings.holdMax.toNat
      ∧ (halfAt args 4).toNat ≤ defaultSettings.waitMax.toNat ∧ halfAt args 4 ≠ 0 ∧ halfAt now 4 = 0
      ∧ ((st ctl0).serves .p0 0x20 1 [0, 5, 0x27, 0x11, 0, 0] ∧ defaultSettings.holdMax.toNat < (halfAt [0, 5, 0x27, 0x11, 0, 0] 2).toNat)
      ∧ ((st frozen).serves .p0 0x20 1 args ∧ frozen.writeRefusal .p0 5 = some .frozen)
      ∧ ((st fullTable).serves .p0 0x20 1 args ∧ fullTable.writeRefusal .p0 5 = none ∧ fullTable.claimOf 5 = none
        ∧ 16 ≤ fullTable.claims.length)
      ∧ ((st ctl5).serves .p0 0x20 1 args ∧ ctl5.conf.active = some defaultSettings ∧ ctl5.claimOf 5 = none
        ∧ ctl5.claims.length < 16)
      ∧ ((st (claimIs claim5)).serves .p1 0x20 1 args ∧ (claimIs claim5).writeRefusal .p1 5 = none
        ∧ (claimIs claim5).claimOf 5 = some claim5 ∧ claim5.holder = .p1)
      ∧ ((st (claimIs claim5)).serves .p0 0x20 1 now ∧ claim5.holder ≠ .p0)
      ∧ ((st (claimIs claim5)).serves .p2 0x20 1 args ∧ claim5.holder ≠ .p2 ∧ .p2 ∈ claim5.waiters.map Waiter.port)
      ∧ ((st (claimIs { claim5 with waiters := [w .p2, w .p2, w .p3] })).serves .p0 0x20 1 args
        ∧ .p0 ∉ [w .p2, w .p2, w .p3].map Waiter.port ∧ 3 ≤ [w .p2, w .p2, w .p3].length)
      ∧ ((st (claimIs claim5)).serves .p0 0x20 1 args ∧ .p0 ∉ claim5.waiters.map Waiter.port
        ∧ claim5.waiters.length < 3) := by
  refine ⟨?_, ?_, ?_, ?_, ?_, ?_, ?_, ⟨serves_of ?_, ?_⟩, ⟨serves_of ?_, ?_⟩, ⟨serves_of ?_, ?_⟩, ⟨serves_of ?_, ?_⟩,
    ⟨serves_of ?_, ?_⟩, ⟨serves_of ?_, ?_⟩, ⟨serves_of ?_, ?_⟩, ⟨serves_of ?_, ?_⟩, ⟨serves_of ?_, ?_⟩⟩ <;> decide +kernel

theorem witness_TablesChangeOneKey :
    claim5.key = 5 ∧ entry5.key = 5 ∧ (6 : Half) ≠ 5 ∧ ctl5.lookup 5 = some entry5 ∧ ctl5.lookup 6 = none := by decide

/-- The law of the claim table holds of a device with the claim of key 5. -/
theorem claimed_lawful : (claimIs claim5).claimLaw := by
  unfold Ctl.claimLaw ClaimEntry.lawful
  decide

theorem witness_ReleaseEndsHoldOrWait :
    (claimIs claim5).claimLaw
      ∧ ((st (claimIs claim5)).serves .p1 0x21 1 [0, 5] ∧ (claimIs claim5).claimOf 5 = some claim5 ∧ claim5.holder = .p1)
      ∧ ((st (claimIs claim5)).serves .p2 0x21 1 [0, 5] ∧ (∀ w ∈ claim5.waiters, w.port = .p2))
      ∧ ((st (claimIs claim5)).serves .p0 0x21 1 [0, 5] ∧ claim5.holder ≠ .p0 ∧ .p0 ∉ claim5.waiters.map Waiter.port)
      ∧ ((st (claimIs claim5)).serves .p0 0x21 1 [0, 6] ∧ (claimIs claim5).claimOf 6 = none)
      ∧ ((st (claimIs claim5)).serves .p0 0x21 1 [0, 0] ∧ keyOk (halfAt [0, 0] 0) = false) := by
  refine ⟨claimed_lawful, ⟨serves_of ?_, ?_⟩, ⟨serves_of ?_, ?_⟩, ⟨serves_of ?_, ?_⟩, ⟨serves_of ?_, ?_⟩, ⟨serves_of ?_, ?_⟩⟩
    <;> decide +kernel

/-- The claim of key 5 on a device whose entry lets port P1 and port P3 write, and not P2. -/
def claimRefusing : Ctl :=
  { ctl5 with
    dir := [{ entry5 with writeMask := 0b1010 }]
    claims := [{ claim5 with waiters := [⟨.p2, 1, 1, 1⟩, ⟨.p3, 2, 2, 2⟩] }] }

theorem witness_HoldExpiryPassesTheKey :
    ctl0.claimOf 5 = none
      ∧ ((claimRefusing.claimOf 5).map ClaimEntry.waiters = some ([⟨.p2, 1, 1, 1⟩] ++ ⟨.p3, 2, 2, 2⟩ :: [])
        ∧ (∀ w ∈ [Waiter.mk .p2 1 1 1], claimRefusing.writeRefusal w.port 5 ≠ none) ∧ claimRefusing.writeRefusal .p3 5 = none)
      ∧ ((claimIs { claim5 with waiters := [] }).claimOf 5).map ClaimEntry.waiters = some [] := by decide +kernel

theorem witness_WaitExpiryTimesOut :
    (claimIs claim5).claimLaw ∧ (claimIs claim5).claimOf 5 = some claim5 ∧ (∀ w ∈ claim5.waiters, w.port = .p2)
      ∧ claim5.waiters ≠ [] ∧ (claimIs claim5).claimOf 6 = none ∧ .p3 ∉ claim5.waiters.map Waiter.port :=
  ⟨claimed_lawful, by decide, by decide, by decide, by decide, by decide⟩

theorem witness_CollectBeginsAReadout :
    ctl0.frameReady .p0 0x3E 1 [] = true ∧ (ctl0.port .p0).queue = []
      ∧ ((ctl0.onPort .p0 fun u => { u with queue := [response0] }).port .p0).queue = response0 :: []
      ∧ (ctl0.onPort .p0 fun u => { u with queue := [response0] }).frameReady .p0 0x3E 1 [] = true := by decide +kernel

theorem witness_CollectReadoutRemovesItsResponse :
    ((receiver (.readout (.collect true) [7, 8])).port .p0).rx = .readout (.collect true) [7, 8]
      ∧ ((receiver (.readout (.collect false) [7, 8])).port .p0).rx = .readout (.collect false) [7, 8]
      ∧ ((receiver (.readout (.collect true) [8])).port .p0).rx = .readout (.collect true) [8] := by decide

theorem witness_DrainSelectsTheOldestNotices : ctl0.frameReady .p0 0x3F 1 [] = true := by decide +kernel

/-- A notice of key `k`. -/
def noticeOf (k : Half) : Notice := ⟨k, .changed, some .p1, 9, false⟩

/-- The device in a DRAIN readout of port P0 with `rest` bytes to go. -/
def draining (rest : List Byte) : Ctl :=
  (receiver (.readout .drain rest)).onNotif .p0 fun u =>
    { u with queue := [noticeOf 5], lost := true, selection := some ⟨[5], true, false⟩ }

theorem witness_DrainReadoutRemovesWhatItShowed :
    (∀ rest ∈ [[7, 8], ([8] : List Byte)], ((draining rest).port .p0).rx = .readout .drain rest
      ∧ ((draining rest).notif .p0).selection = some ⟨[5], true, false⟩) := by decide

theorem witness_NoticeCoalescesOrIsAppendedOrLost :
    ([noticeOf 4, noticeOf 5, noticeOf 6] = [noticeOf 4] ++ noticeOf 5 :: [noticeOf 6] ∧ (noticeOf 5).key = 5
        ∧ (∀ x ∈ [noticeOf 4] ++ [noticeOf 6], x.key ≠ 5))
      ∧ ((∀ x ∈ (keysTo 7).map noticeOf, x.key ≠ 8) ∧ ((keysTo 7).map noticeOf).length < 8)
      ∧ ((∀ x ∈ (keysTo 8).map noticeOf, x.key ≠ 9) ∧ 8 ≤ ((keysTo 8).map noticeOf).length) := by decide

theorem witness_ResyncFreesThePort :
    (∀ p ∈ [Port.p0, .p1, .p2], (claimIs claim5).frameReady p 0x7F 1 [] = true) ∧ (claimIs claim5).claimLaw
      ∧ ((claimIs claim5).claimOf 5 = some claim5 ∧ claim5.holder = .p1 ∧ claim5.holder ≠ .p2)
      ∧ (claimIs claim5).claimOf 6 = none
      ∧ (busy (claimIs claim5)).frameReady .p3 0x7F 1 [] = true ∧ (busy (claimIs claim5)).claimLaw
      ∧ (busy (claimIs claim5)).sched.current = .port readOf3 (.readRecord entry5 [] false) :=
  ⟨by decide +kernel, claimed_lawful, by decide, by decide, by decide +kernel, claimed_lawful, by decide⟩

/-- A whole composition of key 5. -/
def whole5 : Composition := { composing5 with data := [1, 2, 3] }

theorem witness_CommitChecksThenJoins :
    let frozen := { ctl0 with dir := [{ entry5 with kind := .frozen }] }
    ([0x01] : List Byte).length = 1 ∧ byteAt [0x01] 0 &&& 0xFE = 0
      ∧ ((st ctl0).serves .p0 0x13 1 [0x02] ∧ byteAt [0x02] 0 &&& 0xFE ≠ 0) ∧ (st ctl0).serves .p0 0x13 1 []
      ∧ ((st (inMode .readOnly ctl0)).serves .p0 0x13 1 [1] ∧ (inMode .readOnly ctl0).sched.mode = .readOnly)
      ∧ ((st ctl0).serves .p0 0x13 1 [1] ∧ ctl0.sched.mode = .ready ∧ (ctl0.port .p0).staging = .empty)
      ∧ ((st (staged (.submitted whole5) ctl0)).serves .p0 0x13 1 [1]
        ∧ ((staged (.submitted whole5) ctl0).port .p0).staging = .submitted whole5)
      ∧ ((st (staged (.composing composing5) ctl0)).serves .p0 0x13 1 [1]
        ∧ ((staged (.composing composing5) ctl0).port .p0).staging = .composing composing5
        ∧ composing5.data.length < composing5.declared)
      ∧ ((st (staged (.composing whole5) frozen)).serves .p0 0x13 1 [1] ∧ whole5.declared ≤ whole5.data.length
        ∧ (staged (.composing whole5) frozen).writeRefusal .p0 5 = some .frozen)
      ∧ ((st (staged (.composing whole5) (claimIs claim5))).serves .p0 0x13 1 [1]
        ∧ (staged (.composing whole5) (claimIs claim5)).writeRefusal .p0 5 = none
        ∧ (staged (.composing whole5) (claimIs claim5)).heldAgainst .p0 5 = true)
      ∧ ((st (busy (staged (.composing whole5) ctl5))).serves .p0 0x13 1 [1]
        ∧ (busy (staged (.composing whole5) ctl5)).writeRefusal .p0 5 = none
        ∧ (busy (staged (.composing whole5) ctl5)).heldAgainst .p0 5 = false)
      ∧ ((st (staged (.composing whole5) ctl5)).serves .p0 0x13 1 [1]
        ∧ (staged (.composing whole5) ctl5).writeRefusal .p0 5 = none
        ∧ (staged (.composing whole5) ctl5).heldAgainst .p0 5 = false) := by
  refine ⟨?_, ?_, ⟨serves_of ?_, ?_⟩, serves_of ?_, ⟨serves_of ?_, ?_⟩, ⟨serves_of ?_, ?_⟩, ⟨serves_of ?_, ?_⟩, ⟨serves_of ?_, ?_⟩,
    ⟨serves_of ?_, ?_⟩, ⟨serves_of ?_, ?_⟩, ⟨serves_of ?_, ?_⟩, ⟨serves_of ?_, ?_⟩⟩ <;> decide +kernel

/-- A Directory of `n` entries, none of key 5. -/
def entriesTo (n : Nat) : List DirEntry := (List.range n).map fun i => { entry5 with key := BitVec.ofNat 16 (i + 6) }

/-- The starts of a COMMIT of a submitted composition: each re-check of Table 25 in its turn, and none. -/
theorem witness_CommitStarts :
    let c := staged (.submitted whole5)
    (∀ d ∈ [ctl0, inMode .readOnly ctl0, guarded .frozen 0xF, claimIs claim5, listing (entriesTo 1), ctl5],
        ((c d).port .p0).staging = .submitted whole5)
      ∧ (c (inMode .readOnly ctl0)).sched.mode = .readOnly
      ∧ ((c (guarded .frozen 0xF)).sched.mode ≠ .readOnly ∧ (c (guarded .frozen 0xF)).writeRefusal .p0 5 = some .frozen)
      ∧ ((c (claimIs claim5)).writeRefusal .p0 5 = none ∧ (c (claimIs claim5)).heldAgainst .p0 5 = true)
      ∧ ((c (listing (entriesTo 512))).lookup 5 = none ∧ (c (listing (entriesTo 512))).writeRefusal .p0 5 = none
        ∧ (c (listing (entriesTo 512))).heldAgainst .p0 5 = false ∧ 512 ≤ (entriesTo 512).length)
      ∧ ((c (listing (entriesTo 511))).lookup 5 = none ∧ (c (listing (entriesTo 511))).writeRefusal .p0 5 = none
        ∧ (c (listing (entriesTo 511))).heldAgainst .p0 5 = false ∧ (entriesTo 511).length < 512)
      ∧ ((c ctl5).writeRefusal .p0 5 = none ∧ (c ctl5).heldAgainst .p0 5 = false ∧ (c ctl5).lookup 5 = some entry5) := by
  decide +kernel

/-- The starts of the other operations: the re-checks of Table 25 and the states that pass them. -/
theorem witness_OtherOperationsStart :
    let locked := { ctl0 with conf := { ctl0.conf with stored := some ⟨.s0, ⟨1, defaultSettings, 1, []⟩⟩ } }
    (ctl5.sched.mode ≠ .readOnly ∧ ctl5.lookup 6 = none ∧ ctl5.lookup 5 = some entry5)
      ∧ ((guarded .frozen 0xF).lookup 5 = some { entry5 with kind := .frozen }
        ∧ (guarded .frozen 0xF).writeRefusal .p0 5 = some .frozen)
      ∧ ((claimIs claim5).writeRefusal .p0 5 = none ∧ (claimIs claim5).heldAgainst .p0 5 = true)
      ∧ (ctl5.writeRefusal .p0 5 = none ∧ ctl5.heldAgainst .p0 5 = false ∧ entry5.kind = .value)
      ∧ (guarded .value 0b0111).readRefusal .p3 5 = some .denied
      ∧ (ctl5.readRefusal .p0 5 = none ∧ entry5.length < 53 + 48 ∧ 52 + 48 ≤ entry5.length)
      ∧ (ctl5.isAdmin .p1 = false ∧ ctl5.isAdmin .p0 = true) ∧ (locked.isAdmin .p0 = true ∧ locked.conf.lock = 1) := by
  decide +kernel

/-- A FREEZE of key 5 has read its record whole: one that checks and an erased page, FULL due and not. -/
theorem witness_FreezeHasReadItsRecord :
    (∀ full ∈ [true, false], (portStep ⟨.p0, 1, .freeze 5, false⟩ (.readRecord entry3 [] full) ctl5).sched.current
        = .port ⟨.p0, 1, .freeze 5, false⟩ (.readRecord entry3 [] full))
      ∧ entry3.pages ≤ ([] : List Page).length + 1 ∧ checkRecord entry3 ([] ++ [page3]) = some header3
      ∧ checkRecord entry3 ([] ++ [List.replicate 64 0xFF]) = none := by decide +kernel

/-- The arguments of a SETCONF with the default settings. -/
def confBytes : List Byte := [0x0F, 0, 0x0F, 4, 0x27, 0x10, 0x07, 0xD0, 0]

/-- The settings it carries. -/
def confOf : ConfArgs := ⟨defaultSettings, 0⟩

theorem witness_ArrayCommandJoinsItsList :
    let c := ctl5
    let s := st c
    c.sched.current = .none ∧ c.sched.mode = .ready ∧ c.isAdmin .p0 = true ∧ c.lookup 5 = some entry5
      ∧ (s.serves .p0 0x14 1 [0, 5] ∧ keyOk (halfAt [0, 5] 0) = true ∧ c.writeRefusal .p0 5 = none
        ∧ c.heldAgainst .p0 5 = false)
      ∧ (s.serves .p0 0x15 1 [0, 5, 0, 52, 48] ∧ (halfAt [0, 5, 0, 52, 48] 2).toNat ≤ 512 ∧ (byteAt [0, 5, 0, 52, 48] 4).toNat ≤ 48
        ∧ (halfAt [0, 5, 0, 52, 48] 2).toNat + (byteAt [0, 5, 0, 52, 48] 4).toNat ≤ entry5.length
        ∧ c.readRefusal .p0 5 = none)
      ∧ (s.serves .p0 0x30 1 [0, 5] ∧ entry5.kind = .value) ∧ s.serves .p0 0x31 1 []
      ∧ (s.serves .p0 0x32 1 confBytes ∧ confArgs confBytes = some confOf ∧ confOf.inRange = true ∧ c.conf.lock ≠ 1)
      ∧ s.serves .p0 0x33 1 [] := by
  refine ⟨?_, ?_, ?_, ?_, ⟨serves_of ?_, ?_⟩, ⟨serves_of ?_, ?_⟩, ⟨serves_of ?_, ?_⟩, serves_of ?_, ⟨serves_of ?_, ?_⟩,
    serves_of ?_⟩ <;> decide +kernel

/-- The field ranges of R97 over SETCONF's argument bytes. -/
abbrev rangesHold (args : List Byte) : Prop :=
  (1 ≤ (byteAt args 0).toNat ∧ (byteAt args 0).toNat ≤ 15)
    ∧ (byteAt args 1 = 0xFF ∨ (byteAt args 1).toNat ≤ 3 ∧ (byteAt args 0).getLsbD (byteAt args 1).toNat = true)
    ∧ (byteAt args 2).toNat ≤ 15 ∧ (3 ≤ (byteAt args 3).toNat ∧ (byteAt args 3).toNat ≤ 16)
    ∧ (1 ≤ (halfAt args 4).toNat ∧ (halfAt args 4).toNat ≤ 60000) ∧ (halfAt args 6).toNat ≤ 60000 ∧ (byteAt args 8).toNat ≤ 1

/-- The field ranges of SETCONF at their ends. -/
theorem witness_SetconfRanges :
    (∀ args ∈ ([[0x01, 0, 0, 3, 0, 1, 0, 0, 0], [0x0F, 3, 0x0F, 16, 0xEA, 0x60, 0xEA, 0x60, 1],
        [0x01, 0xFF, 0, 3, 0, 1, 0, 0, 0]] : List (List Byte)), args.length = 9 ∧ rangesHold args)
      ∧ ∀ args ∈ ([[0x00, 0xFF, 0, 3, 0, 1, 0, 0, 0], [0x10, 0xFF, 0, 3, 0, 1, 0, 0, 0], [0x01, 1, 0, 3, 0, 1, 0, 0, 0],
          [0x0F, 4, 0, 3, 0, 1, 0, 0, 0], [0x0F, 0, 0x10, 3, 0, 1, 0, 0, 0], [0x0F, 0, 0, 2, 0, 1, 0, 0, 0],
          [0x0F, 0, 0, 17, 0, 1, 0, 0, 0], [0x0F, 0, 0, 3, 0, 0, 0, 0, 0], [0x0F, 0, 0, 3, 0xEA, 0x61, 0, 0, 0],
          [0x0F, 0, 0, 3, 0, 1, 0xEA, 0x61, 0], [0x0F, 0, 0, 3, 0, 1, 0, 0, 2]] : List (List Byte)),
        args.length = 9 ∧ ¬ rangesHold args := by decide +kernel

/-- The arrival checks of DELETE and READ, refusal by refusal. -/
theorem witness_DeleteAndReadRefusals :
    let read : List Byte := [0, 5, 2, 0, 48]
    ((st ctl5).serves .p0 0x14 1 [0, 0] ∧ keyOk (halfAt [0, 0] 0) = false) ∧ (st ctl5).serves .p0 0x14 1 [0]
      ∧ ((st ctl5).serves .p0 0x14 1 [0, 6] ∧ ctl5.lookup 6 = none)
      ∧ ((st (guarded .frozen 0xF)).serves .p0 0x14 1 [0, 5] ∧ (guarded .frozen 0xF).lookup 5 = some { entry5 with kind := .frozen })
      ∧ ((st (guarded .value 0b0111)).serves .p3 0x14 1 [0, 5] ∧ (guarded .value 0b0111).isAdmin .p3 = false
        ∧ (0b0111 : BitVec 4).getLsbD (portNum .p3) = false)
      ∧ ((st (claimIs claim5)).serves .p0 0x14 1 [0, 5] ∧ (claimIs claim5).claimOf 5 = some claim5 ∧ claim5.holder ≠ .p0)
      ∧ ((st ctl5).serves .p0 0x15 1 [0, 5, 2, 1, 48] ∧ 512 < (halfAt [0, 5, 2, 1, 48] 2).toNat)
      ∧ ((st ctl5).serves .p0 0x15 1 [0, 5, 2, 0, 49] ∧ 48 < (byteAt [0, 5, 2, 0, 49] 4).toNat) ∧ (st ctl5).serves .p0 0x15 1 []
      ∧ ((halfAt read 2).toNat ≤ 512 ∧ (byteAt read 4).toNat ≤ 48) ∧ ((st ctl0).serves .p0 0x15 1 read ∧ ctl0.lookup 5 = none)
      ∧ (st (guarded .value 0b0111)).serves .p3 0x15 1 read
      ∧ ((st ctl5).serves .p0 0x15 1 [0, 5, 0, 53, 48] ∧ entry5.length < (halfAt [0, 5, 0, 53, 48] 2).toNat + 48) := by
  refine ⟨⟨serves_of ?_, ?_⟩, serves_of ?_, ⟨serves_of ?_, ?_⟩, ⟨serves_of ?_, ?_⟩, ⟨serves_of ?_, ?_⟩, ⟨serves_of ?_, ?_⟩,
    ⟨serves_of ?_, ?_⟩, ⟨serves_of ?_, ?_⟩, serves_of ?_, ?_, ⟨serves_of ?_, ?_⟩, serves_of ?_, ⟨serves_of ?_, ?_⟩⟩
    <;> decide +kernel

/-- The arrival checks of the admin commands, refusal by refusal. -/
theorem witness_AdminRefusals :
    let locked := { ctl0 with conf := { ctl0.conf with stored := some ⟨.s0, ⟨1, defaultSettings, 1, []⟩⟩ } }
    (st ctl5).serves .p0 0x30 1 [0, 0] ∧ ctl5.isAdmin .p1 = false
      ∧ (st ctl5).serves .p1 0x30 1 [0, 5] ∧ ((st ctl5).serves .p0 0x30 1 [0, 6] ∧ ctl5.isAdmin .p0 = true ∧ ctl5.lookup 6 = none)
      ∧ ((st (guarded .frozen 0xF)).serves .p0 0x30 1 [0, 5] ∧ (guarded .frozen 0xF).isAdmin .p0 = true)
      ∧ (st ctl5).serves .p0 0x31 1 [0] ∧ (st ctl5).serves .p1 0x31 1 []
      ∧ (st ctl5).serves .p0 0x32 1 (confBytes.take 8) ∧ (st ctl5).serves .p1 0x32 1 confBytes
      ∧ ((st ctl5).serves .p0 0x32 1 [0, 0xFF, 0, 3, 0, 1, 0, 0, 0] ∧ ¬ rangesHold [0, 0xFF, 0, 3, 0, 1, 0, 0, 0])
      ∧ ((st locked).serves .p0 0x32 1 confBytes ∧ rangesHold confBytes ∧ locked.conf.lock = 1)
      ∧ (st ctl5).serves .p0 0x33 1 [0] ∧ (st ctl5).serves .p1 0x33 1 [] := by
  refine ⟨serves_of ?_, ?_, serves_of ?_, ⟨serves_of ?_, ?_⟩, ⟨serves_of ?_, ?_⟩, serves_of ?_, serves_of ?_, serves_of ?_,
    serves_of ?_, ⟨serves_of ?_, ?_⟩, ⟨serves_of ?_, ?_⟩, serves_of ?_, serves_of ?_⟩ <;> decide +kernel

theorem witness_ReadOnlyRefusesChanges :
    let s := st (inMode .readOnly ctl5)
    s.ctl.sched.mode = .readOnly ∧ s.serves .p0 0x14 1 [0, 5] ∧ keyOk (halfAt [0, 5] 0) = true ∧ s.serves .p0 0x30 1 [0, 5]
      ∧ s.serves .p0 0x31 1 [] ∧ s.serves .p0 0x32 1 confBytes ∧ confBytes.length = 9 := by
  refine ⟨?_, serves_of ?_, ?_, serves_of ?_, serves_of ?_, serves_of ?_, ?_⟩ <;> decide +kernel

/-- The entry into READ_ONLY, and the agent's halt, by mode and step. -/
theorem witness_ReadOnlyIsEntered :
    (inMode .readOnly ctl0).sched.mode ≠ .ready
      ∧ ((busy ctl5).sched.mode = .ready ∧ (busy ctl5).sched.current = .port readOf3 (.readRecord entry5 [] false))
      ∧ ((agentStep (.erasing 2) .tailErase ctl0).sched.mode = .ready
        ∧ (agentStep (.erasing 2) .tailErase ctl0).sched.current = .agent .tailErase)
      ∧ (agentStep (.erasing 2) .tailErase (inMode .readOnly ctl0)).sched.mode = .readOnly
      ∧ (agentStep (.erasing 2) .tailErase (inMode .readOnly ctl0)).sched.current = .agent .tailErase := by decide

theorem witness_ReadStartsOnAnIdleDevice :
    let args : List Byte := [0, 5, 0, 52, 48]
    (st ctl5).serves .p0 0x15 1 args ∧ args.length = 5 ∧ keyOk (halfAt args 0) = true ∧ (halfAt args 2).toNat ≤ 512
      ∧ (byteAt args 4).toNat ≤ 48 ∧ ctl5.lookup (halfAt args 0) = some entry5
      ∧ (halfAt args 2).toNat + (byteAt args 4).toNat ≤ entry5.length ∧ ctl5.readRefusal .p0 (halfAt args 0) = none
      ∧ ctl5.sched.current = .none ∧ (∀ q, ctl5.requests q = []) ∧ ctl5.agentHasWork = false := by
  refine ⟨serves_of ?_, ?_, ?_, ?_, ?_, ?_, ?_, ?_, ?_, fun q => by cases q <;> rfl, ?_⟩ <;> decide +kernel

/-- What the other starts ask of an idle device. -/
theorem idle_of {c : Ctl} (h : c.sched.current = .none ∧ c.requests .p0 = [] ∧ c.requests .p1 = [] ∧ c.requests .p2 = []
    ∧ c.requests .p3 = []) : c.sched.current = .none ∧ ∀ q, c.requests q = [] :=
  ⟨h.1, fun q => by cases q; exacts [h.2.1, h.2.2.1, h.2.2.2.1, h.2.2.2.2]⟩

/-- RELOAD, SETCONF and COMPACT on an idle device without work for the agent. -/
theorem witness_AdminCommandsStart :
    (∀ c ∈ [ctl0, imageOf 7 0 ctl0, imageOf 0xFFFFFFFE 0 ctl0, imageOf 0xFFFFFFFF 0 ctl0, tailAnd 5 ctl0],
        (c.sched.current = .none ∧ ∀ q, c.requests q = []) ∧ c.agentHasWork = false ∧ c.sched.mode = .ready ∧ c.isAdmin .p0 = true
          ∧ (st c).serves .p0 0x33 1 [] ∧ (st c).serves .p0 0x32 1 confBytes ∧ (st c).serves .p0 0x31 1 []
          ∧ c.agent.state = .idle ∧ c.conf.lock ≠ 1 ∧ c.sched.limitMark = false)
      ∧ (imageOf 7 0 ctl0).conf.stored = some ⟨.s0, ⟨7, defaultSettings, 0, []⟩⟩ ∧ ctl0.conf.stored = none
      ∧ ({ ctl0 with conf := { ctl0.conf with active := some ⟨0x0F, 0, 0x0F, 4, 10000, 2000⟩ } } : Ctl).agentHasWork = false
      ∧ confArgs confBytes = some confOf ∧ confOf.inRange = true
      ∧ (imageOf 0xFFFFFFFE 0 ctl0).conf.generation ≠ 0xFFFFFFFF ∧ (imageOf 0xFFFFFFFF 0 ctl0).conf.generation = 0xFFFFFFFF
      ∧ ctl0.rows.tailClosed = false
      ∧ (tailAnd 5 ctl0).rows.ring = 2 :: [] ∧ (tailAnd 5 ctl0).rows.state 2 = .closed 1 2 13 := by
  refine ⟨fun c hc => ?_, ?_, ?_, ?_, ?_, ?_, ?_, ?_, ?_, ?_, ?_⟩
  · fin_cases hc <;> exact ⟨idle_of (by decide), by decide +kernel, by decide, by decide, serves_of (by decide +kernel),
      serves_of (by decide +kernel), serves_of (by decide +kernel), by decide, by decide, by decide⟩
  all_goals decide +kernel

/-- The device with the agent in a state, the COMPACT request of port P0 waiting untied. -/
def compacting (a : AgentState) : Ctl :=
  { tailAnd 5 ctl0 with agent := ⟨a, none, 0, 0⟩, sched := { ctl0.sched with compactList := [⟨.p0, 1, false, false⟩] } }

/-- The agent's steps on an idle device, and what a COMPACT that executes finds. -/
theorem witness_AgentStepsStart :
    (∀ a ∈ [AgentState.idle, .scanning 2 15, .erasing 2],
        ((compacting a).sched.current = .none ∧ ∀ q, (compacting a).requests q = []) ∧ (compacting a).agentHasWork = true
          ∧ (compacting a).agent.state = a)
      ∧ (compacting .idle).rows.ring = 2 :: [] ∧ (∀ r ∈ (compacting .idle).sched.compactList, r.tied = false)
      ∧ (Request.mk .p0 1 .compact true).body = .compact ∧ ctl0.sched.mode ≠ .readOnly ∧ ctl0.isAdmin .p0 = true
      ∧ (ctl0.agent.state = .idle ∧ ctl0.rows.tailClosed = false)
      ∧ (compacting (.erasing 2)).agent.state ≠ .idle ∧ (tailAnd 5 ctl0).rows.tailClosed = true := by
  refine ⟨fun a ha => ?_, ?_, ?_, ?_, ?_, ?_, ?_, ?_, ?_⟩
  · fin_cases ha <;> exact ⟨idle_of (by decide), by decide +kernel, by decide⟩
  all_goals decide

theorem witness_ReadCompletesWithItsData :
    let c := inMedia (.reading 2 1)
      { ctl0 with sched := { ctl0.sched with current := .port readOf3 (.readRecord entry3 [] false) } }
    c.media.op = .reading 2 1 ∧ c.sched.mode ≠ .mounting ∧ c.sched.current = .port readOf3 (.readRecord entry3 [] false)
      ∧ (∀ discard ∈ [true, false], ({ readOf3 with discard := discard } : Request).body = .read 5 0 1) ∧ entry3.pages ≤ ([] : List Page).length + 1
      ∧ c.sched.limitMark = false ∧ (∀ q, c.requests q = []) ∧ c.agentHasWork = false
      ∧ checkRecord entry3 [page3] = some header3
      ∧ (holding page3).readPage 2 1 = page3
      ∧ checkRecord entry3 ([] ++ [(st c).cells.readPage 2 1]) = none := by
  refine ⟨?_, ?_, ?_, ?_, ?_, ?_, fun q => by cases q <;> rfl, ?_, ?_, ?_, ?_⟩ <;> decide +kernel

/-- The image of generation 7 and the page it is stored as. -/
def image7 : ImageFields := ⟨7, defaultSettings, 0, []⟩
def plan7 : ImagePlan := ⟨.s1, image7⟩

/-- A RELOAD and a SETCONF of port P0. -/
def reload0 : Request := ⟨.p0, 7, .reload, false⟩
def setconf0 : Request := ⟨.p0, 7, .setconf confOf, false⟩

/-- A page written into an erased page reads back. -/
theorem written_reads_back (page : Page) (row n : Nat) (h : page.length = 64) :
    (Cells.setPage ⟨[], []⟩ row n fun i => (imageByte page i, 0)).readPage row n = page := by
  unfold Cells.readPage
  refine List.ext_getElem (by simp [h, Config.pageSize]) fun i h1 h2 => ?_
  have hi : i < 64 := by omega
  have hw : Cells.wf ⟨[], []⟩ := by decide
  have hr := (Cells.setPage_in hw row n (fun i => (imageByte page i, 0)) hi).1
  rw [List.getElem_map, List.getElem_range, hr]
  simp [imageByte, h2]

/-- A RELOAD has read its page: a valid image of the stored generation, of another one, and an erased page. -/
theorem witness_ReloadReadsTheImage :
    let c := fun g => inMedia (.reading 0 0) (portStep reload0 .readImage (imageOf g 0 ctl0))
    let cells := Cells.setPage ⟨[], []⟩ 0 0 fun i => (imageByte image7.page i, 0)
    (∀ g, (c g).media.op = .reading 0 0 ∧ (c g).sched.mode ≠ .mounting
        ∧ (c g).sched.current = .port reload0 .readImage ∧ (c g).sched.limitMark = false)
      ∧ (∀ discard ∈ [true, false], ({ reload0 with discard := discard } : Request).body = .reload) ∧ parseImage (cells.readPage 0 0) = some image7
      ∧ image7.generation = (c 7).conf.generation ∧ image7.generation ≠ (c 8).conf.generation
      ∧ parseImage ((st (c 7)).cells.readPage 0 0) = none := by
  refine ⟨fun g => ⟨rfl, Mode.noConfusion, rfl, rfl⟩, by decide, ?_, by decide, by decide, by decide +kernel⟩
  rw [written_reads_back _ 0 0 (by decide +kernel)]
  decide +kernel

/-- Enable masks with no port to disable, and with the lowest and the highest port to disable. -/
theorem witness_EnableMasks :
    (∀ p ∈ [Port.p0, .p1, .p2, .p3], (ctl0.port p).enabled = true ∧ (0x0F : Byte).getLsbD (portNum p) = true)
      ∧ (0x0E : Byte).getLsbD (portNum .p0) = false ∧ (0x07 : Byte).getLsbD (portNum .p3) = false
      ∧ (∀ q ∈ [Port.p0, .p1, .p2], (0x07 : Byte).getLsbD (portNum q) = true) := by decide

/-- The stages of an image write and what asks for one. -/
theorem witness_ImageWriteStages :
    (∀ stage ∈ [ImageStage.erase, .program, .readBack],
        (portStep setconf0 (.image stage plan7 .setconf) ctl0).sched.current.activity = some (.image stage plan7 .setconf))
      ∧ (Media.mk .idle [(1, 39)]).count 1 = some 39 ∧ 39 < 40 ∧ ProgramOutcome.failVerify ≠ .pass
      ∧ (List.replicate 64 (0xFF : Byte)) ≠ image7.page
      ∧ (portStep setconf0 (.image .readBack plan7 .setconf) ctl0).sched.current
        = .port setconf0 (.image .readBack plan7 .setconf) := by decide +kernel

theorem witness_WriteCompletionEffects :
    (∀ discard ∈ [true, false], ∀ body ∈ [ReqBody.commit true, .delete 5, .freeze 5],
        (Request.mk .p0 1 body discard).body = body ∧ (Request.mk .p0 1 body discard).discard = discard)
      ∧ ((staged (.submitted whole5) ctl5).port .p0).staging = .submitted whole5
      ∧ ctl5.claimOf header3.key = none ∧ (claimIs claim5).claimOf header3.key = some claim5
      ∧ (∀ release, ReqBody.compact ≠ .commit release) :=
  ⟨by decide, by decide, by decide, by decide, fun _ h => by cases h⟩

/-- The writes of a page of a record: with another page to come, its row below and at the limit of its disturb count, and with
none to come; for a port, its retry and the agent. -/
theorem witness_RecordWritesGoOn :
    let job := fun o => WriteJob.mk header100 [page100, page100] o
    (∀ o ∈ [WriteOwner.port false, .port true], ∀ idx ∈ [0, 1],
        (portStep ⟨.p0, 1, .commit false, false⟩ (.writing (job o) 2 1 idx) ctl0).sched.current.activity
          = some (.writing (job o) 2 1 idx))
      ∧ (∀ idx ∈ [0, 1], (agentStep (.scanning 2 1) (.writing (job .agent) 3 1 idx) ctl0).sched.current.activity
          = some (.writing (job .agent) 3 1 idx)
        ∧ (agentStep (.scanning 2 1) (.writing (job .agent) 3 1 idx) ctl0).agent.state = .scanning 2 1)
      ∧ 0 + 1 < header100.pages ∧ header100.pages ≤ 1 + 1
      ∧ (Media.mk .idle [(2, 39)]).count 2 = some 39 ∧ (Media.mk .idle [(2, 40)]).count 2 = some 40
      ∧ ProgramOutcome.failBudget ≠ .pass ∧ ctl0.agent.retryMark ≠ some 1
      ∧ ({ ctl0 with agent := ⟨.scanning 2 1, some 1, 0, 0⟩ } : Ctl).agent.retryMark = some 1 := by decide +kernel

theorem witness_RightsByEntryAndConfiguration :
    ctl5.lookup 5 = some entry5 ∧ entry5.kind = .value
      ∧ ({ ctl0 with dir := [{ entry5 with kind := .frozen }] } : Ctl).lookup 5 = some { entry5 with kind := .frozen }
      ∧ ctl5.lookup 6 = none ∧ ctl5.conf.active = some defaultSettings ∧ Ctl.reset.conf.active = none
      ∧ ctl0.lookup composing5.key = none
      ∧ (ctl5.lookup composing5.key = some entry5 ∧ ctl5.isAdmin .p0 = true ∧ ctl5.isAdmin .p1 = false) := by decide +kernel

theorem witness_PagesOfARecord :
    16 + 40 + 8 ≤ 64 * 1 ∧ 16 + 41 + 8 ≤ 64 * 2 ∧ parseHeader page3 15 = some header3 := by decide +kernel

theorem witness_HeadOpensKeepTheReserve :
    let job : WriteJob := ⟨header3, [page3], .port true⟩
    let m : RowMgr := ⟨[⟨.system, false⟩, ⟨.system, false⟩, ⟨.freeStale, true⟩, ⟨.freeStale, false⟩], [], 1, 1, 255⟩
    job.owner = .port true ∧ ({ ctl0 with rows := m } : Ctl).rows.free < 3
      ∧ 3 < m.table.length ∧ (m.state 3).isFree = true ∧ m.chooseRow = some 3
      ∧ (2 ≤ 3 ∧ 3 ≤ 255 ∧ (m.state 3).isFree = true ∧ (m.entry 3).suspect = false)
      ∧ (2 ≤ 2 ∧ 2 ≤ 255 ∧ 2 + (2 - 1 + 252) % 254 = 255 ∧ 2 + (2 - 1 + 253) % 254 = 2)
      ∧ (2 ≤ 255 ∧ 255 ≤ 255 ∧ 2 + (255 - 1 + 0) % 254 = 2 ∧ 253 < 254)
      ∧ (m.openPtr = 255 ∧ 3 = 2 + (255 - 1 + 1) % 254 ∧ (m.state 2).isFree = true ∧ (m.entry 2).suspect = true) := by decide +kernel

/-- A device with one HEAD, row 2, in which pages 15 and on are free. -/
def headed : Ctl := rowsOf [.head 1 2 12 15, .freeReady] [2] 2 { ctl0 with media := ⟨.idle, [(2, 39)]⟩ }

/-- The rows of a device without a HEAD. -/
theorem headless_of {c : Ctl} (h : c.rows.headRow = none) : c.rows.headless := RowMgr.headless_of_headRow h

theorem witness_HeadRowFitsOrCloses :
    (tailAnd 5 ctl0).rows.headless ∧ headed.rows.state 2 = .head 1 2 12 15
      ∧ (∀ r, (headed.rows.state r).isHead = true → r = 2) ∧ (1 ≤ header3.pages ∧ headed.fitsHead header3.pages = true)
      ∧ headed.fitsHead header100.pages = false ∧ headed.media.count 2 = some 39 := by
  refine ⟨headless_of (by decide), by decide, fun r h => ?_, by decide, by decide, by decide⟩
  rcases r with _ | _ | _ | _ | r
  · exact absurd h (by decide)
  · exact absurd h (by decide)
  · rfl
  · exact absurd h (by decide)
  · exact absurd h (by simp [headed, rowsOf, RowMgr.state, RowMgr.entry, RowState.isHead])

/-- The idle device with a COMMIT of port P0 in its list, space wait `w`, row 2 a CLOSED tail of `dead` dead pages and `n` free rows. -/
def queuedCommit (w : Option SpaceWait) (dead n : Nat) : Ctl :=
  let c := (rowsOf (.closed 1 (15 - dead) dead :: List.replicate n .freeReady) [2] 2
    (staged (.submitted composing5) ctl0)).setRequests .p0 [⟨.p0, 9, .commit true, false⟩]
  { c with sched := { c.sched with waits := c.sched.waits.set .p0 w } }

/-- A front that starts, one due FULL by its pages, one that waits, and one whose wait has seen its ring reclaimed; no agent's work. -/
theorem witness_FrontsAreJudged :
    let req : Request := ⟨.p0, 9, .commit true, false⟩
    (∀ c ∈ [queuedCommit none 13 3, queuedCommit none 0 1, queuedCommit none 13 2, queuedCommit (some ⟨1, 0⟩) 13 2,
        queuedCommit (some ⟨1, 1⟩) 13 2], c.requests .p0 = req :: [] ∧ c.requests .p1 = []
          ∧ (c.port .p0).staging = .submitted composing5 ∧ c.recheck req = none ∧ c.fitsHead (pagesFor 3) = false
          ∧ c.agentHasWork = true)
      ∧ 3 ≤ (queuedCommit none 13 3).rows.free
      ∧ ((queuedCommit none 0 1).rows.free < 3 ∧ (queuedCommit none 0 1).rows.availablePages < pagesFor 3)
      ∧ ((queuedCommit none 13 2).rows.free < 3 ∧ pagesFor 3 ≤ (queuedCommit none 13 2).rows.availablePages
        ∧ (queuedCommit none 13 2).sched.waits.get .p0 = none)
      ∧ (queuedCommit (some ⟨1, 0⟩) 13 2).sched.waits.get .p0 = some ⟨1, 0⟩
      ∧ (queuedCommit (some ⟨1, 1⟩) 13 2).sched.waits.get .p0 = some ⟨1, 1⟩
      ∧ (inMode .readOnly (queuedCommit none 13 2)).recheck req ≠ none ∧ withCommit.agentHasWork = false
      ∧ (tailAnd 5 ctl0).rows.headless :=
  ⟨by decide +kernel, by decide, by decide, by decide, by decide, by decide, by decide, by decide, headless_of (by decide)⟩

/-- What a moment of choice finds: work for the agent alone, a port alone, both at either turn, and neither. -/
theorem witness_ChoiceIsMade :
    let both := queuedCommit (some ⟨1, 1⟩) 13 2
    let turned := fun t : Turn => ({ both with sched := { both.sched with turn := t } } : Ctl)
    (busy ctl5).sched.current ≠ .none
      ∧ ((queuedCommit none 13 2).sched.current = .none ∧ (queuedCommit none 13 2).judgeWaits.agentHasWork = true
        ∧ (queuedCommit none 13 2).judgeWaits.portServed = none)
      ∧ (∀ t ∈ [Turn.compaction, .ports], (turned t).sched.current = .none ∧ (turned t).judgeWaits.sched.turn = t
        ∧ (turned t).judgeWaits.agentHasWork = true ∧ (turned t).judgeWaits.portServed = some .p0)
      ∧ ((ctl0.setRequests .p3 [readOf3]).judgeWaits.portServed = some .p3
        ∧ (ctl0.setRequests .p3 [readOf3]).judgeWaits.agentHasWork = false)
      ∧ (ctl0.judgeWaits.portServed = none ∧ ctl0.judgeWaits.agentHasWork = false) := by decide +kernel

/-- The attempts of a head open: rows free at and below the reserve, the row chosen stale or ready, the open counter at its limit. -/
theorem witness_HeadOpenAttempts :
    let stale := rowsOf (List.replicate 3 .freeStale) [] 2 ctl0
    let ready := fun n => rowsOf (List.replicate 3 .freeReady) [] n { ctl0 with media := ⟨.idle, [(2, 39)]⟩ }
    (stale.rows.free = 3 ∧ stale.sched.mode ≠ .readOnly ∧ stale.rows.chooseRow = some 2 ∧ stale.rows.state 2 = .freeStale)
      ∧ ((ready 0xFFFFFFFF).rows.free = 3 ∧ (ready 0xFFFFFFFF).rows.chooseRow = some 2
        ∧ (ready 0xFFFFFFFF).rows.state 2 = .freeReady ∧ (ready 0xFFFFFFFF).rows.openCounter = 0xFFFFFFFF)
      ∧ ((ready 0xFFFFFFFE).rows.free = 3 ∧ (ready 0xFFFFFFFE).rows.chooseRow = some 2
        ∧ (ready 0xFFFFFFFE).rows.state 2 = .freeReady ∧ (ready 0xFFFFFFFE).rows.openCounter ≠ 0xFFFFFFFF
        ∧ (ready 0xFFFFFFFE).media.count 2 = some 39)
      ∧ (rowsOf [.freeReady, .freeReady] [] 2 ctl0).rows.free < 3 ∧ (rowsOf [] [] 2 ctl0).rows.free < 1
      ∧ (rowsOf [] [] 2 ctl0).rows.chooseRow = none ∧ (inMode .readOnly ctl0).sched.mode = .readOnly := by decide +kernel

/-- The operations of a head open under way, for a port and for the agent. -/
theorem witness_HeadOpenOperations :
    let job := fun o => WriteJob.mk header3 [page3] o
    let req : Request := ⟨.p0, 1, .commit false, false⟩
    (portStep req (.openErase (job (.port true)) 2 1) ctl0).sched.current.activity = some (.openErase (job (.port true)) 2 1)
      ∧ (portStep req (.openHeader (job (.port true)) 2 1 1) ctl0).sched.current.activity
        = some (.openHeader (job (.port true)) 2 1 1)
      ∧ ((portStep req (.openErase (job (.port true)) 2 1) ctl0).sched.current = .port req (.openErase (job (.port true)) 2 1)
        ∧ (job (.port true)).owner ≠ .agent ∧ (job .agent).owner = .agent)
      ∧ (tailAnd 5 ctl0).rows.headless ∧ 2 < (tailAnd 5 ctl0).rows.table.length ∧ ProgramOutcome.failVerify ≠ .pass
      ∧ 16 ≤ (imageOf 1 16 ctl0).conf.retired.length ∧ (imageOf 0xFFFFFFFF 15 ctl0).conf.retired.length < 16
      ∧ (imageOf 0xFFFFFFFF 15 ctl0).conf.generation = 0xFFFFFFFF ∧ (imageOf 0xFFFFFFFE 15 ctl0).conf.generation ≠ 0xFFFFFFFF :=
  ⟨rfl, rfl, ⟨rfl, by decide, rfl⟩, headless_of (by decide), by decide, by decide, by decide, by decide, by decide, by decide⟩

/-- A candidate of key 5 in row 2, page 1. -/
def candidate5 : Candidate := ⟨header3, 2, 1⟩

theorem witness_MountChoosesAndEnds :
    (1 : Word).toNat < (2 : Word).toNat ∧ (2 : Word).toNat ≤ (2 : Word).toNat
      ∧ (ctl0.finishMount [] [{ candidate5 with header := { header3 with sequence := 0xFFFFFEFF } }] []).rows.seqCounter = 0xFFFFFF00
      ∧ (ctl0.finishMount [(2, 1)] [candidate5] []).rows.seqCounter ≠ 0xFFFFFF00
      ∧ (ctl0.finishMount [(2, 1)] [candidate5] []).rows.free ≠ 0 := by decide +kernel

/-- The device in mount, reading page `page` of row `row` in a phase. -/
def mounting (row page : Nat) (phase : MountPhase) : Ctl :=
  inMedia (.reading row page) (inMode .mounting { ctl0 with mount := ⟨phase, false, false⟩ })

/-- The scan of row 2 at a page, with the pages of the record begun there and the rows to come. -/
def scanAt (cursor : Nat) (got : List Page) (todo : List Nat) : ScanState := ⟨[(2, 1)], todo, 2, cursor, got, [], []⟩

/-- The reads of mount, phase by phase: no header where one is looked for, a row header, a record with a page to come, a whole one
and a fragment, at the end of a row and before it. -/
theorem witness_MountReads :
    let erased := List.replicate 64 (0xFF : Byte)
    (∀ x ∈ [(0, 0, MountPhase.image0), (1, 0, .image1 none), (255, 0, .survey 255 []), (2, 1, .scan (scanAt 1 [] [3])),
        (2, 15, .scan (scanAt 14 [page100] []))],
        (mounting x.1 x.2.1 x.2.2).media.op = .reading x.1 x.2.1 ∧ (mounting x.1 x.2.1 x.2.2).sched.mode = .mounting
          ∧ (mounting x.1 x.2.1 x.2.2).mount.phase = x.2.2)
      ∧ parseRowHeader (rowHeaderPage 7) = some 7 ∧ parseRowHeader erased = none ∧ parseHeader (([] ++ [erased]).headD []) 1 = none
      ∧ (parseHeader (([] ++ [page100]).headD []) 14 = some header100 ∧ ([] ++ [page100]).length < header100.pages)
      ∧ (parseHeader (([page100] ++ [erased]).headD []) 14 = some header100
        ∧ header100.pages ≤ ([page100] ++ [erased]).length ∧ recordComplete header100 ([page100] ++ [erased]) = false
        ∧ 16 ≤ 14 + header100.pages ∧ 13 + header100.pages < 16)
      ∧ (header3.pages ≤ ([] ++ [page3]).length ∧ recordComplete header3 ([] ++ [page3]) = true) := by decide +kernel

/-- The rows mount surveys and the ring it walks: a row to come behind a retired one, none, and rings with rows and without. -/
theorem witness_MountSurveysAndOrders :
    let c := ({ ctl0 with conf := { ctl0.conf with retired := [2] } } : Ctl)
    2 ∈ c.conf.retired.map BitVec.toNat ∧ 3 ∉ c.conf.retired.map BitVec.toNat ∧ ¬ 256 ≤ 255
      ∧ ringOrder [(4, 7), (5, 7), (3, 8)] = (4, 7) :: [(5, 7), (3, 8)] ∧ ringOrder [] = []
      ∧ (([(4, 7), (5, 7), (3, 8)] : List (Nat × Word)).map (·.1)).Nodup
      ∧ (∀ x ∈ ([(4, 7), (5, 7), (3, 8)] : List (Nat × Word)), x.1 ≤ 255)
      ∧ candidate5 ∈ resolveKeys [candidate5] := by decide +kernel

/-- A ring that holds every ring-eligible row. -/
def wholeRing : List (Nat × Word) := (List.range 254).map fun i => (i + 2, BitVec.ofNat 32 (i + 1))

/-- Mount of that ring, its tail live: the case of R186 that ends READ_ONLY with MEDIA. -/
theorem witness_MountEndsWithoutFreeRows :
    (ctl0.finishMount wholeRing [candidate5] []).rows.seqCounter ≠ 0xFFFFFF00
      ∧ (ctl0.finishMount wholeRing [candidate5] []).rows.free = 0
      ∧ (ctl0.finishMount wholeRing [candidate5] []).rows.tailLive = true := by decide +kernel

theorem witness_MountSetsTheCounters :
    (7 : Word) ∈ [3, 7] ∧ (∀ x ∈ [(3 : Word), 7], x.toNat ≤ (7 : Word).toNat) := by
  refine ⟨by decide, fun x h => ?_⟩
  fin_cases h <;> decide

/-- A command that leaves a next state, for the statements about every step. -/
def readyStep : State := { st ctl0 with pending := [.watch .p0 1 [0, 5]] }

theorem readyStep_goes_on : ∃ t, step readyStep = .next t := ⟨_, rfl⟩

/-- The device after the end of its reset, mount's first read to come. -/
def mountingStep : State :=
  { st { Ctl.reset with inReset := false, media := ⟨.reading 0 0, []⟩, mount := ⟨.image0, false, false⟩ } with
    pending := [.frameEnd .p0] }

theorem witness_StepsKeepTheArrayCanonical :
    mountingStep.cells.wf ∧ mountingStep.ctl.storeLaw ∧ ∃ t, step mountingStep = .next t := by
  have h : Mounting mountingStep.ctl :=
    ⟨fun p => by cases p <;> trivial, rfl, rfl, rfl, rfl, fun p => by cases p <;> rfl, rfl, rfl, rfl⟩
  exact ⟨by decide, h.law trivial, _, rfl⟩

theorem witness_StepsKeepAttention : readyStep.ctl.attentionLaw ∧ ∃ t, step readyStep = .next t :=
  ⟨fun p => by cases p <;> rfl, readyStep_goes_on⟩

theorem witness_StepsKeepTheNoticeLaw : readyStep.ctl.noticeLaw ∧ ∃ t, step readyStep = .next t := by
  refine ⟨fun p => ?_, readyStep_goes_on⟩
  unfold NotifUnit.lawful
  cases p <;> decide

theorem witness_StepsKeepTheClaimLaw :
    { readyStep with ctl := claimIs claim5 }.ctl.claimLaw ∧ ∃ t, step { readyStep with ctl := claimIs claim5 } = .next t :=
  ⟨claimed_lawful, _, rfl⟩

theorem witness_StepsKeepTheCreditLaw : readyStep.ctl.creditLaw ∧ ∃ t, step readyStep = .next t := by
  refine ⟨⟨by unfold Ctl.claimLaw ClaimEntry.lawful; decide, fun p => ?_⟩, readyStep_goes_on⟩
  unfold Ctl.creditLawAt
  refine ⟨?_, ?_, ?_, fun rest h => ?_⟩ <;> cases p <;> first | decide | cases h

theorem witness_StepsKeepTheDisturbLaw : readyStep.ctl.disturbLaw ∧ ∃ t, step readyStep = .next t := by
  refine ⟨?_, readyStep_goes_on⟩
  unfold Ctl.disturbLaw
  decide

theorem witness_ReadOnlyIsLeftByResetAlone :
    let s := st (inMode .readOnly { ctl0 with sched := { ctl0.sched with reason := .config } })
    s.ctl.modeLaw ∧ Instr.losesVolatile .pageRead = false ∧ s.ctl.sched.mode = .readOnly ∧ exec .pageRead s = .next s :=
  ⟨by unfold Ctl.modeLaw; decide, rfl, rfl, rfl⟩

theorem witness_LockedSettingsStay :
    let s := st { ctl0 with conf := { ctl0.conf with stored := some ⟨.s0, ⟨1, defaultSettings, 1, []⟩⟩ } }
    Instr.losesVolatile .pageRead = false ∧ s.ctl.lockedWith defaultSettings ∧ exec .pageRead s = .next s := by
  refine ⟨rfl, ⟨by decide, by decide, by decide, fun act h => ?_⟩, rfl⟩
  cases h

end Sys2Proof.Tests
end

section
/-! SUPPORT. The commands that leave the array as it was: all but its pulses, its interruptions and damage. -/

namespace Sys2Proof.Machine

/-! ### Commands that leave the array -/

/-- The outcome leaves the array and the queue as they were: everything else stays too, or becomes some `c` with every ATNn#
following its condition. -/
def State.LeavesArray (s : State) (o : Host.Outcome State Fault Refusal) : Prop :=
  o = .next s ∨ ∃ c, o = .next (s.settled c)

theorem State.leavesArray_same (s : State) : s.LeavesArray (.next s) := Or.inl rfl

theorem State.leavesArray_after (s : State) (c : Ctl) : s.LeavesArray (s.after c) := Or.inr ⟨c, rfl⟩

theorem State.leavesArray_arrival (s : State) (p : Port) (op tag : Byte) (args : List Byte) (f : Ctl → Ctl) :
    s.LeavesArray (s.arrival p op tag args f) := by
  rcases s.arrival_cases p op tag args f with h | h
  · exact Or.inr ⟨_, h⟩
  · exact Or.inl h

/-- An outcome that leaves the array is a next state with the array and the queue as they were. -/
theorem State.LeavesArray.next {s : State} {o : Host.Outcome State Fault Refusal} (h : s.LeavesArray o) :
    ∃ t, o = .next t ∧ t.cells = s.cells ∧ t.pending = s.pending := by
  rcases h with h | ⟨c, h⟩
  · exact ⟨s, h, rfl, rfl⟩
  · exact ⟨_, h, rfl, rfl⟩

theorem exec_instr_leavesArray (cmd : Cmd) (p : Port) (tag : Byte) (args : List Byte) (s : State) :
    s.LeavesArray (exec (cmd.instr p tag args) s) := by
  rw [exec_instr]
  exact s.leavesArray_arrival _ _ _ _ _

/-- Every command but the array's pulses, its interruptions and damage leaves the array. -/
theorem exec_leavesArray {i : Instr} (h : i.reachesArray = false) (s : State) : s.LeavesArray (exec i s) := by
  cases i with
  | deviceReset _ => cases h
  | programPulse _ => cases h
  | erasePulse _ => cases h
  | powerLoss _ => cases h
  | damage _ _ _ => cases h
  | ident p tag args => exact exec_instr_leavesArray .ident p tag args s
  | query p tag args => exact exec_instr_leavesArray .query p tag args s
  | list p tag args => exact exec_instr_leavesArray .list p tag args s
  | opn p tag args => exact exec_instr_leavesArray .opn p tag args s
  | fill p tag args => exact exec_instr_leavesArray .fill p tag args s
  | abandon p tag args => exact exec_instr_leavesArray .abandon p tag args s
  | commit p tag args => exact exec_instr_leavesArray .commit p tag args s
  | delete p tag args => exact exec_instr_leavesArray .delete p tag args s
  | read p tag args => exact exec_instr_leavesArray .read p tag args s
  | freeze p tag args => exact exec_instr_leavesArray .freeze p tag args s
  | compact p tag args => exact exec_instr_leavesArray .compact p tag args s
  | setconf p tag args => exact exec_instr_leavesArray .setconf p tag args s
  | reload p tag args => exact exec_instr_leavesArray .reload p tag args s
  | claim p tag args => exact exec_instr_leavesArray .claim p tag args s
  | release p tag args => exact exec_instr_leavesArray .release p tag args s
  | watch p tag args => exact exec_instr_leavesArray .watch p tag args s
  | unwatch p tag args => exact exec_instr_leavesArray .unwatch p tag args s
  | attnmask p tag args => exact exec_instr_leavesArray .attnmask p tag args s
  | collect p tag args => exact exec_instr_leavesArray .collect p tag args s
  | drain p tag args => exact exec_instr_leavesArray .drain p tag args s
  | resync p tag args => exact exec_instr_leavesArray .resync p tag args s
  | badCmd p op tag args =>
    show s.LeavesArray (execBadCmd p op tag args s)
    unfold execBadCmd
    split
    · exact s.leavesArray_arrival _ _ _ _ _
    · exact s.leavesArray_same
  | frameStart p =>
    show s.LeavesArray (execFrameStart p s)
    unfold execFrameStart
    split
    · exact s.leavesArray_same
    · exact s.leavesArray_after _
  | frameEnd p =>
    show s.LeavesArray (execFrameEnd p s)
    unfold execFrameEnd
    split
    · exact s.leavesArray_after _
    · exact s.leavesArray_same
  | frameDiscard p bytes =>
    show s.LeavesArray (execFrameDiscard p bytes s)
    unfold execFrameDiscard
    split
    · split
      · exact s.leavesArray_after _
      · exact s.leavesArray_same
    all_goals exact s.leavesArray_same
  | byteComplete p b =>
    show s.LeavesArray (execByteComplete p b s)
    unfold execByteComplete
    split
    · exact s.leavesArray_after _
    · exact s.leavesArray_after _
    all_goals exact s.leavesArray_same
  | collectReadoutComplete p =>
    show s.LeavesArray (execCollectReadoutComplete p s)
    unfold execCollectReadoutComplete
    split
    · exact s.leavesArray_after _
    all_goals exact s.leavesArray_same
  | drainReadoutComplete p =>
    show s.LeavesArray (execDrainReadoutComplete p s)
    unfold execDrainReadoutComplete
    split
    · exact s.leavesArray_after _
    all_goals exact s.leavesArray_same
  | holdTimerExpiry k =>
    show s.LeavesArray (execHoldTimerExpiry k s)
    unfold execHoldTimerExpiry
    split
    · exact s.leavesArray_after _
    · exact s.leavesArray_same
  | waitTimerExpiry k p =>
    show s.LeavesArray (execWaitTimerExpiry k p s)
    unfold execWaitTimerExpiry
    split
    · split
      · exact s.leavesArray_after _
      · exact s.leavesArray_same
    · exact s.leavesArray_same
  | pageRead =>
    show s.LeavesArray (execPageRead s)
    unfold execPageRead
    split
    · exact s.leavesArray_after _
    all_goals exact s.leavesArray_same
  | resetRelease =>
    show s.LeavesArray (execResetRelease s)
    unfold execResetRelease
    split
    · exact s.leavesArray_after _
    · exact s.leavesArray_same

theorem State.next_cells {s t : State} (h : (.next s : Host.Outcome State Fault Refusal) = .next t) : t.cells = s.cells := by
  injection h with h
  exact h ▸ rfl

theorem State.after_cells {s t : State} {c : Ctl} (h : s.after c = .next t) : t.cells = s.cells :=
  State.next_cells (s := s.settled c) h

/-- Settles O2: the outcomes of the other commands keep the array, whatever they make of the rest. -/
theorem onlyArrayEventsReachTheArray : Obligations.OnlyArrayEventsReachTheArray := by
  intro i s t hi ht
  obtain ⟨u, hu, hcells, _⟩ := (exec_leavesArray hi s).next
  rw [ht] at hu
  injection hu with hu
  exact hu ▸ hcells

end Sys2Proof.Machine
end

section
/-! SUPPORT. The interruption of the array, program pulses, the verifies and damage: the statements about the array's own events
but the erase. -/

namespace Sys2Proof.Machine

/-! ### Device reset and power loss -/

/-- During a device reset no ATNn# is asserted (R71, R81). -/
theorem Ctl.attention_inReset {c : Ctl} (h : c.inReset = true) (p : Port) : c.attention p = false := by
  simp [Ctl.attention, h]

/-- During a device reset the lines of ATNn# stay released. -/
theorem Ctl.settle_inReset_eq {c : Ctl} (h : c.inReset = true) (ha : ∀ p, (c.port p).atn = false) : c.settle = c := by
  have hp : (c.ports.map fun p u => { u with atn := c.attention p }) = c.ports := by
    refine PerPort.ext_get fun p => ?_
    rw [PerPort.get_map, Ctl.attention_inReset h, ← ha p]
    rfl
  unfold Ctl.settle
  rw [hp]

theorem Ctl.port_afterReset (c : Ctl) (p : Port) : c.afterReset.port p = (c.port p).afterReset := by
  simp [Ctl.port, Ctl.afterReset]

theorem Ctl.afterReset_settle (c : Ctl) : c.afterReset.settle = c.afterReset :=
  Ctl.settle_inReset_eq rfl fun p => by rw [Ctl.port_afterReset]; rfl

theorem Ctl.afterReset_unpowered_settle (c : Ctl) :
    Ctl.settle { c.afterReset with powered := false } = { c.afterReset with powered := false } :=
  Ctl.settle_inReset_eq rfl fun p => by
    show (c.afterReset.port p).atn = false
    rw [Ctl.port_afterReset]
    rfl

theorem exec_deviceReset (torn : Residue) (s : State) :
    exec (.deviceReset torn) s
      = .next { s with cells := s.cells.interrupt s.ctl.media.op torn, ctl := s.ctl.afterReset } := by
  show execDeviceReset torn s = _
  rw [execDeviceReset, State.after, Ctl.afterReset_settle]

theorem exec_powerLoss {s : State} (h : s.ctl.powered = true) (torn : Residue) :
    exec (.powerLoss torn) s
      = .next { s with
          cells := s.cells.interrupt s.ctl.media.op torn, ctl := { s.ctl.afterReset with powered := false } } := by
  show execPowerLoss torn s = _
  rw [execPowerLoss, if_pos h, State.after, Ctl.afterReset_unpowered_settle]

theorem exec_powerLoss_unpowered {s : State} (h : s.ctl.powered = false) (torn : Residue) :
    exec (.powerLoss torn) s = .next s := by
  show execPowerLoss torn s = _
  rw [execPowerLoss, if_neg (by rw [h]; exact Bool.false_ne_true)]

/-- Settles O3: the reset state of each block, its lines of ATNn# released. -/
theorem deviceResetResetsEveryBlock : Obligations.DeviceResetResetsEveryBlock := by
  intro torn s
  refine ⟨_, exec_deviceReset torn s, rfl, rfl, rfl, rfl, fun p => Ctl.port_afterReset s.ctl p, fun p => ?_, rfl, rfl, rfl, rfl,
    rfl, rfl, rfl, rfl, rfl, rfl, rfl, rfl⟩
  exact PerPort.get_const NotifUnit.reset p

/-- Settles O4: a power loss differs from a device reset in the power alone. -/
theorem powerLossLosesTheVolatileState : Obligations.PowerLossLosesTheVolatileState := by
  intro torn s
  exact ⟨fun h => ⟨_, exec_deviceReset torn s, exec_powerLoss h torn⟩, fun h => exec_powerLoss_unpowered h torn⟩

/-- A device reset and a power loss interrupt the operation under way. -/
theorem exec_interruption {i : Instr} {torn : Residue} {s : State}
    (hi : i = .deviceReset torn ∨ i = .powerLoss torn ∧ s.ctl.powered = true) :
    ∃ t, exec i s = .next t ∧ t.cells = s.cells.interrupt s.ctl.media.op torn := by
  rcases hi with rfl | ⟨rfl, hp⟩
  · exact ⟨_, exec_deviceReset torn s, rfl⟩
  · exact ⟨_, exec_powerLoss hp torn, rfl⟩

theorem imageByte_readPage (c : Cells) (row page : Nat) {off : Nat} (ho : off < 64) :
    imageByte (c.readPage row page) off = c.readByte (address row page off) := by
  simp [imageByte, Cells.readPage, Config.pageSize, List.getD_eq_getElem?_getD, ho]

/-- What an abandoned program leaves of each byte of its page (R16): a cell whose target is 1 as it was, every other one reading
its value before the program, or 0. -/
theorem Cells.tearPage_in {c : Cells} (h : c.wf) (row page : Nat) (target before : Page) (left : Residue) {off : Nat}
    (ho : off < 64) :
    (c.tearPage row page target before left).readByte (address row page off) &&& imageByte target off
        = c.readByte (address row page off) &&& imageByte target off
      ∧ (c.tearPage row page target before left).readByte (address row page off) &&& ~~~imageByte target off
        &&& ~~~imageByte before off = 0 := by
  unfold Cells.tearPage
  rw [(Cells.setPage_in h row page _ ho).1]
  exact tornByte_reads _ _ _ _ _

/-- Settles O6: the interruption is that of the operation under way, a page torn or a row left by its erase. -/
theorem interruptionStaysWithinItsOperation : Obligations.InterruptionStaysWithinItsOperation := by
  intro torn s i hs hi
  obtain ⟨t, ht, hcells⟩ := exec_interruption hi
  refine ⟨t, ht, fun hop => ?_, fun row page hop => ?_, fun row page target k before hop => ?_, fun row k hop => ?_⟩
  all_goals rw [hop] at hcells; rw [hcells]
  · rfl
  · rfl
  · refine ⟨fun a ha => Cells.setPage_out hs row page _ ha, fun off ho => ?_⟩
    have h := Cells.tearPage_in hs row page target (if k = 0 then s.cells.readPage row page else before) torn ho
    rwa [apply_ite (imageByte · off), imageByte_readPage _ _ _ ho] at h
  · exact fun a ha => Cells.erasePulse_out hs row torn ha

/-! ### Program pulses -/

/-- A program pulse on a row whose count is below 40 (R7). -/
theorem exec_programPulse {s : State} {row page k n : Nat} {target before : Page}
    (hop : s.ctl.media.op = .programming row page target k before) (hn : s.ctl.media.count row = some n) (h40 : n < 40)
    (left : Residue) : exec (.programPulse left) s = s.pulse row page target k n before left := by
  show execProgramPulse left s = _
  simp only [execProgramPulse, hop, hn]
  exact if_pos h40

/-- The Media Unit while a program goes on after its pulse (R7). -/
def Media.pulsed (m : Media) (row page : Nat) (target : Page) (k n : Nat) (before : Page) : Media :=
  { m.setCount row (n + 1) with op := .programming row page target (k + 1) before }

/-- A pulse that ends its program hands the outcome on, the Media Unit idle. -/
theorem State.pulse_ends {s : State} {row page k n : Nat} {target before : Page} {left : Residue} {o : ProgramOutcome}
    (h : pulseOutcome ((s.cells.programPulse row page target left).verifies row page target) (k + 1) (n + 1) = some o) :
    s.pulse row page target k n before left = .next
      { s.settled (({ s.ctl with media := { s.ctl.media.setCount row (n + 1) with op := .idle } }.programEnded o).schedule) with
        cells := s.cells.programPulse row page target left } := by
  simp only [State.pulse, h]
  rfl

/-- A pulse after which its program goes on. -/
theorem State.pulse_goesOn {s : State} {row page k n : Nat} {target before : Page} {left : Residue}
    (h : pulseOutcome ((s.cells.programPulse row page target left).verifies row page target) (k + 1) (n + 1) = none) :
    s.pulse row page target k n before left = .next
      { s.settled { s.ctl with
          media := s.ctl.media.pulsed row page target k n (if k = 0 then s.cells.readPage row page else before) } with
        cells := s.cells.programPulse row page target left } := by
  simp only [State.pulse, h]
  rfl

/-- However the program stands after a pulse, the array is as the pulse leaves it. -/
theorem State.pulse_next (s : State) (row page k n : Nat) (target before : Page) (left : Residue) :
    ∃ t, s.pulse row page target k n before left = .next t ∧ t.cells = s.cells.programPulse row page target left := by
  cases h : pulseOutcome ((s.cells.programPulse row page target left).verifies row page target) (k + 1) (n + 1) with
  | some o => exact ⟨_, State.pulse_ends h, rfl⟩
  | none => exact ⟨_, State.pulse_goesOn h, rfl⟩

/-- PROGRAM_PULSE leaves the array, or what a pulse on the page under program leaves of it. -/
theorem exec_programPulse_cells {left : Residue} {s t : State} (ht : exec (.programPulse left) s = .next t) :
    t.cells = s.cells ∨ ∃ row page target, t.cells = s.cells.programPulse row page target left := by
  replace ht : execProgramPulse left s = .next t := ht
  unfold execProgramPulse at ht
  split at ht
  · next row page target k before _ =>
    split at ht
    · next n _ =>
      split at ht
      · obtain ⟨u, hu, hcells⟩ := s.pulse_next row page k n target before left
        rw [hu] at ht
        injection ht with ht
        exact Or.inr ⟨row, page, target, ht ▸ hcells⟩
      · exact Or.inl (State.after_cells ht)
    · exact Or.inl (State.after_cells ht)
  all_goals exact Or.inl (State.next_cells ht)

/-- Settles O7: outside its page a pulse reaches no byte, and within it each byte becomes what `pulseByte` makes of it. -/
theorem programPulseActsOnItsPage : Obligations.ProgramPulseActsOnItsPage := by
  intro left s row page k n target before hs hop hn h40
  obtain ⟨t, ht, hcells⟩ := s.pulse_next row page k n target before left
  refine ⟨t, (exec_programPulse hop hn h40 left).trans ht, fun a ha => ?_, fun off ho => ?_⟩
  · rw [hcells]
    exact Cells.setPage_out hs row page _ ha
  · obtain ⟨hread, hweak⟩ := Cells.setPage_in hs row page (fun i =>
      pulseByte (imageByte target i) (s.cells.readByte (address row page i)) (s.cells.weakByte (address row page i))
        (residueAt left i)) ho
    obtain ⟨hkeepRead, hkeepWeak⟩ := pulseByte_keeps (imageByte target off) (s.cells.readByte (address row page off))
      (s.cells.weakByte (address row page off)) (residueAt left off)
    simp only [hcells, Cells.programPulse, hread, hweak]
    refine ⟨hkeepRead, hkeepWeak, fun hl => ?_⟩
    rw [hl, residueAt_nil]
    exact pulseByte_done _ _ _ _

theorem pulseOutcome_pass (pulse count : Nat) : pulseOutcome true pulse count = some .pass := rfl

theorem pulseOutcome_failVerify {pulse : Nat} (h : 6 ≤ pulse) (count : Nat) :
    pulseOutcome false pulse count = some .failVerify := by
  simp [pulseOutcome, Config.programPulseLimit, h]

theorem pulseOutcome_failBudget {pulse count : Nat} (h : pulse < 6) (hc : count = 40) :
    pulseOutcome false pulse count = some .failBudget := by
  simp [pulseOutcome, Config.programPulseLimit, Config.disturbLimit, hc, Nat.not_le.2 h]

theorem pulseOutcome_none {pulse count : Nat} (h : pulse < 6) (hc : count < 40) : pulseOutcome false pulse count = none := by
  simp [pulseOutcome, Config.programPulseLimit, Config.disturbLimit, Nat.not_le.2 h, Nat.not_le.2 hc]

/-- Settles O8: the four outcomes of the verify, the pulse number and the count. -/
theorem programPulseEndsOrGoesOn : Obligations.ProgramPulseEndsOrGoesOn := by
  intro left s row page k n target before hop hn h40
  simp only
  rw [exec_programPulse hop hn h40 left]
  refine ⟨fun hv => State.pulse_ends ?_, fun hv hk => State.pulse_ends ?_, fun hv hk hc => State.pulse_ends ?_,
    fun hv hk hc => State.pulse_goesOn ?_⟩
  all_goals rw [hv]
  · exact pulseOutcome_pass _ _
  · exact pulseOutcome_failVerify hk _
  · exact pulseOutcome_failBudget hk hc
  · exact pulseOutcome_none hk hc

/-! ### The verifies -/

/-- The program verify is a test of every byte of the page (R7, step 3). -/
theorem Cells.verifies_iff (c : Cells) (row page : Nat) (target : Page) :
    c.verifies row page target = true ↔ ∀ off, off < 64 →
      c.readByte (address row page off) = target.getD off 0xFF ∧ c.weakByte (address row page off) = 0 := by
  simp [Cells.verifies, imageByte, Config.pageSize, Config.erasedByte]

/-- Settles O9: each verify as its test of every byte, and the page that passes read byte by byte. -/
theorem verifiesTestEveryCell : Obligations.VerifiesTestEveryCell :=
  ⟨fun c row page target => ⟨c.verifies_iff row page target, fun hl h => Cells.verifies_reads hl h⟩,
    fun _ row h => Cells.rowErased_iff h row⟩

/-! ### Damage -/

theorem beyondArray_iff (row page : Nat) :
    (Config.rowCount ≤ row || Config.pagesPerRow ≤ page) = true ↔ 256 ≤ row ∨ 16 ≤ page := by
  rw [Bool.or_eq_true, decide_eq_true_eq, decide_eq_true_eq]
  exact Iff.rfl

theorem exec_damage_noSuchPage {row page : Nat} (h : 256 ≤ row ∨ 16 ≤ page) (marks : List CellDamage) (s : State) :
    exec (.damage row page marks) s = .fault .noSuchPage := by
  show execDamage row page marks s = _
  rw [execDamage, if_pos ((beyondArray_iff row page).2 h)]

theorem exec_damage {row page : Nat} {s : State} (hr : row < 256) (hp : page < 16)
    (hop : s.ctl.media.op.touches row page = false) (marks : List CellDamage) :
    exec (.damage row page marks) s = .next { s with cells := s.cells.damage row page marks } := by
  show execDamage row page marks s = _
  rw [execDamage, if_neg (fun h => by have := (beyondArray_iff row page).1 h; omega),
    if_neg (by rw [hop]; exact Bool.false_ne_true)]

/-- Settles O12: damage of a page is that of the bytes its marks name, each once. -/
theorem damageReachesItsPageAlone : Obligations.DamageReachesItsPageAlone := by
  intro row page marks s
  refine ⟨fun h => exec_damage_noSuchPage h marks s, fun hs hr hp ho hn hop => ?_⟩
  exact ⟨_, exec_damage hr hp hop marks, rfl, rfl, fun _ ha => Cells.damage_out row page marks hs ha,
    fun _ hd => Cells.damage_in row page marks hs hn ho hd⟩

end Sys2Proof.Machine
end

section
/-! SUPPORT. Erase pulses, the erase of the pass row and the end of a pass (R10, R11, R134, R135, R175). -/

namespace Sys2Proof.Machine

/-! ### Erase pulses -/

/-- An erase pulse makes of each byte of its row what the residue names, and erases the rest (R10, R11). -/
theorem Cells.erasePulse_byte {c : Cells} (h : c.wf) (row : Nat) (left : Residue) {off : Nat} (ho : off < 1024) :
    (c.erasePulse row left).readByte (address row 0 off)
        = (c.readByte (address row 0 off) &&& (residueAt left off).stay)
          ||| ((residueAt left off).reads &&& ~~~(residueAt left off).stay &&& (residueAt left off).weak)
          ||| (~~~(residueAt left off).stay &&& ~~~(residueAt left off).weak)
      ∧ (c.erasePulse row left).weakByte (address row 0 off)
        = (c.weakByte (address row 0 off) &&& (residueAt left off).stay)
          ||| (~~~(residueAt left off).stay &&& (residueAt left off).weak) := by
  obtain ⟨hread, hweak⟩ := Cells.erasePulse_in h row left ho
  refine ⟨hread.trans ?_, hweak⟩
  simp only [eraseByte, BitVec.and_assoc]

/-- A pulse in which every cell took its value erases every byte of the row. -/
theorem Cells.erasePulse_whole {c : Cells} (h : c.wf) (row : Nat) {off : Nat} (ho : off < 1024) :
    (c.erasePulse row []).readByte (address row 0 off) = 0xFF ∧ (c.erasePulse row []).weakByte (address row 0 off) = 0 := by
  obtain ⟨hread, hweak⟩ := Cells.erasePulse_in h row [] ho
  rw [hread, hweak, residueAt_nil]
  simp [eraseByte]

section Pulse

variable {s : State} {row k : Nat} (hop : s.ctl.media.op = .erasing row k) (left : Residue)

include hop

/-- An erase pulse whose verify holds ends PASS, the row's count 0 (R10, R12). -/
theorem exec_erasePulse_pass (hv : (s.cells.erasePulse row left).rowErased row = true) :
    exec (.erasePulse left) s = .next
      { s.settled (({ s.ctl with media := { s.ctl.media.setCount row 0 with op := .idle } }.eraseEnded true).schedule) with
        cells := s.cells.erasePulse row left } := by
  show execErasePulse left s = _
  simp only [execErasePulse, hop, hv, if_true]
  rfl

/-- The third pulse whose verify does not hold ends FAIL (R10). -/
theorem exec_erasePulse_fail (hv : (s.cells.erasePulse row left).rowErased row = false) (hk : 3 ≤ k + 1) :
    exec (.erasePulse left) s = .next
      { s.settled (({ s.ctl with media := { s.ctl.media with op := .idle } }.eraseEnded false).schedule) with
        cells := s.cells.erasePulse row left } := by
  show execErasePulse left s = _
  simp only [execErasePulse, hop, hv, Bool.false_eq_true, if_false]
  exact if_pos hk

/-- A pulse before the third whose verify does not hold is followed by another (R10). -/
theorem exec_erasePulse_goesOn (hv : (s.cells.erasePulse row left).rowErased row = false) (hk : k + 1 < 3) :
    exec (.erasePulse left) s = .next
      { s.settled { s.ctl with media := { s.ctl.media with op := .erasing row (k + 1) } } with
        cells := s.cells.erasePulse row left } := by
  show execErasePulse left s = _
  simp only [execErasePulse, hop, hv, Bool.false_eq_true, if_false]
  exact if_neg (Nat.not_le.2 hk)

end Pulse

/-- ERASE_PULSE leaves the array, or what a pulse on the row under erase leaves of it. -/
theorem exec_erasePulse_cells {left : Residue} {s t : State} (ht : exec (.erasePulse left) s = .next t) :
    t.cells = s.cells ∨ ∃ row, t.cells = s.cells.erasePulse row left := by
  replace ht : execErasePulse left s = .next t := ht
  unfold execErasePulse at ht
  split at ht
  · next row k _ =>
    refine Or.inr ⟨row, ?_⟩
    simp only at ht
    split at ht
    · exact State.after_cells ht
    · split at ht
      · exact State.after_cells ht
      · exact State.after_cells ht
  all_goals exact Or.inl (State.next_cells ht)

/-! ### The erase of the pass row (R134) -/

/-- The pass row leaves the ring in the state `st`, its erase a tail reclaim for every space wait (R104, R134). -/
def Ctl.tailLeaves (c : Ctl) (row : Nat) (st : RowState) : Ctl :=
  { c with sched := c.sched.countReclaim, rows := (c.rows.setState row st).leaveRing row }

/-- The row joins the active retired-row list (R175). -/
def Ctl.listRetired (c : Ctl) (row : Nat) : Ctl :=
  { c with conf := { c.conf with retired := insertBy BitVec.toNat (natByte row) c.conf.retired } }

section TailErase

variable {c : Ctl} {row : Nat}

theorem Ctl.eraseEnded_tail (hs : c.sched.current = .agent .tailErase) (ha : c.agent.state = .erasing row) (passed : Bool) :
    c.eraseEnded passed = c.tailErased row passed := by
  simp only [Ctl.eraseEnded, hs, CurrentStep.activity, Ctl.eraseEndedFor, ha]

theorem Ctl.tailErased_pass : c.tailErased row true = (c.tailLeaves row .freeReady).endPass 1 := rfl

theorem Ctl.tailErased_fail : c.tailErased row false = (c.tailLeaves row .retired).retireRow row .tail := rfl

/-- With the retired-row list full, the retirement of the pass row enters READ_ONLY with reason MEDIA (R175). -/
theorem Ctl.retireRow_tail_full (h : 16 ≤ c.conf.retired.length) :
    c.retireRow row .tail = (c.enterReadOnly .media).endPass 0 := if_pos h

/-- With room in the list, the row is listed and an image with the stored settings and lock is written (R175). -/
theorem Ctl.retireRow_tail_room (h : c.conf.retired.length < 16) :
    c.retireRow row .tail
      = (c.listRetired row).writeImage c.conf.settings c.conf.lock (c.listRetired row).conf.retired .tail :=
  if_neg (Nat.not_le.2 h)

/-- At the highest generation no image is written: READ_ONLY with reason CONFIG (R168, R175). -/
theorem Ctl.writeImage_tail_limit {settings : Settings} {lock : Byte} {retired : List Byte}
    (h : c.conf.generation = 0xFFFFFFFF) :
    c.writeImage settings lock retired .tail = (c.enterReadOnly .config).endPass 0 := if_pos h

/-- An image write begins with the erase of its target row (R168). -/
theorem Ctl.writeImage_begins {settings : Settings} {lock : Byte} {retired : List Byte} {asker : ImageFor}
    (h : c.conf.generation ≠ 0xFFFFFFFF) :
    c.writeImage settings lock retired asker
      = c.askErase c.conf.target.index
          (.image .erase ⟨c.conf.target, ⟨c.conf.generation + 1, settings, lock, retired⟩⟩ asker) := if_neg h

end TailErase

/-! ### The end of a pass (R135) -/

/-- Answers that agree on every request of a list are the same. -/
theorem compactAnswers_congr {l : List CompactReq} {f g : CompactReq → Status × List Byte} (h : ∀ r ∈ l, f r = g r) :
    compactAnswers l f = compactAnswers l g := by
  refine List.map_congr_left fun r hr => ?_
  rw [h r (List.mem_of_mem_filter hr)]

/-- The tied request's answer at the end of its pass, with the pass's counts (R135). -/
def Ctl.tiedAnswers (c : Ctl) (n : Nat) : List (Port × Response) :=
  compactAnswers (c.sched.compactList.filter fun r => r.tied)
    fun _ => (.ok, [natByte n, natByte c.agent.copied, natByte c.agent.dropped])

/-- The requests not tied to the pass. -/
def Ctl.untied (c : Ctl) : List CompactReq := c.sched.compactList.filter fun r => !r.tied

/-- The end of a pass before the mode is looked at: the tied request answered, the agent idle (R134, steps 2 and 3). -/
def Ctl.passEnded (c : Ctl) (n : Nat) : Ctl := { c.answerTied n with agent := Agent.reset }

/-- The end of a pass once the tied request and the requests of `answers` are answered, `list` being left. -/
def Ctl.passAnswered (c : Ctl) (n : Nat) (answers : List (Port × Response)) (list : List CompactReq) : Ctl :=
  { c.enterAll (c.tiedAnswers n ++ answers) with
    agent := ⟨.idle, none, 0, 0⟩
    sched := { c.sched with compactList := list, turn := .ports, current := .none } }

theorem Ctl.passEnded_eq (c : Ctl) (n : Nat) :
    c.passEnded n
      = { c.enterAll (c.tiedAnswers n) with agent := Agent.reset, sched := { c.sched with compactList := c.untied } } := by
  rw [Ctl.passEnded, Ctl.answerTied_eq]
  rfl

/-- More answers after the tied request's, and what is left of the list. -/
theorem Ctl.passEnded_answers (c : Ctl) (n : Nat) (answers : List (Port × Response)) (list : List CompactReq) :
    Ctl.endAgentStep { (c.passEnded n).enterAll answers with sched := { (c.passEnded n).sched with compactList := list } }
      = c.passAnswered n answers list := by
  rw [Ctl.passEnded_eq, Ctl.enterAll_with, Ctl.passAnswered, Ctl.enterAll_append]
  rfl

theorem Ctl.answerTied_sched (c : Ctl) (n : Nat) : (c.answerTied n).sched = { c.sched with compactList := c.untied } := by
  rw [Ctl.answerTied_eq]
  rfl

theorem Ctl.answerTied_rows (c : Ctl) (n : Nat) : (c.answerTied n).rows = c.rows := by
  rw [Ctl.answerTied_eq]
  exact c.enterAll_rows _

/-- In READ_ONLY the requests left are refused (R134, step 4). -/
theorem Ctl.endPass_readOnly {c : Ctl} (h : c.sched.mode = .readOnly) (n : Nat) :
    c.endPass n = c.passAnswered n (compactAnswers c.untied fun _ => (.readOnly, [0, 0, 0])) [] := by
  have hm : (c.answerTied n).sched.mode = .readOnly := by rw [Ctl.answerTied_sched]; exact h
  have hrest : (c.passEnded n).readOnlyAnswers .readOnly = compactAnswers c.untied fun _ => (.readOnly, [0, 0, 0]) := by
    unfold Ctl.readOnlyAnswers
    rw [show (c.passEnded n).sched = _ from c.answerTied_sched n]
    refine compactAnswers_congr fun r hr => if_neg ?_
    simpa using (List.mem_filter.1 hr).2
  have he : c.endPass n = ((c.passEnded n).answerCompactList .readOnly).endAgentStep := by
    simp only [Ctl.endPass, hm]
    rfl
  rw [he, Ctl.answerCompactList_eq, hrest, Ctl.passEnded_answers]

/-- In READY with another CLOSED tail the requests left wait for its pass (R134, step 5). -/
theorem Ctl.endPass_tailClosed {c : Ctl} (h : c.sched.mode = .ready) (ht : c.rows.tailClosed = true) (n : Nat) :
    c.endPass n = c.passAnswered n [] c.untied := by
  have hm : (c.answerTied n).sched.mode = .ready := by rw [Ctl.answerTied_sched]; exact h
  have hr : (c.answerTied n).rows.tailClosed = true := by rw [Ctl.answerTied_rows]; exact ht
  have he : c.endPass n = (c.passEnded n).endAgentStep := by
    simp only [Ctl.endPass, hm, hr, if_true]
    rfl
  rw [he, Ctl.passEnded_eq, Ctl.passAnswered, List.append_nil]
  rfl

/-- In READY without a CLOSED tail the requests left are answered zeros (R134, step 5). -/
theorem Ctl.endPass_tailOpen {c : Ctl} (h : c.sched.mode = .ready) (ht : c.rows.tailClosed = false) (n : Nat) :
    c.endPass n = c.passAnswered n (compactAnswers c.untied fun _ => (.ok, [0, 0, 0])) [] := by
  have hm : (c.answerTied n).sched.mode = .ready := by rw [Ctl.answerTied_sched]; exact h
  have hr : (c.answerTied n).rows.tailClosed = false := by rw [Ctl.answerTied_rows]; exact ht
  have he : c.endPass n = ((c.passEnded n).answerAllZero).endAgentStep := by
    simp only [Ctl.endPass, hm, hr, Bool.false_eq_true, if_false]
    rfl
  have hlist : (c.passEnded n).sched.compactList = c.untied := congrArg Sched.compactList (c.answerTied_sched n)
  rw [he, Ctl.answerAllZero_eq, hlist, Ctl.passEnded_answers]

/-- Settles O10: the pulse byte by byte and by its verify, the erase of the pass row by its outcome, the end of the pass by the
mode and the tail. -/
theorem erasePulseEndsOrGoesOn : Obligations.ErasePulseEndsOrGoesOn := by
  refine ⟨fun left s row k hs hop => ?_, fun c row hcur hst => ?_, fun c n => ?_⟩
  · refine ⟨fun a ha => Cells.erasePulse_out hs row left ha, fun off ho => ?_, exec_erasePulse_pass hop left,
      exec_erasePulse_fail hop left, exec_erasePulse_goesOn hop left⟩
    obtain ⟨hread, hweak⟩ := Cells.erasePulse_byte hs row left ho
    exact ⟨hread, hweak, fun hl => hl ▸ Cells.erasePulse_whole hs row ho⟩
  · simp only [Ctl.eraseEnded_tail hcur hst]
    refine ⟨Ctl.tailErased_pass, fun hfull => ?_, fun hroom => ⟨fun hg => ?_, fun hg => ?_⟩⟩
    · exact Ctl.tailErased_fail.trans (Ctl.retireRow_tail_full hfull)
    · rw [Ctl.tailErased_fail, Ctl.retireRow_tail_room (c := c.tailLeaves row .retired) hroom,
        Ctl.writeImage_tail_limit (c := (c.tailLeaves row .retired).listRetired row) hg]
      rfl
    · rw [Ctl.tailErased_fail, Ctl.retireRow_tail_room (c := c.tailLeaves row .retired) hroom,
        Ctl.writeImage_begins (c := (c.tailLeaves row .retired).listRetired row) hg]
      have hstep : (c.tailLeaves row .retired).sched.current = .agent .tailErase := hcur
      simp only [Ctl.askErase, Ctl.setActivity, Ctl.setCurrent, Ctl.listRetired, hstep, CurrentStep.withActivity]
      rfl
  · exact ⟨fun h => Ctl.endPass_readOnly h n, fun h ht => Ctl.endPass_tailClosed h ht n,
      fun h ht => Ctl.endPass_tailOpen h ht n⟩

end Sys2Proof.Machine
end

section
/-! SUPPORT. Page reads of a step: the next page of a record (R115), the scanning step of the agent by Table 29, damaged entries
removed (R127) and the end of the walk (R133). -/

namespace Sys2Proof.Machine

/-! ### Page reads of the step under way -/

/-- While a step executes there is no moment of choice (R101). -/
theorem Ctl.schedule_busy {c : Ctl} (h : c.sched.current ≠ .none) : c.schedule = c := if_neg h

/-- Outside MOUNTING a page read's data is the step's (R4). -/
theorem Ctl.handData_step {c : Ctl} (h : c.sched.mode ≠ .mounting) (data : Page) :
    c.handData data = (c.readEnded data).schedule := if_neg h

theorem exec_pageRead_step {s : State} {row page : Nat} (hop : s.ctl.media.op = .reading row page)
    (hm : s.ctl.sched.mode ≠ .mounting) :
    exec .pageRead s = .next (s.settled ((s.ctl.mediaIdle.readEnded (s.cells.readPage row page)).schedule)) := by
  show execPageRead s = _
  simp only [execPageRead, hop]
  rw [Ctl.handData_step (c := s.ctl.mediaIdle) hm, State.after_eq]

/-- A READ or FREEZE keeps the page and asks for the next one of its record (R115). -/
theorem Ctl.readEnded_record_more {c : Ctl} {req : Request} {e : DirEntry} {got : List Page} {full : Bool}
    (hs : c.sched.current = .port req (.readRecord e got full)) (h : got.length + 1 < e.pages) (data : Page) :
    c.readEnded data = { c with
      media := { c.media with op := .reading e.row (e.page + (got.length + 1)) }
      sched := { c.sched with current := .port req (.readRecord e (got ++ [data]) full) } } := by
  simp only [Ctl.readEnded, hs, List.length_append, List.length_singleton, if_pos h, Ctl.askRead, Ctl.setActivity,
    Ctl.setCurrent, CurrentStep.withActivity]

/-- A compaction step asks for a page read and goes on to `act`. -/
theorem Ctl.askRead_agent {c : Ctl} {was : Activity} (hs : c.sched.current = .agent was) (row page : Nat) (act : Activity) :
    c.askRead row page act = { c with
      media := { c.media with op := .reading row page }
      sched := { c.sched with current := .agent act } } := by
  simp only [Ctl.askRead, Ctl.setActivity, Ctl.setCurrent, hs, CurrentStep.withActivity]

theorem Ctl.readEnded_scan {c : Ctl} {got : List Page} (hs : c.sched.current = .agent (.scan got)) (data : Page) :
    c.readEnded data = c.scanRead (got ++ [data]) := by
  simp only [Ctl.readEnded, hs]

/-! ### The scanning step by Table 29 -/

section Scan

variable {c : Ctl} {pages : List Page} {pass cursor : Nat} {h : RecHeader}

section Header

variable (ha : c.agent.state = .scanning pass cursor)

include ha

/-- Without a valid header at the cursor the walk ends. -/
theorem Ctl.scanRead_noHeader (hh : parseHeader (pages.headD []) cursor = none) : c.scanRead pages = c.endWalk pass := by
  simp only [Ctl.scanRead, ha, hh]

/-- A record not read whole has its next page read. -/
theorem Ctl.scanRead_more (hh : parseHeader (pages.headD []) cursor = some h) (hp : pages.length < h.pages) :
    c.scanRead pages = c.askRead pass (cursor + pages.length) (.scan pages) := by
  simp only [Ctl.scanRead, ha, hh, if_pos hp]

/-- A record read whole is handled. -/
theorem Ctl.scanRead_whole (hh : parseHeader (pages.headD []) cursor = some h) (hp : h.pages ≤ pages.length) :
    c.scanRead pages = c.handleRecord h pages pass cursor := by
  simp only [Ctl.scanRead, ha, hh, if_neg (Nat.not_lt.2 hp)]

end Header

/-- A record that no entry places at the cursor is dropped (R132). -/
theorem Ctl.handleRecord_stale (hk : ∀ e, c.lookup h.key = some e → e.row ≠ pass ∨ e.page ≠ cursor) :
    c.handleRecord h pages pass cursor = c.dropRecord pass cursor h.pages := by
  unfold Ctl.handleRecord
  split
  · next e he =>
    refine if_neg fun hplace => ?_
    rcases hk e he with hrow | hpage
    · exact hrow hplace.1
    · exact hpage hplace.2
  · rfl

/-- The header agrees with the key's entry in sequence number, kind and length (Table 29); the key is the entry's already. -/
theorem RecHeader.agrees_iff {e : DirEntry} (hk : e.key = h.key) :
    h.agrees e = true ↔ h.sequence = e.sequence ∧ h.kind = e.kind.recKind ∧ h.length = e.length := by
  simp [RecHeader.agrees, hk, and_assoc]

section Current

variable {e : DirEntry} (he : c.lookup h.key = some e) (hrow : e.row = pass) (hpage : e.page = cursor)

include he hrow hpage

/-- The current record of its key is copied when it agrees with its entry and is complete (R128). -/
theorem Ctl.handleRecord_copied
    (hc : (h.sequence = e.sequence ∧ h.kind = e.kind.recKind ∧ h.length = e.length) ∧ recordComplete h pages = true) :
    c.handleRecord h pages pass cursor = c.placeRecord ⟨h, pages, .agent⟩ := by
  obtain ⟨hfields, hcomplete⟩ := hc
  have hagrees := (RecHeader.agrees_iff (Ctl.lookup_key he)).2 hfields
  simp only [Ctl.handleRecord, he]
  rw [if_pos ⟨hrow, hpage⟩, if_pos (by rw [hagrees, hcomplete]; rfl)]

/-- Otherwise the entry is removed as damaged, and the cursor moves past the record (R127). -/
theorem Ctl.handleRecord_damaged
    (hc : ¬((h.sequence = e.sequence ∧ h.kind = e.kind.recKind ∧ h.length = e.length) ∧ recordComplete h pages = true)) :
    c.handleRecord h pages pass cursor = (c.removeDamaged e).advanceCursor pass cursor h.pages := by
  simp only [Ctl.handleRecord, he]
  rw [if_pos ⟨hrow, hpage⟩, if_neg]
  rwa [Bool.and_eq_true, RecHeader.agrees_iff (Ctl.lookup_key he)]

end Current

end Scan

/-! ### Damaged entries and the end of the walk -/

theorem Ctl.removeEntry_eq (c : Ctl) (k : Half) :
    c.removeEntry k = { c with rows := (c.oldPagesDie k).rows, dir := c.dir.filter fun e => e.key ≠ k } := by
  rw [Ctl.removeEntry, Ctl.oldPagesDie_eq]

/-- An entry removed as damaged, its notice going to every port that watches the key (R127). -/
theorem Ctl.removeDamaged_eq (c : Ctl) (e : DirEntry) :
    c.removeDamaged e = { c.removeEntry e.key with
      notifs := c.notifs.map fun _ u => if e.key ∈ u.watch then u.place ⟨e.key, .damaged, none, e.sequence, false⟩ else u
      agent := { c.agent with dropped := c.agent.dropped + 1 } } := by
  simp only [Ctl.removeDamaged, Ctl.removeEntry_eq, Ctl.deliver, damagedNotice]
  simp

/-- Before page 16 the step ends with the cursor past the record. -/
theorem Ctl.advanceCursor_within (c : Ctl) {pass cursor q : Nat} (h : cursor + q < 16) :
    c.advanceCursor pass cursor q = { c with
      agent := { c.agent with state := .scanning pass (cursor + q), retryMark := none }
      sched := { c.sched with turn := .ports, current := .none } } := if_neg (Nat.not_le.2 h)

/-- At page 16 the walk ends (R133). -/
theorem Ctl.advanceCursor_end (c : Ctl) {pass cursor q : Nat} (h : 16 ≤ cursor + q) :
    c.advanceCursor pass cursor q
      = Ctl.endWalk { c with agent := { c.agent with state := .scanning pass (cursor + q), retryMark := none } } pass := if_pos h

/-- With no entry left in the row the agent is ERASING. -/
theorem Ctl.endWalk_none {c : Ctl} {row : Nat} (h : ∀ e ∈ c.dir, e.row ≠ row) :
    c.endWalk row = { c with
      agent := { c.agent with state := .erasing row, retryMark := none }
      sched := { c.sched with turn := .ports, current := .none } } := by
  have hnone : (c.dir.filter fun e => e.row = row) = [] := List.filter_eq_nil_iff.2 (by simpa using h)
  rw [Ctl.endWalk, hnone]
  rfl

/-- The first entry of the row is removed as damaged, and the walk's end goes on with the others. -/
theorem Ctl.endWalk_cons {c : Ctl} {row : Nat} (hs : c.dir.Pairwise fun x y => x.key.toNat < y.key.toNat)
    {before after : List DirEntry} {e : DirEntry} (hd : c.dir = before ++ e :: after) (hb : ∀ x ∈ before, x.row ≠ row)
    (he : e.row = row) : c.endWalk row = (c.removeDamaged e).endWalk row := by
  have hbefore : (before.filter fun x => x.row = row) = [] := List.filter_eq_nil_iff.2 (by simpa using hb)
  have hrow : (c.dir.filter fun x => x.row = row) = e :: after.filter fun x => x.row = row := by
    rw [hd, List.filter_append, hbefore, List.nil_append, List.filter_cons_of_pos (by simpa using he)]
  have hother : ∀ x ∈ after, x.key ≠ e.key := by
    rw [hd, List.pairwise_append, List.pairwise_cons] at hs
    obtain ⟨_, ⟨hafter, _⟩, _⟩ := hs
    intro x hx hk
    exact Nat.lt_irrefl _ (hk ▸ hafter x hx)
  have hleft : ((c.removeDamaged e).dir.filter fun x => x.row = row) = after.filter fun x => x.row = row := by
    rw [Ctl.removeDamaged_dir, otherKeys, List.filter_comm, hrow, List.filter_cons_of_neg (by simp)]
    exact List.filter_eq_self.2 fun x hx => by simpa using hother x (List.mem_of_mem_filter hx)
  simp only [Ctl.endWalk, hrow, hleft, List.foldl_cons]

/-- Settles O11: a page read by the step that asked for it, and the operations of the scanning step by their cases. -/
theorem pageReadKeepsCellsAndGoesOn : Obligations.PageReadKeepsCellsAndGoesOn := by
  refine ⟨fun s => ⟨(exec_leavesArray rfl s).next, fun req e got full row page hop hm hs hl => ?_,
      fun got row page pass cursor hop hm hs ha => ?_⟩, Ctl.removeDamaged_eq,
    fun c pass cursor q => ⟨c.advanceCursor_within, c.advanceCursor_end⟩,
    fun c row hd => ⟨Ctl.endWalk_none, fun before e after hsplit hb he => Ctl.endWalk_cons hd hsplit hb he⟩⟩
  · rw [exec_pageRead_step hop hm, Ctl.readEnded_record_more (c := s.ctl.mediaIdle) hs hl,
      Ctl.schedule_busy fun hcur => by cases hcur]
    rfl
  · rw [exec_pageRead_step hop hm, Ctl.readEnded_scan (c := s.ctl.mediaIdle) hs]
    intro pages c gives
    have ha : c.agent.state = .scanning pass cursor := ha
    have hs : c.sched.current = .agent (.scan got) := hs
    have gives_of : ∀ {d : Ctl}, c.scanRead pages = d → gives d := by
      rintro d rfl
      rfl
    refine ⟨fun hh => gives_of (Ctl.scanRead_noHeader ha hh), fun h hh => ⟨fun hp => ?_, fun hp => ⟨fun hk => ?_,
      fun e he hrow hpage => ⟨fun hc => ?_, fun hc => ?_⟩⟩⟩⟩
    · refine Eq.trans (gives_of ((Ctl.scanRead_more ha hh hp).trans (Ctl.askRead_agent hs _ _ _))) ?_
      rw [Ctl.schedule_busy fun hcur => by cases hcur]
    · exact gives_of ((Ctl.scanRead_whole ha hh hp).trans (Ctl.handleRecord_stale hk))
    · exact gives_of ((Ctl.scanRead_whole ha hh hp).trans (Ctl.handleRecord_copied he hrow hpage hc))
    · exact gives_of ((Ctl.scanRead_whole ha hh hp).trans (Ctl.handleRecord_damaged he hrow hpage hc))

end Sys2Proof.Machine
end

section
/-! SUPPORT. What every step keeps: the array's canonical form, the law of the store and the bound of the disturb counts. -/

namespace Sys2Proof.Machine

/-! ### The array's canonical form -/

theorem exec_powerLoss_cells {torn : Residue} {s t : State} (ht : exec (.powerLoss torn) s = .next t) :
    t.cells = s.cells ∨ t.cells = s.cells.interrupt s.ctl.media.op torn := by
  cases hp : s.ctl.powered with
  | false =>
    rw [exec_powerLoss_unpowered hp] at ht
    exact Or.inl (State.next_cells ht)
  | true =>
    rw [exec_powerLoss hp] at ht
    exact Or.inr (State.next_cells ht)

/-- DAMAGE leaves the array, or damages the page it names. -/
theorem exec_damage_cells {row page : Nat} {marks : List CellDamage} {s t : State}
    (ht : exec (.damage row page marks) s = .next t) : t.cells = s.cells ∨ t.cells = s.cells.damage row page marks := by
  replace ht : execDamage row page marks s = .next t := ht
  unfold execDamage at ht
  split at ht
  · cases ht
  · split at ht
    · exact Or.inl (State.next_cells ht)
    · exact Or.inr (State.next_cells ht)

/-- Every command keeps the canonical form of the array. -/
theorem exec_wf {i : Instr} {s t : State} (hs : s.cells.wf) (ht : exec i s = .next t) : t.cells.wf := by
  by_cases hi : i.reachesArray = false
  · exact (onlyArrayEventsReachTheArray i s t hi ht).symm ▸ hs
  cases i
  case deviceReset torn =>
    rw [exec_deviceReset] at ht
    exact (State.next_cells ht).symm ▸ Cells.interrupt_wf hs _ _
  case powerLoss torn =>
    rcases exec_powerLoss_cells ht with h | h
    · exact h.symm ▸ hs
    · exact h.symm ▸ Cells.interrupt_wf hs _ _
  case programPulse left =>
    rcases exec_programPulse_cells ht with h | ⟨row, page, target, h⟩
    · exact h.symm ▸ hs
    · exact h.symm ▸ Cells.programPulse_wf hs _ _ _ _
  case erasePulse left =>
    rcases exec_erasePulse_cells ht with h | ⟨row, h⟩
    · exact h.symm ▸ hs
    · exact h.symm ▸ Cells.erasePulse_wf hs _ _
  case damage row page marks =>
    rcases exec_damage_cells ht with h | h
    · exact h.symm ▸ hs
    · exact h.symm ▸ Cells.damage_wf _ _ _ hs
  all_goals exact absurd rfl hi

theorem step_wf {s t : State} (hs : s.cells.wf) (ht : step s = .next t) : t.cells.wf := by
  unfold step at ht
  split at ht
  · injection ht with ht
    exact ht ▸ hs
  · next i rest _ => exact exec_wf (s := { s with pending := rest }) hs ht

/-! ### The law of the store -/

theorem step_storeLaw {s t : State} (hs : s.ctl.storeLaw) (ht : step s = .next t) : t.ctl.storeLaw :=
  step_of_exec (fun _ _ _ hs ht =>
    exec_keeps storeEvents (fun _ h => h.settle) (fun _ c _ => Ctl.storeLaw_afterReset c) hs ht) s t hs ht

/-- In the head row live, dead and free pages number 15, the live ones being those of the entries there (R26, R27). -/
theorem RowMgr.lawful.head_counts {m : RowMgr} {dir : List DirEntry} (h : m.lawful dir) {r : Nat} {n : Word}
    {live dead next : Nat} (hr : m.state r = .head n live dead next) :
    live + dead + (16 - next) = 15 ∧ live = livePages dir r := by
  obtain ⟨hcounts, _⟩ := h
  have hc := hcounts r
  rw [hr] at hc
  obtain ⟨hlive, _, _, hsum⟩ := hc
  exact ⟨hsum, hlive⟩

/-- In a CLOSED row live and dead pages number 15, the live ones being those of the entries there (R26, R27). -/
theorem RowMgr.lawful.closed_counts {m : RowMgr} {dir : List DirEntry} (h : m.lawful dir) {r : Nat} {n : Word}
    {live dead : Nat} (hr : m.state r = .closed n live dead) : live + dead = 15 ∧ live = livePages dir r := by
  obtain ⟨hcounts, _⟩ := h
  have hc := hcounts r
  rw [hr] at hc
  obtain ⟨hlive, hsum⟩ := hc
  exact ⟨hsum, hlive⟩

/-- Settles O52: the canonical form by the array's operations, the law of the store by the operations that commands call. -/
theorem stepsKeepTheArrayCanonical : Obligations.StepsKeepTheArrayCanonical := by
  intro s t ht
  refine ⟨fun hs => step_wf hs ht, fun hs => ?_⟩
  have hlaw := step_storeLaw hs ht
  refine ⟨hlaw, ?_⟩
  obtain ⟨_, ⟨hlength, hkeys, _⟩, hrows, _⟩ := hlaw
  exact ⟨hlength, hkeys, fun _ _ _ _ _ hr => hrows.head_counts hr, fun _ _ _ _ hr => hrows.closed_counts hr,
    RowMgr.ring_free_usable hrows, RowMgr.nodup_ring hrows, fun _ _ hr hr' => RowMgr.head_unique hrows hr hr'⟩

/-! ### The disturb counts -/

theorem Ctl.disturbLaw_of_media {c d : Ctl} (hm : d.media = c.media) (h : c.disturbLaw) : d.disturbLaw := by
  unfold Ctl.disturbLaw
  rw [hm]
  exact h

/-- A count of at most 40 becomes known. -/
theorem Ctl.disturbLaw.setCount {c : Ctl} (h : c.disturbLaw) (row : Nat) {n : Nat} (hn : n ≤ Config.disturbLimit) :
    Ctl.disturbLaw { c with media := c.media.setCount row n } := by
  intro x hx
  rcases mem_insertBy _ hx with rfl | hx
  · exact hn
  · exact h x hx

/-- The changes of a step keep the disturb law: but for a count that becomes UNKNOWN, they leave the counts as they are. -/
theorem disturbQuiet : QuietLaws Ctl.disturbLaw where
  ports _ _ h := h
  endHold c k h := Ctl.disturbLaw_of_media (c.endHold_media k) h
  freezeClaim c k h := Ctl.disturbLaw_of_media (c.freezeClaim_media k) h
  resyncClaims c p h := Ctl.disturbLaw_of_media (c.resyncClaims_media p) h
  deliver _ _ h := h
  resyncNotif _ _ h := h
  abandonDrain _ _ h := h
  lists _ _ h := h
  searchStart _ _ h := h
  compactList _ _ h := h
  markDiscard _ _ h := h
  readOnly _ _ _ _ h := h
  starting _ _ _ _ h := h
  rows _ _ h := h
  dir _ _ h := h
  agent _ _ h := h
  op _ _ h := h
  forget _ _ h x hx := h x (List.mem_of_mem_filter hx)
  turn _ _ h := h
  waits _ _ h := h
  mark _ _ h := h
  stop _ h := h
  goOn _ _ _ h := h
  newPlan _ _ _ _ _ h := h
  samePlan _ _ _ _ _ _ _ h := h
  written _ _ _ _ _ _ h := h
  faulted _ _ _ h := h
  retired _ _ h := h
  active _ _ h := h

theorem disturbArrivals : ArrivalLaws Ctl.disturbLaw :=
  disturbQuiet.arrivals (fun _ _ _ _ _ h => h) (fun _ _ _ h => h) (fun _ _ h => h)
    (fun c e p st _ h => Ctl.disturbLaw_of_media (c.endWait_media e p st) h)
    (fun c p tag k hold wait _ h => Ctl.disturbLaw_of_media (c.handleClaim_media p tag k hold wait) h)

theorem disturbMount : MountLaws Ctl.disturbLaw where
  op _ _ h := h
  mount _ _ h := h
  loadConf c choice h := by
    unfold Ctl.loadConf
    exact disturbQuiet.steps.applyEnableMask _ (Ctl.disturbLaw_of_media rfl h)
  finish _ _ _ _ h := Ctl.disturbLaw_of_media rfl h

/-- The operations that commands call keep the disturb law: a pulse comes at a count below 40 alone (R7). -/
theorem disturbEvents : EventLaws Ctl.disturbLaw Ctl.disturbLaw :=
  eventLaws_of disturbQuiet.steps disturbArrivals (fun _ data _ h => disturbMount.mountRead data h) (fun _ h => h)
    (fun _ _ h => h) (fun _ _ h => h) (fun _ row _ hn h => h.setCount row hn)

/-- After a device reset or a power loss every count is UNKNOWN (R12). -/
theorem Ctl.disturbLaw_afterReset (c : Ctl) :
    c.afterReset.disturbLaw ∧ Ctl.disturbLaw { c.afterReset with powered := false } :=
  ⟨List.forall_mem_nil _, List.forall_mem_nil _⟩

/-- Settles O57: every operation that commands call keeps the law, a reset and a power loss establish it. -/
theorem stepsKeepTheDisturbLaw : Obligations.StepsKeepTheDisturbLaw :=
  step_of_exec fun _ _ _ hs ht =>
    exec_keeps disturbEvents (fun _ h => h) (fun _ c _ => Ctl.disturbLaw_afterReset c) hs ht

end Sys2Proof.Machine
end

section
/-! SUPPORT. Records and tables: the pages of a record (R21), a change of one key of the claim table or the Directory with the pages
that move with it (Table 10), and the state after reset under each law. -/

namespace Sys2Proof.Machine

/-! ### The pages of a record (R21) -/

theorem pagesFor_holds (length : Nat) : 16 + length + 8 ≤ 64 * pagesFor length := by
  unfold pagesFor
  omega

theorem pagesFor_fewest {length n : Nat} (h : 16 + length + 8 ≤ 64 * n) : pagesFor length ≤ n := by
  unfold pagesFor
  omega

/-- Settles O48: the bounds of the division by 64, and the page count that a valid header must state (R24). -/
theorem pagesOfARecord : Obligations.PagesOfARecord :=
  ⟨fun length => ⟨pagesFor_holds length, fun _ => pagesFor_fewest⟩, fun _ _ _ => rfl, fun _ _ _ h => (parseHeader_law h).2.2.1⟩

/-! ### The state after reset -/

theorem Ctl.reset_attentionLaw : Ctl.reset.attentionLaw := fun p => by cases p <;> rfl

theorem NotifUnit.reset_lawful : NotifUnit.reset.lawful :=
  ⟨Nat.zero_le _, .nil, Nat.zero_le _, .nil, fun _ _ hn => nomatch hn⟩

theorem Ctl.reset_noticeLaw : Ctl.reset.noticeLaw := fun p => by cases p <;> exact NotifUnit.reset_lawful

theorem Ctl.reset_claimLaw : Ctl.reset.claimLaw := ⟨Nat.zero_le _, .nil, fun _ he => nomatch he⟩

/-- Nothing is owed and no credit is in use. -/
theorem Ctl.reset_creditLawAt (p : Port) : Ctl.reset.creditLawAt p := by
  have hport : Ctl.reset.port p = PortUnit.reset := by cases p <;> rfl
  have hlist : Ctl.reset.requests p = [] := by cases p <;> rfl
  have howed : Ctl.reset.owed p = 0 := by cases p <;> rfl
  refine ⟨howed ▸ Nat.zero_le _, hport ▸ Nat.zero_le _, hlist ▸ fun _ hr => (List.not_mem_nil hr).elim, fun rest hrx => ?_⟩
  rw [hport] at hrx
  cases hrx

/-- Settles O60: every block at its reset value has its law; a device reset of the reset state is the reset state, so that the
law of the store is the one a device reset establishes. -/
theorem resetHasEveryLaw : Obligations.ResetHasEveryLaw :=
  ⟨⟨Memory.wf_nil, Memory.wf_nil⟩, Ctl.reset_attentionLaw, Ctl.reset_noticeLaw, Ctl.reset_claimLaw,
    ⟨Ctl.reset_claimLaw, Ctl.reset_creditLawAt⟩, (Ctl.disturbLaw_afterReset Ctl.reset).1,
    ⟨fun _ h => (nomatch h), fun _ => rfl⟩, (Ctl.storeLaw_afterReset Ctl.reset).1⟩

/-! ### Pages that move (Table 10) -/

/-- A row changed by a function that keeps SYSTEM: a row that the table does not have reads as SYSTEM and stays so. -/
theorem RowMgr.state_setState_map (m : RowMgr) (row : Nat) {f : RowState → RowState} (hf : f .system = .system) (r : Nat) :
    (m.setState row (f (m.state row))).state r = if r = row then f (m.state r) else m.state r := by
  by_cases hs : m.state row = .system
  · have hsame : m.setState row (f (m.state row)) = m.setState row (m.state row) := by rw [hs, hf]
    have hid : (m.setState row (m.state row)).state r = m.state r := by
      by_cases hlt : row < m.table.length
      · simp only [RowMgr.state, RowMgr.entry, RowMgr.setState, List.getD_eq_getElem?_getD, List.getElem?_modify]
        by_cases hr : row = r
        · subst hr
          simp [List.getElem?_eq_getElem hlt]
        · simp [hr]
      · rw [RowMgr.setState_system (Nat.le_of_not_lt hlt)]
    rw [hsame, hid]
    split
    · next hr => rw [hr, hs, hf]
    · rfl
  · rw [RowMgr.state_setState _ hs]
    split
    · next hr => rw [hr]
    · rfl

theorem RowMgr.state_pagesDie (m : RowMgr) (row q r : Nat) :
    (m.pagesDie row q).state r = if r = row then (m.state r).toDead q else m.state r :=
  m.state_setState_map row rfl r

theorem RowMgr.state_pagesLive (m : RowMgr) (row q r : Nat) :
    (m.pagesLive row q).state r = if r = row then (m.state r).toLive q else m.state r :=
  m.state_setState_map row rfl r

/-- The rows once the pages of the key's entry, if any, are dead. -/
theorem Ctl.state_oldPagesDie (c : Ctl) (k : Half) (r : Nat) :
    (c.oldPagesDie k).rows.state r = match c.lookup k with
      | some old => if r = old.row then (c.rows.state r).toDead old.pages else c.rows.state r
      | none => c.rows.state r := by
  unfold Ctl.oldPagesDie
  cases c.lookup k with
  | none => rfl
  | some old => exact c.rows.state_pagesDie old.row old.pages r

/-- A moved record's pages become live in the new row, then dead in the old one. -/
theorem Ctl.state_relocate {c : Ctl} {k : Half} {old : DirEntry} (h : c.lookup k = some old) (row page r : Nat) :
    (c.relocate k row page).rows.state r
      = if r = old.row then ((c.rows.pagesLive row old.pages).state r).toDead old.pages
        else (c.rows.pagesLive row old.pages).state r := by
  unfold Ctl.relocate
  rw [h]
  exact RowMgr.state_pagesDie _ _ _ _

/-- Settles O31: the tables by the laws of their changes, the page counts by the pages that die and live in one row each. -/
theorem tablesChangeOneKey : Obligations.TablesChangeOneKey := by
  intro c k
  refine ⟨fun e he => ⟨c.claimOf_setClaim_same he, fun _ => c.claimOf_setClaim_other he⟩,
    ⟨c.claimOf_freeClaim_same k, fun _ => c.claimOf_freeClaim_other⟩,
    fun e he => ⟨c.lookup_placeEntry_same he, fun _ => c.lookup_placeEntry_other he⟩,
    ⟨c.lookup_removeEntry_same k, fun _ => c.lookup_removeEntry_other⟩,
    fun row page => ⟨c.lookup_relocate_same k row page, fun _ => c.lookup_relocate_other row page⟩, ?_⟩
  intro dies lives gone
  have hdies : ∀ q st, dies q st = RowState.toDead q st := fun q st => by cases st <;> rfl
  have hlives : ∀ q st, lives q st = RowState.toLive q st := fun q st => by cases st <;> rfl
  have hgone : ∀ r, (c.oldPagesDie k).rows.state r = gone r := fun r => by
    rw [c.state_oldPagesDie]
    simp only [gone, hdies] <;> rfl
  refine ⟨hgone, fun e he r => ?_, fun old row page hold r => ?_⟩
  · subst he
    rw [hlives, ← hgone]
    exact RowMgr.state_pagesLive _ _ _ _
  · simp only [hdies, hlives]
    rw [Ctl.state_relocate hold, RowMgr.state_pagesLive]

end Sys2Proof.Machine
end

section
/-! SUPPORT. Head opens: the row a head open takes (R34), the head's fit, allocation and close (R31 to R33), the reserve and the
attempts of an open (R35 to R37), and the retirement of a row whose erase failed (R175). -/

namespace Sys2Proof.Machine

/-! ### The row a head open takes (R34) -/

/-- The row at place `i` of the search: places count from the row after the open pointer. -/
def RowMgr.nthRow (m : RowMgr) (i : Nat) : Nat := 2 + (m.openPtr - 1 + i) % 254

theorem RowMgr.nthRow_wraps {m : RowMgr} (h : 2 ≤ m.openPtr) (h' : m.openPtr ≤ 255) {i : Nat} (hi : i < 254) :
    m.nthRow i = if m.openPtr + 1 + i ≤ 255 then m.openPtr + 1 + i else m.openPtr + 1 + i - 254 := by
  unfold RowMgr.nthRow
  split <;> omega

theorem RowMgr.nthRow_bounds (m : RowMgr) (i : Nat) : 2 ≤ m.nthRow i ∧ m.nthRow i ≤ 255 := by
  unfold RowMgr.nthRow
  omega

/-- Every ring-eligible row has a place in the search. -/
theorem RowMgr.exists_nthRow (m : RowMgr) {r : Nat} (h : 2 ≤ r) (h' : r ≤ 255) : ∃ i, i < 254 ∧ m.nthRow i = r := by
  refine ⟨(r - 2 + 254 - (m.openPtr - 1) % 254) % 254, Nat.mod_lt _ (by omega), ?_⟩
  unfold RowMgr.nthRow
  omega

/-- The row at place `i` is free. -/
def RowMgr.freeAt (m : RowMgr) (i : Nat) : Prop := (m.state (m.nthRow i)).isFree = true

/-- The row at place `i` carries the suspect mark. -/
def RowMgr.markedAt (m : RowMgr) (i : Nat) : Prop := (m.entry (m.nthRow i)).suspect = true

/-- The choice is two searches over the places: for a free row without the mark, then for a free row. -/
theorem RowMgr.chooseRow_eq (m : RowMgr) :
    m.chooseRow = match (List.range 254).find? fun i => (m.state (m.nthRow i)).isFree && !(m.entry (m.nthRow i)).suspect with
      | some i => some (m.nthRow i)
      | none => ((List.range 254).find? fun i => (m.state (m.nthRow i)).isFree).map m.nthRow := by
  have hs : m.searchOrder = (List.range 254).map m.nthRow := rfl
  unfold RowMgr.chooseRow
  simp only [hs, List.find?_filter, List.head?_filter, List.find?_map, Bool.decide_and, Bool.decide_eq_true, Function.comp_def]
  cases (List.range 254).find? fun i => (m.state (m.nthRow i)).isFree && !(m.entry (m.nthRow i)).suspect with
  | none => rfl
  | some i => rfl

theorem find_range_some {p : Nat → Bool} {n i : Nat} :
    (List.range n).find? p = some i ↔ i < n ∧ p i = true ∧ ∀ j, j < i → p j = false := by
  rw [List.find?_range_eq_some, List.mem_range]
  simp only [Bool.not_eq_true']
  exact ⟨fun ⟨h, hi, hj⟩ => ⟨hi, h, hj⟩, fun ⟨hi, h, hj⟩ => ⟨h, hi, hj⟩⟩

theorem find_range_none {p : Nat → Bool} {n : Nat} : (List.range n).find? p = none ↔ ∀ i, i < n → p i = false := by
  rw [List.find?_range_eq_none]
  simp only [Bool.not_eq_true']

theorem RowMgr.unmarkedAt_iff {m : RowMgr} {i : Nat} :
    ((m.state (m.nthRow i)).isFree && !(m.entry (m.nthRow i)).suspect) = true ↔ m.freeAt i ∧ ¬ m.markedAt i := by
  unfold RowMgr.freeAt RowMgr.markedAt
  rw [Bool.and_eq_true, Bool.not_eq_true', Bool.not_eq_true]

/-- No row of the search is free without the mark. -/
theorem RowMgr.no_unmarked {m : RowMgr} {n : Nat} :
    (∀ i, i < n → ((m.state (m.nthRow i)).isFree && !(m.entry (m.nthRow i)).suspect) = false)
      ↔ ∀ j, j < n → m.freeAt j → m.markedAt j := by
  refine forall₂_congr fun i _ => ?_
  rw [← Bool.not_eq_true, RowMgr.unmarkedAt_iff, not_and_not_right]

theorem RowMgr.chooseRow_none (m : RowMgr) : m.chooseRow = none ↔ ∀ i, i < 254 → ¬ m.freeAt i := by
  have hfree : (∀ i, i < 254 → ¬ m.freeAt i) ↔ ∀ i, i < 254 → (m.state (m.nthRow i)).isFree = false :=
    forall₂_congr fun i _ => by unfold RowMgr.freeAt; exact Bool.not_eq_true _ ▸ Iff.rfl
  rw [hfree, m.chooseRow_eq]
  split
  · next i hi =>
    obtain ⟨hlt, hp, _⟩ := find_range_some.1 hi
    exact ⟨fun h => (nomatch h), fun h => by simp [h i hlt] at hp⟩
  · rw [Option.map_eq_none_iff, find_range_none]

theorem RowMgr.chooseRow_some (m : RowMgr) (row : Nat) :
    m.chooseRow = some row ↔ ∃ i, i < 254 ∧ row = m.nthRow i ∧ m.freeAt i
      ∧ (¬ m.markedAt i ∧ (∀ j, j < i → m.freeAt j → m.markedAt j)
        ∨ (∀ j, j < 254 → m.freeAt j → m.markedAt j) ∧ ∀ j, j < i → ¬ m.freeAt j) := by
  rw [m.chooseRow_eq]
  split
  · next i hi =>
    obtain ⟨hlt, hp, hbefore⟩ := find_range_some.1 hi
    obtain ⟨hfi, hmark⟩ := RowMgr.unmarkedAt_iff.1 hp
    refine ⟨fun h => ⟨i, hlt, (Option.some.inj h).symm, hfi, .inl ⟨hmark, RowMgr.no_unmarked.1 hbefore⟩⟩, ?_⟩
    rintro ⟨j, hj, rfl, hfree, ⟨hunmarked, hb⟩ | ⟨hall, _⟩⟩
    · have hj' : (List.range 254).find? (fun i => (m.state (m.nthRow i)).isFree && !(m.entry (m.nthRow i)).suspect) = some j :=
        find_range_some.2 ⟨hj, RowMgr.unmarkedAt_iff.2 ⟨hfree, hunmarked⟩, RowMgr.no_unmarked.2 hb⟩
      rw [Option.some.inj (hi.symm.trans hj')]
    · exact absurd (hall i hlt hfi) hmark
  · next hnone =>
    have hall := RowMgr.no_unmarked.1 (find_range_none.1 hnone)
    rw [Option.map_eq_some_iff]
    constructor
    · rintro ⟨i, hi, rfl⟩
      obtain ⟨hlt, hp, hbefore⟩ := find_range_some.1 hi
      exact ⟨i, hlt, rfl, hp, .inr ⟨hall, fun j hj => by simp [RowMgr.freeAt, hbefore j hj]⟩⟩
    · rintro ⟨i, hlt, rfl, hfree, ⟨hunmarked, _⟩ | ⟨_, hb⟩⟩
      · exact absurd (hall i hlt hfree) hunmarked
      · exact ⟨i, find_range_some.2 ⟨hlt, hfree, fun j hj => by simpa [RowMgr.freeAt] using hb j hj⟩, rfl⟩

/-- A row without the mark is taken when any free one has none. -/
theorem RowMgr.chooseRow_sound {m : RowMgr} {row : Nat} (h : m.chooseRow = some row) :
    2 ≤ row ∧ row ≤ 255 ∧ (m.state row).isFree = true
      ∧ ((∃ r, 2 ≤ r ∧ r ≤ 255 ∧ (m.state r).isFree = true ∧ (m.entry r).suspect = false) → (m.entry row).suspect = false) := by
  obtain ⟨i, _, rfl, hfree, hmark⟩ := (m.chooseRow_some row).1 h
  refine ⟨(m.nthRow_bounds i).1, (m.nthRow_bounds i).2, hfree, ?_⟩
  rintro ⟨r, hlo, hhi, hr, hs⟩
  obtain ⟨j, hj, rfl⟩ := m.exists_nthRow hlo hhi
  rcases hmark with ⟨hun, _⟩ | ⟨hall, _⟩
  · exact Bool.not_eq_true _ ▸ hun
  · exact absurd (hs.symm.trans (hall j hj hr)) Bool.false_ne_true

/-! ### One row's state and mark -/

theorem RowMgr.state_setState_lt {m : RowMgr} {row : Nat} (h : row < m.table.length) (st : RowState) (r : Nat) :
    (m.setState row st).state r = if r = row then st else m.state r := by
  simp only [RowMgr.state, RowMgr.entry, RowMgr.setState, List.getD_eq_getElem?_getD, List.getElem?_modify]
  by_cases hr : r = row
  · subst hr
    simp [List.getElem?_eq_getElem h]
  · simp [hr, Ne.symm hr]

theorem RowMgr.suspect_setState (m : RowMgr) (row : Nat) (st : RowState) (r : Nat) :
    ((m.setState row st).entry r).suspect = (m.entry r).suspect := by
  simp only [RowMgr.entry, RowMgr.setState, List.getD_eq_getElem?_getD, List.getElem?_modify]
  by_cases hr : row = r
  · subst hr
    cases m.table[row]? <;> simp
  · simp [hr]

theorem RowMgr.suspect_markSuspect {m : RowMgr} {row : Nat} (h : row < m.table.length) (r : Nat) :
    ((m.markSuspect row).entry r).suspect = (decide (r = row) || (m.entry r).suspect) := by
  simp only [RowMgr.entry, RowMgr.markSuspect, List.getD_eq_getElem?_getD, List.getElem?_modify]
  by_cases hr : r = row
  · subst hr
    simp [List.getElem?_eq_getElem h]
  · simp [hr, Ne.symm hr]

theorem RowMgr.setState_setState (m : RowMgr) (row : Nat) (a b : RowState) :
    (m.setState row a).setState row b = m.setState row b := by
  simp only [RowMgr.setState, List.modify_modify_eq]
  rfl

/-- A free row that becomes the head is one free row less (R30). -/
theorem RowMgr.free_becomeHead {m : RowMgr} {row : Nat} (openNo : Word) (h : row < m.table.length)
    (hf : (m.state row).isFree = true) : (m.becomeHead row openNo).free + 1 = m.free := by
  have he : m.table[row].state.isFree = true := by
    simpa [RowMgr.state, RowMgr.entry, List.getD_eq_getElem?_getD, List.getElem?_eq_getElem h] using hf
  have hpos : 0 < m.table.countP fun e => e.state.isFree := List.countP_pos_iff.2 ⟨_, List.getElem_mem h, he⟩
  have hhead : (RowState.head openNo 0 0 1).isFree = false := rfl
  simp only [RowMgr.free, RowMgr.becomeHead, RowMgr.setState, List.modify_eq_set_get _ h, List.countP_set h, he, hhead,
    if_true, Bool.false_eq_true, if_false]
  omega

/-! ### The head: fit, allocation and close (R31 to R33) -/

theorem RowMgr.headRow_none_iff {m : RowMgr} : m.headRow = none ↔ m.headless := by
  refine ⟨RowMgr.headless_of_headRow, fun h => ?_⟩
  cases hr : m.headRow with
  | none => rfl
  | some r => exact absurd ((h r).symm.trans (RowMgr.headRow_isHead hr)) Bool.false_ne_true

theorem RowMgr.closeHead_headless {m : RowMgr} (h : m.headless) : m.closeHead = m := by
  rw [RowMgr.closeHead, RowMgr.headRow_none_iff.2 h]

theorem Ctl.fitsHead_headless {c : Ctl} (p : Nat) (h : c.rows.headless) : c.fitsHead p = false := by
  rw [Ctl.fitsHead, RowMgr.headRow_none_iff.2 h]

/-- The one row that is HEAD is the head row. -/
theorem RowMgr.headRow_of_unique {m : RowMgr} {row : Nat} (h : (m.state row).isHead = true)
    (hu : ∀ r, (m.state r).isHead = true → r = row) : m.headRow = some row := by
  cases hr : m.headRow with
  | none => exact absurd ((RowMgr.headless_of_headRow hr row).symm.trans h) Bool.false_ne_true
  | some r => rw [hu r (RowMgr.headRow_isHead hr)]

theorem RowMgr.closeHead_eq {m : RowMgr} {row : Nat} (h : m.headRow = some row) :
    m.closeHead = m.setState row (m.state row).close := by
  rw [RowMgr.closeHead, h]

/-- A record fits the head's free pages and its headroom, which an UNKNOWN count does not give (R31). -/
theorem Ctl.fitsHead_iff {c : Ctl} {row : Nat} (h : c.rows.headRow = some row) (p : Nat) :
    c.fitsHead p = true
      ↔ p ≤ (c.rows.state row).freePages ∧ ∃ k, c.media.count row = some k ∧ p ≤ 40 - k := by
  simp only [Ctl.fitsHead, h, Bool.and_eq_true, decide_eq_true_eq]
  refine and_congr_right fun _ => ?_
  cases c.media.count row with
  | none => simp
  | some n => exact ⟨fun h => ⟨n, rfl, of_decide_eq_true h⟩, fun ⟨_, hk, h⟩ => decide_eq_true (Option.some.inj hk ▸ h)⟩

theorem Media.budget_of_count {m : Media} {row k : Nat} (h : m.count row = some k) (hk : k < 40) : m.budget row = true := by
  rw [Media.budget, h]
  exact decide_eq_true hk

theorem Ctl.programPage_budget {c : Ctl} {row k : Nat} (h : c.media.count row = some k) (hk : k < 40) (job : WriteJob)
    (first idx : Nat) : c.programPage job row first idx
      = c.askProgram row (first + idx) (job.images.getD idx []) (.writing job row first idx) :=
  if_pos (Media.budget_of_count h hk)

/-- The record's pages are allocated in the head and its first page is programmed (R32). -/
theorem Ctl.startRecord_eq {c : Ctl} {row : Nat} (h : c.rows.headRow = some row) {k : Nat} (hc : c.media.count row = some k)
    (hk : k < 40) (job : WriteJob) : c.startRecord job
      = Ctl.askProgram { c with rows := c.rows.setState row ((c.rows.state row).allocate job.header.pages) } row
          (c.rows.state row).nextFree (job.images.getD 0 []) (.writing job row (c.rows.state row).nextFree 0) := by
  rw [Ctl.startRecord, h]
  exact Ctl.programPage_budget
    (c := { c with rows := c.rows.setState row ((c.rows.state row).allocate job.header.pages) }) hc hk job _ 0

/-- A record of at least one page that fits the head goes there. -/
theorem Ctl.placeRecord_fits {c : Ctl} {row : Nat} (h : c.rows.headRow = some row) {job : WriteJob} (hp : 1 ≤ job.header.pages)
    (hf : c.fitsHead job.header.pages = true) : c.placeRecord job
      = Ctl.askProgram { c with rows := c.rows.setState row ((c.rows.state row).allocate job.header.pages) } row
          (c.rows.state row).nextFree (job.images.getD 0 []) (.writing job row (c.rows.state row).nextFree 0) := by
  obtain ⟨_, k, hc, hk⟩ := (Ctl.fitsHead_iff h _).1 hf
  rw [Ctl.placeRecord, if_pos hf]
  exact Ctl.startRecord_eq h hc (by omega) job

theorem Ctl.placeRecord_opens {c : Ctl} {job : WriteJob} (h : c.fitsHead job.header.pages = false) :
    c.placeRecord job = c.openHead job := by
  rw [Ctl.placeRecord, h]
  rfl

/-! ### The reserve and the attempts (R35 to R37) -/

/-- The free rows that a head open needs (R36). -/
def WriteOwner.reserve : WriteOwner → Nat
  | .port _ => 3
  | .agent => 1

theorem Ctl.reserveOk_eq (c : Ctl) (job : WriteJob) : c.reserveOk job = decide (job.owner.reserve ≤ c.rows.free) := by
  unfold Ctl.reserveOk
  cases job.owner <;> rfl

section Reserve

variable {c : Ctl} {job : WriteJob}

theorem Ctl.openHead_noReserve (h : c.rows.free < job.owner.reserve) : c.openHead job = c.openFailed job := by
  rw [Ctl.openHead, Ctl.reserveOk_eq, if_neg (by simpa using h)]

theorem Ctl.openHead_reserve (h : job.owner.reserve ≤ c.rows.free) :
    c.openHead job = tryOpen job 2 { c with rows := c.rows.closeHead } := by
  rw [Ctl.openHead, Ctl.reserveOk_eq, if_pos (by simpa using h)]

theorem tryOpen_noReserve (left : Nat) (h : c.rows.free < job.owner.reserve) : tryOpen job left c = c.openFailed job := by
  cases left with
  | zero => rfl
  | succ left => rw [tryOpen, Ctl.reserveOk_eq, if_pos (by simp [h])]

theorem tryOpen_noAttempt (left : Nat) (h : c.sched.mode = .readOnly ∨ c.rows.chooseRow = none) :
    tryOpen job left c = c.openFailed job := by
  cases left with
  | zero => rfl
  | succ left =>
    rw [tryOpen]
    split
    · rfl
    · next hgo =>
      rcases h with h | h
      · exact absurd (by simp [h]) hgo
      · rw [h]

/-- An attempt moves the open pointer to the row chosen; a FREE_STALE row is erased, a FREE_READY row takes its header. -/
theorem tryOpen_attempt (left : Nat) (hr : job.owner.reserve ≤ c.rows.free) (hm : c.sched.mode ≠ .readOnly) {row : Nat}
    (hc : c.rows.chooseRow = some row) :
    tryOpen job (left + 1) c
      = if c.rows.state row = .freeStale then
          Ctl.askErase { c with rows := { c.rows with openPtr := row } } row (.openErase job row left)
        else Ctl.programHeader (tryOpen job left) job row left { c with rows := { c.rows with openPtr := row } } := by
  rw [tryOpen, Ctl.reserveOk_eq, if_neg (by simp [hm, hr]), hc]
  rfl

end Reserve

section Header

variable {c : Ctl} {again : Ctl → Ctl} {job : WriteJob} {row left : Nat}

/-- No open number is left: the open fails, and the mode becomes READ_ONLY (R40). -/
theorem Ctl.programHeader_limit (h : c.rows.openCounter = 0xFFFFFFFF) :
    c.programHeader again job row left = (c.enterReadOnly .sequence).openFailed job := if_pos h

/-- The row takes an open number and its header is programmed (R35, step 2). -/
theorem Ctl.programHeader_asks (h : c.rows.openCounter ≠ 0xFFFFFFFF) {k : Nat} (hc : c.media.count row = some k) (hk : k < 40) :
    c.programHeader again job row left
      = Ctl.askProgram { c with rows := { c.rows with openCounter := c.rows.openCounter + 1 } } row 0
          (rowHeaderPage c.rows.openCounter) (.openHeader job row left c.rows.openCounter) :=
  (if_neg h).trans (if_pos (Media.budget_of_count hc hk))

end Header

/-- A row in which the header was programmed is the head at the end of the ring, and the record is allocated there. -/
theorem Ctl.headOpened_eq {c : Ctl} (hd : c.rows.headless) {row : Nat} (hr : row < c.rows.table.length) {k : Nat}
    (hc : c.media.count row = some k) (hk : k < 40) (job : WriteJob) (openNo : Word) :
    c.headOpened job row openNo
      = Ctl.askProgram { c with rows :=
            { c.rows.setState row (.head openNo 0 job.header.pages (1 + job.header.pages)) with ring := c.rows.ring ++ [row] } }
          row 1 (job.images.getD 0 []) (.writing job row 1 0) := by
  have hst : ∀ r, (c.rows.becomeHead row openNo).state r = if r = row then .head openNo 0 0 1 else c.rows.state r :=
    RowMgr.state_setState_lt hr _
  have hself : (c.rows.becomeHead row openNo).state row = .head openNo 0 0 1 := by rw [hst, if_pos rfl]
  have hhead : (c.rows.becomeHead row openNo).headRow = some row := by
    refine RowMgr.headRow_of_unique (by rw [hself]; rfl) fun r h => ?_
    by_contra hne
    rw [hst, if_neg hne, hd r] at h
    exact Bool.false_ne_true h
  have halloc : (c.rows.becomeHead row openNo).setState row (.head openNo 0 job.header.pages (1 + job.header.pages))
      = { c.rows.setState row (.head openNo 0 job.header.pages (1 + job.header.pages)) with ring := c.rows.ring ++ [row] } :=
    congrArg (fun m : RowMgr => { m with ring := c.rows.ring ++ [row] }) (c.rows.setState_setState row _ _)
  rw [Ctl.headOpened, Ctl.startRecord_eq (c := { c with rows := c.rows.becomeHead row openNo }) hhead hc hk]
  simp only [hself, RowState.allocate, RowState.nextFree, Nat.zero_add, halloc]

/-! ### The end of an attempt -/

theorem Ctl.eraseEnded_open {c : Ctl} {job : WriteJob} {row left : Nat}
    (h : c.sched.current.activity = some (.openErase job row left)) (passed : Bool) :
    c.eraseEnded passed = c.openErased job row left passed := by
  rw [Ctl.eraseEnded, h]
  rfl

theorem Ctl.programEnded_open {c : Ctl} {job : WriteJob} {row left : Nat} {openNo : Word}
    (h : c.sched.current.activity = some (.openHeader job row left openNo)) (o : ProgramOutcome) :
    c.programEnded o = if o = .pass then c.headOpened job row openNo else c.headerFailed job row left := by
  rw [Ctl.programEnded, h]
  rfl

section Retire

variable {c : Ctl} {job : WriteJob} {row left : Nat}

/-- With the retired-row list full the mode becomes READ_ONLY with reason MEDIA, and the open goes on (R175). -/
theorem Ctl.retireRow_open_full (h : 16 ≤ c.conf.retired.length) :
    c.retireRow row (.openHead job left) = tryOpen job left (c.enterReadOnly .media) := if_pos h

/-- With room in the list the row is listed and an image with the stored settings and lock is written (R175). -/
theorem Ctl.retireRow_room (h : c.conf.retired.length < 16) (asker : ImageFor) :
    c.retireRow row asker
      = (c.listRetired row).writeImage c.conf.settings c.conf.lock (c.listRetired row).conf.retired asker :=
  if_neg (Nat.not_le.2 h)

/-- At the highest generation no image is written, and the open goes on in READ_ONLY with reason CONFIG (R168, R175). -/
theorem Ctl.writeImage_open_limit {settings : Settings} {lock : Byte} {retired : List Byte}
    (h : c.conf.generation = 0xFFFFFFFF) :
    c.writeImage settings lock retired (.openHead job left) = tryOpen job left (c.enterReadOnly .config) := if_pos h

end Retire

theorem Ctl.openFailed_port {c : Ctl} {job : WriteJob} {req : Request} {act : Activity} (hs : c.sched.current = .port req act)
    (ho : job.owner ≠ .agent) : c.openFailed job = c.refuse req .media := by
  rw [Ctl.openFailed, hs]
  cases hj : job.owner with
  | port retried => rfl
  | agent => exact absurd hj ho

theorem Ctl.openFailed_agent (c : Ctl) {job : WriteJob} (ho : job.owner = .agent) : c.openFailed job = c.haltAgent := by
  rw [Ctl.openFailed, ho]

/-- Settles O49: the choice of the row, the head's operations, then each way an attempt of an open begins and ends. -/
theorem headOpensKeepTheReserve : Obligations.HeadOpensKeepTheReserve := by
  refine ⟨fun job left retried c ho hf => ?_, fun m row openNo => RowMgr.free_becomeHead openNo,
    fun m row => RowMgr.chooseRow_sound,
    fun m => ⟨fun h h' _ => RowMgr.nthRow_wraps h h', m.chooseRow_none, m.chooseRow_some⟩,
    fun m row h => ⟨fun st r => ⟨RowMgr.state_setState_lt h st r, m.suspect_setState row st r⟩,
      fun r => ⟨m.state_markSuspect row r, RowMgr.suspect_markSuspect h r⟩⟩,
    fun m => RowMgr.closeHead_headless, fun c p => Ctl.fitsHead_headless p, fun c row n live dead next hst hu => ?_,
    fun c job => Ctl.placeRecord_opens, fun c job left => ?_⟩
  · have hr : c.rows.free < job.owner.reserve := by rw [ho]; exact hf
    exact ⟨tryOpen_noReserve left hr, Ctl.openHead_noReserve hr⟩
  · have hhead : c.rows.headRow = some row := RowMgr.headRow_of_unique (by rw [hst]; rfl) hu
    refine ⟨?_, fun p => ?_, fun job hp hf => ?_⟩
    · rw [RowMgr.closeHead_eq hhead, hst]
      rfl
    · rw [Ctl.fitsHead_iff hhead, hst]
      rfl
    · rw [Ctl.placeRecord_fits hhead hp hf, hst]
      rfl
  · intro reserve asks header
    have hres : reserve = job.owner.reserve := by
      simp only [reserve]
      cases job.owner <;> rfl
    rw [hres]
    refine ⟨fun h => ⟨Ctl.openHead_noReserve h, tryOpen_noReserve left h⟩, Ctl.openHead_reserve, tryOpen_noAttempt left, rfl,
      fun row hr hm hc => ?_, fun row hact => ?_, fun row openNo hact => ?_,
      fun act => ⟨fun req => Ctl.openFailed_port, c.openFailed_agent⟩⟩
    · rw [tryOpen_attempt left hr hm hc]
      refine ⟨fun hst => if_pos hst, fun hst hn => ?_, fun k hst hn hk hlt => ?_⟩
      · rw [hst]
        exact Ctl.programHeader_limit (c := { c with rows := { c.rows with openPtr := row } }) hn
      · rw [hst]
        exact Ctl.programHeader_asks (c := { c with rows := { c.rows with openPtr := row } }) hn hk hlt
    · simp only [Ctl.eraseEnded_open hact]
      refine ⟨fun hn => Ctl.programHeader_limit (c := { c with rows := c.rows.setState row .freeReady }) hn,
        fun k hn hk hlt => Ctl.programHeader_asks (c := { c with rows := c.rows.setState row .freeReady }) hn hk hlt,
        fun hfull => Ctl.retireRow_open_full (c := { c with rows := c.rows.setState row .retired }) hfull,
        fun hroom hg => ?_, fun hroom hg => ?_⟩
      · exact (Ctl.retireRow_room (c := { c with rows := c.rows.setState row .retired }) hroom _).trans
          (Ctl.writeImage_open_limit hg)
      · exact (Ctl.retireRow_room (c := { c with rows := c.rows.setState row .retired }) hroom _).trans
          (Ctl.writeImage_begins hg)
    · simp only [Ctl.programEnded_open hact]
      refine ⟨fun o ho => if_neg ho, fun k hd hr hk hlt => ?_⟩
      exact Ctl.headOpened_eq hd hr hk hlt job openNo

end Sys2Proof.Machine
end

section
/-! SUPPORT. The judgements of an array command: COMMIT's checks at its arrival (R92), the re-checks of Table 25 at the start of
a port operation (R109), and what starts once they pass (R108, R111 to R116). -/

namespace Sys2Proof.Machine

/-! ### Judgements in order (R90) -/

@[simp] theorem firstRefusal_nil : firstRefusal [] = none := rfl
@[simp] theorem firstRefusal_cons_none (l : List (Option Status)) : firstRefusal (none :: l) = firstRefusal l := rfl
@[simp] theorem firstRefusal_cons_some (st : Status) (l : List (Option Status)) : firstRefusal (some st :: l) = some st := rfl
@[simp] theorem refuseIf_true (st : Status) : refuseIf true st = some st := rfl
@[simp] theorem refuseIf_false (st : Status) : refuseIf false st = none := rfl

section Judgements

variable {c : Ctl} {p : Port} {k : Half}

theorem Ctl.modeRefusal_readOnly (h : c.sched.mode = .readOnly) : c.modeRefusal = some .readOnly := by
  rw [Ctl.modeRefusal, decide_eq_true h, refuseIf_true]

theorem Ctl.modeRefusal_other (h : c.sched.mode ≠ .readOnly) : c.modeRefusal = none := by
  rw [Ctl.modeRefusal, decide_eq_false h, refuseIf_false]

theorem Ctl.adminRefusal_denied (h : c.isAdmin p = false) : c.adminRefusal p = some .denied := by
  rw [Ctl.adminRefusal, h]
  rfl

theorem Ctl.adminRefusal_admin (h : c.isAdmin p = true) : c.adminRefusal p = none := by
  rw [Ctl.adminRefusal, h]
  rfl

theorem Ctl.entryRefusal_noKey (h : c.lookup k = none) : c.entryRefusal k = some .noKey := by
  rw [Ctl.entryRefusal, h]
  rfl

theorem Ctl.entryRefusal_entry {e : DirEntry} (h : c.lookup k = some e) : c.entryRefusal k = none := by
  rw [Ctl.entryRefusal, h]
  rfl

theorem Ctl.roomRefusal_dirFull (h : c.lookup k = none) (hl : 512 ≤ c.dir.length) : c.roomRefusal k = some .dirFull := by
  rw [Ctl.roomRefusal, h, show decide (Config.directoryLimit ≤ c.dir.length) = true from decide_eq_true hl]
  rfl

theorem Ctl.roomRefusal_room (h : c.lookup k = none → c.dir.length < 512) : c.roomRefusal k = none := by
  rw [Ctl.roomRefusal]
  cases hk : c.lookup k with
  | none => rw [show decide (Config.directoryLimit ≤ c.dir.length) = false from decide_eq_false (Nat.not_le.2 (h hk))]; rfl
  | some e => rfl

theorem Ctl.boundsRefusal_beyond {e : DirEntry} (h : c.lookup k = some e) {offset count : Nat} (hb : e.length < offset + count) :
    c.boundsRefusal k offset count = some .badArg := by
  simp only [Ctl.boundsRefusal, h]
  rw [decide_eq_true hb, refuseIf_true]

theorem Ctl.boundsRefusal_within {e : DirEntry} (h : c.lookup k = some e) {offset count : Nat} (hb : offset + count ≤ e.length) :
    c.boundsRefusal k offset count = none := by
  simp only [Ctl.boundsRefusal, h]
  rw [decide_eq_false (Nat.not_lt.2 hb), refuseIf_false]

theorem Ctl.isFrozen_entry {e : DirEntry} (h : c.lookup k = some e) : c.isFrozen k = decide (e.kind = .frozen) := by
  rw [Ctl.isFrozen, h]

theorem Ctl.submitted_eq {s : Composition} (h : (c.port p).staging = .submitted s) : c.submitted p = some s := by
  rw [Ctl.submitted, h]

end Judgements

/-! ### COMMIT's arrival (R92) -/

/-- Taking the command changes nothing that COMMIT's checks look at. -/
theorem Ctl.commitRefusal_taken (c : Ctl) (p : Port) : (c.onPort p PortUnit.taken).commitRefusal p = c.commitRefusal p := by
  rw [Ctl.commitRefusal, Ctl.taken_staging]
  rfl

section Commit

variable {p : Port} {tag : Byte} {args : List Byte} {s : State}

theorem exec_commit_badArg (h : s.serves p 0x13 tag args) (ha : args.length ≠ 1 ∨ byteAt args 0 &&& 0xFE ≠ 0) :
    exec (.commit p tag args) s = .next (s.settled (s.ctl.answered p ⟨.badArg, tag, 0x13, []⟩)) := by
  refine (State.arrive_serves .commit _ h).trans ?_
  simp only [commitArg_none ha, Ctl.answer_taken]
  rfl

section Form

variable (h : s.serves p 0x13 tag args) (hl : args.length = 1) (hf : byteAt args 0 &&& 0xFE = 0)

include h hl hf

theorem exec_commit_refused {st : Status} (hr : s.ctl.commitRefusal p = some st) :
    exec (.commit p tag args) s = .next (s.settled (s.ctl.answered p ⟨st, tag, 0x13, []⟩)) := by
  refine (State.arrive_serves .commit _ h).trans ?_
  simp only [commitArg_some hl hf, Ctl.commitRefusal_taken, hr, Ctl.answer_taken]
  rfl

/-- A COMMIT that passes has the buffer SUBMITTED and joins its list. -/
theorem exec_commit_joins {k : Composition} (hs : (s.ctl.port p).staging = .composing k) (hr : s.ctl.commitRefusal p = none) :
    exec (.commit p tag args) s = .next (s.settled (Ctl.schedule
      ((s.ctl.onPort p fun u => { u.taken with staging := .submitted k }).setRequests p
        (s.ctl.requests p ++ [⟨p, tag, .commit ((byteAt args 0).getLsbD 0), false⟩])))) := by
  refine (State.arrive_serves .commit _ h).trans ?_
  simp only [commitArg_some hl hf, Ctl.commitRefusal_taken, hr, Ctl.taken_staging, hs, Ctl.setStaging, Ctl.onPort_onPort]
  rfl

end Form

end Commit

section CommitChecks

variable {c : Ctl} {p : Port}

theorem Ctl.commitRefusal_readOnly (h : c.sched.mode = .readOnly) : c.commitRefusal p = some .readOnly := by
  rw [Ctl.commitRefusal]
  split <;> rw [Ctl.modeRefusal_readOnly h, firstRefusal_cons_some]

section Serving

variable (hm : c.sched.mode ≠ .readOnly)

include hm

theorem Ctl.commitRefusal_empty (h : (c.port p).staging = .empty) : c.commitRefusal p = some .noStage := by
  rw [Ctl.commitRefusal, h]
  simp only [Ctl.modeRefusal_other hm, firstRefusal_cons_none, firstRefusal_cons_some]

theorem Ctl.commitRefusal_submitted {k : Composition} (h : (c.port p).staging = .submitted k) :
    c.commitRefusal p = some .busy := by
  rw [Ctl.commitRefusal, h]
  simp only [Ctl.modeRefusal_other hm, firstRefusal_cons_none, firstRefusal_cons_some]

/-- A composition is judged by its fill level, the rights to its key and the hold on it, in this order. -/
theorem Ctl.commitRefusal_composing {k : Composition} (h : (c.port p).staging = .composing k) :
    c.commitRefusal p = firstRefusal [refuseIf (decide (k.data.length < k.declared)) .short, c.writeRefusal p k.key,
      refuseIf (c.heldAgainst p k.key) .held] := by
  rw [Ctl.commitRefusal, h]
  simp only [Ctl.modeRefusal_other hm, firstRefusal_cons_none]
  cases hc : c.commitChecks p k with
  | none => exact hc.symm
  | some st => exact hc.symm

end Serving

end CommitChecks

/-! ### The start of a port operation (R108, R109) -/

section Execute

variable {c : Ctl} {req : Request} {full : Bool}

/-- The first re-check that fails completes the operation. -/
theorem Ctl.execute_refused {st : Status} (h : c.recheck req = some st) : c.execute req full = c.refuse req st := by
  rw [Ctl.execute, h]

theorem Ctl.execute_commit {release : Bool} (hb : req.body = .commit release) (h : c.recheck req = none) :
    c.execute req full = c.beginCommit req full := by
  rw [Ctl.execute, h, hb]

theorem Ctl.execute_delete {k : Half} (hb : req.body = .delete k) (h : c.recheck req = none) :
    c.execute req full = c.beginDelete req k full := by
  rw [Ctl.execute, h, hb]

theorem Ctl.execute_read {k : Half} {offset count : Nat} (hb : req.body = .read k offset count) (h : c.recheck req = none) :
    c.execute req full = c.beginRead k false := by
  rw [Ctl.execute, h, hb]

theorem Ctl.execute_freeze {k : Half} (hb : req.body = .freeze k) (h : c.recheck req = none) :
    c.execute req full = c.beginRead k full := by
  rw [Ctl.execute, h, hb]

theorem Ctl.execute_compact (hb : req.body = .compact) (h : c.recheck req = none) : c.execute req full = c.handOn req := by
  rw [Ctl.execute, h, hb]

theorem Ctl.execute_setconf {a : ConfArgs} (hb : req.body = .setconf a) (h : c.recheck req = none) :
    c.execute req full = c.beginSetconf req a := by
  rw [Ctl.execute, h, hb]

theorem Ctl.execute_reload (hb : req.body = .reload) (h : c.recheck req = none) : c.execute req full = c.beginReload req := by
  rw [Ctl.execute, h, hb]

end Execute

/-! ### The re-checks of each command (Table 25) -/

section Recheck

variable {c : Ctl} {req : Request}

theorem Ctl.recheck_commit {release : Bool} {k : Composition} (hb : req.body = .commit release)
    (hs : (c.port req.port).staging = .submitted k) :
    c.recheck req = firstRefusal
      [c.modeRefusal, c.writeRefusal req.port k.key, refuseIf (c.heldAgainst req.port k.key) .held, c.roomRefusal k.key] := by
  simp only [Ctl.recheck, hb, Ctl.submitted_eq hs]

theorem Ctl.recheck_delete {k : Half} (hb : req.body = .delete k) :
    c.recheck req = firstRefusal
      [c.modeRefusal, c.entryRefusal k, c.writeRefusal req.port k, refuseIf (c.heldAgainst req.port k) .held] := by
  simp only [Ctl.recheck, hb]

theorem Ctl.recheck_read {k : Half} {offset count : Nat} (hb : req.body = .read k offset count) :
    c.recheck req = firstRefusal [c.readRefusal req.port k, c.boundsRefusal k offset count] := by
  simp only [Ctl.recheck, hb]

theorem Ctl.recheck_freeze {k : Half} (hb : req.body = .freeze k) :
    c.recheck req = firstRefusal
      [c.modeRefusal, c.adminRefusal req.port, c.entryRefusal k, refuseIf (c.isFrozen k) .frozen] := by
  simp only [Ctl.recheck, hb]

theorem Ctl.recheck_settings (hb : req.body = .compact ∨ ∃ a, req.body = .setconf a) :
    c.recheck req = firstRefusal [c.modeRefusal, c.adminRefusal req.port] := by
  rcases hb with hb | ⟨a, hb⟩ <;> simp only [Ctl.recheck, hb]

theorem Ctl.recheck_reload (hb : req.body = .reload) : c.recheck req = c.adminRefusal req.port := by
  simp only [Ctl.recheck, hb]

end Recheck

/-! ### What starts once the re-checks pass -/

section Starts

variable {c : Ctl} {req : Request} {full : Bool}

/-- A port write takes its sequence number, which sets the limit mark at the limit, and its record is placed (R39, R111, R112). -/
def Ctl.writeRecord (c : Ctl) (h : RecHeader) (payload : List Byte) : Ctl :=
  Ctl.placeRecord { c with
    rows := { c.rows with seqCounter := c.rows.seqCounter + 1 }
    sched := { c.sched with limitMark := c.sched.limitMark || decide (c.rows.seqCounter + 1 = 0xFFFFFF00) } }
    ⟨h, recordImages h payload, .port false⟩

theorem Ctl.startWrite_eq (c : Ctl) (h : RecHeader) (payload : List Byte) :
    c.startWrite h payload = c.writeRecord { h with sequence := c.rows.seqCounter } payload := rfl

theorem Ctl.beginCommit_full {k : Composition} (hs : (c.port req.port).staging = .submitted k) :
    c.beginCommit req true = c.refuse req .full := by
  simp only [Ctl.beginCommit, Ctl.submitted_eq hs, if_true]

theorem Ctl.beginCommit_writes {k : Composition} (hs : (c.port req.port).staging = .submitted k) :
    c.beginCommit req false = c.writeRecord
      ⟨k.key, k.declared, c.rows.seqCounter, .value, (c.resolveMasks req.port k).1 ++ (c.resolveMasks req.port k).2, req.port,
        pagesFor k.declared⟩ (k.data.take k.declared) := by
  simp only [Ctl.beginCommit, Ctl.submitted_eq hs, Bool.false_eq_true, if_false, Ctl.startWrite_eq]
  rfl

theorem Ctl.beginDelete_full {k : Half} {e : DirEntry} (hk : c.lookup k = some e) :
    c.beginDelete req k true = c.refuse req .full := by
  simp only [Ctl.beginDelete, hk, if_true]

theorem Ctl.beginDelete_writes {k : Half} {e : DirEntry} (hk : c.lookup k = some e) :
    c.beginDelete req k false
      = c.writeRecord ⟨e.key, 0, c.rows.seqCounter, .tombstone, e.readMask ++ e.writeMask, req.port, 1⟩ [] := by
  simp only [Ctl.beginDelete, hk, Bool.false_eq_true, if_false, Ctl.startWrite_eq]
  rfl

/-- The first page of the current record is read (R115, R116). -/
theorem Ctl.beginRead_asks {k : Half} {e : DirEntry} (hk : c.lookup k = some e) :
    c.beginRead k full = c.askRead e.row e.page (.readRecord e [] full) := by
  rw [Ctl.beginRead, hk]

/-- With its last page a record has been read whole. -/
theorem Ctl.readEnded_whole {e : DirEntry} {got : List Page} (hs : c.sched.current = .port req (.readRecord e got full))
    (hp : e.pages ≤ got.length + 1) (data : Page) : c.readEnded data = c.recordRead req e (got ++ [data]) full := by
  have hlen : ¬ (got ++ [data]).length < e.pages := by simpa using hp
  simp only [Ctl.readEnded, hs, if_neg hlen]

section FreezeRead

variable {k : Half} {e : DirEntry} {pages : List Page} (hb : req.body = .freeze k)

theorem Ctl.recordRead_damaged (h : checkRecord e pages = none) : c.recordRead req e pages full = c.refuse req .dataErr := by
  rw [Ctl.recordRead, h]

include hb

theorem Ctl.recordRead_freeze_full {h : RecHeader} (hc : checkRecord e pages = some h) :
    c.recordRead req e pages true = c.refuse req .full := by
  simp only [Ctl.recordRead, hc, hb, if_true]

theorem Ctl.recordRead_freeze_writes {h : RecHeader} (hc : checkRecord e pages = some h) :
    c.recordRead req e pages false = c.writeRecord
      ⟨h.key, h.length, c.rows.seqCounter, .frozen, h.access, req.port, h.pages⟩ (recordPayload h pages) := by
  simp only [Ctl.recordRead, hc, hb, Bool.false_eq_true, if_false, Ctl.startWrite_eq]

end FreezeRead

end Starts

/-! ### Each port operation's start -/

section Operations

variable (c : Ctl) (req : Request) (full : Bool)

theorem Ctl.execute_commit_cases {release : Bool} {k : Composition} (hb : req.body = .commit release)
    (hs : (c.port req.port).staging = .submitted k) :
    (c.sched.mode = .readOnly → c.execute req full = c.refuse req .readOnly)
    ∧ (¬ c.sched.mode = .readOnly → ∀ st, c.writeRefusal req.port k.key = some st → c.execute req full = c.refuse req st)
    ∧ (¬ c.sched.mode = .readOnly → c.writeRefusal req.port k.key = none →
      (c.heldAgainst req.port k.key = true → c.execute req full = c.refuse req .held)
      ∧ (c.heldAgainst req.port k.key = false → c.lookup k.key = none → 512 ≤ c.dir.length →
        c.execute req full = c.refuse req .dirFull)
      ∧ (c.heldAgainst req.port k.key = false → (c.lookup k.key = none → c.dir.length < 512) →
        c.execute req full = c.beginCommit req full)) := by
  have hre := Ctl.recheck_commit (c := c) hb hs
  refine ⟨fun hm => Ctl.execute_refused ?_, fun hm st hw => Ctl.execute_refused ?_,
    fun hm hw => ⟨fun hh => Ctl.execute_refused ?_, fun hh hk hl => Ctl.execute_refused ?_,
      fun hh hk => Ctl.execute_commit hb ?_⟩⟩
  · rw [hre, Ctl.modeRefusal_readOnly hm, firstRefusal_cons_some]
  · rw [hre, Ctl.modeRefusal_other hm, hw, firstRefusal_cons_none, firstRefusal_cons_some]
  · simp only [hre, Ctl.modeRefusal_other hm, hw, hh, firstRefusal_cons_none, refuseIf_true, firstRefusal_cons_some]
  · simp only [hre, Ctl.modeRefusal_other hm, hw, hh, Ctl.roomRefusal_dirFull hk hl, firstRefusal_cons_none, refuseIf_false,
      firstRefusal_cons_some]
  · simp only [hre, Ctl.modeRefusal_other hm, hw, hh, Ctl.roomRefusal_room hk, firstRefusal_cons_none, refuseIf_false,
      firstRefusal_nil]

theorem Ctl.execute_delete_cases {k : Half} (hb : req.body = .delete k) :
    (c.sched.mode = .readOnly → c.execute req full = c.refuse req .readOnly)
    ∧ (¬ c.sched.mode = .readOnly → c.lookup k = none → c.execute req full = c.refuse req .noKey)
    ∧ ∀ e, ¬ c.sched.mode = .readOnly → c.lookup k = some e →
      (∀ st, c.writeRefusal req.port k = some st → c.execute req full = c.refuse req st)
      ∧ (c.writeRefusal req.port k = none → c.heldAgainst req.port k = true → c.execute req full = c.refuse req .held)
      ∧ (c.writeRefusal req.port k = none → c.heldAgainst req.port k = false →
        c.execute req full = c.beginDelete req k full) := by
  have hre := Ctl.recheck_delete (c := c) hb
  refine ⟨fun hm => Ctl.execute_refused ?_, fun hm hk => Ctl.execute_refused ?_, fun e hm hk =>
    ⟨fun st hw => Ctl.execute_refused ?_, fun hw hh => Ctl.execute_refused ?_, fun hw hh => Ctl.execute_delete hb ?_⟩⟩
  · rw [hre, Ctl.modeRefusal_readOnly hm, firstRefusal_cons_some]
  · rw [hre, Ctl.modeRefusal_other hm, Ctl.entryRefusal_noKey hk, firstRefusal_cons_none, firstRefusal_cons_some]
  · simp only [hre, Ctl.modeRefusal_other hm, Ctl.entryRefusal_entry hk, hw, firstRefusal_cons_none, firstRefusal_cons_some]
  · simp only [hre, Ctl.modeRefusal_other hm, Ctl.entryRefusal_entry hk, hw, hh, firstRefusal_cons_none, refuseIf_true,
      firstRefusal_cons_some]
  · simp only [hre, Ctl.modeRefusal_other hm, Ctl.entryRefusal_entry hk, hw, hh, firstRefusal_cons_none, refuseIf_false,
      firstRefusal_nil]

theorem Ctl.execute_read_cases {k : Half} {offset count : Nat} (hb : req.body = .read k offset count) :
    (∀ st, c.readRefusal req.port k = some st → c.execute req full = c.refuse req st)
    ∧ ∀ e, c.lookup k = some e → c.readRefusal req.port k = none →
      (e.length < offset + count → c.execute req full = c.refuse req .badArg)
      ∧ (offset + count ≤ e.length → c.execute req full = c.askRead e.row e.page (.readRecord e [] false)) := by
  have hre := Ctl.recheck_read (c := c) hb
  refine ⟨fun st hr => Ctl.execute_refused ?_, fun e hk hr => ⟨fun hlt => Ctl.execute_refused ?_, fun hle => ?_⟩⟩
  · rw [hre, hr, firstRefusal_cons_some]
  · rw [hre, hr, Ctl.boundsRefusal_beyond hk hlt, firstRefusal_cons_none, firstRefusal_cons_some]
  · rw [Ctl.execute_read hb, Ctl.beginRead_asks hk]
    rw [hre, hr, Ctl.boundsRefusal_within hk hle, firstRefusal_cons_none, firstRefusal_cons_none, firstRefusal_nil]

theorem Ctl.execute_freeze_cases {k : Half} (hb : req.body = .freeze k) :
    (c.sched.mode = .readOnly → c.execute req full = c.refuse req .readOnly)
    ∧ (¬ c.sched.mode = .readOnly → c.isAdmin req.port = false → c.execute req full = c.refuse req .denied)
    ∧ (¬ c.sched.mode = .readOnly → c.isAdmin req.port = true → c.lookup k = none → c.execute req full = c.refuse req .noKey)
    ∧ ∀ e, ¬ c.sched.mode = .readOnly → c.isAdmin req.port = true → c.lookup k = some e →
      (e.kind = .frozen → c.execute req full = c.refuse req .frozen)
      ∧ (e.kind = .value → c.execute req full = c.askRead e.row e.page (.readRecord e [] full)) := by
  have hre := Ctl.recheck_freeze (c := c) hb
  refine ⟨fun hm => Ctl.execute_refused ?_, fun hm ha => Ctl.execute_refused ?_, fun hm ha hk => Ctl.execute_refused ?_,
    fun e hm ha hk => ⟨fun hf => Ctl.execute_refused ?_, fun hv => ?_⟩⟩
  · rw [hre, Ctl.modeRefusal_readOnly hm, firstRefusal_cons_some]
  · rw [hre, Ctl.modeRefusal_other hm, Ctl.adminRefusal_denied ha, firstRefusal_cons_none, firstRefusal_cons_some]
  · simp only [hre, Ctl.modeRefusal_other hm, Ctl.adminRefusal_admin ha, Ctl.entryRefusal_noKey hk, firstRefusal_cons_none,
      firstRefusal_cons_some]
  · simp only [hre, Ctl.modeRefusal_other hm, Ctl.adminRefusal_admin ha, Ctl.entryRefusal_entry hk, Ctl.isFrozen_entry hk,
      decide_eq_true hf, firstRefusal_cons_none, refuseIf_true, firstRefusal_cons_some]
  · have hn : ¬ e.kind = .frozen := by rw [hv]; exact fun h => nomatch h
    rw [Ctl.execute_freeze hb, Ctl.beginRead_asks hk]
    simp only [hre, Ctl.modeRefusal_other hm, Ctl.adminRefusal_admin ha, Ctl.entryRefusal_entry hk, Ctl.isFrozen_entry hk,
      decide_eq_false hn, firstRefusal_cons_none, refuseIf_false, firstRefusal_nil]

theorem Ctl.execute_settings_cases (hb : req.body = .compact ∨ ∃ a, req.body = .setconf a) :
    (c.sched.mode = .readOnly → c.execute req full = c.refuse req .readOnly)
    ∧ (¬ c.sched.mode = .readOnly → c.isAdmin req.port = false → c.execute req full = c.refuse req .denied) := by
  have hre := Ctl.recheck_settings (c := c) hb
  refine ⟨fun hm => Ctl.execute_refused ?_, fun hm ha => Ctl.execute_refused ?_⟩
  · rw [hre, Ctl.modeRefusal_readOnly hm, firstRefusal_cons_some]
  · rw [hre, Ctl.modeRefusal_other hm, Ctl.adminRefusal_denied ha, firstRefusal_cons_none, firstRefusal_cons_some]

variable {c req}

/-- COMPACT and SETCONF start for the admin port outside READ_ONLY. -/
theorem Ctl.recheck_settings_pass (hb : req.body = .compact ∨ ∃ a, req.body = .setconf a) (hm : c.sched.mode ≠ .readOnly)
    (ha : c.isAdmin req.port = true) : c.recheck req = none := by
  rw [Ctl.recheck_settings hb, Ctl.modeRefusal_other hm, Ctl.adminRefusal_admin ha, firstRefusal_cons_none,
    firstRefusal_cons_none, firstRefusal_nil]

end Operations

/-- Settles O41: COMMIT by its form, its checks in order and its arrival; each command's start by its re-checks in order. -/
theorem commitChecksThenJoins : Obligations.CommitChecksThenJoins := by
  refine ⟨fun p tag args s h => ⟨exec_commit_badArg h, fun hl hf => ?_⟩, fun c req full => ?_⟩
  · have refused := fun {st : Status} => exec_commit_refused h hl hf (st := st)
    refine ⟨fun hm => refused (Ctl.commitRefusal_readOnly hm), fun hr => ?_⟩
    have hm : s.ctl.sched.mode ≠ .readOnly := by rw [hr]; exact fun h => nomatch h
    refine ⟨fun hs => refused (Ctl.commitRefusal_empty hm hs), fun k hs => refused (Ctl.commitRefusal_submitted hm hs),
      fun k hs => ?_⟩
    have hre := Ctl.commitRefusal_composing hm hs
    refine ⟨fun hlt => refused ?_, fun hle => ?_⟩
    · rw [hre, decide_eq_true hlt, refuseIf_true, firstRefusal_cons_some]
    · rw [decide_eq_false (Nat.not_lt.2 hle), refuseIf_false, firstRefusal_cons_none] at hre
      refine ⟨fun st hw => refused ?_, fun hw hh => refused ?_, fun hw hh => exec_commit_joins h hl hf hs ?_⟩
      · rw [hre, hw, firstRefusal_cons_some]
      · rw [hre, hw, hh, firstRefusal_cons_none, refuseIf_true, firstRefusal_cons_some]
      · rw [hre, hw, hh, firstRefusal_cons_none, refuseIf_false, firstRefusal_cons_none, firstRefusal_nil]
  · refine ⟨fun release k hb hs => ?_, fun k hb => ?_, fun k offset count => c.execute_read_cases req full,
      fun k => c.execute_freeze_cases req full, c.execute_settings_cases req full, fun a hb hm ha hl => ?_, fun hb ha => ?_,
      fun k e got data hb hs hp => ?_⟩
    · obtain ⟨hro, hw, hgo⟩ := c.execute_commit_cases req full hb hs
      refine ⟨hro, hw, fun hm hnone => ?_⟩
      obtain ⟨hheld, hdir, hstart⟩ := hgo hm hnone
      refine ⟨hheld, hdir, fun hh hk => ⟨fun hfull => ?_, fun hfull => ?_⟩⟩
      · rw [hstart hh hk, hfull, Ctl.beginCommit_full hs]
      · rw [hstart hh hk, hfull, Ctl.beginCommit_writes hs]
        rfl
    · obtain ⟨hro, hno, hgo⟩ := c.execute_delete_cases req full hb
      refine ⟨hro, hno, fun e hm hk => ?_⟩
      obtain ⟨hw, hheld, hstart⟩ := hgo e hm hk
      refine ⟨hw, hheld, fun hnone hh => ⟨fun hfull => ?_, fun hfull => ?_⟩⟩
      · rw [hstart hnone hh, hfull, Ctl.beginDelete_full hk]
      · rw [hstart hnone hh, hfull, Ctl.beginDelete_writes hk]
        rfl
    · rw [Ctl.execute_setconf hb (Ctl.recheck_settings_pass (.inr ⟨a, hb⟩) hm ha)]
      exact if_pos hl
    · exact Ctl.execute_refused (by rw [Ctl.recheck_reload hb, Ctl.adminRefusal_denied ha])
    · simp only [Ctl.readEnded_whole hs hp]
      refine ⟨Ctl.recordRead_damaged, fun h hc => ⟨fun hfull => ?_, fun hfull => ?_⟩⟩
      · rw [hfull, Ctl.recordRead_freeze_full hb hc]
      · rw [hfull, Ctl.recordRead_freeze_writes hb hc]
        rfl

end Sys2Proof.Machine
end

section
/-! SUPPORT. The completion of a port operation, step by step (R117, R118), and the outcomes of a record write's pages (R23, R32,
R113, R128, R130). -/

namespace Sys2Proof.Machine

/-! ### The last steps of a completion: response, limit mark, turn -/

/-- What ends every completion (R117, steps 5 to 7): the response or, discarded, its credit; READ_ONLY when the limit mark was
set; the turn. -/
def Ctl.finished (d : Ctl) (mark : Bool) (req : Request) (st : Status) (result : List Byte) : Ctl :=
  let e := d.onPort req.port fun u =>
    if req.discard then { u with outstanding := u.outstanding - 1 }
    else { u with queue := u.queue ++ [⟨st, req.tag, req.body.cmd.code, result⟩] }
  let f := if mark then e.enterReadOnly .sequence else e
  { f with sched := { f.sched with limitMark := false, turn := .compaction, current := .none } }

theorem Ctl.respond_eq (d : Ctl) (req : Request) (st : Status) (result : List Byte) :
    d.respond req st result = d.onPort req.port fun u =>
      if req.discard then { u with outstanding := u.outstanding - 1 }
      else { u with queue := u.queue ++ [⟨st, req.tag, req.body.cmd.code, result⟩] } := by
  unfold Ctl.respond
  cases req.discard <;> rfl

theorem Ctl.endMark_set {e : Ctl} (h : e.sched.limitMark = true) :
    e.endMark = { e.enterReadOnly .sequence with sched := { (e.enterReadOnly .sequence).sched with limitMark := false } } :=
  if_pos h

theorem Ctl.endMark_clear {e : Ctl} (h : e.sched.limitMark = false) : e.endMark = e := if_neg (by simp [h])

/-- A limit mark that is clear stays so. -/
theorem Ctl.clear_limitMark {e : Ctl} (h : e.sched.limitMark = false) :
    ({ e with sched := { e.sched with limitMark := false } } : Ctl) = e := by
  rw [← h]

theorem Ctl.finished_eq {d : Ctl} {mark : Bool} (h : d.sched.limitMark = mark) (req : Request) (st : Status)
    (result : List Byte) : ((d.respond req st result).endMark).endTurn = d.finished mark req st result := by
  have hm : (d.respond req st result).sched.limitMark = mark := by rw [Ctl.respond_sched, h]
  rw [Ctl.finished, ← Ctl.respond_eq]
  cases mark with
  | true => rw [Ctl.endMark_set hm]; rfl
  | false =>
    rw [Ctl.endMark_clear hm]
    exact congrArg Ctl.endTurn (Ctl.clear_limitMark hm).symm

/-! ### The steps before: Directory, notices, claims, staging buffer -/

theorem Ctl.placeEntry_eq (c : Ctl) (e : DirEntry) :
    c.placeEntry e = { c with rows := (c.placeEntry e).rows, dir := (c.placeEntry e).dir } := by
  simp only [Ctl.placeEntry]
  rw [Ctl.oldPagesDie_eq]

theorem Ctl.relocate_eq (c : Ctl) (k : Half) (row page : Nat) :
    c.relocate k row page = { c with rows := (c.relocate k row page).rows, dir := (c.relocate k row page).dir } := by
  unfold Ctl.relocate
  split <;> rfl

/-- The notice of a port write goes to the other ports that watch its key (R117, step 2; R157). -/
theorem Ctl.deliver_writeNotice (d : Ctl) (kind : NoticeKind) (req : Request) (h : RecHeader) :
    d.deliver (writeNotice kind req h) = { d with
      notifs := d.notifs.map fun q u =>
        if h.key ∈ u.watch ∧ q ≠ req.port then u.place ⟨h.key, kind, some req.port, h.sequence, false⟩ else u } := by
  unfold Ctl.deliver writeNotice
  congr 2
  funext q u
  refine if_congr ?_ rfl rfl
  rw [Bool.and_eq_true, List.contains_iff_mem, decide_eq_true_eq]
  exact and_congr_right fun _ => ⟨fun hn he => hn (he ▸ rfl), fun hn he => hn (Option.some.inj he).symm⟩

/-- RELEASE_ON_DONE ends the port's hold on the composition's key (R148). -/
theorem Ctl.releaseOnDone_eq {d : Ctl} {p : Port} {release : Bool} {k : Composition}
    (h : release = true → (d.port p).staging = .submitted k) :
    d.releaseOnDone p release = if release then d.releaseHold p k.key else d := by
  cases release with
  | false => rfl
  | true => simp only [Ctl.releaseOnDone, Ctl.submitted_eq (h rfl), if_true]

theorem writeCreated_eq (o : Option DirEntry) : boolByte o.isNone = if o = none then 1 else 0 := by cases o <;> rfl

section Completions

variable {c : Ctl} {req : Request} (hd : RecHeader) (row first : Nat)

theorem Ctl.completeWrite_commit {release : Bool} {k : Composition} (hb : req.body = .commit release)
    (hs : release = true → (c.port req.port).staging = .submitted k) :
    c.completeWrite req hd row first
      = (Ctl.emptyStaging (let d := (c.placeEntry (entryOf hd .value row first)).deliver (writeNotice .changed req hd)
          if release then d.releaseHold req.port k.key else d) req.port).finished c.sched.limitMark req .ok
        (wordBytes hd.sequence ++ [if c.lookup hd.key = none then 1 else 0, natByte hd.pages]) := by
  have hport : (((c.placeEntry (entryOf hd .value row first)).deliver (writeNotice .changed req hd)).port req.port).staging
      = (c.port req.port).staging := by rw [Ctl.placeEntry_eq]; rfl
  have hrel := Ctl.releaseOnDone_eq
    (d := (c.placeEntry (entryOf hd .value row first)).deliver (writeNotice .changed req hd)) (hport ▸ hs)
  simp only [Ctl.completeWrite, Ctl.writeEffects, Ctl.endStaging, hb, writeResult, writeCreated_eq]
  rw [hrel]
  refine Ctl.finished_eq ?_ req .ok _
  show (ite _ _ _ : Ctl).sched.limitMark = _
  split
  · rw [Ctl.releaseHold_sched, Ctl.deliver_sched, Ctl.placeEntry_sched]
  · rw [Ctl.deliver_sched, Ctl.placeEntry_sched]

theorem Ctl.completeWrite_delete {key : Half} (hb : req.body = .delete key) :
    c.completeWrite req hd row first
      = ((c.removeEntry hd.key).deliver (writeNotice .deleted req hd)).finished c.sched.limitMark req .ok
        (wordBytes hd.sequence) := by
  simp only [Ctl.completeWrite, Ctl.writeEffects, Ctl.endStaging, hb, writeResult]
  exact Ctl.finished_eq (by rw [Ctl.deliver_sched, Ctl.removeEntry_eq]) req .ok _

theorem Ctl.completeWrite_freeze {key : Half} (hb : req.body = .freeze key) :
    c.completeWrite req hd row first
      = (((c.placeEntry (entryOf hd .frozen row first)).deliver (writeNotice .frozen req hd)).freezeClaim hd.key).finished
        c.sched.limitMark req .ok (wordBytes hd.sequence) := by
  simp only [Ctl.completeWrite, Ctl.writeEffects, Ctl.endStaging, hb, writeResult]
  exact Ctl.finished_eq (by rw [Ctl.freezeClaim_sched, Ctl.deliver_sched, Ctl.placeEntry_sched]) req .ok _

theorem Ctl.complete_commit {release : Bool} {k : Composition} (hb : req.body = .commit release)
    (hs : release = true → (c.port req.port).staging = .submitted k) (st : Status) (result : List Byte) :
    c.complete req st result
      = (Ctl.emptyStaging (if release then c.releaseHold req.port k.key else c) req.port).finished c.sched.limitMark req st
        result := by
  simp only [Ctl.complete, Ctl.endStaging, hb]
  rw [Ctl.releaseOnDone_eq hs]
  refine Ctl.finished_eq ?_ req st result
  show (ite _ _ _ : Ctl).sched.limitMark = _
  split
  · rw [Ctl.releaseHold_sched]
  · rfl

theorem Ctl.complete_other (hb : ∀ release, req.body ≠ .commit release) (st : Status) (result : List Byte) :
    c.complete req st result = c.finished c.sched.limitMark req st result := by
  unfold Ctl.complete Ctl.endStaging
  cases hreq : req.body with
  | commit release => exact absurd hreq (hb release)
  | _ => exact Ctl.finished_eq rfl req st result

theorem Ctl.refuse_eq (c : Ctl) (req : Request) (st : Status) :
    c.refuse req st = c.complete req st (if req.body = .compact then [0, 0, 0] else []) := by
  unfold Ctl.refuse refusedResult
  cases req.body <;> rfl

/-- A FREEZE without a claim on its key leaves the claim table. -/
theorem Ctl.freezeClaim_none {d : Ctl} {k : Half} (h : d.claimOf k = none) : d.freezeClaim k = d := by
  rw [Ctl.freezeClaim, h]

/-- A FREEZE removes its key's claim and answers the waiters FROZEN (R149). -/
theorem Ctl.freezeClaim_some {d : Ctl} {k : Half} {e : ClaimEntry} (h : d.claimOf k = some e) :
    d.freezeClaim k = Ctl.enterAll { d with claims := d.claims.filter fun x => x.key ≠ k }
      (e.waiters.map fun w => (w.port, ⟨.frozen, w.tag, 0x20, []⟩)) := by
  rw [Ctl.freezeClaim, h]
  rfl

end Completions

/-! ### A page of a record ends (R23, R32) -/

section Writing

variable {c : Ctl} {job : WriteJob} {row first idx : Nat}

section Activity

variable (ha : c.sched.current.activity = some (.writing job row first idx))

include ha

theorem Ctl.programEnded_page_pass : c.programEnded .pass = c.pageWritten job row first idx := by
  rw [Ctl.programEnded, ha]
  rfl

theorem Ctl.programEnded_page_fail {o : ProgramOutcome} (ho : o ≠ .pass) : c.programEnded o = c.recordFailed job row := by
  rw [Ctl.programEnded, ha]
  exact if_neg ho

theorem Ctl.programEnded_nextPage {n : Nat} (hi : idx + 1 < job.header.pages) (hc : c.media.count row = some n) (hn : n < 40) :
    c.programEnded .pass
      = c.askProgram row (first + (idx + 1)) (job.images.getD (idx + 1) []) (.writing job row first (idx + 1)) := by
  rw [Ctl.programEnded_page_pass ha, Ctl.pageWritten, if_neg (Nat.not_le.2 hi), Ctl.programPage_budget hc hn]

theorem Ctl.programEnded_written (hi : job.header.pages ≤ idx + 1) : c.programEnded .pass = c.recordWritten job row first := by
  rw [Ctl.programEnded_page_pass ha, Ctl.pageWritten, if_pos hi]

/-- A record write fails at a page that does not end PASS, and at a page for which the row has no budget (R7). -/
theorem Ctl.programEnded_fails {d : Ctl} (hd : c.recordFailed job row = d) :
    (∀ o, o ≠ .pass → c.programEnded o = d)
      ∧ (idx + 1 < job.header.pages → c.media.count row = some 40 → c.programEnded .pass = d) := by
  refine ⟨fun o ho => (Ctl.programEnded_page_fail ha ho).trans hd, fun hi hc => ?_⟩
  have hbudget : ¬ c.media.budget row = true := by
    rw [Media.budget, hc]
    exact Bool.false_ne_true
  rw [Ctl.programEnded_page_pass ha, Ctl.pageWritten, if_neg (Nat.not_le.2 hi), Ctl.programPage, if_neg hbudget, hd]

end Activity

variable {req : Request} {act : Activity} {retried : Bool} {pass cursor : Nat}

theorem Ctl.recordWritten_port (hs : c.sched.current = .port req act) (ho : job.owner = .port retried) :
    c.recordWritten job row first = c.completeWrite req job.header row first := by
  rw [Ctl.recordWritten, ho, hs]

/-- A copy WRITTEN moves its entry and the cursor (R128). -/
theorem Ctl.recordWritten_agent (ho : job.owner = .agent) (hs : c.agent.state = .scanning pass cursor) :
    c.recordWritten job row first = Ctl.advanceCursor
      { c.relocate job.header.key row first with agent := { c.agent with copied := c.agent.copied + job.header.pages } }
      pass cursor job.header.pages := by
  have hagent : (c.relocate job.header.key row first).agent = c.agent := by rw [Ctl.relocate_eq]
  rw [Ctl.recordWritten, ho]
  simp only [Ctl.copyWritten, hs, hagent]

/-- A failed record write leaves the row suspect and the head closed (R32). -/
def Ctl.headLost (c : Ctl) (row : Nat) : Ctl := { c with rows := (c.rows.markSuspect row).closeHead }

theorem Ctl.recordFailed_retries (ho : job.owner = .port false) :
    c.recordFailed job row = (c.headLost row).openHead { job with owner := .port true } := by
  rw [Ctl.recordFailed, ho]
  rfl

theorem Ctl.recordFailed_media (ho : job.owner = .port true) (hs : c.sched.current = .port req act) :
    c.recordFailed job row = (c.headLost row).refuse req .media := by
  simp only [Ctl.recordFailed, ho, hs]
  rfl

theorem Ctl.recordFailed_agent (ho : job.owner = .agent) : c.recordFailed job row = (c.headLost row).copyFailed := by
  simp only [Ctl.recordFailed, ho]
  rfl

theorem Ctl.copyFailed_halts (hs : c.agent.state = .scanning pass cursor) (hr : c.agent.retryMark = some cursor) :
    c.copyFailed = c.haltAgent := by
  simp only [Ctl.copyFailed, hs, if_pos hr]

theorem Ctl.copyFailed_marks (hs : c.agent.state = .scanning pass cursor) (hr : c.agent.retryMark ≠ some cursor) :
    c.copyFailed = { c with
      agent := { c.agent with retryMark := some cursor }
      sched := { c.sched with turn := .ports, current := .none } } := by
  simp only [Ctl.copyFailed, hs, if_neg hr]
  rw [← hs]
  rfl

end Writing

/-- Settles O46: the completions by their kind, the expiry of a hold, and the pages of a record write by their outcome and
owner. -/
theorem writeCompletionEffects : Obligations.WriteCompletionEffects := by
  refine ⟨fun c req => ?_, fun s k e he => ?_, fun c job row first idx ha => ?_⟩
  · intro ended emptied released
    have hrel : ∀ release k d, released release k d = if release then d.releaseHold req.port k else d := by
      intro release k d
      cases release with
      | false => rfl
      | true =>
        simp only [released, Ctl.releaseHold, if_true]
        cases d.claimOf k <;> rfl
    refine ⟨fun h row first => ?_, fun st result => ⟨fun release k hb hs => ?_, fun hb => Ctl.complete_other hb st result,
      c.refuse_eq req st⟩⟩
    · intro told
      have htold : ∀ kind d, told kind d = d.deliver (writeNotice kind req h) := fun kind d =>
        (d.deliver_writeNotice kind req h).symm
      refine ⟨fun release k hb hs => ?_, fun key hb => ?_, fun key hb => ?_⟩
      · rw [hrel, htold]
        exact Ctl.completeWrite_commit h row first hb hs
      · rw [htold]
        exact Ctl.completeWrite_delete h row first hb
      · intro d
        have hd : d = (c.placeEntry (entryOf h .frozen row first)).deliver (writeNotice .frozen req h) := htold _ _
        have hclaim : d.claimOf h.key = c.claimOf h.key := by rw [hd, Ctl.placeEntry_eq]; rfl
        rw [Ctl.completeWrite_freeze h row first hb, ← hd]
        refine ⟨fun hn => ?_, fun e he => ?_⟩
        · rw [Ctl.freezeClaim_none (hclaim.trans hn)]
          rfl
        · rw [Ctl.freezeClaim_some (hclaim.trans he)]
          rfl
    · rw [hrel]
      exact Ctl.complete_commit hb hs st result
  · show execHoldTimerExpiry k s = _
    simp only [execHoldTimerExpiry, he]
    rfl
  · refine ⟨fun n => Ctl.programEnded_nextPage ha, fun req act hs => ⟨fun retried ho hi => ?_, fun ho => ?_, fun ho => ?_⟩,
      fun pass cursor ho hs => ⟨fun hi => ?_, fun hr => ?_, fun hr => ?_⟩⟩
    · rw [Ctl.programEnded_written ha hi, Ctl.recordWritten_port hs ho]
    · exact Ctl.programEnded_fails ha (Ctl.recordFailed_retries ho)
    · exact Ctl.programEnded_fails ha (Ctl.recordFailed_media ho hs)
    · rw [Ctl.programEnded_written ha hi, Ctl.recordWritten_agent ho hs]
    · exact Ctl.programEnded_fails ha ((Ctl.recordFailed_agent ho).trans (Ctl.copyFailed_halts (c := c.headLost row) hs hr))
    · exact Ctl.programEnded_fails ha ((Ctl.recordFailed_agent ho).trans (Ctl.copyFailed_marks (c := c.headLost row) hs hr))

end Sys2Proof.Machine
end

section
/-! SUPPORT. Mount: the choice of the image (R178), each page read by its phase (R177 to R181), the order of the survey and of the
ring (R179, R180), and what the end of mount sets (R182 to R186). -/

namespace Sys2Proof.Machine

/-! ### Page reads of mount, by the phase -/

theorem exec_pageRead_mount {s : State} {row page : Nat} (hop : s.ctl.media.op = .reading row page)
    (hm : s.ctl.sched.mode = .mounting) :
    exec .pageRead s = .next (s.settled (s.ctl.mediaIdle.mountRead (s.cells.readPage row page))) := by
  show execPageRead s = _
  simp only [execPageRead, hop]
  rw [Ctl.handData, if_pos (show s.ctl.mediaIdle.sched.mode = .mounting from hm), State.after_eq]

section Phases

variable {c : Ctl} (data : Page)

theorem Ctl.mountRead_image0 (h : c.mount.phase = .image0) : c.mountRead data = c.mountAsk 1 0 (.image1 (parseImage data)) := by
  rw [Ctl.mountRead, h]

theorem Ctl.mountRead_image1 {first : Option ImageFields} (h : c.mount.phase = .image1 first) :
    c.mountRead data = (c.loadConf (chooseImage first (parseImage data))).surveyFrom 2 [] := by
  rw [Ctl.mountRead, h]

theorem Ctl.mountRead_survey {row : Nat} {found : List (Nat × Word)} (h : c.mount.phase = .survey row found) :
    c.mountRead data = c.surveyRead row found data := by
  rw [Ctl.mountRead, h]

theorem Ctl.mountRead_scan {st : ScanState} (h : c.mount.phase = .scan st) : c.mountRead data = c.scanMount st data := by
  rw [Ctl.mountRead, h]

variable {data}

/-- A valid row header makes the row a row of the ring (R179). -/
theorem Ctl.surveyRead_found {n : Word} (h : parseRowHeader data = some n) (row : Nat) (found : List (Nat × Word)) :
    c.surveyRead row found data = c.surveyFrom (row + 1) (found ++ [(row, n)]) := by
  rw [Ctl.surveyRead, h]

theorem Ctl.surveyRead_none (h : parseRowHeader data = none) (row : Nat) (found : List (Nat × Word)) :
    c.surveyRead row found data = c.surveyFrom (row + 1) found := by
  rw [Ctl.surveyRead, h]

end Phases

section Scan

variable {c : Ctl} {st : ScanState} {data : Page} {h : RecHeader}

theorem Ctl.scanNextRow_cons {r : Nat} {todo : List Nat} (ht : st.todo = r :: todo) :
    c.scanNextRow st = c.mountAsk r 1 (.scan { st with todo := todo, row := r, cursor := 1, got := [] }) := by
  rw [Ctl.scanNextRow, ht]

theorem Ctl.scanNextRow_nil (ht : st.todo = []) : c.scanNextRow st = c.finishMount st.ring st.candidates st.fragments := by
  rw [Ctl.scanNextRow, ht]

/-- A record noted leaves the walk where it is (R181). -/
theorem ScanState.note_walk (st : ScanState) (h : RecHeader) (pages : List Page) :
    (st.note h pages).row = st.row ∧ (st.note h pages).cursor = st.cursor := by
  unfold ScanState.note
  split <;> exact ⟨rfl, rfl⟩

/-- The walk of a row ends at a page without a valid header (R25). -/
theorem Ctl.scanMount_noHeader (hh : parseHeader ((st.got ++ [data]).headD []) st.cursor = none) :
    c.scanMount st data = c.scanNextRow st := by
  simp only [Ctl.scanMount, hh]

section Header

variable (hh : parseHeader ((st.got ++ [data]).headD []) st.cursor = some h)

include hh

/-- The remaining pages of a record are read one by one (R181). -/
theorem Ctl.scanMount_more (hp : (st.got ++ [data]).length < h.pages) :
    c.scanMount st data
      = c.mountAsk st.row (st.cursor + (st.got ++ [data]).length) (.scan { st with got := st.got ++ [data] }) := by
  simp only [Ctl.scanMount, hh, if_pos hp]

/-- A record read whole is noted, and the walk of its row ends past page 15. -/
theorem Ctl.scanMount_lastRecord (hp : h.pages ≤ (st.got ++ [data]).length) (hc : 16 ≤ st.cursor + h.pages) :
    c.scanMount st data = c.scanNextRow (st.note h (st.got ++ [data])) := by
  simp only [Ctl.scanMount, hh, if_neg (Nat.not_lt.2 hp), (st.note_walk h _).2, if_pos hc]

/-- A record read whole is noted, and the walk goes on behind it. -/
theorem Ctl.scanMount_nextRecord (hp : h.pages ≤ (st.got ++ [data]).length) (hc : st.cursor + h.pages < 16) :
    c.scanMount st data = c.mountAsk st.row (st.cursor + h.pages)
      (.scan { st.note h (st.got ++ [data]) with cursor := st.cursor + h.pages, got := [] }) := by
  simp only [Ctl.scanMount, hh, if_neg (Nat.not_lt.2 hp), (st.note_walk h _).1, (st.note_walk h _).2, if_neg (Nat.not_le.2 hc)]

end Header

end Scan

/-! ### The survey and the ring order (R179, R180) -/

section Survey

variable {retired : List Byte} {row : Nat}

theorem any_retired (retired : List Byte) (r : Nat) :
    (retired.any fun b => decide (b.toNat = r)) = true ↔ r ∈ retired.map BitVec.toNat := by
  simp only [List.any_eq_true, decide_eq_true_eq, List.mem_map]

/-- A row is surveyed from `row` on: ring-eligible and not retired. -/
theorem surveyed_row {r : Nat} (hrow : 2 ≤ row) :
    (decide (2 ≤ r) && decide (row ≤ r) && !retired.any fun b => decide (b.toNat = r)) = true
      ↔ row ≤ r ∧ r ∉ retired.map BitVec.toNat := by
  rw [Bool.and_eq_true, Bool.and_eq_true, Bool.not_eq_true', decide_eq_true_eq, decide_eq_true_eq, ← Bool.not_eq_true,
    any_retired]
  exact ⟨fun ⟨⟨_, h⟩, hn⟩ => ⟨h, hn⟩, fun ⟨h, hn⟩ => ⟨⟨Nat.le_trans hrow h, h⟩, hn⟩⟩

theorem nextSurveyRow_some (hrow : 2 ≤ row) {r : Nat} (hr : row ≤ r) (hmax : r ≤ 255) (hn : r ∉ retired.map BitVec.toNat)
    (hbefore : ∀ q, row ≤ q → q < r → q ∈ retired.map BitVec.toNat) : nextSurveyRow retired row = some r := by
  refine find_range_some.2 ⟨Nat.lt_succ_of_le hmax, (surveyed_row hrow).2 ⟨hr, hn⟩, fun j hj => ?_⟩
  rw [← Bool.not_eq_true, surveyed_row hrow]
  exact fun ⟨h, hnj⟩ => hnj (hbefore j h hj)

theorem nextSurveyRow_none (hrow : 2 ≤ row) (hall : ∀ r, row ≤ r → r ≤ 255 → r ∈ retired.map BitVec.toNat) :
    nextSurveyRow retired row = none := by
  refine find_range_none.2 fun r hr => ?_
  rw [← Bool.not_eq_true, surveyed_row hrow]
  exact fun ⟨h, hn⟩ => hn (hall r h (Nat.le_of_lt_succ hr))

theorem Ctl.surveyFrom_row {c : Ctl} {found : List (Nat × Word)} {r : Nat} (h : nextSurveyRow c.conf.retired row = some r) :
    c.surveyFrom row found = c.mountAsk r 0 (.survey r found) := by
  rw [Ctl.surveyFrom, h]

theorem Ctl.surveyFrom_end {c : Ctl} {found : List (Nat × Word)} (h : nextSurveyRow c.conf.retired row = none) :
    c.surveyFrom row found = c.beginScan found := by
  rw [Ctl.surveyFrom, h]

/-- The scan begins on the tail (R181). -/
theorem Ctl.beginScan_tail {c : Ctl} {found rest : List (Nat × Word)} {r : Nat} {n : Word}
    (h : ringOrder found = (r, n) :: rest) :
    c.beginScan found = c.mountAsk r 1 (.scan ⟨(r, n) :: rest, rest.map (·.1), r, 1, [], [], []⟩) := by
  simp only [Ctl.beginScan, h]
  rfl

theorem Ctl.beginScan_empty {c : Ctl} {found : List (Nat × Word)} (h : ringOrder found = []) :
    c.beginScan found = c.finishMount [] [] [] := by
  simp only [Ctl.beginScan, h]
  rfl

end Survey

/-- The place of a row in the ring order: its open number, then its index (R180). -/
def ringPlace (x : Nat × Word) : Nat := x.2.toNat * 256 + x.1

theorem ringPlace_eq {x y : Nat × Word} (hx : x.1 ≤ 255) (hy : y.1 ≤ 255) (h : ringPlace x = ringPlace y) : x.1 = y.1 := by
  unfold ringPlace at h
  omega

theorem ringPlace_lt {x y : Nat × Word} (hx : x.1 ≤ 255) (hy : y.1 ≤ 255) (h : ringPlace x < ringPlace y) :
    x.2.toNat < y.2.toNat ∨ x.2 = y.2 ∧ x.1 < y.1 := by
  unfold ringPlace at h
  rcases Nat.lt_trichotomy x.2.toNat y.2.toNat with hlt | heq | hgt
  · exact .inl hlt
  · exact .inr ⟨BitVec.eq_of_toNat_eq heq, by omega⟩
  · omega

/-- Different rows have different places, so that the ring holds every row found, by open number and row index. -/
theorem ringOrder_sorts {found : List (Nat × Word)} (hn : (found.map (·.1)).Nodup) (hb : ∀ x ∈ found, x.1 ≤ 255) :
    (ringOrder found).Perm found
      ∧ (ringOrder found).Pairwise fun x y => x.2.toNat < y.2.toNat ∨ x.2 = y.2 ∧ x.1 < y.1 := by
  have hplaces : (found.map ringPlace).Nodup := by
    refine List.Nodup.map_on (fun x hx y hy h => ?_) (List.Nodup.of_map _ hn)
    exact List.inj_on_of_nodup_map hn hx hy (ringPlace_eq (hb x hx) (hb y hy) h)
  obtain ⟨hperm, hsorted⟩ := sortBy_insertion ringPlace found hplaces
  refine ⟨hperm, hsorted.imp_of_mem fun hx hy h => ?_⟩
  exact ringPlace_lt (hb _ (hperm.mem_iff.1 hx)) (hb _ (hperm.mem_iff.1 hy)) h

/-! ### The end of mount (R182 to R186) -/

/-- No row of mount's table carries the suspect mark. -/
theorem mountRows_suspect (retired : List Byte) (ring : List (Nat × Word)) (dir : List DirEntry) (sequences : List Word)
    (r : Nat) : ((mountRows retired ring dir sequences).entry r).suspect = false := by
  unfold RowMgr.entry mountRows mountTable
  simp only [List.getD_eq_getElem?_getD, List.getElem?_map]
  cases (List.range Config.rowCount)[r]? <;> rfl

theorem mountRows_length (retired : List Byte) (ring : List (Nat × Word)) (dir : List DirEntry) (sequences : List Word) :
    (mountRows retired ring dir sequences).table.length = 256 := by
  simp [mountRows, mountTable, Config.rowCount]

section Mode

variable {m : RowMgr}

theorem RowMgr.mountMode_sequence (h : m.seqCounter = 0xFFFFFF00) : m.mountMode = (.readOnly, .sequence) := if_pos h

theorem RowMgr.mountMode_media (h : m.seqCounter ≠ 0xFFFFFF00) (hf : m.free = 0) (ht : m.tailLive = true) :
    m.mountMode = (.readOnly, .media) := by
  rw [RowMgr.mountMode, if_neg (show ¬ m.seqCounter = Config.sequenceLimit from h), if_pos (by simp [hf, ht])]

theorem RowMgr.mountMode_ready (h : m.seqCounter ≠ 0xFFFFFF00) (hf : m.free ≠ 0 ∨ m.tailLive = false) :
    m.mountMode = (.ready, .none) := by
  rw [RowMgr.mountMode, if_neg (show ¬ m.seqCounter = Config.sequenceLimit from h), if_neg]
  rcases hf with hf | hf <;> simp [hf]

end Mode

/-- Settles O50: the choice of the image, the page reads by their phase, the two orders, the winners and the end. -/
theorem mountChoosesAndEnds : Obligations.MountChoosesAndEnds := by
  refine ⟨fun a b h => if_pos h, fun a b h => if_neg (Nat.not_lt.2 h), fun _ => rfl, fun _ => rfl, rfl,
    fun s row page hop hm => ?_, fun c choice => ?_, fun c row found hrow => ?_, fun found => ringOrder_sorts,
    fun candidates => ?_, fun c ring candidates fragments => ?_⟩
  · intro data c gives asks leaves
    have hgives : ∀ d, c.mountRead data = d → gives d := fun d hd =>
      hd ▸ exec_pageRead_mount hop hm
    have hleaves : ∀ st, c.mountRead data = c.scanNextRow st → leaves st := fun st h =>
      ⟨fun r todo ht => hgives _ (h.trans (Ctl.scanNextRow_cons ht)), fun ht => hgives _ (h.trans (Ctl.scanNextRow_nil ht))⟩
    refine ⟨fun hp => hgives _ (Ctl.mountRead_image0 (c := c) data hp),
      fun first hp => hgives _ (Ctl.mountRead_image1 (c := c) data hp), fun r found hp => ?_, fun st hp => ?_⟩
    · have hread := Ctl.mountRead_survey (c := c) data hp
      exact ⟨fun n hn => hgives _ (hread.trans (Ctl.surveyRead_found hn r found)),
        fun hn => hgives _ (hread.trans (Ctl.surveyRead_none hn r found))⟩
    · have hread := Ctl.mountRead_scan (c := c) data hp
      exact ⟨fun hh => hleaves st (hread.trans (Ctl.scanMount_noHeader hh)),
        fun h hh => ⟨fun hl => hgives _ (hread.trans (Ctl.scanMount_more hh hl)),
          fun hl => ⟨fun hc => hleaves (st.note h (st.got ++ [data])) (hread.trans (Ctl.scanMount_lastRecord hh hl hc)),
            fun hc => hgives _ (hread.trans (Ctl.scanMount_nextRecord hh hl hc))⟩⟩⟩
  · cases choice <;> rfl
  · intro retired asks
    refine ⟨fun r hr hmax hn hbefore => Ctl.surveyFrom_row (nextSurveyRow_some hrow hr hmax hn hbefore), fun hall => ?_⟩
    rw [Ctl.surveyFrom_end (nextSurveyRow_none hrow hall)]
    exact ⟨fun r n rest h => Ctl.beginScan_tail h, Ctl.beginScan_empty⟩
  · obtain ⟨hsorted, hevery, hwins⟩ := resolveKeys_wins candidates
    refine ⟨hsorted, hevery, hwins, ?_⟩
    unfold winningEntries
    congr 1
    funext x
    cases x.header.kind <;> rfl
  · intro d keys live
    refine ⟨rfl, mountRows_length _ _ _ _, rfl, rfl, fun r => ⟨mountRows_suspect _ _ _ _ r, ?_⟩, rfl, decide_eq_true_iff, rfl,
      fun h => Prod.ext_iff.1 (RowMgr.mountMode_sequence h), fun h hf ht => Prod.ext_iff.1 (RowMgr.mountMode_media h hf ht),
      fun h hf => Prod.ext_iff.1 (RowMgr.mountMode_ready h hf)⟩
    refine (mountRows_state _ _ _ _ r).trans ?_
    refine if_congr or_comm rfl (if_congr (any_retired _ r) rfl ?_)
    cases ring.find? fun x => decide (x.1 = r) <;> rfl

end Sys2Proof.Machine
end

section
/-! SUPPORT. The moment of choice: when the agent has work (R105), which fronts are eligible and when FULL is due (R103, R104), the
port served (R107), and the choice between the ports and the agent (R106). -/

namespace Sys2Proof.Machine

/-! ### The agent's work (R105) and the available pages (R38) -/

theorem AgentState.inPass_iff (st : AgentState) :
    st.inPass = true ↔ (∃ row cursor, st = .scanning row cursor) ∨ ∃ row, st = .erasing row := by
  cases st <;> simp [AgentState.inPass]

theorem Ctl.agentHasWork_iff (c : Ctl) :
    c.agentHasWork = true ↔ c.sched.mode = .ready ∧ c.agent.state ≠ .halted ∧ c.rows.tailClosed = true
      ∧ (c.rows.free ≤ c.lowWater ∨ c.sched.compactList ≠ []
        ∨ (∃ row cursor, c.agent.state = .scanning row cursor) ∨ ∃ row, c.agent.state = .erasing row) := by
  rw [← AgentState.inPass_iff]
  simp only [Ctl.agentHasWork, Bool.and_eq_true, Bool.or_eq_true, decide_eq_true_eq, Bool.not_eq_true', List.isEmpty_eq_false_iff,
    and_assoc, or_assoc]

/-- The dead pages of the CLOSED rows. -/
def RowMgr.closedDead (m : RowMgr) : Nat := (m.table.map fun e => e.state.closedDead).sum

theorem RowMgr.availablePages_headless {m : RowMgr} (h : m.headless) :
    m.availablePages = 15 * (m.free - 2) + m.closedDead := by
  simp only [RowMgr.availablePages, RowMgr.headRow_none_iff.2 h, RowMgr.closedDead]
  omega

theorem RowMgr.availablePages_head {m : RowMgr} {row : Nat} (h : m.headRow = some row) :
    m.availablePages = (m.state row).freePages + 15 * (m.free - 2) + m.closedDead := by
  simp only [RowMgr.availablePages, h, RowMgr.closedDead]
  omega

/-! ### Fronts (R103, R104) -/

section Fronts

variable {c : Ctl} {req : Request}

theorem ReqBody.isWrite_iff (b : ReqBody) :
    b.isWrite = true ↔ (∃ x, b = .commit x) ∨ (∃ k, b = .delete k) ∨ ∃ k, b = .freeze k := by
  cases b <;> simp [ReqBody.isWrite]

/-- A write whose re-checks pass has a number of pages: its composition or its key's entry is there. -/
theorem Ctl.pagesNeeded_of_recheck (hw : req.body.isWrite = true) (h : c.recheck req = none) :
    ∃ n, c.pagesNeeded req = some n := by
  unfold Ctl.recheck at h
  unfold Ctl.pagesNeeded
  cases hb : req.body with
  | commit release =>
    simp only [hb] at h
    cases hs : c.submitted req.port with
    | none => simp only [hs] at h; cases h
    | some k => exact ⟨_, rfl⟩
  | delete k =>
    simp only [hb] at h
    obtain ⟨e, he⟩ := Ctl.entry_of_refusal (firstRefusal_none h _ (.tail _ (.head _)))
    exact ⟨1, congrArg (Option.map fun _ => 1) he⟩
  | freeze k =>
    simp only [hb] at h
    obtain ⟨e, he⟩ := Ctl.entry_of_refusal (firstRefusal_none h _ (.tail _ (.tail _ (.head _))))
    exact ⟨e.pages, congrArg (Option.map fun e => e.pages) he⟩
  | _ => rw [hb] at hw; cases hw

/-- The first four cases of R103. -/
theorem Ctl.startable_iff :
    c.startable req = true ↔ ¬ req.body.isWrite = true ∨ c.recheck req ≠ none
      ∨ ∃ n, c.pagesNeeded req = some n ∧ (c.fitsHead n = true ∨ 3 ≤ c.rows.free) := by
  unfold Ctl.startable
  cases hw : req.body.isWrite with
  | false => simp
  | true =>
    cases hr : c.recheck req with
    | some st => simp
    | none =>
      obtain ⟨n, hn⟩ := Ctl.pagesNeeded_of_recheck hw hr
      simp only [hn, Bool.not_true, Option.isSome_none, Bool.false_or, Bool.or_eq_true, decide_eq_true_eq, not_true, ne_eq,
        false_or, Option.some.injEq, exists_eq_left']
      rfl

theorem Ctl.startable_of_other (hw : req.body.isWrite = false) : c.startable req = true :=
  Ctl.startable_iff.2 (.inl (by simp [hw]))

/-- Cases 1 and 2 of R104. -/
theorem Ctl.fullNow_iff :
    c.fullNow req = true ↔ (∃ n, c.pagesNeeded req = some n ∧ c.rows.availablePages < n) ∨ c.agentHasWork = false := by
  unfold Ctl.fullNow
  rw [Bool.or_eq_true, Bool.not_eq_true']
  refine or_congr_left ?_
  cases c.pagesNeeded req <;> simp

/-- Case 3 of R104. -/
theorem SpaceWait.over_iff (w : Option SpaceWait) : SpaceWait.over w = true ↔ ∃ x, w = some x ∧ x.ringLength ≤ x.reclaims := by
  cases w <;> simp [SpaceWait.over]

theorem Ctl.fullDue_iff {p : Port} :
    c.fullDue p req = true
      ↔ ¬ c.startable req = true ∧ (c.fullNow req = true ∨ SpaceWait.over (c.sched.waits.get p) = true) := by
  rw [Ctl.fullDue, Bool.and_eq_true, Bool.or_eq_true, Bool.not_eq_true', Bool.not_eq_true]

section Front

variable {p : Port} {rest : List Request} (hr : c.requests p = req :: rest)

include hr

theorem Ctl.eligible_iff :
    c.eligible p = true
      ↔ c.startable req = true ∨ c.fullNow req = true ∨ SpaceWait.over (c.sched.waits.get p) = true := by
  simp only [Ctl.eligible, hr]
  rw [Bool.or_eq_true, Ctl.fullDue_iff]
  by_cases hs : c.startable req = true <;> simp [hs]

theorem Ctl.waitNow_startable (hs : c.startable req = true) (w : Option SpaceWait) : c.waitNow p w = none := by
  simp only [Ctl.waitNow, hr, if_pos hs]

theorem Ctl.waitNow_full (hs : ¬ c.startable req = true) (hf : c.fullNow req = true) (w : Option SpaceWait) :
    c.waitNow p w = w := by
  simp only [Ctl.waitNow, hr, if_neg hs, if_pos hf]

/-- A write held back waits from now on, or goes on waiting. -/
theorem Ctl.waitNow_waits (hs : ¬ c.startable req = true) (hf : ¬ c.fullNow req = true) (w : Option SpaceWait) :
    c.waitNow p w = some (w.getD ⟨c.rows.ring.length, 0⟩) := by
  simp only [Ctl.waitNow, hr, if_neg hs, if_neg hf]

end Front

theorem Ctl.eligible_empty {p : Port} (h : c.requests p = []) : c.eligible p = false := by
  simp only [Ctl.eligible, h]

theorem Ctl.waitNow_empty {p : Port} (h : c.requests p = []) (w : Option SpaceWait) : c.waitNow p w = none := by
  simp only [Ctl.waitNow, h]

theorem Ctl.judgeWaits_get (c : Ctl) (p : Port) : c.judgeWaits.sched.waits.get p = c.waitNow p (c.sched.waits.get p) :=
  PerPort.get_map _ _ p

/-- Where no front waits for space, a moment of choice leaves no space wait. -/
theorem Ctl.judgeWaits_none (h : ∀ q w, c.waitNow q w = none) :
    c.judgeWaits = { c with sched := { c.sched with waits := PerPort.const none } } := by
  have hw : c.judgeWaits.sched.waits = PerPort.const none :=
    PerPort.ext_get fun q => by rw [c.judgeWaits_get, h, PerPort.get_const]
  show ({ c with sched := { c.sched with waits := c.judgeWaits.sched.waits } } : Ctl) = _
  rw [hw]

end Fronts

/-! ### The port served (R107) -/

/-- The port at place `i` of a search that starts at `start`. -/
def portAt (start : Port) (i : Nat) : Port := Nat.repeat nextPort i start

/-- The place of a port in a search that starts at `start`. -/
def searchPlace (start p : Port) : Nat := (portNum p + 4 - portNum start) % 4

theorem searchPorts_eq (start : Port) : searchPorts start = (List.range 4).map (portAt start) := rfl

theorem portAt_searchPlace (start p : Port) : portAt start (searchPlace start p) = p := by
  cases start <;> cases p <;> rfl

theorem searchPlace_portAt (start : Port) {i : Nat} (hi : i < 4) : searchPlace start (portAt start i) = i := by
  interval_cases i <;> cases start <;> rfl

theorem searchPlace_lt (start p : Port) : searchPlace start p < 4 := Nat.mod_lt _ (by decide)

/-- The first eligible port from the search start. -/
theorem Ctl.portServed_some_iff (c : Ctl) (p : Port) :
    c.portServed = some p ↔ c.eligible p = true
      ∧ ∀ q, searchPlace c.sched.searchStart q < searchPlace c.sched.searchStart p → c.eligible q = false := by
  rw [Ctl.portServed, searchPorts_eq, List.find?_map, Option.map_eq_some_iff]
  constructor
  · rintro ⟨i, hi, rfl⟩
    obtain ⟨hlt, he, hbefore⟩ := find_range_some.1 hi
    refine ⟨he, fun q hq => ?_⟩
    rw [searchPlace_portAt _ hlt] at hq
    have := hbefore _ hq
    rwa [Function.comp_apply, portAt_searchPlace] at this
  · rintro ⟨he, hbefore⟩
    refine ⟨searchPlace c.sched.searchStart p, find_range_some.2 ⟨searchPlace_lt _ p, ?_, fun j hj => ?_⟩, portAt_searchPlace _ p⟩
    · rwa [Function.comp_apply, portAt_searchPlace]
    · refine hbefore _ ?_
      rwa [searchPlace_portAt _ (Nat.lt_trans hj (searchPlace_lt _ p))]

theorem Ctl.portServed_none_iff (c : Ctl) : c.portServed = none ↔ ∀ p, c.eligible p = false := by
  rw [Ctl.portServed, searchPorts_eq, List.find?_map, Option.map_eq_none_iff, find_range_none]
  refine ⟨fun h p => ?_, fun h i _ => h _⟩
  have := h _ (searchPlace_lt c.sched.searchStart p)
  rwa [Function.comp_apply, portAt_searchPlace] at this

/-! ### The choice (R101, R106) -/

section Choice

variable {c : Ctl} (hs : c.sched.current = .none)

include hs

theorem Ctl.schedule_agent (ha : c.judgeWaits.agentHasWork = true)
    (h : c.judgeWaits.portServed = none ∨ c.judgeWaits.sched.turn = .compaction) : c.schedule = c.judgeWaits.startAgent := by
  have hc : c.judgeWaits.choose = .agent := by
    rw [Ctl.choose, ha]
    rcases h with h | h
    · rw [h]
    · rw [h]
      cases c.judgeWaits.portServed <;> rfl
  rw [Ctl.schedule_eq hs, hc]

theorem Ctl.schedule_port {p : Port} (hp : c.judgeWaits.portServed = some p)
    (h : c.judgeWaits.agentHasWork = false ∨ c.judgeWaits.sched.turn = .ports) :
    c.schedule = (c.judgeWaits.servePort p).schedule := by
  have hc : c.judgeWaits.choose = .port p := by
    rw [Ctl.choose, hp]
    rcases h with h | h
    · rw [h]
    · rw [h]
      cases c.judgeWaits.agentHasWork <;> rfl
  rw [Ctl.schedule_eq hs, hc]

theorem Ctl.schedule_nothing (hp : c.judgeWaits.portServed = none) (ha : c.judgeWaits.agentHasWork = false) :
    c.schedule = c.judgeWaits := by
  have hc : c.judgeWaits.choose = .nothing := by rw [Ctl.choose, hp, ha]
  rw [Ctl.schedule_eq hs, hc]

end Choice

end Sys2Proof.Machine
end

section
/-! SUPPORT. What starts on a device where no step executes and no request waits: the command that arrives (R101, R107), the
agent's step (R125, R126, R134), and the hand-off of a COMPACT (R110, R135). -/

namespace Sys2Proof.Machine

/-! ### No request waits -/

section Empty

variable {c : Ctl} (hl : ∀ q, c.requests q = [])

include hl

theorem Ctl.judgeWaits_empty : c.judgeWaits = { c with sched := { c.sched with waits := PerPort.const none } } :=
  Ctl.judgeWaits_none fun q w => Ctl.waitNow_empty (hl q) w

theorem Ctl.portServed_empty : c.portServed = none := c.portServed_none_iff.2 fun p => Ctl.eligible_empty (hl p)

/-- With work for the agent and no request waiting, its step starts. -/
theorem Ctl.schedule_agentAlone (hs : c.sched.current = .none) (ha : c.agentHasWork = true) :
    c.schedule = Ctl.startAgent { c with sched := { c.sched with waits := PerPort.const none } } := by
  have hj := Ctl.judgeWaits_empty hl
  rw [← hj]
  exact Ctl.schedule_agent hs (hj ▸ ha) (.inl (Ctl.portServed_empty (c := c.judgeWaits) hl))

end Empty

/-! ### The agent's step (R125, R126, R134) -/

/-- With no request tied, the oldest becomes the tied one (R125). -/
theorem tieOldest_untied {l : List CompactReq} (h : ∀ r ∈ l, r.tied = false) :
    tieOldest l = match (generalizing := false) l with | [] => [] | r :: t => { r with tied := true } :: t := by
  cases l with
  | nil => rfl
  | cons r t => exact if_neg (by simp [h r (.head _)])

section Agent

variable {c : Ctl}

/-- From IDLE a pass begins on the tail, and the page behind the row header is read. -/
theorem Ctl.startAgent_idle (h : c.agent.state = .idle) {row : Nat} {rest : List Nat} (hr : c.rows.ring = row :: rest) :
    c.startAgent = { c with
      media := { c.media with op := .reading row 1 }
      agent := ⟨.scanning row 1, none, 0, 0⟩
      sched := { c.sched with compactList := tieOldest c.sched.compactList, current := .agent (.scan []) } } := by
  simp only [Ctl.startAgent]
  rw [if_pos (show (c.setCurrent (.agent .starting)).agent.state = .idle from h)]
  simp only [Ctl.beginPass, Ctl.setCurrent_rows, hr]
  rfl

theorem Ctl.startAgent_scanning {row cursor : Nat} (h : c.agent.state = .scanning row cursor) :
    c.startAgent = { c with
      media := { c.media with op := .reading row cursor }
      sched := { c.sched with current := .agent (.scan []) } } := by
  simp only [Ctl.startAgent]
  rw [if_neg (show (c.setCurrent (.agent .starting)).agent.state ≠ .idle by simp [h])]
  simp only [Ctl.setCurrent_agent, h]
  rfl

theorem Ctl.startAgent_erasing {row : Nat} (h : c.agent.state = .erasing row) :
    c.startAgent = { c with
      media := ⟨.erasing row 0, c.media.disturb.filter fun x => x.1 ≠ row⟩
      sched := { c.sched with current := .agent .tailErase } } := by
  simp only [Ctl.startAgent]
  rw [if_neg (show (c.setCurrent (.agent .starting)).agent.state ≠ .idle by simp [h])]
  simp only [Ctl.setCurrent_agent, h]
  rfl

section Starts

variable (hl : ∀ q, c.requests q = []) (hs : c.sched.current = .none) (ha : c.agentHasWork = true)

include hl hs ha

/-- The agent alone has work and is IDLE: a pass begins. -/
theorem Ctl.schedule_idleAgent (h : c.agent.state = .idle) {row : Nat} {rest : List Nat} (hr : c.rows.ring = row :: rest) :
    c.schedule = { c with
      media := { c.media with op := .reading row 1 }
      agent := ⟨.scanning row 1, none, 0, 0⟩
      sched := { c.sched with
        waits := PerPort.const none, compactList := tieOldest c.sched.compactList, current := .agent (.scan []) } } :=
  (Ctl.schedule_agentAlone hl hs ha).trans
    (Ctl.startAgent_idle (c := { c with sched := { c.sched with waits := PerPort.const none } }) h hr)

theorem Ctl.schedule_scanningAgent {row cursor : Nat} (h : c.agent.state = .scanning row cursor) :
    c.schedule = { c with
      media := { c.media with op := .reading row cursor }
      sched := { c.sched with waits := PerPort.const none, current := .agent (.scan []) } } :=
  (Ctl.schedule_agentAlone hl hs ha).trans
    (Ctl.startAgent_scanning (c := { c with sched := { c.sched with waits := PerPort.const none } }) h)

theorem Ctl.schedule_erasingAgent {row : Nat} (h : c.agent.state = .erasing row) :
    c.schedule = { c with
      media := ⟨.erasing row 0, c.media.disturb.filter fun x => x.1 ≠ row⟩
      sched := { c.sched with waits := PerPort.const none, current := .agent .tailErase } } :=
  (Ctl.schedule_agentAlone hl hs ha).trans
    (Ctl.startAgent_erasing (c := { c with sched := { c.sched with waits := PerPort.const none } }) h)

end Starts

end Agent

/-! ### A COMPACT executes (R110, R135) -/

/-- A COMPACT's request is the last of the COMPACT request list, and its step has ended. -/
def Ctl.joined (c : Ctl) (req : Request) : Ctl :=
  Ctl.endTurn { c with sched := { c.sched with compactList := c.sched.compactList ++ [⟨req.port, req.tag, false, false⟩] } }

section HandOn

variable {c : Ctl} {req : Request}

theorem Ctl.handOn_discarded (h : req.discard = true) : c.handOn req = (c.dropCredit req.port).endTurn := if_pos h

theorem Ctl.handOn_answered (h : req.discard = false) (hi : c.agent.state = .idle) (ht : c.rows.tailClosed = false) :
    c.handOn req = (c.enter req.port ⟨.ok, req.tag, 0x31, [0, 0, 0]⟩).endTurn := by
  rw [Ctl.handOn, if_neg (by simp [h])]
  exact if_pos (by simp [hi, ht])

theorem Ctl.handOn_joins (h : req.discard = false) (ht : c.agent.state ≠ .idle ∨ c.rows.tailClosed = true) :
    c.handOn req = c.joined req := by
  rw [Ctl.handOn, if_neg (by simp [h])]
  exact if_neg (by rcases ht with ht | ht <;> simp [ht])

end HandOn

/-! ### The command that arrives at an idle device -/

/-- Port `p`'s command has been taken and starts, no other request waiting. -/
def Ctl.fronted (c : Ctl) (p : Port) (req : Request) : Ctl :=
  { c.onPort p PortUnit.taken with
    sched := { c.sched with waits := PerPort.const none, searchStart := nextPort p, current := .port req .starting } }

/-- Port `p`'s command has been taken, started and answered `r`, no other request waiting. -/
def Ctl.endedAt (c : Ctl) (p : Port) (r : Response) : Ctl :=
  { c.answered p r with
    sched := { c.sched with
      waits := PerPort.const none, searchStart := nextPort p, turn := .compaction, current := .none } }

section Idle

variable {c : Ctl} (hs : c.sched.current = .none) (hl : ∀ q, c.requests q = []) (ha : c.agentHasWork = false)

include hs in
theorem Ctl.endedAt_eq (p : Port) (r : Response) :
    c.endedAt p r = { c.answered p r with
      sched := { c.sched with waits := PerPort.const none, searchStart := nextPort p, turn := .compaction } } := by
  rw [Ctl.endedAt, ← hs]

include hl ha in
theorem Ctl.endedAt_schedule (p : Port) (r : Response) : (c.endedAt p r).schedule = c.endedAt p r :=
  Ctl.schedule_idle (c := c.endedAt p r) rfl hl ha

include hs hl ha in
/-- An operation other than a write starts at once. -/
theorem Ctl.schedule_queued (p : Port) (tag : Byte) {body : ReqBody} (hb : body.isWrite = false) :
    (c.queued p tag body).schedule
      = ((c.fronted p ⟨p, tag, body, false⟩).execute ⟨p, tag, body, false⟩ false).schedule := by
  have hmine : (c.queued p tag body).requests p = [⟨p, tag, body, false⟩] := by
    rw [Ctl.queued, Ctl.requests_setRequests_same, hl]
    rfl
  have hothers : ∀ q, q ≠ p → (c.queued p tag body).requests q = [] := fun q hq =>
    (Ctl.requests_setRequests_other _ hq _).trans (hl q)
  have hstart : (c.queued p tag body).startable ⟨p, tag, body, false⟩ = true := Ctl.startable_of_other hb
  have hj : (c.queued p tag body).judgeWaits
      = { c.queued p tag body with sched := { (c.queued p tag body).sched with waits := PerPort.const none } } := by
    refine Ctl.judgeWaits_none fun q w => ?_
    by_cases hq : q = p
    · exact hq ▸ Ctl.waitNow_startable hmine hstart w
    · exact Ctl.waitNow_empty (hothers q hq) w
  have hserved : (c.queued p tag body).judgeWaits.portServed = some p := by
    refine (Ctl.portServed_some_iff _ p).2 ⟨(Ctl.eligible_iff (c := (c.queued p tag body).judgeWaits) hmine).2 (.inl ?_),
      fun q hq => Ctl.eligible_empty (c := (c.queued p tag body).judgeWaits) (hothers q ?_)⟩
    · exact Ctl.startable_of_other hb
    · rintro rfl
      exact Nat.lt_irrefl _ hq
  have hfull : (c.queued p tag body).judgeWaits.fullDue p ⟨p, tag, body, false⟩ = false := by
    rw [← Bool.not_eq_true, Ctl.fullDue_iff]
    exact fun h => h.1 (Ctl.startable_of_other hb)
  have hfront : (c.queued p tag body).judgeWaits.withFront p ⟨p, tag, body, false⟩ [] = c.fronted p ⟨p, tag, body, false⟩ := by
    have hlists : (c.queued p tag body).sched.lists.set p [] = c.sched.lists := by
      show (c.sched.lists.set p _).set p [] = c.sched.lists
      rw [PerPort.set_set, ← hl p]
      exact c.sched.lists.set_get p
    have hwaits : (PerPort.const (none : Option SpaceWait)).set p none = PerPort.const none := by cases p <;> rfl
    rw [hj]
    simp only [Ctl.withFront, hlists, hwaits]
    rfl
  rw [Ctl.schedule_port (c := c.queued p tag body) hs hserved (.inl (hj ▸ ha)),
    Ctl.servePort_eq (c := (c.queued p tag body).judgeWaits) hmine, hfull, hfront]

end Idle

/-! ### The starts of READ, RELOAD, SETCONF and COMPACT -/

theorem Ctl.enter_taken (c : Ctl) (p : Port) (r : Response) : (c.onPort p PortUnit.taken).enter p r = c.answered p r := by
  rw [Ctl.enter, Ctl.onPort_onPort]
  rfl

/-- A command answered at its start is answered as one answered at its arrival. -/
theorem Ctl.fronted_enter (c : Ctl) (p : Port) (req : Request) (r : Response) :
    (c.fronted p req).enter p r = { c.answered p r with sched := (c.fronted p req).sched } := by
  rw [← Ctl.enter_taken]
  rfl

/-- An enable mask that holds every port enables every port (R78, R79). -/
theorem Ctl.applyEnableMask_all {c : Ctl} {mask : Byte} (h : ∀ p, inMask mask p = true) :
    c.applyEnableMask mask = { c with ports := c.ports.map fun _ u => { u with enabled := true } } := by
  have hkeep : ∀ d : Ctl, allPorts.foldl (fun (d : Ctl) p =>
      if (d.port p).enabled && !inMask mask p then d.disable p else d) d = d := fun d => by
    simp only [allPorts, h, Bool.not_true, Bool.and_false, Bool.false_eq_true, if_false, List.foldl_cons, List.foldl_nil]
  have henable : ∀ (d : Ctl) (p : Port), (if !(d.port p).enabled && inMask mask p then d.enable p else d)
      = d.onPort p fun u => { u with enabled := true } := by
    intro d p
    rw [h, Bool.and_true]
    cases he : (d.port p).enabled with
    | false => rfl
    | true => exact (d.onPort_eq_self p _ (by rw [← he])).symm
  simp only [Ctl.applyEnableMask, hkeep]
  simp only [allPorts, henable, List.foldl_cons, List.foldl_nil]
  rfl

/-- A RELOAD that completes with the defaults enters its response, then the defaults are the active settings and every port is
enabled (R173, R174). -/
theorem Ctl.completeReload_defaults {d : Ctl} {req : Request} (h : req.discard = false) :
    d.completeReload req defaultSettings 0
      = { d.enter req.port ⟨.ok, req.tag, req.body.cmd.code, [0, 0, 0, 0]⟩ with
          ports := (d.enter req.port ⟨.ok, req.tag, req.body.cmd.code, [0, 0, 0, 0]⟩).ports.map fun _ u => { u with enabled := true }
          conf := { d.conf with active := some defaultSettings }
          sched := { d.sched with turn := .compaction, current := .none } } := by
  have hzero : wordBytes 0 = [0, 0, 0, 0] := by decide
  have hmask : ∀ q, inMask defaultSettings.enable q = true := fun q => by cases q <;> rfl
  have hrespond : d.respond req .ok (wordBytes 0) = d.enter req.port ⟨.ok, req.tag, req.body.cmd.code, [0, 0, 0, 0]⟩ := by
    rw [Ctl.respond, if_neg (by simp [h]), hzero]
  rw [Ctl.completeReload, hrespond, Ctl.applyConfig, Ctl.applyEnableMask_all hmask]
  rfl

section Starts

variable {c : Ctl} (hs : c.sched.current = .none) (hl : ∀ q, c.requests q = []) (ha : c.agentHasWork = false)
  (p : Port) (tag : Byte)

include hs hl ha

/-- READ reads the first page of its record (R115). -/
theorem Ctl.read_starts {k : Half} {offset count : Nat} {e : DirEntry} (hk : c.lookup k = some e)
    (hr : c.readRefusal p k = none) (hle : offset + count ≤ e.length) :
    (c.queued p tag (.read k offset count)).schedule
      = (c.fronted p ⟨p, tag, .read k offset count, false⟩).askRead e.row e.page (.readRecord e [] false) := by
  obtain ⟨_, hstart⟩ := (c.fronted p ⟨p, tag, .read k offset count, false⟩).execute_read_cases
    ⟨p, tag, .read k offset count, false⟩ false rfl
  rw [Ctl.schedule_queued hs hl ha p tag rfl, (hstart e hk hr).2 hle]
  exact Ctl.schedule_busy fun h => nomatch h

/-- RELOAD reads page 0 of the current row (R173). -/
theorem Ctl.reload_reads (hadm : c.isAdmin p = true) {copy : StoredCopy} (hc : c.conf.stored = some copy) :
    (c.queued p tag .reload).schedule
      = (c.fronted p ⟨p, tag, .reload, false⟩).askRead copy.row.index 0 .readImage := by
  have hre : (c.fronted p ⟨p, tag, .reload, false⟩).recheck ⟨p, tag, .reload, false⟩ = none := Ctl.adminRefusal_admin hadm
  have hstored : (c.fronted p ⟨p, tag, .reload, false⟩).conf.stored = some copy := hc
  rw [Ctl.schedule_queued hs hl ha p tag rfl, Ctl.execute_reload rfl hre, Ctl.beginReload, hstored]
  exact Ctl.schedule_busy fun h => nomatch h

/-- RELOAD without a stored copy loads the defaults, whose enable mask holds every port (R173, R174). -/
theorem Ctl.reload_defaults (hadm : c.isAdmin p = true) (hc : c.conf.stored = none)
    (ha' : ({ c with conf := { c.conf with active := some defaultSettings } } : Ctl).agentHasWork = false) :
    (c.queued p tag .reload).schedule = { c.endedAt p ⟨.ok, tag, 0x33, [0, 0, 0, 0]⟩ with
      ports := (c.endedAt p ⟨.ok, tag, 0x33, [0, 0, 0, 0]⟩).ports.map fun _ u => { u with enabled := true }
      conf := { c.conf with active := some defaultSettings } } := by
  have hre : (c.fronted p ⟨p, tag, .reload, false⟩).recheck ⟨p, tag, .reload, false⟩ = none := Ctl.adminRefusal_admin hadm
  have hstored : (c.fronted p ⟨p, tag, .reload, false⟩).conf.stored = none := hc
  rw [Ctl.schedule_queued hs hl ha p tag rfl, Ctl.execute_reload rfl hre, Ctl.beginReload, hstored]
  simp only [Ctl.completeReload_defaults (req := ⟨p, tag, .reload, false⟩) rfl, Ctl.fronted_enter]
  exact Ctl.schedule_idle rfl hl ha'

section Setconf

variable {a : ConfArgs} (hm : c.sched.mode ≠ .readOnly) (hadm : c.isAdmin p = true) (hlock : c.conf.lock ≠ 1)

include hm hadm hlock

/-- SETCONF erases the target row of its image (R168, R171). -/
theorem Ctl.setconf_starts (hg : c.conf.generation ≠ 0xFFFFFFFF) :
    (c.queued p tag (.setconf a)).schedule
      = (c.fronted p ⟨p, tag, .setconf a, false⟩).askErase c.conf.target.index
        (.image .erase ⟨c.conf.target, ⟨c.conf.generation + 1, a.settings, a.lock, c.conf.retired⟩⟩ .setconf) := by
  have hre := Ctl.recheck_settings_pass (c := c.fronted p ⟨p, tag, .setconf a, false⟩)
    (req := ⟨p, tag, .setconf a, false⟩) (.inr ⟨a, rfl⟩) hm hadm
  rw [Ctl.schedule_queued hs hl ha p tag rfl, Ctl.execute_setconf rfl hre, Ctl.beginSetconf,
    if_neg (show ¬ (c.fronted p _).conf.lock = 1 from hlock),
    Ctl.writeImage_begins (c := c.fronted p ⟨p, tag, .setconf a, false⟩) hg]
  exact Ctl.schedule_busy fun h => nomatch h

/-- At the highest generation SETCONF completes MEDIA (R168, R171). -/
theorem Ctl.setconf_limit (hg : c.conf.generation = 0xFFFFFFFF) (hmark : c.sched.limitMark = false) :
    (c.queued p tag (.setconf a)).schedule = c.endedAt p ⟨.media, tag, 0x32, []⟩ := by
  have hre := Ctl.recheck_settings_pass (c := c.fronted p ⟨p, tag, .setconf a, false⟩)
    (req := ⟨p, tag, .setconf a, false⟩) (.inr ⟨a, rfl⟩) hm hadm
  have hwrite : (c.fronted p ⟨p, tag, .setconf a, false⟩).writeImage a.settings a.lock c.conf.retired .setconf
      = (((c.fronted p ⟨p, tag, .setconf a, false⟩).enter p ⟨.media, tag, 0x32, []⟩).endMark).endTurn := if_pos hg
  have hdone : (c.fronted p ⟨p, tag, .setconf a, false⟩).writeImage a.settings a.lock c.conf.retired .setconf
      = c.endedAt p ⟨.media, tag, 0x32, []⟩ := by
    rw [hwrite, Ctl.endMark_clear (e := (c.fronted p _).enter p _) hmark, Ctl.fronted_enter]
    rfl
  rw [Ctl.schedule_queued hs hl ha p tag rfl, Ctl.execute_setconf rfl hre, Ctl.beginSetconf,
    if_neg (show ¬ (c.fronted p _).conf.lock = 1 from hlock)]
  exact (congrArg Ctl.schedule hdone).trans (Ctl.endedAt_schedule hl ha p _)

end Setconf

section Compact

variable (hm : c.sched.mode = .ready) (hadm : c.isAdmin p = true) (hi : c.agent.state = .idle)

include hm hadm hi

/-- COMPACT without a CLOSED tail is answered zeros (R110, R135). -/
theorem Ctl.compact_answered (ht : c.rows.tailClosed = false) :
    (c.queued p tag .compact).schedule = c.endedAt p ⟨.ok, tag, 0x31, [0, 0, 0]⟩ := by
  have hre := Ctl.recheck_settings_pass (c := c.fronted p ⟨p, tag, .compact, false⟩)
    (req := ⟨p, tag, .compact, false⟩) (.inl rfl) (by rw [show (c.fronted p _).sched.mode = .ready from hm]; decide) hadm
  rw [Ctl.schedule_queued hs hl ha p tag rfl, Ctl.execute_compact rfl hre,
    Ctl.handOn_answered (c := c.fronted p _) rfl hi ht, Ctl.fronted_enter]
  exact Ctl.endedAt_schedule hl ha p _

/-- COMPACT with a CLOSED tail begins a pass, which is tied to it (R125). -/
theorem Ctl.compact_begins {row : Nat} {rest : List Nat} (hr : c.rows.ring = row :: rest) (ht : c.rows.tailClosed = true) :
    (c.queued p tag .compact).schedule = { c.onPort p PortUnit.taken with
      media := { c.media with op := .reading row 1 }
      agent := ⟨.scanning row 1, none, 0, 0⟩
      sched := { c.sched with
        waits := PerPort.const none
        searchStart := nextPort p
        turn := .compaction
        compactList := [⟨p, tag, false, true⟩]
        current := .agent (.scan []) } } := by
  have hre := Ctl.recheck_settings_pass (c := c.fronted p ⟨p, tag, .compact, false⟩)
    (req := ⟨p, tag, .compact, false⟩) (.inl rfl) (by rw [show (c.fronted p _).sched.mode = .ready from hm]; decide) hadm
  have hempty : c.sched.compactList = [] := by
    by_contra hne
    rw [← Bool.not_eq_true, Ctl.agentHasWork_iff] at ha
    exact ha ⟨hm, by rw [hi]; decide, ht, .inr (.inl hne)⟩
  rw [Ctl.schedule_queued hs hl ha p tag rfl, Ctl.execute_compact rfl hre,
    Ctl.handOn_joins (c := c.fronted p _) rfl (.inr ht)]
  have hwork : ((c.fronted p ⟨p, tag, .compact, false⟩).joined ⟨p, tag, .compact, false⟩).agentHasWork = true :=
    (Ctl.agentHasWork_iff _).2
      ⟨hm, fun h => AgentState.noConfusion (hi.symm.trans h), ht,
        .inr (.inl (List.append_ne_nil_of_right_ne_nil _ (List.cons_ne_nil _ _)))⟩
  rw [Ctl.schedule_idleAgent (c := (c.fronted p _).joined _) hl rfl hwork hi hr]
  simp only [Ctl.joined, Ctl.endTurn, Ctl.fronted, hempty]
  rfl

end Compact

end Starts

end Sys2Proof.Machine
end

section
/-! PROOF. What starts on an idle device, and the moment of choice (R101 to R107, R125, R173). -/

namespace Sys2Proof.Machine

/-! ### Commands that join their port's list -/

section Joins

variable {p : Port} {tag : Byte} {args : List Byte} {s : State}

/-- A command whose checks pass joins its port's list, and the Scheduler looks for work. -/
theorem Ctl.judge_joins {c : Ctl} {body : ReqBody} {refusal : Option Status} (h : refusal = none) :
    (c.onPort p PortUnit.taken).judge p tag body refusal = (c.queued p tag body).schedule := by
  rw [Ctl.judge_taken, h]

theorem exec_read_joins (h : s.serves p 0x15 tag args) {k : Half} {offset count : Nat}
    (ha : readArgs args = some (k, offset, count)) {e : DirEntry} (hk : s.ctl.lookup k = some e)
    (hr : s.ctl.readRefusal p k = none) (hle : offset + count ≤ e.length) :
    exec (.read p tag args) s = .next (s.settled (s.ctl.queued p tag (.read k offset count)).schedule) := by
  refine (State.arrive_serves .read _ h).trans ?_
  have hpass : firstRefusal [s.ctl.readRefusal p k, s.ctl.boundsRefusal k offset count] = none := by
    rw [hr, Ctl.boundsRefusal_within hk hle, firstRefusal_cons_none, firstRefusal_cons_none, firstRefusal_nil]
  simp only [ha]
  exact congrArg (fun d => Host.Outcome.next (s.settled d)) (Ctl.judge_joins hpass)

theorem exec_reload_joins (h : s.serves p 0x33 tag args) (hl : args.length = 0) (hadm : s.ctl.isAdmin p = true) :
    exec (.reload p tag args) s = .next (s.settled (s.ctl.queued p tag .reload).schedule) := by
  refine (State.arrive_serves .reload _ h).trans ?_
  simp only [if_neg (not_not_intro hl)]
  exact congrArg (fun d => Host.Outcome.next (s.settled d)) (Ctl.judge_joins (Ctl.adminRefusal_admin hadm))

theorem exec_setconf_joins (h : s.serves p 0x32 tag args) {a : ConfArgs} (ha : confArgs args = some a)
    (hm : s.ctl.sched.mode ≠ .readOnly) (hadm : s.ctl.isAdmin p = true) (hrange : a.inRange = true)
    (hlock : s.ctl.conf.lock ≠ 1) :
    exec (.setconf p tag args) s = .next (s.settled (s.ctl.queued p tag (.setconf a)).schedule) := by
  refine (State.arrive_serves .setconf _ h).trans ?_
  have hpass : firstRefusal [s.ctl.modeRefusal, s.ctl.adminRefusal p, refuseIf (!a.inRange) .badArg,
      refuseIf (s.ctl.conf.lock = 1) .locked] = none := by
    simp only [Ctl.modeRefusal_other hm, Ctl.adminRefusal_admin hadm, hrange, hlock, decide_false, Bool.not_true, refuseIf_false,
      firstRefusal_cons_none, firstRefusal_nil]
  simp only [ha]
  exact congrArg (fun d => Host.Outcome.next (s.settled d)) (Ctl.judge_joins hpass)

theorem exec_compact_joins (h : s.serves p 0x31 tag args) (hl : args.length = 0) (hm : s.ctl.sched.mode ≠ .readOnly)
    (hadm : s.ctl.isAdmin p = true) :
    exec (.compact p tag args) s = .next (s.settled (s.ctl.queued p tag .compact).schedule) := by
  refine (State.arrive_serves .compact _ h).trans ?_
  have hpass : firstRefusal [s.ctl.modeRefusal, s.ctl.adminRefusal p] = none := by
    rw [Ctl.modeRefusal_other hm, Ctl.adminRefusal_admin hadm, firstRefusal_cons_none, firstRefusal_cons_none, firstRefusal_nil]
  simp only [if_neg (not_not_intro hl)]
  exact congrArg (fun d => Host.Outcome.next (s.settled d)) (Ctl.judge_joins hpass)

end Joins

/-! ### The readers the statement writes out -/

theorem SysRow.index_eq (r : SysRow) : r.index = match r with | .s0 => 0 | .s1 => 1 := by
  cases r <;> rfl

theorem ConfUnit.target_eq (u : ConfUnit) : u.target = match u.stored with
    | some ⟨.s0, _⟩ => .s1
    | some ⟨.s1, _⟩ => .s0
    | none => if u.faulted0 = true ∧ u.faulted1 = false then .s1 else .s0 := by
  unfold ConfUnit.target
  rcases u.stored with _ | ⟨row, image⟩
  · simp
  · cases row <;> rfl

theorem RowMgr.tailClosed_cons {m : RowMgr} {row : Nat} {rest : List Nat} (h : m.ring = row :: rest) :
    m.tailClosed = (m.state row).isClosed := by
  rw [RowMgr.tailClosed, h]

theorem Ctl.pagesNeeded_eq (c : Ctl) (req : Request) : c.pagesNeeded req = match req.body with
    | .commit _ => (match (c.port req.port).staging with | .submitted k => some (pagesFor k.declared) | _ => none)
    | .delete k => (c.lookup k).map fun _ => 1
    | .freeze k => (c.lookup k).map DirEntry.pages
    | _ => none := by
  unfold Ctl.pagesNeeded Ctl.submitted
  cases req.body with
  | commit _ => cases (c.port req.port).staging <;> rfl
  | _ => rfl

/-- Settles O44: an idle device starts what arrives at once, the agent's step starts when only it has work, and a moment of choice
judges the fronts and serves a port, the agent or nothing. -/
theorem readStartsOnAnIdleDevice : Obligations.ReadStartsOnAnIdleDevice := by
  unfold Obligations.ReadStartsOnAnIdleDevice
  refine ⟨fun p tag args s hs hl ha => ?arrives, fun c hs hl ha => ?agent, fun c req full hb hm hadm => ?handOn,
    fun c => ?choice⟩
  case arrives =>
    intro c started ended
    have hmode : c.sched.mode = .ready → c.sched.mode ≠ .readOnly := fun hm hro => Mode.noConfusion (hm.symm.trans hro)
    refine ⟨?read, ?reload, ?setconf, ?compact⟩
    case read =>
      intro e h hlen hk ho hc he hle hr
      rw [exec_read_joins h (readArgs_some hlen hk ho hc) he hr hle, Ctl.read_starts hs hl ha p tag he hr hle]
      rfl
    case reload =>
      intro h hlen hadm
      refine ⟨fun copy hcopy => ?_, ?_⟩
      · rw [exec_reload_joins h hlen hadm, Ctl.reload_reads hs hl ha p tag hadm hcopy, SysRow.index_eq]
        rfl
      · intro hnone conf hwork
        rw [exec_reload_joins h hlen hadm, Ctl.reload_defaults hs hl ha p tag hadm hnone hwork, Ctl.endedAt_eq hs]
        rfl
    case setconf =>
      intro a h hconf hm hadm hrange hlock target row generation
      rw [exec_setconf_joins h hconf (hmode hm) hadm hrange hlock]
      refine ⟨fun hg => ?_, fun hg hmark => ?_⟩
      · have htarget : target = c.conf.target := (ConfUnit.target_eq _).symm
        have hrow : row = c.conf.target.index := htarget ▸ (SysRow.index_eq target).symm
        rw [Ctl.setconf_starts hs hl ha p tag (hmode hm) hadm hlock hg, hrow, htarget]
        rfl
      · rw [Ctl.setconf_limit hs hl ha p tag (hmode hm) hadm hlock hg hmark, Ctl.endedAt_eq hs]
    case compact =>
      intro h hlen hm hadm hi
      rw [exec_compact_joins h hlen (hmode hm) hadm]
      refine ⟨fun ht => ?_, fun row rest n live dead hring hrow => ?_⟩
      · rw [Ctl.compact_answered hs hl ha p tag hm hadm hi ht, Ctl.endedAt_eq hs]
      · have ht : c.rows.tailClosed = true := by rw [RowMgr.tailClosed_cons hring, hrow, RowState.isClosed]
        rw [Ctl.compact_begins hs hl ha p tag hm hadm hi hring ht]
  case agent =>
    refine ⟨fun row rest hi hring huntied => ?_, fun row cursor hst => ?_, fun row hst => ?_⟩
    · rw [Ctl.schedule_idleAgent hl hs ha hi hring, tieOldest_untied huntied] <;> rfl
    · exact Ctl.schedule_scanningAgent hl hs ha hst
    · exact Ctl.schedule_erasingAgent hl hs ha hst
  case handOn =>
    have hexec := Ctl.execute_compact (full := full) hb (Ctl.recheck_settings_pass (.inl hb) hm hadm)
    refine ⟨fun hd => ?_, fun hd hi ht => ?_, fun hd ht => ?_⟩
    · rw [hexec, Ctl.handOn_discarded hd]
      rfl
    · rw [hexec, Ctl.handOn_answered hd hi ht]
      rfl
    · rw [hexec, Ctl.handOn_joins hd ht]
      rfl
  case choice =>
    refine ⟨Ctl.agentHasWork_iff c, ⟨fun hheadless => RowMgr.availablePages_headless hheadless, ?head⟩, ?empty, ?front, rfl,
      ⟨Ctl.portServed_some_iff c, Ctl.portServed_none_iff c⟩, Ctl.schedule_busy, fun hs =>
      ⟨Ctl.schedule_agent hs, fun p => Ctl.schedule_port hs, Ctl.schedule_nothing hs⟩⟩
    case head =>
      intro row n live d next hrow hone
      have hhead : c.rows.headRow = some row := RowMgr.headRow_of_unique (by rw [hrow, RowState.isHead]) hone
      rw [RowMgr.availablePages_head hhead, hrow]
      rfl
    case empty =>
      intro p hp
      exact ⟨Ctl.eligible_empty hp, (Ctl.judgeWaits_get c p).trans (Ctl.waitNow_empty hp _)⟩
    case front =>
      intro p req rest hr needs writes starts never waited
      have hneeds : needs = c.pagesNeeded req := (Ctl.pagesNeeded_eq c req).symm
      have hstarts : starts ↔ c.startable req = true := by
        rw [Ctl.startable_iff, ReqBody.isWrite_iff, ← hneeds]
      have hnever : never ↔ c.fullNow req = true := by
        rw [Ctl.fullNow_iff, ← hneeds]
      have hwaited : waited ↔ SpaceWait.over (c.sched.waits.get p) = true := (SpaceWait.over_iff _).symm
      rw [Ctl.judgeWaits_get, Ctl.servePort_eq hr, hstarts, hnever, hwaited]
      refine ⟨Ctl.eligible_iff hr, Ctl.fullDue_iff, fun h => Ctl.waitNow_startable hr h _, fun h hf => Ctl.waitNow_full hr h hf _,
        fun h hf => ?_, rfl⟩
      rw [Ctl.waitNow_waits hr h hf]
      cases c.sched.waits.get p <;> rfl

end Sys2Proof.Machine
end

section
/-! PROOF. Rights: the admin port of the active configuration, the write, create and read questions of Table 12, and the masks of
a COMMIT's record (R46 to R48, R165). -/

namespace Sys2Proof.Machine

/-! ### Ports in bytes and masks -/

@[simp] theorem portByte_toNat (p : Port) : (portByte p).toNat = portNum p := by cases p <;> rfl

theorem portNum_lt (p : Port) : portNum p < 4 := by cases p <;> decide

theorem portNum_inj {p q : Port} : portNum p = portNum q ↔ p = q := by cases p <;> cases q <;> decide

/-- A port's bit set in a mask adds that port to it and no other. -/
theorem getLsbD_withBit (m : BitVec 4) (p q : Port) :
    (withBit m p).getLsbD (portNum q) = true ↔ q = p ∨ m.getLsbD (portNum q) = true := by
  have hbit : (1#4 <<< portNum p).getLsbD (portNum q) = decide (p = q) := by
    rw [← BitVec.twoPow_eq, BitVec.getLsbD_twoPow, decide_eq_true (portNum_lt p), Bool.true_and]
    exact decide_eq_decide.2 portNum_inj
  rw [withBit, BitVec.getLsbD_or, hbit, Bool.or_eq_true, decide_eq_true_eq, or_comm, eq_comm]

/-! ### The admin port (R46, R165) -/

section Rights

variable {c : Ctl} {p : Port} {k : Half}

theorem Ctl.isAdmin_loaded {cfg : Settings} (h : c.conf.active = some cfg) :
    c.isAdmin p = true ↔ cfg.admin.toNat = portNum p := by
  rw [Ctl.isAdmin, h, ← portByte_toNat]
  exact decide_eq_true_iff.trans BitVec.toNat_inj.symm

theorem Ctl.isAdmin_unloaded (h : c.conf.active = none) : c.isAdmin p = false := by
  rw [Ctl.isAdmin, h]

/-! ### The questions of Table 12 (R46, R47) -/

theorem refuseIf_not (b : Bool) (st : Status) : refuseIf (!b) st = if b = true then none else some st := by
  cases b <;> rfl

theorem Ctl.writeRefusal_frozen {e : DirEntry} (h : c.lookup k = some e) (hk : e.kind = .frozen) :
    c.writeRefusal p k = some .frozen := by
  simp only [Ctl.writeRefusal, h, hk, if_true]

theorem Ctl.writeRefusal_value {e : DirEntry} (h : c.lookup k = some e) (hk : e.kind = .value) :
    c.writeRefusal p k = if c.isAdmin p = true ∨ e.writeMask.getLsbD (portNum p) = true then none else some .denied := by
  simp only [Ctl.writeRefusal, h, hk, reduceCtorEq, if_false, refuseIf_not, Bool.or_eq_true, inMask]

theorem Ctl.writeRefusal_create {cfg : Settings} (h : c.lookup k = none) (hc : c.conf.active = some cfg) :
    c.writeRefusal p k = if cfg.create.getLsbD (portNum p) = true then none else some .denied := by
  simp only [Ctl.writeRefusal, h, Ctl.mayCreate, hc, refuseIf_not, inMask]

theorem Ctl.readRefusal_noKey (h : c.lookup k = none) : c.readRefusal p k = some .noKey := by
  rw [Ctl.readRefusal, h]

theorem Ctl.readRefusal_entry {e : DirEntry} (h : c.lookup k = some e) :
    c.readRefusal p k = if c.isAdmin p = true ∨ e.readMask.getLsbD (portNum p) = true then none else some .denied := by
  simp only [Ctl.readRefusal, h, refuseIf_not, Bool.or_eq_true, inMask]

/-! ### The masks of a COMMIT's record (R48) -/

theorem Ctl.resolveMasks_create {x : Composition} (h : c.lookup x.key = none) :
    c.resolveMasks p x = (withBit x.readMask p, withBit x.writeMask p) := by
  rw [Ctl.resolveMasks, h]

theorem Ctl.resolveMasks_entry {x : Composition} {e : DirEntry} (h : c.lookup x.key = some e) :
    c.resolveMasks p x = if c.isAdmin p = true then (x.readMask, x.writeMask) else (e.readMask, e.writeMask) := by
  rw [Ctl.resolveMasks, h]

end Rights

/-- Settles O47: the admin port, each question of Table 12 by the key's entry, and the masks by entry and committing port. -/
theorem rightsByEntryAndConfiguration : Obligations.RightsByEntryAndConfiguration := by
  refine ⟨fun c p => ⟨fun cfg => Ctl.isAdmin_loaded, Ctl.isAdmin_unloaded⟩, fun c p k => ⟨fun e he => ?entry, fun hnone => ?create⟩,
    fun c p x => ⟨fun hnone q => ?newMasks, fun e he => ?oldMasks⟩⟩
  case entry => exact ⟨Ctl.writeRefusal_frozen he, Ctl.writeRefusal_value he, Ctl.readRefusal_entry he⟩
  case create => exact ⟨Ctl.readRefusal_noKey hnone, fun cfg => Ctl.writeRefusal_create hnone⟩
  case newMasks =>
    rw [Ctl.resolveMasks_create hnone]
    exact ⟨getLsbD_withBit _ _ _, getLsbD_withBit _ _ _⟩
  case oldMasks =>
    rw [Ctl.resolveMasks_entry he]
    exact ⟨fun hadm => if_pos hadm, fun hadm => if_neg (Bool.eq_false_iff.1 hadm)⟩

end Sys2Proof.Machine
end

section
/-! PROOF. The arrival checks of DELETE, READ, FREEZE, COMPACT, SETCONF and RELOAD, each with its answer at the first that fails
(R90, R93 to R98). -/

namespace Sys2Proof.Machine

/-! ### What the checks look at -/

theorem Ctl.heldAgainst_iff (c : Ctl) (p : Port) (k : Half) :
    c.heldAgainst p k = true ↔ ∃ x, c.claimOf k = some x ∧ x.holder ≠ p := by
  unfold Ctl.heldAgainst
  cases c.claimOf k <;> simp

theorem ConfArgs.inRange_iff (a : ConfArgs) : a.inRange = true ↔
    (1 ≤ a.settings.enable.toNat ∧ a.settings.enable.toNat ≤ 15)
      ∧ (a.settings.admin = 0xFF ∨ a.settings.admin.toNat ≤ 3 ∧ a.settings.enable.getLsbD a.settings.admin.toNat = true)
      ∧ a.settings.create.toNat ≤ 15 ∧ (3 ≤ a.settings.low.toNat ∧ a.settings.low.toNat ≤ 16)
      ∧ (1 ≤ a.settings.holdMax.toNat ∧ a.settings.holdMax.toNat ≤ 60000) ∧ a.settings.waitMax.toNat ≤ 60000
      ∧ a.lock.toNat ≤ 1 := by
  simp only [ConfArgs.inRange, Bool.and_eq_true, Bool.or_eq_true, decide_eq_true_eq, and_assoc]
  exact Iff.rfl

theorem confArgs_none {args : List Byte} (h : args.length ≠ 9) : confArgs args = none := if_neg h

theorem confArgs_some {args : List Byte} (h : args.length = 9) : confArgs args
    = some ⟨⟨byteAt args 0, byteAt args 1, byteAt args 2, byteAt args 3, halfAt args 4, halfAt args 6⟩, byteAt args 8⟩ := if_pos h

/-- DELETE's ordered checks (R93). -/
def Ctl.deleteRefusal (c : Ctl) (p : Port) (k : Half) : Option Status :=
  firstRefusal [c.modeRefusal, c.entryRefusal k, c.writeRefusal p k, refuseIf (c.heldAgainst p k) .held]

/-- FREEZE's ordered checks (R95). -/
def Ctl.freezeRefusal (c : Ctl) (p : Port) (k : Half) : Option Status :=
  firstRefusal [c.modeRefusal, c.adminRefusal p, c.entryRefusal k, refuseIf (c.isFrozen k) .frozen]

section Checks

variable {c : Ctl} {p : Port} {k : Half} {e : DirEntry}

theorem Ctl.deleteRefusal_noKey (hm : c.modeRefusal = none) (hk : c.lookup k = none) : c.deleteRefusal p k = some .noKey := by
  rw [Ctl.deleteRefusal, hm, Ctl.entryRefusal_noKey hk]
  rfl

/-- With an entry DELETE asks for the right to write, then for the hold. -/
theorem Ctl.deleteRefusal_entry (hm : c.modeRefusal = none) (hk : c.lookup k = some e) :
    c.deleteRefusal p k = firstRefusal [c.writeRefusal p k, refuseIf (c.heldAgainst p k) .held] := by
  rw [Ctl.deleteRefusal, hm, Ctl.entryRefusal_entry hk]
  rfl

theorem Ctl.freezeRefusal_denied (hm : c.modeRefusal = none) (ha : c.isAdmin p = false) :
    c.freezeRefusal p k = some .denied := by
  rw [Ctl.freezeRefusal, hm, Ctl.adminRefusal_denied ha]
  rfl

theorem Ctl.freezeRefusal_noKey (hm : c.modeRefusal = none) (ha : c.isAdmin p = true) (hk : c.lookup k = none) :
    c.freezeRefusal p k = some .noKey := by
  rw [Ctl.freezeRefusal, hm, Ctl.adminRefusal_admin ha, Ctl.entryRefusal_noKey hk]
  rfl

/-- The admin port freezes every entry that is not FROZEN. -/
theorem Ctl.freezeRefusal_entry (hm : c.modeRefusal = none) (ha : c.isAdmin p = true) (hk : c.lookup k = some e) :
    c.freezeRefusal p k = refuseIf (decide (e.kind = .frozen)) .frozen := by
  rw [Ctl.freezeRefusal, hm, Ctl.adminRefusal_admin ha, Ctl.entryRefusal_entry hk, Ctl.isFrozen_entry hk]
  cases e.kind <;> rfl

end Checks

/-! ### The arrivals: the form, the first check that fails, the join -/

section Arrivals

variable {p : Port} {tag : Byte} {args : List Byte} {s : State}

/-- A command whose arguments are not in form is answered BAD_ARG (R90). -/
theorem State.arrive_badArg {cmd : Cmd} {f : Ctl → Ctl} {result : List Byte} (h : s.serves p cmd.code tag args)
    (hf : ∀ c, f c = c.answer p cmd tag .badArg result) : (s.arrival p cmd.code tag args fun c => c.arrive p cmd tag f)
      = .next (s.settled (s.ctl.answered p ⟨.badArg, tag, cmd.code, result⟩)) := by
  rw [State.arrive_serves _ _ h, hf, Ctl.answer_taken]

/-- A command whose first failing check is `st` is answered it (R90). -/
theorem State.arrive_refused {body : ReqBody} {f : Ctl → Ctl} {refusal : Option Status} {st : Status}
    (h : s.serves p body.cmd.code tag args)
    (hf : f (s.ctl.onPort p PortUnit.taken) = (s.ctl.onPort p PortUnit.taken).judge p tag body refusal)
    (hr : refusal = some st) : (s.arrival p body.cmd.code tag args fun c => c.arrive p body.cmd tag f)
      = .next (s.settled (s.ctl.answered p ⟨st, tag, body.cmd.code, refusedResult body.cmd⟩)) := by
  rw [State.arrive_serves _ _ h, hf, hr, Ctl.judge_taken]

/-- A command that passes its checks joins its port's list (R90, R91). -/
theorem State.arrive_joins {body : ReqBody} {f : Ctl → Ctl} {refusal : Option Status}
    (h : s.serves p body.cmd.code tag args)
    (hf : f (s.ctl.onPort p PortUnit.taken) = (s.ctl.onPort p PortUnit.taken).judge p tag body refusal)
    (hr : refusal = none) : (s.arrival p body.cmd.code tag args fun c => c.arrive p body.cmd tag f)
      = .next (s.settled (s.ctl.queued p tag body).schedule) := by
  rw [State.arrive_serves _ _ h, hf, Ctl.judge_joins hr]

/-! DELETE (R93) -/

theorem exec_delete_badArg (h : s.serves p 0x14 tag args) (ha : args.length ≠ 2 ∨ keyOk (halfAt args 0) = false) :
    exec (.delete p tag args) s = .next (s.settled (s.ctl.answered p ⟨.badArg, tag, 0x14, []⟩)) :=
  State.arrive_badArg (cmd := .delete) h fun c => by simp only [keyArg_none ha]

section Delete

variable (h : s.serves p 0x14 tag args) (hl : args.length = 2) (hk : keyOk (halfAt args 0) = true)

include h hl hk

theorem exec_delete_refused {st : Status} (hr : s.ctl.deleteRefusal p (halfAt args 0) = some st) :
    exec (.delete p tag args) s = .next (s.settled (s.ctl.answered p ⟨st, tag, 0x14, []⟩)) :=
  State.arrive_refused (body := .delete _) h (by simp only [keyArg_some hl hk]; rfl) hr

theorem exec_delete_joins (hr : s.ctl.deleteRefusal p (halfAt args 0) = none) :
    exec (.delete p tag args) s = .next (s.settled (s.ctl.queued p tag (.delete (halfAt args 0))).schedule) :=
  State.arrive_joins (body := .delete _) h (by simp only [keyArg_some hl hk]; rfl) hr

end Delete

/-! READ (R94) -/

theorem exec_read_badArg (h : s.serves p 0x15 tag args) (ha : args.length ≠ 5 ∨ keyOk (halfAt args 0) = false
      ∨ 512 < (halfAt args 2).toNat ∨ 48 < (byteAt args 4).toNat) :
    exec (.read p tag args) s = .next (s.settled (s.ctl.answered p ⟨.badArg, tag, 0x15, []⟩)) :=
  State.arrive_badArg (cmd := .read) h fun c => by simp only [readArgs_none ha]

theorem exec_read_refused (h : s.serves p 0x15 tag args) {k : Half} {offset count : Nat}
    (ha : readArgs args = some (k, offset, count)) {st : Status}
    (hr : firstRefusal [s.ctl.readRefusal p k, s.ctl.boundsRefusal k offset count] = some st) :
    exec (.read p tag args) s = .next (s.settled (s.ctl.answered p ⟨st, tag, 0x15, []⟩)) :=
  State.arrive_refused (body := .read _ _ _) h (by simp only [ha]; rfl) hr

/-! FREEZE (R95) -/

theorem exec_freeze_badArg (h : s.serves p 0x30 tag args) (ha : args.length ≠ 2 ∨ keyOk (halfAt args 0) = false) :
    exec (.freeze p tag args) s = .next (s.settled (s.ctl.answered p ⟨.badArg, tag, 0x30, []⟩)) :=
  State.arrive_badArg (cmd := .freeze) h fun c => by simp only [keyArg_none ha]

section Freeze

variable (h : s.serves p 0x30 tag args) (hl : args.length = 2) (hk : keyOk (halfAt args 0) = true)

include h hl hk

theorem exec_freeze_refused {st : Status} (hr : s.ctl.freezeRefusal p (halfAt args 0) = some st) :
    exec (.freeze p tag args) s = .next (s.settled (s.ctl.answered p ⟨st, tag, 0x30, []⟩)) :=
  State.arrive_refused (body := .freeze _) h (by simp only [keyArg_some hl hk]; rfl) hr

theorem exec_freeze_joins (hr : s.ctl.freezeRefusal p (halfAt args 0) = none) :
    exec (.freeze p tag args) s = .next (s.settled (s.ctl.queued p tag (.freeze (halfAt args 0))).schedule) :=
  State.arrive_joins (body := .freeze _) h (by simp only [keyArg_some hl hk]; rfl) hr

end Freeze

/-! COMPACT (R96) -/

theorem exec_compact_badArg (h : s.serves p 0x31 tag args) (hl : args.length ≠ 0) :
    exec (.compact p tag args) s = .next (s.settled (s.ctl.answered p ⟨.badArg, tag, 0x31, [0, 0, 0]⟩)) :=
  State.arrive_badArg (cmd := .compact) h fun _ => if_pos hl

theorem exec_compact_refused (h : s.serves p 0x31 tag args) (hl : args.length = 0) {st : Status}
    (hr : firstRefusal [s.ctl.modeRefusal, s.ctl.adminRefusal p] = some st) :
    exec (.compact p tag args) s = .next (s.settled (s.ctl.answered p ⟨st, tag, 0x31, [0, 0, 0]⟩)) :=
  State.arrive_refused (body := .compact) h (if_neg (not_not_intro hl)) hr

/-! SETCONF (R97) -/

theorem exec_setconf_badArg (h : s.serves p 0x32 tag args) (hl : args.length ≠ 9) :
    exec (.setconf p tag args) s = .next (s.settled (s.ctl.answered p ⟨.badArg, tag, 0x32, []⟩)) :=
  State.arrive_badArg (cmd := .setconf) h fun c => by simp only [confArgs_none hl]

theorem exec_setconf_refused (h : s.serves p 0x32 tag args) {a : ConfArgs} (ha : confArgs args = some a) {st : Status}
    (hr : firstRefusal [s.ctl.modeRefusal, s.ctl.adminRefusal p, refuseIf (!a.inRange) .badArg,
      refuseIf (decide (s.ctl.conf.lock = 1)) .locked] = some st) :
    exec (.setconf p tag args) s = .next (s.settled (s.ctl.answered p ⟨st, tag, 0x32, []⟩)) :=
  State.arrive_refused (body := .setconf _) h (by simp only [ha]; rfl) hr

/-! RELOAD (R98) -/

theorem exec_reload_badArg (h : s.serves p 0x33 tag args) (hl : args.length ≠ 0) :
    exec (.reload p tag args) s = .next (s.settled (s.ctl.answered p ⟨.badArg, tag, 0x33, []⟩)) :=
  State.arrive_badArg (cmd := .reload) h fun _ => if_pos hl

theorem exec_reload_denied (h : s.serves p 0x33 tag args) (hl : args.length = 0) (hadm : s.ctl.isAdmin p = false) :
    exec (.reload p tag args) s = .next (s.settled (s.ctl.answered p ⟨.denied, tag, 0x33, []⟩)) :=
  State.arrive_refused (body := .reload) h (if_neg (not_not_intro hl)) (Ctl.adminRefusal_denied hadm)

end Arrivals

/-- Settles O42: each command by its form, its checks in order and its arrival. -/
theorem arrayCommandJoinsItsList : Obligations.ArrayCommandJoinsItsList := by
  unfold Obligations.ArrayCommandJoinsItsList
  intro p tag args s c k refused joins
  have hwritable : c.sched.mode = .ready → c.sched.mode ≠ .readOnly := fun hm hro => Mode.noConfusion (hm.symm.trans hro)
  have hmode : c.sched.mode = .ready → c.modeRefusal = none := fun hm => Ctl.modeRefusal_other (hwritable hm)
  refine ⟨fun h => ⟨exec_delete_badArg h, fun hl hk hm => ?delete⟩, fun h => ⟨exec_read_badArg h, fun hl hk ho hc => ?read⟩,
    fun h => ⟨exec_freeze_badArg h, fun hl hk hm => ?freeze⟩, fun h => ⟨exec_compact_badArg h, fun hl hm => ?compact⟩,
    fun h => ?setconf,
    fun h => ⟨exec_reload_badArg h, fun hl => ⟨exec_reload_denied h hl, exec_reload_joins h hl⟩⟩⟩
  case delete =>
    have refuse := fun {st : Status} => exec_delete_refused h hl hk (st := st)
    refine ⟨fun hno => refuse (Ctl.deleteRefusal_noKey (hmode hm) hno), fun e he => ?_⟩
    intro writes held
    have hchecks := Ctl.deleteRefusal_entry (p := p) (hmode hm) he
    have hvalue := fun hv => Ctl.writeRefusal_value (p := p) he hv
    refine ⟨fun hz => refuse ?_, fun hv hw => refuse ?_, fun hv hw hh => refuse ?_,
      fun hv hw hh => exec_delete_joins h hl hk ?_⟩
    · rw [hchecks, Ctl.writeRefusal_frozen he hz, firstRefusal_cons_some]
    · rw [hchecks, hvalue hv, if_neg hw, firstRefusal_cons_some]
    · rw [hchecks, hvalue hv, if_pos hw, (Ctl.heldAgainst_iff c p k).2 hh]
      rfl
    · rw [hchecks, hvalue hv, if_pos hw, Bool.eq_false_iff.2 (mt (Ctl.heldAgainst_iff c p k).1 hh)]
      rfl
  case read =>
    have hargs := readArgs_some hl hk ho hc
    have refuse := fun {st : Status} => exec_read_refused h hargs (st := st)
    refine ⟨fun hno => refuse ?_, fun e he => ?_⟩
    · rw [Ctl.readRefusal_noKey hno]
      rfl
    · have hrights := Ctl.readRefusal_entry (p := p) he
      refine ⟨fun hr => refuse ?_, fun hr hb => refuse ?_, fun hr hb => ?_⟩
      · rw [hrights, if_neg hr]
        rfl
      · rw [hrights, if_pos hr, Ctl.boundsRefusal_beyond he hb]
        rfl
      · exact exec_read_joins h hargs he (hrights.trans (if_pos hr)) hb
  case freeze =>
    have refuse := fun {st : Status} => exec_freeze_refused h hl hk (st := st)
    refine ⟨fun hadm => refuse (Ctl.freezeRefusal_denied (hmode hm) hadm),
      fun hadm hno => refuse (Ctl.freezeRefusal_noKey (hmode hm) hadm hno), fun e hadm he => ?_⟩
    have hchecks := Ctl.freezeRefusal_entry (hmode hm) hadm he
    refine ⟨fun hz => refuse ?_, fun hv => exec_freeze_joins h hl hk ?_⟩
    · rw [hchecks, hz]
      rfl
    · rw [hchecks, hv]
      rfl
  case compact =>
    refine ⟨fun hadm => exec_compact_refused h hl ?_, exec_compact_joins h hl (hwritable hm)⟩
    rw [hmode hm, Ctl.adminRefusal_denied hadm]
    rfl
  case setconf =>
    intro x lock inRange
    refine ⟨exec_setconf_badArg h, fun hl hm => ?_⟩
    have hargs := confArgs_some hl
    have hrange : inRange ↔ (⟨x, lock⟩ : ConfArgs).inRange = true := (ConfArgs.inRange_iff ⟨x, lock⟩).symm
    have refuse := fun {st : Status} => exec_setconf_refused h hargs (st := st)
    rw [hmode hm] at refuse
    refine ⟨fun hadm => refuse ?_, fun hadm hr => refuse ?_, fun hadm hr hlock => refuse ?_, fun hadm hr hlock => ?_⟩
    · rw [Ctl.adminRefusal_denied hadm]
      rfl
    · rw [Ctl.adminRefusal_admin hadm, Bool.eq_false_iff.2 (mt hrange.2 hr)]
      rfl
    · rw [Ctl.adminRefusal_admin hadm, hrange.1 hr, decide_eq_true hlock]
      rfl
    · exact exec_setconf_joins h hargs (hwritable hm) hadm (hrange.1 hr) hlock

end Sys2Proof.Machine
end

section
/-! PROOF. QUERY and LIST at their arrival: the form, and what they read of the Directory and the claim table (R43, R54, R55). -/

namespace Sys2Proof.Machine

/-! ### The results -/

theorem EntryKind.code_eq (kind : EntryKind) : kind.code = match kind with | .value => 0x01 | .frozen => 0x02 := by
  cases kind <;> rfl

theorem queryEntry_none : queryEntry none = [0, 0, 0, 0, 0, 0, 0, 0, 0, 0xFF, 0] := by decide

/-- The keys above a start value, in a Directory whose keys ascend. -/
theorem Ctl.keysAbove_ascending {c : Ctl} (h : dirLaw c.dir) (start : Half) :
    (c.keysAbove start).Pairwise fun x y => x.toNat < y.toNat := by
  obtain ⟨_, hascending, _⟩ := h
  have hkeys : (c.dir.map DirEntry.key).Pairwise fun x y => x.toNat < y.toNat := List.pairwise_map.2 hascending
  exact hkeys.filter _

theorem Ctl.listResult_eq (c : Ctl) (start : Half) : c.listResult start
    = [natByte ((c.keysAbove start).take 12).length, if 12 < (c.keysAbove start).length then 1 else 0]
      ++ ((c.keysAbove start).take 12).flatMap halfBytes := by
  rw [Ctl.listResult, boolByte_decide]
  rfl

/-! ### The arrivals -/

section Arrivals

variable {p : Port} {tag : Byte} {args : List Byte} {s : State}

theorem exec_query_badArg (h : s.serves p 0x02 tag args) (ha : args.length ≠ 2 ∨ keyOk (halfAt args 0) = false) :
    exec (.query p tag args) s = .next (s.settled (s.ctl.answered p ⟨.badArg, tag, 0x02, []⟩)) :=
  State.arrive_badArg (cmd := .query) h fun c => by simp only [keyArg_none ha]

theorem exec_query_answered (h : s.serves p 0x02 tag args) (hl : args.length = 2) (hk : keyOk (halfAt args 0) = true) :
    exec (.query p tag args) s
      = .next (s.settled (s.ctl.answered p ⟨.ok, tag, 0x02, s.ctl.queryResult (halfAt args 0)⟩)) := by
  refine (State.arrive_serves .query _ h).trans ?_
  simp only [keyArg_some hl hk, Ctl.answer_taken]
  rfl

theorem exec_list_badArg (h : s.serves p 0x03 tag args) (ha : args.length ≠ 2 ∨ halfAt args 0 = 0xFFFF) :
    exec (.list p tag args) s = .next (s.settled (s.ctl.answered p ⟨.badArg, tag, 0x03, []⟩)) :=
  State.arrive_badArg (cmd := .list) h fun c => by simp only [listArg_none ha]

theorem exec_list_answered (h : s.serves p 0x03 tag args) (hl : args.length = 2) (hk : halfAt args 0 ≠ 0xFFFF) :
    exec (.list p tag args) s
      = .next (s.settled (s.ctl.answered p ⟨.ok, tag, 0x03, s.ctl.listResult (halfAt args 0)⟩)) := by
  refine (State.arrive_serves .list _ h).trans ?_
  simp only [listArg_some hl hk, Ctl.answer_taken]
  rfl

end Arrivals

/-- Settles O22: QUERY by its form, and Table 13 with and without entry and claim. -/
theorem queryReportsEntryAndClaim : Obligations.QueryReportsEntryAndClaim := by
  unfold Obligations.QueryReportsEntryAndClaim
  refine fun p tag args s h => ⟨exec_query_badArg h, fun hl hk => ?_⟩
  rw [exec_query_answered h hl hk, Ctl.queryResult]
  cases s.ctl.lookup (halfAt args 0) with
  | none =>
    rw [queryEntry_none]
    cases s.ctl.claimOf (halfAt args 0) <;> rfl
  | some e =>
    rw [queryEntry, EntryKind.code_eq]
    cases s.ctl.claimOf (halfAt args 0) <;> rfl

/-- Settles O23: LIST by its form, its result, and the order of its keys. -/
theorem listReturnsTheNextKeys : Obligations.ListReturnsTheNextKeys := by
  unfold Obligations.ListReturnsTheNextKeys
  refine fun p tag args s h => ⟨exec_list_badArg h, fun hl hk => ⟨?result, fun hd => Ctl.keysAbove_ascending hd _⟩⟩
  case result =>
    rw [exec_list_answered h hl hk, Ctl.listResult_eq]
    rfl

end Sys2Proof.Machine
end

section
/-! SUPPORT. The law of the claim table (R139) under each change of it: a key's entry replaced or freed, the end of a hold, RESYNC,
a CLAIM's handling. The law of the credits counts waiting CLAIMs and rests on it. -/

namespace Sys2Proof.Machine

/-! ### One key's entry -/

/-- The law looks at the claim table alone. -/
theorem Ctl.claimLaw.of_claims {c d : Ctl} (h : c.claimLaw) (he : d.claims = c.claims) : d.claimLaw := by
  unfold Ctl.claimLaw
  rw [he]
  exact h

/-- A lawful table finds each of its entries by key. -/
theorem Ctl.claimLaw.claimOf_of_mem {c : Ctl} (h : c.claimLaw) {e : ClaimEntry} (he : e ∈ c.claims) :
    c.claimOf e.key = some e := by
  obtain ⟨_, hsorted, _⟩ := h
  unfold Ctl.claimOf
  generalize c.claims = l at he hsorted
  induction l with
  | nil => cases he
  | cons x t ih =>
    obtain ⟨hx, ht⟩ := List.pairwise_cons.1 hsorted
    rcases List.mem_cons.1 he with rfl | he
    · simp
    · have hne : x.key ≠ e.key := fun hk => Nat.lt_irrefl _ (hk ▸ hx e he)
      rw [List.find?_cons_of_neg (by simpa using hne)]
      exact ih he ht

theorem Ctl.claimLaw.lawful_of_claimOf {c : Ctl} (h : c.claimLaw) {k : Half} {e : ClaimEntry} (he : c.claimOf k = some e) :
    e.lawful := h.2.2 e (Ctl.claimOf_mem he)

/-- A lawful entry takes its key's place, or a place that is left. -/
theorem Ctl.claimLaw.put {c : Ctl} (h : c.claimLaw) (k : Half) {e : ClaimEntry} (he : e.lawful)
    (hroom : (∃ x ∈ c.claims, x.key = e.key) ∨ c.claims.length < Config.claimLimit) :
    (c.setClaim k (some e)).claimLaw := by
  obtain ⟨hlength, hsorted, hentries⟩ := h
  refine ⟨?_, insertBy_pairwise _ hsorted, fun x hx => ?_⟩
  · rcases hroom with ⟨x, hx, hk⟩ | hroom
    · exact (length_insertBy_old (fun x : ClaimEntry => x.key.toNat) hsorted ⟨x, hx, by rw [hk]⟩).trans_le hlength
    · exact (length_insertBy_le (fun x : ClaimEntry => x.key.toNat) e c.claims).trans hroom
  · rcases mem_insertBy _ hx with rfl | hx
    · exact he
    · exact hentries x hx

theorem Ctl.claimLaw.free {c : Ctl} (h : c.claimLaw) (k : Half) : (c.setClaim k none).claimLaw := by
  obtain ⟨hlength, hsorted, hentries⟩ := h
  exact ⟨(List.length_filter_le _ _).trans hlength, hsorted.filter _, fun x hx => hentries x (List.mem_of_mem_filter hx)⟩

/-- A key with an entry may have it replaced or freed. -/
theorem Ctl.claimLaw.setClaim {c : Ctl} (h : c.claimLaw) {k : Half} {e : ClaimEntry} (he : c.claimOf k = some e)
    {x : Option ClaimEntry} (hx : ∀ y, x = some y → y.lawful ∧ y.key = k) : (c.setClaim k x).claimLaw := by
  cases x with
  | none => exact h.free k
  | some y =>
    obtain ⟨hy, hk⟩ := hx y rfl
    exact h.put k hy (.inl ⟨e, Ctl.claimOf_mem he, by rw [hk, Ctl.claimOf_key he]⟩)

/-! ### The end of a hold -/

/-- The entry a promotion leaves: its holder was a waiter, its waiters stood behind it. -/
theorem Ctl.promote_entry {c : Ctl} {k : Half} {ws : List Waiter} {x : ClaimEntry} (h : (c.promote k ws).1 = some x) :
    ∃ refused w, ws = refused ++ w :: x.waiters ∧ x.key = k ∧ x.holder = w.port := by
  rcases c.promote_split k ws with hall | ⟨refused, w, rest, rfl, hr, hw⟩
  · rw [Ctl.promote_freed c k ws hall] at h
    cases h
  · rw [Ctl.promote_granted c k refused w rest hr hw] at h
    injection h with h
    exact h ▸ ⟨refused, w, rfl, rfl, rfl⟩

theorem ClaimEntry.lawful.promote {e x : ClaimEntry} (he : e.lawful) {c : Ctl} (h : (c.promote e.key e.waiters).1 = some x) :
    x.lawful ∧ x.key = e.key := by
  obtain ⟨refused, w, hws, hkey, hholder⟩ := Ctl.promote_entry h
  obtain ⟨hok, hlength, hports, _⟩ := he
  rw [hws] at hlength hports
  rw [List.map_append, List.map_cons, List.nodup_append, List.nodup_cons] at hports
  obtain ⟨_, ⟨hnot, hnodup⟩, _⟩ := hports
  rw [List.length_append, List.length_cons] at hlength
  exact ⟨⟨hkey ▸ hok, by omega, hnodup, hholder ▸ hnot⟩, hkey⟩

theorem Ctl.claimLaw.endHold {c : Ctl} (h : c.claimLaw) (k : Half) : (c.endHold k).claimLaw := by
  cases he : c.claimOf k with
  | none => exact (Ctl.endHold_none c he).symm ▸ h
  | some e =>
    rw [Ctl.endHold_eq c he]
    refine (h.setClaim he fun x hx => ?_).of_claims (Ctl.enterAll_claims _ _)
    have hk := Ctl.claimOf_key he
    exact hk ▸ (h.lawful_of_claimOf he).promote (by rw [hk]; exact hx)

theorem Ctl.claimLaw.freezeClaim {c : Ctl} (h : c.claimLaw) (k : Half) : (c.freezeClaim k).claimLaw := by
  unfold Ctl.freezeClaim
  split
  · exact (h.free k).of_claims (Ctl.enterAll_claims _ _)
  · exact h

/-! ### Waiters that leave -/

theorem ClaimEntry.lawful.withoutWaiter {e : ClaimEntry} (he : e.lawful) (p : Port) : (e.withoutWaiter p).lawful := by
  obtain ⟨hok, hlength, hports, hholder⟩ := he
  have hsub : ((e.withoutWaiter p).waiters.map Waiter.port).Sublist (e.waiters.map Waiter.port) :=
    List.filter_sublist.map _
  exact ⟨hok, (List.length_filter_le _ _).trans hlength, hsub.nodup hports, fun hm => hholder (hsub.subset hm)⟩

theorem Ctl.claimLaw.withdrawn {c : Ctl} (h : c.claimLaw) (p : Port) :
    Ctl.claimLaw { c with claims := c.claims.map fun e => e.withoutWaiter p } := by
  obtain ⟨hlength, hsorted, hentries⟩ := h
  refine ⟨(List.length_map _).trans_le hlength, List.pairwise_map.2 hsorted, fun x hx => ?_⟩
  obtain ⟨e, he, rfl⟩ := List.mem_map.1 hx
  exact (hentries e he).withoutWaiter p

theorem Ctl.claimLaw.endHolds {c : Ctl} (h : c.claimLaw) (l : List Half) : (l.foldl Ctl.endHold c).claimLaw := by
  induction l generalizing c with
  | nil => exact h
  | cons k t ih => exact ih (h.endHold k)

theorem Ctl.claimLaw.resyncClaims {c : Ctl} (h : c.claimLaw) (p : Port) : (c.resyncClaims p).claimLaw :=
  (h.withdrawn p).endHolds _

theorem Ctl.claimLaw.endWait {c : Ctl} (h : c.claimLaw) {e : ClaimEntry} (he : c.claimOf e.key = some e) (p : Port)
    (st : Status) : (c.endWait e p st).claimLaw := by
  refine (h.setClaim he fun y hy => ?_).of_claims (Ctl.enterAll_claims _ _)
  injection hy with hy
  exact hy ▸ ⟨(h.lawful_of_claimOf he).withoutWaiter p, rfl⟩

/-! ### A CLAIM's handling (Table 31) -/

theorem ClaimEntry.lawful.renewed {e : ClaimEntry} (he : e.lawful) (hold : Half) :
    ClaimEntry.lawful { e with hold := hold } := he

/-- A port that neither holds nor waits joins a waiter list that is not full. -/
theorem ClaimEntry.lawful.joined {e : ClaimEntry} (he : e.lawful) {w : Waiter} (hholder : e.holder ≠ w.port)
    (hwaits : e.waits w.port = false) (hroom : e.waiters.length < Config.waiterLimit) :
    ClaimEntry.lawful { e with waiters := e.waiters ++ [w] } := by
  obtain ⟨hok, _, hports, hnot⟩ := he
  have hnew : w.port ∉ e.waiters.map Waiter.port := fun hm => by
    obtain ⟨x, hx, hp⟩ := List.mem_map.1 hm
    have := List.any_eq_false.1 hwaits x hx
    simp [hp] at this
  refine ⟨hok, ?_, ?_, ?_⟩
  · rw [List.length_append]
    exact hroom
  · rw [List.map_append]
    exact hports.append (List.nodup_singleton _) (by simpa using hnew)
  · rw [List.map_append, List.mem_append]
    rintro (hm | hm)
    · exact hnot hm
    · exact hholder (List.mem_singleton.1 hm)

/-- What the handling of a CLAIM makes of everything but the array: an answer alone, an answer after a change of the key's entry
that leaves its waiters, or one waiter more of the port. -/
inductive Ctl.ClaimHandled (c : Ctl) (p : Port) (tag : Byte) : Ctl → Prop where
  | answered (st : Status) (result : List Byte) : ClaimHandled c p tag (c.answer p .claim tag st result)
  | created (e : ClaimEntry) (result : List Byte) (hnone : c.claimOf e.key = none) (hw : e.waiters = [])
      (hroom : c.claims.length < Config.claimLimit) (he : e.lawful) :
      ClaimHandled c p tag ((c.setClaim e.key (some e)).answer p .claim tag .ok result)
  | renewed (e : ClaimEntry) (hold : Half) (result : List Byte) (hc : c.claimOf e.key = some e) :
      ClaimHandled c p tag ((c.setClaim e.key (some { e with hold := hold })).answer p .claim tag .ok result)
  | joined (e : ClaimEntry) (w : Waiter) (hp : w.port = p) (hc : c.claimOf e.key = some e) (hholder : e.holder ≠ w.port)
      (hwaits : e.waits w.port = false) (hroom : e.waiters.length < Config.waiterLimit) :
      ClaimHandled c p tag (c.setClaim e.key (some { e with waiters := e.waiters ++ [w] }))

theorem Ctl.handleClaim_cases (c : Ctl) (p : Port) (tag : Byte) {k : Half} (hk : keyOk k = true) (hold wait : Half) :
    c.ClaimHandled p tag (c.handleClaim p tag k hold wait) := by
  unfold Ctl.handleClaim
  split
  · exact .answered _ _
  · split
    · next hnone =>
      split
      · exact .answered _ _
      · next hroom =>
        exact .created ⟨k, p, hold, []⟩ _ hnone rfl (Nat.not_le.1 hroom)
          ⟨hk, Nat.zero_le _, List.nodup_nil, List.not_mem_nil⟩
    · next e he =>
      have hc : c.claimOf e.key = some e := by rw [Ctl.claimOf_key he]; exact he
      unfold Ctl.claimHeld
      split
      · exact .renewed e hold _ hc
      · next hholder =>
        split
        · exact .answered _ _
        · split
          · exact .answered _ _
          · next hwaits =>
            split
            · exact .answered _ _
            · next hroom =>
              exact .joined e ⟨p, tag, hold, wait⟩ rfl hc hholder (Bool.not_eq_true _ ▸ hwaits) (Nat.not_le.1 hroom)

theorem Ctl.claimLaw.handled {c d : Ctl} (h : c.claimLaw) {p : Port} {tag : Byte} (hd : c.ClaimHandled p tag d) :
    d.claimLaw := by
  cases hd with
  | answered => exact h
  | created e result hnone hw hroom he => exact h.put e.key he (.inr hroom)
  | renewed e hold result hc => exact h.put e.key ((h.lawful_of_claimOf hc).renewed hold) (.inl ⟨e, Ctl.claimOf_mem hc, rfl⟩)
  | joined e w hp hc hholder hwaits hroom =>
    exact h.put e.key ((h.lawful_of_claimOf hc).joined hholder hwaits hroom) (.inl ⟨e, Ctl.claimOf_mem hc, rfl⟩)

end Sys2Proof.Machine
end

section
/-! SUPPORT. The credits (R65) under the changes that steps and arrivals make: each port's outstanding count covers what it is owed,
the operation executing counted apart, so that a response may enter before its step has ended. -/

namespace Sys2Proof.Machine

/-! ### What a port is owed -/

/-- The waiters of a claim entry that are port `q`'s. -/
def ClaimEntry.waiting (e : ClaimEntry) (q : Port) : Nat := e.waiters.countP fun w => w.port = q

/-- The CLAIMs of port `q` that wait. -/
def Ctl.claimsWaiting (c : Ctl) (q : Port) : Nat := (c.claims.map fun e => e.waiting q).sum

/-- Port `q`'s requests of a COMPACT request list that are to be answered. -/
def compactsOf (l : List CompactReq) (q : Port) : Nat := l.countP fun r => r.port = q && !r.discard

/-- What port `q` has accepted and not yet collected, but for its operation executing. -/
def Ctl.debt (c : Ctl) (q : Port) : Nat :=
  (c.port q).queue.length + (c.requests q).length + compactsOf c.sched.compactList q + c.claimsWaiting q

/-- The operation executing, counted for its port. -/
def Ctl.executing (c : Ctl) (q : Port) : Nat := if c.sched.current.isOf q then 1 else 0

theorem Ctl.owed_eq (c : Ctl) (q : Port) : c.owed q = c.debt q + c.executing q := by
  show (c.port q).queue.length + (c.requests q).length + c.executing q + compactsOf c.sched.compactList q + c.claimsWaiting q = _
  unfold Ctl.debt
  omega

/-- Port `q`'s outstanding count covers its debt and `n` more; its list and its readout are as the credit law has them. -/
def Ctl.coversAt (c : Ctl) (q : Port) (n : Nat) : Prop :=
  c.debt q + n ≤ (c.port q).outstanding ∧ (c.port q).outstanding ≤ Config.creditLimit ∧ (∀ r ∈ c.requests q, r.port = q)
    ∧ ∀ rest, (c.port q).rx = .readout (.collect true) rest → (c.port q).queue ≠ []

/-- Every port's outstanding count covers its debt and what `w` gives for it. -/
def Ctl.covers (c : Ctl) (w : Port → Nat) : Prop := c.claimLaw ∧ ∀ q, c.coversAt q (w q)

/-- The law of the credits: the debts and the operation executing are covered. -/
theorem Ctl.creditLaw_iff (c : Ctl) : c.creditLaw ↔ c.covers c.executing := by
  unfold Ctl.creditLaw Ctl.creditLawAt Ctl.covers Ctl.coversAt
  simp only [Ctl.owed_eq]

theorem Ctl.executing_of_sched {c d : Ctl} (h : d.sched.current = c.sched.current) : d.executing = c.executing := by
  unfold Ctl.executing
  rw [h]

/-- With the step under way unchanged, covering is the law. -/
theorem Ctl.covers.law {c d : Ctl} (h : d.covers c.executing) (hs : d.sched.current = c.sched.current) : d.creditLaw := by
  rw [Ctl.creditLaw_iff, Ctl.executing_of_sched hs]
  exact h

/-- One for port `p`, and nothing for the others. -/
def oneAt (p q : Port) : Nat := if p = q then 1 else 0

@[simp] theorem oneAt_self (p : Port) : oneAt p p = 1 := if_pos rfl

/-- One is counted where the port counted is the port asked for. -/
theorem ite_eq_oneAt (p q : Port) : (if decide (p = q) = true then 1 else 0) = oneAt p q := by
  simp only [oneAt, decide_eq_true_eq]

theorem Ctl.covers.le {c : Ctl} {w w' : Port → Nat} (h : c.covers w) (hw : ∀ q, w' q ≤ w q) : c.covers w' := by
  obtain ⟨hclaims, hports⟩ := h
  refine ⟨hclaims, fun q => ?_⟩
  obtain ⟨hcredit, hrest⟩ := hports q
  exact ⟨(Nat.add_le_add_left (hw q) _).trans hcredit, hrest⟩

/-! ### One Port Unit -/

/-- A Port Unit's change is covered when its queue, its count and what is asked for it balance. -/
theorem Ctl.covers.onPort {c : Ctl} {w w' : Port → Nat} (h : c.covers w) {p : Port} {g : PortUnit → PortUnit}
    (hw : ∀ q, q ≠ p → w' q ≤ w q)
    (hbalance : (g (c.port p)).queue.length + w' p + (c.port p).outstanding
      ≤ (c.port p).queue.length + w p + (g (c.port p)).outstanding)
    (hlimit : (g (c.port p)).outstanding ≤ Config.creditLimit)
    (hshown : ∀ rest, (g (c.port p)).rx = .readout (.collect true) rest → (g (c.port p)).queue ≠ []) :
    (c.onPort p g).covers w' := by
  obtain ⟨hclaims, hports⟩ := h
  refine ⟨hclaims, fun q => ?_⟩
  obtain ⟨hcredit, hmost, hown, hreads⟩ := hports q
  unfold Ctl.coversAt Ctl.debt at *
  by_cases hq : q = p
  · subst hq
    rw [Ctl.port_onPort_same]
    refine ⟨?_, hlimit, hown, hshown⟩
    show _ + (c.requests q).length + compactsOf c.sched.compactList q + c.claimsWaiting q + _ ≤ _
    omega
  · rw [Ctl.port_onPort_other _ hq]
    refine ⟨?_, hmost, hown, hreads⟩
    exact (Nat.add_le_add_left (hw q hq) _).trans hcredit

/-- A change of a Port Unit that leaves queue and credits, and begins no readout of a response. -/
theorem Ctl.covers.onPort_quiet {c : Ctl} {w : Port → Nat} (h : c.covers w) {p : Port} {g : PortUnit → PortUnit}
    (hqueue : (g (c.port p)).queue = (c.port p).queue) (hcount : (g (c.port p)).outstanding = (c.port p).outstanding)
    (hrx : (g (c.port p)).rx = (c.port p).rx ∨ ∀ rest, (g (c.port p)).rx ≠ .readout (.collect true) rest) :
    (c.onPort p g).covers w := by
  obtain ⟨_, hlimit, _, hshown⟩ := h.2 p
  refine h.onPort (fun _ _ => Nat.le_refl _) (by rw [hqueue, hcount]) (hcount ▸ hlimit) fun rest hr => ?_
  rw [hqueue]
  rcases hrx with hrx | hrx
  · exact hshown rest (hrx ▸ hr)
  · exact absurd hr (hrx rest)

/-- A response that enters is no longer asked for. -/
theorem Ctl.covers.enter {c : Ctl} {w : Port → Nat} {p : Port} (h : c.covers (w + oneAt p)) (r : Response) :
    (c.enter p r).covers w := by
  obtain ⟨_, hlimit, _⟩ := h.2 p
  refine h.onPort (fun q _ => Nat.le_add_right _ _) ?_ hlimit fun _ _ => by simp
  simp only [Pi.add_apply, oneAt_self, List.length_append, List.length_singleton]
  omega

/-- The responses of a list that are port `q`'s. -/
def told (rs : List (Port × Response)) (q : Port) : Nat := rs.countP fun r => r.1 = q

theorem told_cons (r : Port × Response) (t : List (Port × Response)) : told (r :: t) = told t + oneAt r.1 := by
  funext q
  rw [Pi.add_apply, told, List.countP_cons, ite_eq_oneAt]
  rfl

theorem Ctl.covers.enterAll {c : Ctl} {w : Port → Nat} {rs : List (Port × Response)} (h : c.covers (w + told rs)) :
    (c.enterAll rs).covers w := by
  induction rs generalizing c with
  | nil => exact h
  | cons r t ih =>
    rw [told_cons, ← add_assoc] at h
    exact ih (h.enter r.2)

/-- A credit returned is no longer asked for. -/
theorem Ctl.covers.dropCredit {c : Ctl} {w : Port → Nat} {p : Port} (h : c.covers (w + oneAt p)) :
    (c.dropCredit p).covers w := by
  obtain ⟨hcredit, hlimit, _, hshown⟩ := h.2 p
  simp only [Pi.add_apply, oneAt_self] at hcredit
  refine h.onPort (fun q _ => Nat.le_add_right _ _) ?_ (Nat.le_trans (Nat.sub_le _ _) hlimit) hshown
  simp only [Pi.add_apply, oneAt_self]
  omega

/-! ### Lists -/

/-- A port's list replaced by requests of its own. -/
theorem Ctl.covers.setRequests {c : Ctl} {w w' : Port → Nat} (h : c.covers w) {p : Port} {l : List Request}
    (hw : ∀ q, q ≠ p → w' q ≤ w q) (hbalance : l.length + w' p ≤ (c.requests p).length + w p)
    (hown : ∀ r ∈ l, r.port = p) : (c.setRequests p l).covers w' := by
  obtain ⟨hclaims, hports⟩ := h
  refine ⟨hclaims, fun q => ?_⟩
  obtain ⟨hcredit, hlimit, hmine, hshown⟩ := hports q
  unfold Ctl.coversAt Ctl.debt at *
  by_cases hq : q = p
  · subst hq
    rw [Ctl.requests_setRequests_same]
    refine ⟨?_, hlimit, hown, hshown⟩
    show (c.port q).queue.length + _ + compactsOf c.sched.compactList q + c.claimsWaiting q + _ ≤ (c.port q).outstanding
    omega
  · rw [Ctl.requests_setRequests_other _ hq]
    exact ⟨(Nat.add_le_add_left (hw q hq) _).trans hcredit, hlimit, hmine, hshown⟩

/-- The COMPACT request list replaced. -/
theorem Ctl.covers.setCompacts {c : Ctl} {w w' : Port → Nat} (h : c.covers w) {l : List CompactReq}
    (hbalance : ∀ q, compactsOf l q + w' q ≤ compactsOf c.sched.compactList q + w q) :
    Ctl.covers { c with sched := { c.sched with compactList := l } } w' := by
  obtain ⟨hclaims, hports⟩ := h
  refine ⟨hclaims, fun q => ?_⟩
  obtain ⟨hcredit, hrest⟩ := hports q
  have hq := hbalance q
  unfold Ctl.debt at hcredit
  refine ⟨?_, hrest⟩
  show (c.port q).queue.length + (c.requests q).length + compactsOf l q + c.claimsWaiting q + _ ≤ (c.port q).outstanding
  omega

/-- Answers to a COMPACT request list: one for each request to be answered. -/
theorem told_compactAnswers (l : List CompactReq) (f : CompactReq → Status × List Byte) (q : Port) :
    told (compactAnswers l f) q = compactsOf l q := by
  unfold told compactAnswers compactsOf
  rw [List.countP_map, List.countP_filter]
  rfl

theorem Ctl.enterAll_withSched (c : Ctl) (rs : List (Port × Response)) (s : Sched) :
    ({ c.enterAll rs with sched := s } : Ctl) = Ctl.enterAll { c with sched := s } rs := by
  induction rs generalizing c with
  | nil => rfl
  | cons r t ih => exact ih (c.enter r.1 r.2)

/-- Requests of the COMPACT request list that are answered leave it. -/
theorem Ctl.covers.answered {c : Ctl} {w : Port → Nat} (h : c.covers w) {gone left : List CompactReq}
    (f : CompactReq → Status × List Byte)
    (hsplit : ∀ q, compactsOf left q + compactsOf gone q = compactsOf c.sched.compactList q) :
    Ctl.covers { c.enterAll (compactAnswers gone f) with sched := { c.sched with compactList := left } } w := by
  rw [Ctl.enterAll_withSched]
  refine Ctl.covers.enterAll (h.setCompacts fun q => ?_)
  rw [Pi.add_apply, told_compactAnswers, ← hsplit q]
  omega

theorem Ctl.covers.answerCompactList {c : Ctl} {w : Port → Nat} (h : c.covers w) (st : Status) :
    (c.answerCompactList st).covers w := by
  rw [Ctl.answerCompactList_eq]
  exact h.answered _ fun q => Nat.zero_add _

theorem Ctl.covers.answerAllZero {c : Ctl} {w : Port → Nat} (h : c.covers w) : c.answerAllZero.covers w := by
  rw [Ctl.answerAllZero_eq]
  exact h.answered _ fun q => Nat.zero_add _

theorem Ctl.covers.answerTied {c : Ctl} {w : Port → Nat} (h : c.covers w) (n : Nat) : (c.answerTied n).covers w := by
  rw [Ctl.answerTied_eq]
  refine h.answered _ fun q => ?_
  unfold compactsOf
  induction c.sched.compactList with
  | nil => rfl
  | cons r t ih =>
    cases ht : r.tied <;> simp only [List.filter_cons, ht, List.countP_cons, Bool.not_true, Bool.not_false, if_true,
      Bool.false_eq_true, if_false] <;> omega

/-- Tying a request changes neither its port nor its mark. -/
theorem compactsOf_tieOldest (l : List CompactReq) (q : Port) : compactsOf (tieOldest l) q = compactsOf l q := by
  induction l with
  | nil => rfl
  | cons r t ih =>
    rw [tieOldest]
    split
    · exact (List.countP_cons ..).trans ((congrArg (· + _) ih).trans (List.countP_cons ..).symm)
    · rfl

/-! ### The claim table -/

/-- The waiters that an entry, if there is one, has of port `q`. -/
def waitingIn (x : Option ClaimEntry) (q : Port) : Nat := x.elim 0 fun e => e.waiting q

/-- In a table of distinct keys an entry freed takes its share away. -/
theorem sum_freed {α : Type} (f : α → Nat) {keep : α → Bool} {l : List α} {e : α} (he : e ∈ l) (hk : keep e = false) :
    ((l.filter keep).map f).sum + f e ≤ (l.map f).sum := by
  induction l with
  | nil => cases he
  | cons x t ih =>
    have htail : ((t.filter keep).map f).sum ≤ (t.map f).sum := (List.filter_sublist.map f).sum_le_sum fun _ _ => Nat.zero_le _
    rcases List.mem_cons.1 he with rfl | he
    · rw [List.filter_cons_of_neg (by simp [hk]), List.map_cons, List.sum_cons]
      omega
    · have := ih he
      rw [List.filter_cons]
      split <;> simp only [List.map_cons, List.sum_cons] <;> omega

/-- A key's claim entry replaced or freed: the waiters it loses may be asked for. -/
theorem Ctl.covers.setClaim {c : Ctl} {w w' : Port → Nat} (h : c.covers w) {k : Half} {e : ClaimEntry}
    (he : c.claimOf k = some e) {x : Option ClaimEntry} (hx : ∀ y, x = some y → y.lawful ∧ y.key = k)
    (hbalance : ∀ q, waitingIn x q + w' q ≤ e.waiting q + w q) : (c.setClaim k x).covers w' := by
  obtain ⟨hclaims, hports⟩ := h
  refine ⟨hclaims.setClaim he hx, fun q => ?_⟩
  obtain ⟨hcredit, hrest⟩ := hports q
  have hsum : (c.setClaim k x).claimsWaiting q + e.waiting q ≤ c.claimsWaiting q + waitingIn x q := by
    cases x with
    | none => exact sum_freed (·.waiting q) (keep := fun e => decide (e.key ≠ k)) (Ctl.claimOf_mem he) (by simp [Ctl.claimOf_key he])
    | some y =>
      have hk : e.key.toNat = y.key.toNat := by rw [(hx y rfl).2, Ctl.claimOf_key he]
      exact (sum_insertBy_old (fun x : ClaimEntry => x.key.toNat) (·.waiting q) hclaims.2.1 (Ctl.claimOf_mem he) hk).le
  have hq := hbalance q
  unfold Ctl.coversAt Ctl.debt at *
  simp only [Ctl.port_setClaim, Ctl.requests_setClaim, Ctl.setClaim_sched]
  refine ⟨?_, hrest⟩
  omega

/-- A claim created without waiters. -/
theorem Ctl.covers.newClaim {c : Ctl} {w : Port → Nat} (h : c.covers w) {e : ClaimEntry} (hw : e.waiters = [])
    (hlaw : (c.setClaim e.key (some e)).claimLaw) : (c.setClaim e.key (some e)).covers w := by
  obtain ⟨_, hports⟩ := h
  refine ⟨hlaw, fun q => ?_⟩
  obtain ⟨hcredit, hrest⟩ := hports q
  have hsum : (c.setClaim e.key (some e)).claimsWaiting q ≤ c.claimsWaiting q := by
    have hle := sum_insertBy_le (fun x : ClaimEntry => x.key.toNat) (x := e) (l := c.claims) (·.waiting q)
    have hzero : e.waiting q = 0 := by rw [ClaimEntry.waiting, hw]; rfl
    exact hle.trans_eq (by rw [hzero]; rfl)
  exact ⟨(Nat.add_le_add_right (Nat.add_le_add_left hsum _) _).trans hcredit, hrest⟩

/-- A promotion answers each waiter it takes off the list. -/
theorem Ctl.told_promote (c : Ctl) (k : Half) (ws : List Waiter) (q : Port) :
    waitingIn (c.promote k ws).1 q + told (c.promote k ws).2 q = ws.countP fun w => w.port = q := by
  induction ws with
  | nil => rfl
  | cons w t ih =>
    rw [Ctl.promote, List.countP_cons, ite_eq_oneAt]
    split
    · rw [told_cons, Pi.add_apply]
      show _ + (0 + oneAt w.port q) = _
      rw [Nat.zero_add]
      rfl
    · rw [told_cons, Pi.add_apply, ← ih]
      exact (Nat.add_assoc _ _ _).symm

theorem Ctl.covers.endHold {c : Ctl} {w : Port → Nat} (h : c.covers w) (k : Half) : (c.endHold k).covers w := by
  cases he : c.claimOf k with
  | none => exact (Ctl.endHold_none c he).symm ▸ h
  | some e =>
    rw [Ctl.endHold_eq c he]
    have hk := Ctl.claimOf_key he
    refine Ctl.covers.enterAll (h.setClaim he (fun x hx => ?_) fun q => ?_)
    · exact hk ▸ (h.1.lawful_of_claimOf he).promote (by rw [hk]; exact hx)
    · have := c.told_promote k e.waiters q
      rw [Pi.add_apply, ClaimEntry.waiting]
      omega

theorem told_waiters (l : List Waiter) (f : Waiter → Response) (q : Port) :
    told (l.map fun w => (w.port, f w)) q = l.countP fun w => w.port = q := by
  rw [told, List.countP_map]
  rfl

theorem Ctl.covers.freezeClaim {c : Ctl} {w : Port → Nat} (h : c.covers w) (k : Half) : (c.freezeClaim k).covers w := by
  unfold Ctl.freezeClaim
  split
  · next e he =>
    refine Ctl.covers.enterAll (h.setClaim he (fun _ hx => nomatch hx) fun q => ?_)
    rw [Pi.add_apply, told_waiters, waitingIn, Option.elim_none, ClaimEntry.waiting]
    omega
  · exact h

theorem Ctl.covers.releaseHold {c : Ctl} {w : Port → Nat} (h : c.covers w) (p : Port) (k : Half) :
    (c.releaseHold p k).covers w := by
  unfold Ctl.releaseHold
  split
  · split
    · exact h.endHold k
    · exact h
  · exact h

theorem Ctl.covers.endHolds {c : Ctl} {w : Port → Nat} (h : c.covers w) (l : List Half) :
    (l.foldl Ctl.endHold c).covers w := by
  induction l generalizing c with
  | nil => exact h
  | cons k t ih => exact ih (h.endHold k)

/-- A waiter entry that ends is answered. -/
theorem Ctl.covers.endWait {c : Ctl} {w : Port → Nat} (h : c.covers w) {e : ClaimEntry} (he : c.claimOf e.key = some e)
    (p : Port) (st : Status) : (c.endWait e p st).covers w := by
  refine Ctl.covers.enterAll (h.setClaim he (fun y hy => ?_) fun q => ?_)
  · injection hy with hy
    exact hy ▸ ⟨(h.1.lawful_of_claimOf he).withoutWaiter p, rfl⟩
  · have htold : told ((e.waiters.filter fun x => x.port = p).map fun x => (p, x.response st [])) q
        = (e.waiters.filter fun x => x.port = p).countP fun x => x.port = q := by
      rw [told, List.countP_map]
      refine List.countP_congr fun x hx => ?_
      have hp : x.port = p := by simpa using (List.mem_filter.1 hx).2
      simp [hp]
    rw [Pi.add_apply, htold]
    simp only [waitingIn, Option.elim_some, ClaimEntry.waiting, ClaimEntry.withoutWaiter]
    have hsplit := List.countP_eq_countP_filter_add e.waiters (fun x => decide (x.port = q)) (fun x => decide (x.port = p))
    simp only [ne_eq, decide_not] at *
    omega

end Sys2Proof.Machine
end

section
/-! SUPPORT. RESYNC of a port (R76, R77): its parts that stand apart from the claim table are done before the claims, so that the
Claim Unit's part is a change of claims and queues alone. -/

namespace Sys2Proof.Machine

/-! ### Changes that stand apart from the claim table -/

/-- `f` neither reads nor changes the claim table and the response queues, and leaves the rights as they are. -/
structure Ctl.Apart (f : Ctl → Ctl) : Prop where
  enter : ∀ c q r, (f c).enter q r = f (c.enter q r)
  withClaims : ∀ (c : Ctl) l, ({ f c with claims := l } : Ctl) = f { c with claims := l }
  claims : ∀ c, (f c).claims = c.claims
  rights : ∀ c q k, (f c).writeRefusal q k = c.writeRefusal q k

namespace Ctl.Apart

variable {f : Ctl → Ctl} (h : Ctl.Apart f)

include h

theorem claimOf (c : Ctl) (k : Half) : (f c).claimOf k = c.claimOf k := by
  unfold Ctl.claimOf
  rw [h.claims]

theorem setClaim (c : Ctl) (k : Half) (x : Option ClaimEntry) : (f c).setClaim k x = f (c.setClaim k x) := by
  cases x <;> simp only [Ctl.setClaim, h.claims, h.withClaims]

theorem promote (c : Ctl) (k : Half) (ws : List Waiter) : (f c).promote k ws = c.promote k ws := by
  induction ws with
  | nil => rfl
  | cons w t ih => simp only [Ctl.promote, h.rights, ih]

theorem enterAll (c : Ctl) (rs : List (Port × Response)) : (f c).enterAll rs = f (c.enterAll rs) := by
  induction rs generalizing c with
  | nil => rfl
  | cons r t ih => exact (congrArg (Ctl.enterAll · t) (h.enter c r.1 r.2)).trans (ih _)

theorem endHold (c : Ctl) (k : Half) : (f c).endHold k = f (c.endHold k) := by
  cases he : c.claimOf k with
  | none => rw [Ctl.endHold_none c he, Ctl.endHold_none _ ((h.claimOf c k).trans he)]
  | some e => rw [Ctl.endHold_eq c he, Ctl.endHold_eq _ ((h.claimOf c k).trans he), h.promote, h.setClaim, h.enterAll]

theorem endHolds (c : Ctl) (l : List Half) : l.foldl Ctl.endHold (f c) = f (l.foldl Ctl.endHold c) := by
  induction l generalizing c with
  | nil => rfl
  | cons k t ih => exact (congrArg (t.foldl Ctl.endHold) (h.endHold c k)).trans (ih _)

theorem resyncClaims (c : Ctl) (p : Port) : (f c).resyncClaims p = f (c.resyncClaims p) := by
  simp only [Ctl.resyncClaims, h.claims, h.withClaims]
  exact h.endHolds _ _

end Ctl.Apart

theorem Ctl.apart_onNotif (p : Port) (g : NotifUnit → NotifUnit) : Ctl.Apart fun c => c.onNotif p g :=
  ⟨fun _ _ _ => rfl, fun _ _ => rfl, fun _ => rfl, fun _ _ _ => rfl⟩

/-- Changes of two Port Units are made in either order. -/
theorem Ctl.onPort_comm (c : Ctl) {p q : Port} (h : q ≠ p) (f g : PortUnit → PortUnit) :
    (c.onPort p f).onPort q g = (c.onPort q g).onPort p f := by
  unfold Ctl.onPort
  have hp := Ctl.port_onPort_other c h f
  have hq := Ctl.port_onPort_other c h.symm g
  unfold Ctl.onPort at hp hq
  rw [hp, hq, PerPort.set_comm _ h.symm]

/-- A change of a port's lines: it neither reads nor changes the response queue. -/
structure LineChange (g : PortUnit → PortUnit) : Prop where
  queue : ∀ u, (g u).queue = u.queue
  withQueue : ∀ u l, g { u with queue := l } = { g u with queue := l }

theorem Ctl.apart_onPort (p : Port) {g : PortUnit → PortUnit} (h : LineChange g) : Ctl.Apart fun c => c.onPort p g where
  enter c q r := by
    by_cases hq : q = p
    · subst hq
      unfold Ctl.enter
      rw [Ctl.onPort_onPort, Ctl.onPort_onPort]
      refine Ctl.onPort_congr _ _ _ _ (Eq.trans ?_ (h.withQueue _ _).symm)
      simp only [h.queue]
    · exact Ctl.onPort_comm c hq _ _
  withClaims _ _ := rfl
  claims _ := rfl
  rights _ _ _ := rfl

/-! ### RESYNC, its claims last -/

/-- RESYNC but for the claims and the notices, with a change of the port's lines. -/
def Ctl.cleared (c : Ctl) (p : Port) (g : PortUnit → PortUnit) : Ctl := ((c.resyncPort p).resyncSched p).onPort p g

/-- RESYNC and a change of the port's lines after it: the claims and the notices come last. -/
theorem Ctl.resync_line (c : Ctl) (p : Port) {g : PortUnit → PortUnit} (h : LineChange g) :
    (c.resync p).onPort p g
      = ((c.cleared p g).resyncClaims p).onNotif p fun u => { NotifUnit.reset with selection := u.selection } := by
  rw [Ctl.cleared, (Ctl.apart_onPort p h).resyncClaims ((c.resyncPort p).resyncSched p) p]
  rfl

theorem CurrentStep.isOf_markDiscard (x : CurrentStep) (p q : Port) : (x.markDiscard p).isOf q = x.isOf q := by
  cases x with
  | port req act => by_cases hp : req.port = p <;> simp [CurrentStep.markDiscard, CurrentStep.isOf, hp]
  | _ => rfl

end Sys2Proof.Machine
end

section
/-! PROOF. The law of the credits under every command (R65): each change of a step, each arrival and each event of a port's lines
leaves every port's outstanding count covering what it is owed. -/

namespace Sys2Proof.Machine

/-! ### RESYNC and disable -/

theorem ClaimEntry.waiting_withoutWaiter (e : ClaimEntry) (p q : Port) :
    (e.withoutWaiter p).waiting q = if q = p then 0 else e.waiting q := by
  unfold ClaimEntry.waiting ClaimEntry.withoutWaiter
  rw [List.countP_filter]
  split
  · next hq =>
    subst hq
    exact List.countP_eq_zero.2 fun w _ => by simp
  · next hq =>
    refine List.countP_congr fun w _ => ?_
    simp only [Bool.and_eq_true, decide_eq_true_eq]
    exact ⟨And.left, fun hw => ⟨hw, fun hp => hq (hw.symm.trans hp)⟩⟩

/-- After RESYNC at the COMPACT request list a port is owed no answer there, and every other port as before. -/
theorem compactsOf_resync (l : List CompactReq) (p q : Port) :
    compactsOf (resyncCompactList l p) q = if q = p then 0 else compactsOf l q := by
  unfold compactsOf resyncCompactList
  rw [List.countP_map, List.countP_filter]
  split
  · next hq =>
    subst hq
    refine List.countP_eq_zero.2 fun r _ => ?_
    by_cases hr : r.port = q <;> simp [hr]
  · next hq =>
    refine List.countP_congr fun r _ => ?_
    by_cases hr : r.port = p
    · simp [hr, Ne.symm hq]
    · simp [hr]

theorem Ctl.claimsWaiting_withdrawn (c : Ctl) (p q : Port) :
    Ctl.claimsWaiting { c with claims := c.claims.map fun e => e.withoutWaiter p } q
      = if q = p then 0 else c.claimsWaiting q := by
  simp only [Ctl.claimsWaiting, List.map_map, Function.comp_def, ClaimEntry.waiting_withoutWaiter]
  split
  · simp
  · rfl

section Resync

variable {g : PortUnit → PortUnit} (hg : LineChange g) (hcount : ∀ u, (g u).outstanding = u.outstanding)
  (hrx : ∀ u rest, (g u).rx ≠ .readout (.collect true) rest)

include hg hcount hrx

/-- A port cleared has its operation executing covered and owes nothing else; the other ports are as they were. -/
theorem Ctl.covers.cleared {c : Ctl} (h : c.covers c.executing) (p : Port) :
    Ctl.covers { c.cleared p g with claims := c.claims.map fun e => e.withoutWaiter p } c.executing := by
  obtain ⟨hclaims, hports⟩ := h
  refine ⟨(hclaims.withdrawn p).of_claims rfl, fun q => ?_⟩
  obtain ⟨hcredit, hlimit, hown, hshown⟩ := hports q
  unfold Ctl.coversAt Ctl.debt
  show ((c.cleared p g).port q).queue.length + ((c.sched.lists.set p []).get q).length
      + compactsOf (resyncCompactList c.sched.compactList p) q
      + Ctl.claimsWaiting { c with claims := c.claims.map fun e => e.withoutWaiter p } q + c.executing q
        ≤ ((c.cleared p g).port q).outstanding ∧ ((c.cleared p g).port q).outstanding ≤ Config.creditLimit
      ∧ (∀ r ∈ (c.sched.lists.set p []).get q, r.port = q)
      ∧ ∀ rest, ((c.cleared p g).port q).rx = .readout (.collect true) rest → ((c.cleared p g).port q).queue ≠ []
  rw [compactsOf_resync, Ctl.claimsWaiting_withdrawn]
  by_cases hq : q = p
  · subst hq
    rw [PerPort.get_set_same, if_pos rfl, if_pos rfl, Ctl.cleared, Ctl.port_onPort_same, hg.queue, hcount]
    have hport : ((c.resyncPort q).resyncSched q).port q = (c.resyncPort q).port q := rfl
    rw [hport, Ctl.resyncPort, Ctl.port_onPort_same]
    refine ⟨?_, ?_, fun r hr => absurd hr List.not_mem_nil, fun rest hr => absurd hr (hrx _ rest)⟩
    · show 0 + 0 + 0 + 0 + c.executing q ≤ c.executing q
      omega
    · show c.executing q ≤ 4
      unfold Ctl.executing
      split <;> omega
  · have hport : (c.cleared p g).port q = c.port q := by
      rw [Ctl.cleared, Ctl.port_onPort_other _ hq]
      show (c.resyncPort p).port q = _
      rw [Ctl.resyncPort, Ctl.port_onPort_other _ hq]
    rw [PerPort.get_set_other _ hq, if_neg hq, if_neg hq, hport]
    exact ⟨hcredit, hlimit, hown, hshown⟩

/-- RESYNC of a port keeps the law, with a change of its lines that leaves no readout of a response. -/
theorem Ctl.creditLaw.resync_line {c : Ctl} (h : c.creditLaw) (p : Port) : ((c.resync p).onPort p g).creditLaw := by
  rw [Ctl.creditLaw_iff] at h
  rw [Ctl.resync_line c p hg]
  have hcovers : ((c.cleared p g).resyncClaims p).covers c.executing := (h.cleared hg hcount hrx p).endHolds _
  rw [Ctl.creditLaw_iff]
  have hexec : ((c.cleared p g).resyncClaims p).executing = c.executing := by
    funext q
    unfold Ctl.executing
    rw [Ctl.resyncClaims_sched]
    exact congrArg (fun b : Bool => if b then 1 else 0) (c.sched.current.isOf_markDiscard p q)
  exact hexec.symm ▸ hcovers

end Resync

/-! ### The changes of a step -/

theorem Ctl.covers.enterReadOnly {c : Ctl} {w : Port → Nat} (h : c.covers w) (r : Reason) : (c.enterReadOnly r).covers w := by
  have hmode : Ctl.covers { c with sched := { c.sched with mode := .readOnly, reason := r } } w := h
  unfold Ctl.enterReadOnly
  split
  · simp only
    split
    · exact hmode.answerCompactList .readOnly
    · exact hmode
    · exact hmode
  · exact h
  · exact h

theorem Ctl.covers.endMark {c : Ctl} {w : Port → Nat} (h : c.covers w) : c.endMark.covers w := by
  unfold Ctl.endMark
  split
  · exact h.enterReadOnly .sequence
  · exact h

/-- The port of the operation executing is the one it is counted for. -/
theorem Ctl.executing_port {c : Ctl} {req : Request} {act : Activity} (hs : c.sched.current = .port req act) :
    c.executing = 0 + oneAt req.port := by
  funext q
  rw [Pi.add_apply, Pi.zero_apply, Nat.zero_add, Ctl.executing, hs]
  exact ite_eq_oneAt _ _

theorem Ctl.executing_none {c : Ctl} (hs : c.sched.current = .none) : c.executing = 0 := by
  funext q
  rw [Ctl.executing, hs]
  rfl

/-- What no step executes covers is the law. -/
theorem Ctl.covers.law_idle {c : Ctl} (h : c.covers 0) (hs : c.sched.current = .none) : c.creditLaw := by
  rw [Ctl.creditLaw_iff, Ctl.executing_none hs]
  exact h

/-- The response of the operation executing enters, or its credit is returned: it is counted no longer. -/
theorem Ctl.creditLaw.respond {c : Ctl} (h : c.creditLaw) {req : Request} {act : Activity}
    (hs : c.sched.current = .port req act) (st : Status) (result : List Byte) : (c.respond req st result).covers 0 := by
  rw [Ctl.creditLaw_iff, Ctl.executing_port hs] at h
  unfold Ctl.respond
  split
  · exact h.dropCredit
  · exact h.enter _

/-- A COMPACT handed on: its credit is returned, it is answered, or it is counted in the COMPACT request list. -/
theorem Ctl.creditLaw.handOn {c : Ctl} (h : c.creditLaw) {req : Request} {act : Activity}
    (hs : c.sched.current = .port req act) : (c.handOn req).creditLaw := by
  rw [Ctl.creditLaw_iff, Ctl.executing_port hs] at h
  unfold Ctl.handOn
  split
  · exact Ctl.covers.law_idle h.dropCredit rfl
  · simp only
    split
    · exact Ctl.covers.law_idle (h.enter _) rfl
    · have hjoined := h.setCompacts (l := c.sched.compactList ++ [⟨req.port, req.tag, false, false⟩]) (w' := 0) fun q => by
        unfold compactsOf
        rw [List.countP_append, List.countP_singleton]
        simp only [Bool.not_false, Bool.and_true, ite_eq_oneAt, Pi.add_apply, Pi.zero_apply]
        omega
      exact Ctl.covers.law_idle (c := Ctl.endTurn _) hjoined rfl

/-- A port's front request starts: what its list counted its step counts. -/
theorem Ctl.creditLaw.serve {c : Ctl} (h : c.creditLaw) {p : Port} {req : Request} {rest : List Request}
    (hs : c.sched.current = .none) (hl : c.requests p = req :: rest) : (c.withFront p req rest).creditLaw := by
  rw [Ctl.creditLaw_iff, Ctl.executing_none hs] at h
  obtain ⟨_, _, hown, _⟩ := h.2 p
  rw [hl] at hown
  have hp : req.port = p := hown req List.mem_cons_self
  have hcovers : (c.setRequests p rest).covers (0 + oneAt p) := by
    refine h.setRequests (fun q hq => ?_) ?_ fun r hr => hown r (List.mem_cons_of_mem _ hr)
    · simp [oneAt, Ne.symm hq]
    · rw [hl]
      simp
  rw [Ctl.creditLaw_iff, Ctl.executing_port (c := c.withFront p req rest) rfl, hp]
  exact hcovers

/-- An outcome that keeps the step under way for its port keeps the count of what executes. -/
theorem Ctl.creditLaw.setActivity {c : Ctl} (h : c.creditLaw) (act : Activity) : (c.setActivity act).creditLaw := by
  have hexec : (c.setActivity act).executing = c.executing := by
    funext q
    unfold Ctl.executing Ctl.setActivity Ctl.setCurrent
    cases c.sched.current <;> rfl
  rw [Ctl.creditLaw_iff, hexec]
  exact c.creditLaw_iff.1 h

theorem Ctl.creditLaw.stop {c : Ctl} (h : c.creditLaw) : (c.setCurrent .none).creditLaw := by
  rw [Ctl.creditLaw_iff] at h
  exact Ctl.covers.law_idle (c := c.setCurrent .none) (h.le fun _ => Nat.zero_le _) rfl

/-- A change that keeps what is covered, whatever that is, and the step under way keeps the law. -/
theorem Ctl.creditLaw.of_covers {c d : Ctl} (h : c.creditLaw) (hd : ∀ w, c.covers w → d.covers w)
    (hs : d.sched.current = c.sched.current) : d.creditLaw := (hd _ (c.creditLaw_iff.1 h)).law hs

/-- The elementary changes of an array step keep the law of the credits. -/
theorem creditSteps : StepLaws Ctl.creditLaw where
  rows _ _ h := h
  dir _ _ h := h
  agent _ _ h := h
  op _ _ h := h
  forget _ _ h := h
  turn _ _ h := h
  waits _ _ h := h
  mark _ _ h := h
  stop _ h := h.stop
  startAgent c _ h := h.stop
  goOn _ act _ h := h.setActivity act
  newPlan _ stage plan asker _ h := h.setActivity (.image stage plan asker)
  samePlan _ _ plan _ stage' asker' _ h := h.setActivity (.image stage' plan asker')
  written _ _ _ _ _ _ h := h
  faulted _ _ _ h := h
  retired _ _ h := h
  active _ _ h := h
  disable c p h := by
    have hline := h.resync_line (g := fun u => { u with enabled := false, rx := .idle, statusLatch := none, sdo := none })
      ⟨fun _ => rfl, fun _ _ => rfl⟩ (fun _ => rfl) (fun _ _ hr => nomatch hr) p
    exact hline
  enable _ _ h := h.of_covers (fun _ hc => hc.onPort_quiet rfl rfl (.inl rfl)) rfl
  deliver _ _ h := h
  releaseHold c p k h := h.of_covers (fun _ hc => hc.releaseHold p k) (congrArg _ (c.releaseHold_sched p k))
  freezeClaim c k h := h.of_covers (fun _ hc => hc.freezeClaim k) (congrArg _ (c.freezeClaim_sched k))
  emptyStaging _ _ h := h.of_covers (fun _ hc => hc.onPort_quiet rfl rfl (.inl rfl)) rfl
  enterReadOnly c r _ h := h.of_covers (fun _ hc => hc.enterReadOnly r) (c.enterReadOnly_current r)
  answerCompactList c st h := h.of_covers (fun _ hc => hc.answerCompactList st) (by rw [Ctl.answerCompactList_eq])
  answerTied c n h := h.of_covers (fun _ hc => hc.answerTied n) (by rw [Ctl.answerTied_eq])
  answerAllZero c h := h.of_covers (fun _ hc => hc.answerAllZero) (by rw [Ctl.answerAllZero_eq])
  tie c h := h.of_covers (fun _ hc => hc.setCompacts fun q => by rw [compactsOf_tieOldest]) rfl
  respond _ _ _ st result hs h := Ctl.covers.law_idle (h.respond hs st result).endMark rfl
  respondReload _ _ _ st result hs h := Ctl.covers.law_idle (h.respond hs st result) rfl
  handOn _ _ _ hs h := h.handOn hs
  serve _ _ _ _ hs hl h := h.serve hs hl

/-! ### Arrivals -/

/-- Port `p`'s command has been taken on a credit that nothing is owed for yet. -/
def Ctl.inHand (c : Ctl) (p : Port) : Prop := c.covers (c.executing + oneAt p)

/-- A change that keeps what is covered, whatever that is, and the step under way keeps the command in hand. -/
theorem Ctl.inHand.of_covers {c d : Ctl} {p : Port} (h : c.inHand p) (hd : ∀ w, c.covers w → d.covers w)
    (hs : d.sched.current = c.sched.current) : d.inHand p := by
  unfold Ctl.inHand
  rw [Ctl.executing_of_sched hs]
  exact hd _ h

theorem Ctl.inHand.law {c : Ctl} {p : Port} (h : c.inHand p) : c.creditLaw :=
  c.creditLaw_iff.2 (h.le fun _ => Nat.le_add_right _ _)

theorem Ctl.inHand.enter {c : Ctl} {p : Port} (h : c.inHand p) (r : Response) : (c.enter p r).creditLaw :=
  (Ctl.covers.enter h r).law rfl

theorem Ctl.inHand.answer {c : Ctl} {p : Port} (h : c.inHand p) (cmd : Cmd) (tag : Byte) (st : Status) (result : List Byte) :
    (c.answer p cmd tag st result).creditLaw := h.enter _

/-- A staging buffer, a mask or another field that enters no count. -/
theorem Ctl.inHand.onPort {c : Ctl} {p : Port} (h : c.inHand p) {g : PortUnit → PortUnit}
    (hqueue : (g (c.port p)).queue = (c.port p).queue) (hcount : (g (c.port p)).outstanding = (c.port p).outstanding)
    (hrx : (g (c.port p)).rx = (c.port p).rx) : (c.onPort p g).inHand p :=
  h.of_covers (fun _ hc => hc.onPort_quiet hqueue hcount (.inl hrx)) rfl

/-- The request joins its port's list, and the Scheduler may choose. -/
theorem Ctl.inHand.submit {c : Ctl} {p : Port} (h : c.inHand p) (tag : Byte) (body : ReqBody) :
    (c.submit p tag body).creditLaw := by
  obtain ⟨_, _, hown, _⟩ := h.2 p
  have hcovers : (c.setRequests p (c.requests p ++ [⟨p, tag, body, false⟩])).covers c.executing := by
    refine Ctl.covers.setRequests h (fun q _ => Nat.le_add_right _ _) ?_ fun r hr => ?_
    · simp only [List.length_append, List.length_singleton, Pi.add_apply, oneAt_self]
      omega
    · rcases List.mem_append.1 hr with hr | hr
      · exact hown r hr
      · exact List.mem_singleton.1 hr ▸ rfl
  exact creditSteps.schedule (hcovers.law rfl)

theorem Ctl.inHand.judge {c : Ctl} {p : Port} (h : c.inHand p) (tag : Byte) (body : ReqBody) (refusal : Option Status) :
    (c.judge p tag body refusal).creditLaw := by
  unfold Ctl.judge
  split
  · exact h.answer _ _ _ _
  · exact h.submit _ _

/-- A CLAIM is answered, or its waiter entry is counted. -/
theorem Ctl.inHand.handled {c d : Ctl} {p : Port} {tag : Byte} (h : c.inHand p) (hd : c.ClaimHandled p tag d) :
    d.creditLaw := by
  have hlaw := h.1.handled hd
  cases hd with
  | answered st result => exact h.answer _ _ _ _
  | created e result hnone hw hroom he =>
    exact Ctl.inHand.answer (h.of_covers (fun _ hc => hc.newClaim hw (hlaw.of_claims rfl)) (by rw [Ctl.setClaim_sched]))
      _ _ _ _
  | renewed e hold result hc =>
    refine Ctl.inHand.answer (h.of_covers (fun _ hcov => hcov.setClaim hc (fun y hy => ?_) fun q => Nat.le_refl _) rfl) _ _ _ _
    injection hy with hy
    exact hy ▸ ⟨(h.1.lawful_of_claimOf hc).renewed hold, rfl⟩
  | joined e w hp hc hholder hwaits hroom =>
    refine Ctl.covers.law (c := c) (Ctl.covers.setClaim h hc (fun y hy => ?_) fun q => ?_) rfl
    · injection hy with hy
      exact hy ▸ ⟨(h.1.lawful_of_claimOf hc).joined hholder hwaits hroom, rfl⟩
    · simp only [waitingIn, Option.elim_some, ClaimEntry.waiting, List.countP_append, List.countP_singleton, ite_eq_oneAt,
        Pi.add_apply, hp]
      omega

/-- A COMMIT withdrawn leaves its list, and its response enters (R87). -/
theorem Ctl.inHand.withdrawCommit {c : Ctl} {p : Port} (h : c.inHand p) : (c.withdrawCommit p).inHand p := by
  have hstaged : ∀ {d : Ctl}, d.inHand p → (d.emptyStaging p).inHand p := fun hd => hd.onPort rfl rfl rfl
  unfold Ctl.withdrawCommit
  split
  · next r hr =>
    have hmem := List.mem_of_find?_eq_some hr
    have hcommit : r.body.cmd = .commit := by simpa using List.find?_some hr
    obtain ⟨_, _, hown, _⟩ := h.2 p
    have hfewer : ((c.requests p).filter fun r => r.body.cmd ≠ .commit).length + 1 ≤ (c.requests p).length :=
      List.length_filter_lt_length_iff_exists.2 ⟨r, hmem, by simp [hcommit]⟩
    have hremoved : (c.removeCommit p).covers (c.executing + oneAt p + oneAt p) := by
      have hlist : (c.setRequests p ((c.requests p).filter fun r => r.body.cmd ≠ .commit)).covers
          (c.executing + oneAt p + oneAt p) := by
        refine Ctl.covers.setRequests h (fun q hq => ?_) ?_ fun r hr => hown r (List.mem_of_mem_filter hr)
        · simp [oneAt, Ne.symm hq]
        · simp only [Pi.add_apply, oneAt_self]
          omega
      unfold Ctl.removeCommit
      simp only
      split
      · split
        · exact hlist
        · exact hlist
      · exact hlist
    have hcurrent : (c.removeCommit p).sched.current = c.sched.current := by
      unfold Ctl.removeCommit
      simp only
      split
      · split <;> rfl
      · rfl
    have hreleased : ((c.removeCommit p).releaseOnDone p r.body.releases).covers (c.executing + oneAt p + oneAt p) := by
      unfold Ctl.releaseOnDone
      split
      · exact hremoved.releaseHold _ _
      · exact hremoved
      · exact hremoved
    have hemptied := hreleased.onPort_quiet (p := p) (g := fun u => { u with staging := .empty }) rfl rfl (.inl rfl)
    have hentered := hemptied.enter ⟨.cancelled, r.tag, Cmd.commit.code, []⟩
    unfold Ctl.inHand
    rw [Ctl.executing_of_sched (c := c)]
    · exact hentered
    · show ((c.removeCommit p).releaseOnDone p r.body.releases).sched.current = _
      rw [Ctl.releaseOnDone_sched, hcurrent]
  · exact hstaged h

section Accept

variable {c : Ctl} (h : c.creditLaw) (p : Port) {body : Ctl → Ctl}

include h

/-- A command is taken on a free credit, or dropped. -/
theorem Ctl.creditLaw.accept (hb : ∀ d : Ctl, d.inHand p → (body d).creditLaw) : (c.accept p body).creditLaw := by
  rw [Ctl.creditLaw_iff] at h
  obtain ⟨hcredit, hlimit, _⟩ := h.2 p
  by_cases hfree : (c.port p).outstanding < Config.creditLimit
  · rw [Ctl.accept_credit body hfree]
    have htaken : (c.onPort p PortUnit.taken).covers (c.executing + oneAt p) := by
      refine h.onPort (fun q hq => ?_) ?_ hfree fun rest hr => nomatch hr
      · simp [oneAt, Ne.symm hq]
      · simp only [PortUnit.taken, Pi.add_apply, oneAt_self]
        omega
    exact hb _ htaken
  · rw [Ctl.accept_dropped body (Nat.not_lt.1 hfree)]
    exact Ctl.covers.law (c := c) (h.onPort_quiet rfl rfl (.inr fun rest hr => nomatch hr)) rfl

/-- The arrival of a command that is answered NOT_READY during MOUNTING. -/
theorem Ctl.creditLaw.arrive (cmd : Cmd) (tag : Byte) (hb : ∀ d : Ctl, d.inHand p → (body d).creditLaw) :
    (c.arrive p cmd tag body).creditLaw := by
  refine h.accept p fun d hd => ?_
  split
  · exact hd.answer _ _ _ _
  · exact hb d hd

end Accept

section Arrivals

variable {c : Ctl} (h : c.creditLaw) (p : Port) (tag : Byte) (args : List Byte)

include h

theorem Ctl.creditLaw.arriveOpen : (c.arriveOpen p tag args).creditLaw := by
  refine h.arrive p _ _ fun d hd => ?_
  have hset : ∀ st, (d.setStaging p st).inHand p := fun st => hd.onPort rfl rfl rfl
  split
  · exact hd.answer _ _ _ _
  · split
    · exact hd.answer _ _ _ _
    · exact (hset _).answer _ _ _ _
    · exact (hset _).answer _ _ _ _

theorem Ctl.creditLaw.arriveFill : (c.arriveFill p tag args).creditLaw := by
  refine h.arrive p _ _ fun d hd => ?_
  have hset : ∀ st, (d.setStaging p st).inHand p := fun st => hd.onPort rfl rfl rfl
  split
  · exact hd.answer _ _ _ _
  · split
    · exact hd.answer _ _ _ _
    · exact hd.answer _ _ _ _
    · split
      · exact hd.answer _ _ _ _
      · exact (hset _).answer _ _ _ _

theorem Ctl.creditLaw.arriveAbandon : (c.arriveAbandon p tag args).creditLaw := by
  refine h.arrive p _ _ fun d hd => ?_
  split
  · exact hd.answer _ _ _ _
  · split
    · exact hd.answer _ _ _ _
    · exact Ctl.inHand.answer (c := d.setStaging p .empty) (hd.onPort rfl rfl rfl) _ _ _ _
    · split
      · exact hd.answer _ _ _ _
      · exact hd.withdrawCommit.answer _ _ _ _

theorem Ctl.creditLaw.arriveCommit : (c.arriveCommit p tag args).creditLaw := by
  refine h.arrive p _ _ fun d hd => ?_
  have hset : ∀ st, (d.setStaging p st).inHand p := fun st => hd.onPort rfl rfl rfl
  split
  · exact hd.answer _ _ _ _
  · split
    · exact hd.answer _ _ _ _
    · exact (hset _).submit _ _

theorem Ctl.creditLaw.arriveClaim : (c.arriveClaim p tag args).creditLaw := by
  refine h.arrive p _ _ fun d hd => ?_
  split
  · exact hd.answer _ _ _ _
  · next hk =>
    split
    · exact hd.handled (d.handleClaim_cases p tag (claimArgs_ok hk) _ _)
    · exact hd.answer _ _ _ _

theorem Ctl.creditLaw.arriveRelease : (c.arriveRelease p tag args).creditLaw := by
  refine h.arrive p _ _ fun d hd => ?_
  split
  · exact hd.answer _ _ _ _
  · next k _ =>
    split
    · exact hd.answer _ _ _ _
    · next e he =>
      have he : d.claimOf e.key = some e := by rw [Ctl.claimOf_key he]; exact he
      split
      · exact Ctl.inHand.answer (hd.of_covers (fun _ hc => hc.endHold k) (by rw [Ctl.endHold_sched])) _ _ _ _
      · split
        · exact Ctl.inHand.answer (hd.of_covers (fun _ hc => hc.endWait he p _) (by rw [Ctl.endWait_sched])) _ _ _ _
        · exact hd.answer _ _ _ _

/-- COLLECT shows a response that is in the queue. -/
theorem Ctl.creditLaw.arriveCollect : (c.arriveCollect p).creditLaw := by
  rw [Ctl.creditLaw_iff] at h
  obtain ⟨_, hlimit, _⟩ := h.2 p
  unfold Ctl.arriveCollect
  split
  · next r t hq =>
    refine Ctl.covers.law (c := c) (h.onPort (fun _ _ => Nat.le_refl _) (Nat.le_refl _) hlimit fun rest _ => ?_) rfl
    show (c.port p).queue ≠ []
    rw [hq]
    exact List.cons_ne_nil _ _
  · exact Ctl.covers.law (c := c) (h.onPort_quiet rfl rfl (.inr fun rest hr => nomatch hr)) rfl

theorem Ctl.creditLaw.arriveDrain : (c.arriveDrain p).creditLaw := by
  have hshows := h.of_covers (d := c.beginReadout p .drain (c.notif p).drainBytes)
    (fun _ hc => hc.onPort_quiet rfl rfl (.inr fun rest hr => nomatch hr)) rfl
  exact hshows

theorem Ctl.creditLaw.arriveResync : (c.arriveResync p).creditLaw := by
  have hline := h.resync_line (g := fun u => { u with rx := .trailing, sdo := some 0xFF })
    ⟨fun _ => rfl, fun _ _ => rfl⟩ (fun _ => rfl) (fun _ _ hr => nomatch hr) p
  exact hline

/-- The arrival of any frame's command keeps the law of the credits. -/
theorem Ctl.creditLaw.arriveOpcode (op : Byte) : (c.arriveOpcode p op tag args).creditLaw := by
  have answers : ∀ {d : Ctl}, d.inHand p → ∀ cmd st result, (d.answer p cmd tag st result).creditLaw :=
    fun hd cmd st result => hd.answer cmd tag st result
  unfold Ctl.arriveOpcode
  cases Cmd.ofCode op with
  | none => exact h.accept p fun d hd => hd.enter _
  | some cmd =>
    cases cmd with
    | ident => exact h.accept p fun d hd => by split <;> exact answers hd _ _ _
    | query => exact h.arrive p _ _ fun d hd => by split <;> exact answers hd _ _ _
    | list => exact h.arrive p _ _ fun d hd => by split <;> exact answers hd _ _ _
    | opn => exact h.arriveOpen p tag args
    | fill => exact h.arriveFill p tag args
    | abandon => exact h.arriveAbandon p tag args
    | commit => exact h.arriveCommit p tag args
    | claim => exact h.arriveClaim p tag args
    | release => exact h.arriveRelease p tag args
    | collect => exact h.arriveCollect p
    | drain => exact h.arriveDrain p
    | resync => exact h.arriveResync p
    | delete => exact h.arrive p _ _ fun d hd => by split; exacts [answers hd _ _ _, hd.judge _ _ _]
    | read => exact h.arrive p _ _ fun d hd => by split; exacts [answers hd _ _ _, hd.judge _ _ _]
    | freeze => exact h.arrive p _ _ fun d hd => by split; exacts [answers hd _ _ _, hd.judge _ _ _]
    | compact => exact h.arrive p _ _ fun d hd => by split; exacts [answers hd _ _ _, hd.judge _ _ _]
    | setconf => exact h.arrive p _ _ fun d hd => by split; exacts [answers hd _ _ _, hd.judge _ _ _]
    | reload => exact h.arrive p _ _ fun d hd => by split; exacts [answers hd _ _ _, hd.judge _ _ _]
    | watch =>
      refine h.arrive p _ _ fun d hd => ?_
      split
      · exact answers hd _ _ _
      · next k _ =>
        split
        · exact answers hd _ _ _
        · split
          · exact answers (d := d.onNotif p fun u => u.addWatch k) hd _ _ _
          · exact answers hd _ _ _
    | unwatch =>
      refine h.arrive p _ _ fun d hd => ?_
      split
      · exact answers hd _ _ _
      · next k _ => exact answers (d := d.onNotif p fun u => u.dropWatch k) hd _ _ _
    | attnmask =>
      refine h.arrive p _ _ fun d hd => ?_
      split
      · exact answers hd _ _ _
      · next m _ => exact answers (d := d.onPort p fun u => { u with attnMask := m }) (hd.onPort rfl rfl rfl) _ _ _

end Arrivals

/-! ### Every command -/

theorem creditMount : MountLaws Ctl.creditLaw where
  op _ _ h := h
  mount _ _ h := h
  loadConf c choice h := by
    unfold Ctl.loadConf
    exact creditSteps.applyEnableMask _ h
  finish _ _ _ _ h := h

/-- A change of a port's lines and flags that begins no readout keeps the law. -/
theorem Ctl.creditLaw.onPort {c : Ctl} (h : c.creditLaw) {p : Port} {g : PortUnit → PortUnit}
    (hqueue : (g (c.port p)).queue = (c.port p).queue) (hcount : (g (c.port p)).outstanding = (c.port p).outstanding)
    (hrx : (g (c.port p)).rx = (c.port p).rx ∨ ∀ rest, (g (c.port p)).rx ≠ .readout (.collect true) rest) :
    (c.onPort p g).creditLaw := h.of_covers (fun _ hc => hc.onPort_quiet hqueue hcount hrx) rfl

theorem Ctl.creditLaw.selectFalls {c : Ctl} (h : c.creditLaw) (p : Port) : (c.selectFalls p).creditLaw := by
  unfold Ctl.selectFalls
  split
  · exact h.onPort rfl rfl (.inr fun rest hr => nomatch hr)
  · exact h.onPort rfl rfl (.inl rfl)

theorem Ctl.creditLaw.selectRises {c : Ctl} (h : c.creditLaw) (p : Port) : (c.selectRises p).creditLaw := by
  have hline : ∀ {d : Ctl}, d.creditLaw →
      (d.onPort p fun u => { u with selLow := false, rx := .idle, statusLatch := none, sdo := none }).creditLaw :=
    fun hd => hd.onPort rfl rfl (.inr fun rest hr => nomatch hr)
  unfold Ctl.selectRises
  simp only
  split
  · exact hline (d := c.setFrm p) (h.onPort rfl rfl (.inl rfl))
  · exact hline (d := c.onNotif p _) h
  all_goals exact hline h

/-- A COLLECT readout takes its response and its credit together. -/
theorem Ctl.creditLaw.collectDone {c : Ctl} (h : c.creditLaw) {p : Port} {response : Bool} {rest : List Byte}
    (hr : (c.port p).rx = .readout (.collect response) rest) : (c.collectDone p response).creditLaw := by
  unfold Ctl.collectDone Ctl.trail
  rw [Ctl.onPort_onPort]
  cases response with
  | false => exact h.onPort rfl rfl (.inr fun rest hr => nomatch hr)
  | true =>
    rw [Ctl.creditLaw_iff] at h
    obtain ⟨hcredit, hlimit, _, hshown⟩ := h.2 p
    have hlength : 0 < (c.port p).queue.length := List.length_pos_iff.2 (hshown rest hr)
    unfold Ctl.debt at hcredit
    refine Ctl.covers.law (c := c)
      (h.onPort (fun _ _ => Nat.le_refl _) ?_ ((Nat.sub_le _ _).trans hlimit) fun rest hr => nomatch hr) rfl
    simp only [if_true, List.length_tail]
    omega

theorem creditEvents : EventLaws Ctl.creditLaw Ctl.creditLaw where
  release _ h := h
  select _ p h := h.selectFalls p
  deselect _ p h := h.selectRises p
  discard _ _ _ _ h := h.onPort rfl rfl (.inr fun rest hr => nomatch hr)
  receive _ _ _ _ _ h := h.onPort rfl rfl (.inr fun rest hr => nomatch hr)
  arrive _ p _ op tag args _ h := h.arriveOpcode p tag args op
  readout c p kind x b rest hr h := by
    rw [Ctl.creditLaw_iff] at h
    obtain ⟨_, hlimit, _, hshown⟩ := h.2 p
    refine (h.onPort (fun _ _ => Nat.le_refl _) (Nat.le_refl _) hlimit fun rest' hr' => ?_).law rfl
    injection hr' with hkind _
    exact hshown _ (hkind ▸ hr)
  readoutDone _ p kind rest hr h := by
    cases kind with
    | collect response => exact h.collectDone hr
    | drain =>
      exact Ctl.creditLaw.onPort (c := Ctl.onNotif _ p NotifUnit.finishDrain)
        (g := fun u => { u with rx := .trailing, sdo := some 0xFF }) h rfl rfl (.inr fun rest hr => nomatch hr)
  holdEnds c k _ _ h := h.of_covers (fun _ hc => hc.endHold k) (by rw [Ctl.endHold_sched])
  waitEnds c k p e he _ h :=
    h.of_covers (fun _ hc => hc.endWait (by rw [Ctl.claimOf_key he]; exact he) p _) (by rw [Ctl.endWait_sched])
  handData c data h := by
    unfold Ctl.handData
    split
    · exact creditMount.mountRead data h
    · exact creditSteps.schedule (creditSteps.readEnded data h)
  pulseGoesOn _ _ _ _ _ h := h
  pulseEnds c row n _ o _ h := creditSteps.schedule
    (creditSteps.programEnded (c := { c with media := { c.media.setCount row n with op := .idle } }) o h)
  programEnds c o h := creditSteps.schedule (creditSteps.programEnded (c := c.mediaIdle) o h)
  erased c row h := creditSteps.schedule
    (creditSteps.eraseEnded (c := { c with media := { c.media.setCount row 0 with op := .idle } }) true h)
  eraseFails c h := creditSteps.schedule (creditSteps.eraseEnded (c := c.mediaIdle) false h)
  eraseGoesOn _ _ h := h

/-- Driven by their conditions, the lines of ATNn# are at them. -/
theorem Ctl.attentionLaw_settle (c : Ctl) : c.settle.attentionLaw := fun p => by cases p <;> rfl

/-- The lines of ATNn# enter no count. -/
theorem Ctl.creditLaw.settle {c : Ctl} (h : c.creditLaw) : c.settle.creditLaw := by
  obtain ⟨hclaims, hports⟩ := h
  refine ⟨hclaims, fun p => ?_⟩
  have hp := hports p
  cases p <;> exact hp

/-- After a device reset or a power loss nothing is owed and no credit is in use. -/
theorem Ctl.creditLaw_afterReset (c : Ctl) :
    c.afterReset.creditLaw ∧ Ctl.creditLaw { c.afterReset with powered := false } := by
  have hports : ∀ p, c.afterReset.creditLawAt p := fun p => by
    cases p <;> exact ⟨Nat.le_refl _, Nat.zero_le _, fun _ hr => absurd hr List.not_mem_nil, fun _ hr => nomatch hr⟩
  exact ⟨⟨Ctl.reset_claimLaw, hports⟩, ⟨Ctl.reset_claimLaw, hports⟩⟩

/-- Under the law no port has more than 4 credits in use, and its queue holds no more responses than that. -/
theorem Ctl.creditLaw.bounds {c : Ctl} (h : c.creditLaw) (p : Port) :
    (c.port p).outstanding ≤ 4 ∧ (c.port p).queue.length ≤ 4 := by
  rw [Ctl.creditLaw_iff] at h
  obtain ⟨hcredit, hlimit, _⟩ := h.2 p
  unfold Ctl.debt at hcredit
  have hlimit : (c.port p).outstanding ≤ 4 := hlimit
  omega

/-- Settles O53: a command leaves the state, or ends with every ATNn# driven by its condition, which reads no ATNn#. -/
theorem stepsKeepAttention : Obligations.StepsKeepAttention :=
  step_of_exec fun i s t hs ht => by
    have hevents : EventLaws (fun _ => True) fun _ => True := by constructor <;> intros <;> trivial
    rcases exec_event hevents (fun _ _ _ => ⟨trivial, trivial⟩) trivial ht with he | ⟨c, _, he⟩
    · exact he ▸ hs
    · exact he ▸ c.attentionLaw_settle

/-- Settles O56: every operation that commands call keeps the law, a reset and a power loss establish it; the bounds follow. -/
theorem stepsKeepTheCreditLaw : Obligations.StepsKeepTheCreditLaw := by
  intro s t hs ht
  have hlaw : t.ctl.creditLaw := step_of_exec (fun _ _ _ hs ht =>
    exec_keeps creditEvents (fun _ h => h.settle) (fun _ c _ => Ctl.creditLaw_afterReset c) hs ht) s t hs ht
  exact ⟨hlaw, hlaw.bounds⟩

end Sys2Proof.Machine
end

section
/-! PROOF. The frame's own events by the state of the frame receiver (R58 to R62, Table 14), the arrival that a frame's last byte
makes (R60), and the end of a device reset (R81, R177). -/

namespace Sys2Proof.Machine

/-! ### RESET_RELEASE -/

/-- Settles O5: with power and in reset mount begins, otherwise the guard fails. -/
theorem resetReleaseBeginsMount : Obligations.ResetReleaseBeginsMount := by
  intro s
  refine ⟨fun hp hr => ?_, fun h => ?_⟩
  · show execResetRelease s = _
    rw [execResetRelease, if_pos (by rw [hp, hr]; rfl)]
    rfl
  · show execResetRelease s = _
    rw [execResetRelease, if_neg]
    rcases h with h | h <;> simp [h]

/-! ### FRAME_START -/

/-- Eight flags in one byte, the first in bit 7. -/
theorem flagByte_bits (b7 b6 b5 b4 b3 b2 b1 b0 : Bool) (i : Nat) :
    (BitVec.ofBool b7 ++ BitVec.ofBool b6 ++ BitVec.ofBool b5 ++ BitVec.ofBool b4 ++ BitVec.ofBool b3 ++ BitVec.ofBool b2
      ++ BitVec.ofBool b1 ++ BitVec.ofBool b0).getLsbD i = [b0, b1, b2, b3, b4, b5, b6, b7].getD i false := by
  simp only [BitVec.getLsbD_append, BitVec.getLsbD_ofBool]
  match i with
  | 0 | 1 | 2 | 3 | 4 | 5 | 6 | 7 => simp
  | n + 8 => simp

/-- Bit `i` of the status byte, by the flags from bit 0 up (R63). -/
theorem Ctl.statusByte_bit (c : Ctl) (p : Port) (i : Nat) : (c.statusByte p).getLsbD i
    = [c.isAdmin p, decide (c.sched.mode = .readOnly), (c.notif p).lost, (c.port p).frm, (c.port p).ovr,
        !(c.notif p).queue.isEmpty, !(c.port p).queue.isEmpty, decide (c.sched.mode ≠ .mounting)].getD i false :=
  flagByte_bits _ _ _ _ _ _ _ _ i

theorem exec_frameStart_low {p : Port} {s : State} (h : (s.ctl.port p).selLow = true) : exec (.frameStart p) s = .next s :=
  if_pos h

theorem exec_frameStart_falls {p : Port} {s : State} (h : (s.ctl.port p).selLow = false) :
    exec (.frameStart p) s = .next (s.settled (s.ctl.selectFalls p)) := by
  show execFrameStart p s = _
  rw [execFrameStart, if_neg (by simp [h]), State.after_eq]

/-- Where no frame can begin the line alone changes. -/
theorem Ctl.selectFalls_line {c : Ctl} {p : Port}
    (h : c.powered = false ∨ c.inReset = true ∨ (c.port p).enabled = false ∨ (c.port p).rx ≠ .idle) :
    c.selectFalls p = c.onPort p fun u => { u with selLow := true } := by
  refine if_neg ?_
  rcases h with h | h | h | h <;> simp [Ctl.takesFrames, h]

/-- An idle receiver of an enabled port begins a frame. -/
theorem Ctl.selectFalls_begins {c : Ctl} {p : Port} (hp : c.powered = true) (hr : c.inReset = false)
    (he : (c.port p).enabled = true) (hx : (c.port p).rx = .idle) :
    c.selectFalls p = c.onPort p fun u =>
      { u with selLow := true, rx := .receiving [], statusLatch := some (c.statusByte p), sdo := some (c.statusByte p) } :=
  if_pos (by simp [Ctl.takesFrames, hp, hr, he, hx])

/-- Settles O13: the line low, a frame that cannot begin, and the status byte bit by bit of one that does. -/
theorem frameStartLatchesTheStatusByte : Obligations.FrameStartLatchesTheStatusByte := by
  refine ⟨fun p s => exec_frameStart_low, fun p s hl h => ?_, fun p s hp hr he hx hl => ⟨s.ctl.statusByte p, ?_, ?_⟩⟩
  · rw [exec_frameStart_falls hl, Ctl.selectFalls_line h]
  · rw [exec_frameStart_falls hl, Ctl.selectFalls_begins hp hr he hx]
  · simp only [Ctl.statusByte_bit]
    simp

/-! ### FRAME_END -/

theorem exec_frameEnd_rises {p : Port} {s : State} (h : (s.ctl.port p).selLow = true) :
    exec (.frameEnd p) s = .next (s.settled (s.ctl.selectRises p)) := by
  show execFrameEnd p s = _
  rw [execFrameEnd, if_pos h, State.after_eq]

/-- The receiver's frame has ended: IDLE, SDOn at high impedance, no status byte latched. -/
def PortUnit.ended (u : PortUnit) : PortUnit := { u with selLow := false, rx := .idle, statusLatch := none, sdo := none }

section SelectRises

variable {c : Ctl} {p : Port}

theorem Ctl.selectRises_receiving {bytes : List Byte} (h : (c.port p).rx = .receiving bytes) :
    c.selectRises p = c.onPort p fun u => { u.ended with frm := true } := by
  simp only [Ctl.selectRises, h, Ctl.setFrm, Ctl.onPort_onPort]
  rfl

theorem Ctl.selectRises_collect {resp : Bool} {rest : List Byte} (h : (c.port p).rx = .readout (.collect resp) rest) :
    c.selectRises p = c.onPort p PortUnit.ended := by
  simp only [Ctl.selectRises, h]
  rfl

theorem Ctl.selectRises_drain {rest : List Byte} (h : (c.port p).rx = .readout .drain rest) :
    c.selectRises p = (c.onPort p PortUnit.ended).onNotif p NotifUnit.abandonDrain := by
  simp only [Ctl.selectRises, h]
  rfl

theorem Ctl.selectRises_quiet (h : (c.port p).rx = .idle ∨ (c.port p).rx = .discarding ∨ (c.port p).rx = .trailing) :
    c.selectRises p = c.onPort p PortUnit.ended := by
  rcases h with h | h | h
  all_goals
    simp only [Ctl.selectRises, h]
    rfl

end SelectRises

/-- Settles O14: the select's rise by the state of the receiver. -/
theorem frameEndByReceiverState : Obligations.FrameEndByReceiverState := by
  intro p s hl ended
  rw [exec_frameEnd_rises hl]
  refine ⟨fun bytes h => ?_, fun resp rest h => ?_, fun rest h => ?_, fun h => ?_⟩
  · rw [Ctl.selectRises_receiving h]
    rfl
  · rw [Ctl.selectRises_collect h]
    rfl
  · rw [Ctl.selectRises_drain h]
    rfl
  · rw [Ctl.selectRises_quiet h]
    rfl

/-! ### Request bytes -/

section Bytes

variable {p : Port} {b : Byte} {held bytes : List Byte} {s : State}

/-- Bytes that continue a frame being received and make the Port Unit discard it do so (R61). -/
theorem exec_frameDiscard (hr : (s.ctl.port p).rx = .receiving held) (hb : held <+: bytes) (hf : frameFails bytes = true) :
    exec (.frameDiscard p bytes) s = .next (s.settled (s.ctl.discardFrame p)) := by
  show execFrameDiscard p bytes s = _
  simp only [execFrameDiscard, hr]
  rw [if_pos (by simp [List.isPrefixOf_iff_prefix.2 hb, hf]), State.after_eq]

theorem exec_byteComplete_receiving (hr : (s.ctl.port p).rx = .receiving held) :
    exec (.byteComplete p b) s = .next (s.settled (s.ctl.receiveBytes p (held ++ [b]))) := by
  show execByteComplete p b s = _
  simp only [execByteComplete, hr, State.after_eq]

theorem exec_byteComplete_readout {kind : ReadoutKind} {rest : List Byte} (hr : (s.ctl.port p).rx = .readout kind rest) :
    exec (.byteComplete p b) s = .next (s.settled (s.ctl.readoutByte p kind rest)) := by
  show execByteComplete p b s = _
  simp only [execByteComplete, hr, State.after_eq]

/-- After a discard, in TRAILING and in IDLE a byte is not taken. -/
theorem exec_byteComplete_ignored
    (hr : (s.ctl.port p).rx = .discarding ∨ (s.ctl.port p).rx = .trailing ∨ (s.ctl.port p).rx = .idle) :
    exec (.byteComplete p b) s = .next s := by
  show execByteComplete p b s = _
  rcases hr with hr | hr | hr <;> simp only [execByteComplete, hr]

theorem Ctl.receiveBytes_discarded {c : Ctl} (hf : frameFails bytes = true) : c.receiveBytes p bytes = c.discardFrame p :=
  if_pos hf

theorem Ctl.receiveBytes_goesOn {c : Ctl} (hf : frameFails bytes = false) (hw : frameWhole bytes = false) :
    c.receiveBytes p bytes = c.onPort p fun u => { u with rx := .receiving bytes, sdo := some 0x00 } := by
  rw [Ctl.receiveBytes, if_neg (by simp [hf]), if_neg (by simp [hw])]

/-- The bytes of a whole frame make its command arrive (R60). -/
theorem Ctl.receiveBytes_arrives {c : Ctl} {op tag : Byte} {args : List Byte} (ha : args.length ≤ 56) :
    c.receiveBytes p (frameBytes op tag args) = c.arriveOpcode p op tag args := by
  rw [Ctl.receiveBytes, if_neg (by simp [frameBytes_ok op tag ha]), if_pos (frameBytes_whole op tag ha), frameBytes_op,
    frameBytes_tag, frameBytes_args op tag ha]

/-- The last byte of a frame has the effect of the arrival of its command. -/
theorem exec_byteComplete_last {op tag : Byte} {args : List Byte} (ha : args.length ≤ 56)
    (hr : (s.ctl.port p).rx = .receiving held) (hb : held ++ [b] = frameBytes op tag args) :
    exec (.byteComplete p b) s = s.arrival p op tag args fun c => c.arriveOpcode p op tag args := by
  rw [exec_byteComplete_receiving hr, hb, Ctl.receiveBytes_arrives ha,
    State.arrival_ready _ (Ctl.frameReady_of_held hr ha ⟨[b], hb⟩)]

end Bytes

/-- Settles O15: the two conditions are those at which the receiver discards. -/
theorem discardedFrameSetsFrmAlone : Obligations.DiscardedFrameSetsFrmAlone := by
  intro p held bytes s hr hb h
  exact exec_frameDiscard hr hb ((frameFails_iff bytes).2 (h.imp_right fun ⟨hl, hw, hc⟩ => ⟨⟨hl, hw⟩, hc⟩))

/-- Settles O16: a request byte by the frame its bytes make, a readout byte by the one after it, and the bytes not taken. -/
theorem byteCompleteByReceiverState : Obligations.ByteCompleteByReceiverState := by
  intro p b s
  refine ⟨fun held hr => ?_, fun kind x y rest hr => exec_byteComplete_readout hr, exec_byteComplete_ignored⟩
  intro bytes tooLong whole mismatch
  refine ⟨fun hlong hwhole => ?_, fun h => ?_⟩
  · have hw : frameWhole bytes = false := by rw [← Bool.not_eq_true, frameWhole_iff]; exact hwhole
    have hf : frameFails bytes = false := by
      rw [← Bool.not_eq_true, frameFails_iff]
      exact fun hfails => hfails.elim hlong fun hcrc => hwhole hcrc.1
    rw [exec_byteComplete_receiving hr, Ctl.receiveBytes_goesOn hf hw]
  · have hf : frameFails bytes = true := (frameFails_iff bytes).2 h
    have hbyte : exec (.byteComplete p b) s = .next (s.settled (s.ctl.discardFrame p)) := by
      rw [exec_byteComplete_receiving hr, Ctl.receiveBytes_discarded hf]
    exact ⟨hbyte, hbyte.trans (exec_frameDiscard hr ⟨[b], rfl⟩ hf).symm⟩

/-- Settles O17: both are the one arrival by the frame's opcode. -/
theorem lastByteMakesTheCommandArrive : Obligations.LastByteMakesTheCommandArrive := by
  intro p tag b args held s ha hr
  refine ⟨fun cmd hb => ?_, fun op ho hb => ?_⟩
  · rw [exec_instr, exec_byteComplete_last ha hr hb]
  · rw [exec_badCmd ho, exec_byteComplete_last ha hr hb]

end Sys2Proof.Machine
end

section
/-! PROOF. Commands by their credit (R64), during MOUNTING (R66, R75), with an unknown opcode; IDENT and ATTNMASK (R72 to R74);
the readouts of COLLECT and DRAIN (R68, R69, R160). -/

namespace Sys2Proof.Machine

/-! ### Credits and the answers every command shares -/

/-- Settles O18: every command that needs a credit, and an unknown opcode, is accepted or dropped by its credit alone. -/
theorem noCreditDropsTheCommand : Obligations.NoCreditDropsTheCommand := by
  intro p tag args s hfull
  refine ⟨fun cmd hc hr => ?_, fun op ho hr => ?_⟩
  · obtain ⟨body, hbody⟩ := Ctl.arriveOpcode_accept hc p tag args
    rw [exec_instr, State.arrival_ready _ hr, hbody, Ctl.accept_dropped body hfull]
  · rw [exec_badCmd ho, State.arrival_ready _ hr, Ctl.arriveOpcode, ho]
    exact congrArg (fun c => Host.Outcome.next (s.settled c)) (Ctl.accept_dropped _ hfull)

/-- Settles O19: every command that needs a credit but IDENT arrives by the operation that answers NOT_READY. -/
theorem mountingAnswersNotReady : Obligations.MountingAnswersNotReady := by
  intro cmd p tag args s hc hi ⟨hr, hfree⟩ hm
  obtain ⟨body, hbody⟩ := Ctl.arriveOpcode_arrive hc hi p tag args
  rw [exec_instr, State.arrival_ready _ hr, hbody, Ctl.arrive_mounting cmd tag body hfree hm]
  rfl

/-- Settles O20: an unknown opcode is accepted on its credit and answered, whatever the mode. -/
theorem unknownOpcodeIsAnsweredBadCmd : Obligations.UnknownOpcodeIsAnsweredBadCmd := by
  intro p op tag args s ho ⟨hr, hfree⟩
  rw [exec_badCmd ho, State.arrival_ready _ hr, Ctl.arriveOpcode, ho]
  refine congrArg (fun c => Host.Outcome.next (s.settled c)) ?_
  rw [Ctl.arriveBadCmd, Ctl.accept_credit _ hfree, Ctl.enter, Ctl.onPort_onPort]
  rfl

/-! ### IDENT -/

/-- IDENT's result by its fields (Table 51), which no Port Unit enters. -/
theorem Ctl.identResult_taken (c : Ctl) (p : Port) : (c.onPort p PortUnit.taken).identResult p =
    [0x57, 0x4A, 0x32, 0x04, 0x01,
      (match c.sched.mode with | .mounting => 0 | .ready => 1 | .readOnly => 2),
      (if c.sched.mode = .readOnly then
        (match c.sched.reason with | .none => 0 | .sequence => 1 | .media => 2 | .config => 3) else 0),
      (if c.mount.imageAbsent then 1 else 0) ||| (if c.mount.truncated then 2 else 0),
      portByte p, (match c.conf.active with | some x => x.admin | none => 0xFF),
      natByte c.rows.usable, natByte c.rows.free]
    ++ natHalf c.dir.length ++ wordBytes c.rows.seqCounter := by
  unfold Ctl.identResult
  cases hm : c.sched.mode <;> cases hr : c.sched.reason <;> simp only [Ctl.onPort_sched, hm, hr] <;> rfl

/-- Settles O21: with and without arguments, in every mode. -/
theorem identReportsTheDevice : Obligations.IdentReportsTheDevice := by
  intro p tag args s ⟨hr, hfree⟩
  have harrives : exec (.ident p tag args) s = .next (s.settled (s.ctl.arriveIdent p tag args)) :=
    State.arrival_ready (fun c => c.arriveIdent p tag args) hr
  rw [harrives, Ctl.arriveIdent, Ctl.accept_credit _ hfree]
  refine ⟨fun ha => ?_, fun ha => ?_⟩
  · rw [if_neg ha, Ctl.answer_taken]
    rfl
  · rw [if_pos ha, Ctl.answer_taken, Ctl.identResult_taken]
    rfl

/-! ### ATTNMASK -/

/-- Settles O27: the mask out of range, and the mask set before the answer. -/
theorem attnmaskSetsTheMask : Obligations.AttnmaskSetsTheMask := by
  intro p tag args s h
  refine ⟨fun ha => State.arrive_badArg (cmd := .attnmask) h fun c => by simp only [maskArg_none ha], fun hl hm => ?_⟩
  refine (State.arrive_serves .attnmask _ h).trans (congrArg (fun c => Host.Outcome.next (s.settled c)) ?_)
  simp only [maskArg_some hl hm, mask_echo hm, Ctl.answer, Ctl.enter, Ctl.onPort_onPort,
    ← BitVec.setWidth_eq_extractLsb' (show 2 ≤ 8 by decide)]
  rfl

/-! ### Readouts -/

/-- Settles O35: the oldest response or the empty record, followed by its CRC-16. -/
theorem collectBeginsAReadout : Obligations.CollectBeginsAReadout := by
  intro p tag args s hr
  have harrives : exec (.collect p tag args) s = .next (s.settled (s.ctl.arriveCollect p)) := 
    State.arrival_ready (fun c => c.arriveCollect p) hr
  rw [harrives, Ctl.arriveCollect]
  refine ⟨fun r rest hq => ?_, fun hq => ?_⟩
  · simp only [hq]
    rfl
  · simp only [hq]
    rfl

theorem exec_collectReadoutComplete {p : Port} {s : State} {resp : Bool} {rest : List Byte}
    (h : (s.ctl.port p).rx = .readout (.collect resp) rest) :
    exec (.collectReadoutComplete p) s = .next (s.settled (s.ctl.collectDone p resp)) := by
  show execCollectReadoutComplete p s = _
  simp only [execCollectReadoutComplete, h, State.after_eq]

/-- Settles O36: the completion with a response and with the empty record, and the last byte that is the completion. -/
theorem collectReadoutRemovesItsResponse : Obligations.CollectReadoutRemovesItsResponse := by
  intro p s rest
  refine ⟨fun h => ?_, fun h => ?_, fun resp last b h => ?_⟩
  · rw [exec_collectReadoutComplete h, Ctl.collectDone, Ctl.trail, Ctl.onPort_onPort]
    rfl
  · rw [exec_collectReadoutComplete h, Ctl.collectDone, Ctl.trail, Ctl.onPort_onPort]
    rfl
  · rw [exec_byteComplete_readout h, exec_collectReadoutComplete h]
    rfl

theorem Notice.bytes_eq : Notice.bytes = fun n => halfBytes n.key
    ++ [(match n.kind with | .changed => 1 | .deleted => 2 | .frozen => 3 | .damaged => 4 : Byte),
      (match n.writer with | some q => portByte q | none => 0xFF : Byte)] ++ wordBytes n.sequence := by
  funext n
  unfold Notice.bytes
  cases n.kind <;> cases n.writer <;> rfl

/-- Settles O37: the readout's bytes by the notices selected, and its selection. -/
theorem drainSelectsTheOldestNotices : Obligations.DrainSelectsTheOldestNotices := by
  intro p tag args s hr u kind writer bytes
  have harrives : exec (.drain p tag args) s = .next (s.settled (s.ctl.arriveDrain p)) :=
    State.arrival_ready (fun c => c.arriveDrain p) hr
  have hbytes : u.drainBytes = bytes ++ halfBytes (crc16 bytes) := by
    rw [NotifUnit.drainBytes, Notice.bytes_eq]
    rfl
  rw [harrives, Ctl.arriveDrain, hbytes]
  rfl

end Sys2Proof.Machine
end

section
/-! PROOF. RESYNC (R76, R77, R122, R138, R151, R164): the port's state in every block, and its holds, which end one after another. -/

namespace Sys2Proof.Machine

/-! ### Holds that end one after another -/

theorem Ctl.claimOf_endHold_other (c : Ctl) {k k' : Half} (hk : k' ≠ k) : (c.endHold k).claimOf k' = c.claimOf k' := by
  cases he : c.claimOf k with
  | none => rw [Ctl.endHold_none c he]
  | some e =>
    rw [Ctl.endHold_eq c he, Ctl.claimOf, Ctl.enterAll_claims]
    cases hx : (c.promote k e.waiters).1 with
    | none => exact Ctl.claimOf_freeClaim_other c hk
    | some x =>
      obtain ⟨_, _, _, hkey, _⟩ := Ctl.promote_entry hx
      exact Ctl.claimOf_setClaim_other c hkey hk

theorem Ctl.claimOf_endHold_same {c : Ctl} {k : Half} {e : ClaimEntry} (he : c.claimOf k = some e) :
    (c.endHold k).claimOf k = (c.promote k e.waiters).1 := by
  rw [Ctl.endHold_eq c he, Ctl.claimOf, Ctl.enterAll_claims]
  cases hx : (c.promote k e.waiters).1 with
  | none => exact Ctl.claimOf_freeClaim_same c k
  | some x =>
    obtain ⟨_, _, _, hkey, _⟩ := Ctl.promote_entry hx
    exact Ctl.claimOf_setClaim_same c hkey

/-- The rights read the Directory and the configuration. -/
theorem Ctl.writeRefusal_congr {c d : Ctl} (hdir : d.dir = c.dir) (hconf : d.conf = c.conf) (p : Port) (k : Half) :
    d.writeRefusal p k = c.writeRefusal p k := by
  unfold Ctl.writeRefusal Ctl.lookup Ctl.mayCreate Ctl.isAdmin
  rw [hdir, hconf]

theorem Ctl.promote_congr {c d : Ctl} (hdir : d.dir = c.dir) (hconf : d.conf = c.conf) (k : Half) (ws : List Waiter) :
    d.promote k ws = c.promote k ws := by
  induction ws with
  | nil => rfl
  | cons w t ih => simp only [Ctl.promote, Ctl.writeRefusal_congr hdir hconf, ih]

theorem Ctl.promote_endHold (c : Ctl) (k k' : Half) (ws : List Waiter) :
    (c.endHold k).promote k' ws = c.promote k' ws :=
  Ctl.promote_congr (c.endHold_dir k) (c.endHold_conf k) k' ws

theorem Ctl.port_endHold {c : Ctl} {k : Half} {e : ClaimEntry} (he : c.claimOf k = some e) (q : Port) :
    (c.endHold k).port q = { c.port q with
      queue := (c.port q).queue ++ ((c.promote k e.waiters).2.filter fun r => r.1 = q).map (·.2) } := by
  rw [Ctl.endHold_eq c he, Ctl.port_enterAll, Ctl.port_setClaim]

theorem Ctl.claimOf_endHolds_other (c : Ctl) {ks : List Half} {k : Half} (hk : k ∉ ks) :
    (ks.foldl Ctl.endHold c).claimOf k = c.claimOf k := by
  induction ks generalizing c with
  | nil => rfl
  | cons x t ih =>
    rw [List.mem_cons, not_or] at hk
    exact (ih _ hk.2).trans (Ctl.claimOf_endHold_other c hk.1)

/-- The holds of the entries `es` can end one after another: their keys are different, and each is its key's entry. -/
def Ctl.finds (c : Ctl) (es : List ClaimEntry) : Prop :=
  (es.map ClaimEntry.key).Nodup ∧ ∀ e ∈ es, c.claimOf e.key = some e

theorem Ctl.finds.tail {c : Ctl} {e : ClaimEntry} {es : List ClaimEntry} (h : c.finds (e :: es)) :
    (c.endHold e.key).finds es := by
  obtain ⟨hkeys, hfind⟩ := h
  rw [List.map_cons, List.nodup_cons] at hkeys
  refine ⟨hkeys.2, fun x hx => ?_⟩
  have hne : x.key ≠ e.key := fun hk => hkeys.1 (hk ▸ List.mem_map_of_mem hx)
  rw [Ctl.claimOf_endHold_other c hne]
  exact hfind x (List.mem_cons_of_mem _ hx)

/-- Each key whose hold ends is promoted or freed, whatever ends before and after it. -/
theorem Ctl.finds.claimOf {c : Ctl} {es : List ClaimEntry} (h : c.finds es) {e : ClaimEntry} (he : e ∈ es) :
    ((es.map ClaimEntry.key).foldl Ctl.endHold c).claimOf e.key = (c.promote e.key e.waiters).1 := by
  induction es generalizing c with
  | nil => cases he
  | cons x t ih =>
    obtain ⟨hkeys, hfind⟩ := h
    rw [List.map_cons, List.nodup_cons] at hkeys
    rcases List.mem_cons.1 he with rfl | he
    · refine (Ctl.claimOf_endHolds_other _ hkeys.1).trans ?_
      exact Ctl.claimOf_endHold_same (hfind e List.mem_cons_self)
    · refine (ih (Ctl.finds.tail ⟨by rwa [List.map_cons, List.nodup_cons], hfind⟩) he).trans ?_
      rw [Ctl.promote_endHold]

/-- The responses of the promotions enter in the order of the holds. -/
theorem Ctl.finds.port {c : Ctl} {es : List ClaimEntry} (h : c.finds es) (q : Port) :
    ((es.map ClaimEntry.key).foldl Ctl.endHold c).port q = { c.port q with
      queue := (c.port q).queue ++ ((es.flatMap fun e => (c.promote e.key e.waiters).2).filter fun r => r.1 = q).map (·.2) } := by
  induction es generalizing c with
  | nil => simp
  | cons x t ih =>
    rw [List.map_cons, List.foldl_cons, ih h.tail, Ctl.port_endHold (h.2 x List.mem_cons_self)]
    simp only [Ctl.promote_endHold, List.flatMap_cons, List.filter_append, List.map_append, List.append_assoc]

/-! ### RESYNC at the Claim Unit (R151) -/

theorem Ctl.claimOf_withdrawn (c : Ctl) (p : Port) (k : Half) :
    Ctl.claimOf { c with claims := c.claims.map fun e => e.withoutWaiter p } k = (c.claimOf k).map (·.withoutWaiter p) := by
  unfold Ctl.claimOf
  rw [List.find?_map]
  rfl

/-- Everything but the Port Units and the claims stays. -/
theorem Ctl.resyncClaims_eq (c : Ctl) (p : Port) :
    c.resyncClaims p = { c with claims := (c.resyncClaims p).claims, ports := (c.resyncClaims p).ports } := by
  have hfields : ∀ d : Ctl, d.powered = c.powered → d.inReset = c.inReset → d.notifs = c.notifs → d.dir = c.dir →
      d.sched = c.sched → d.rows = c.rows → d.media = c.media → d.agent = c.agent → d.conf = c.conf → d.mount = c.mount →
      d = { c with claims := d.claims, ports := d.ports } := by
    rintro ⟨⟩ rfl rfl rfl rfl rfl rfl rfl rfl rfl rfl
    rfl
  apply hfields <;> simp

section ResyncClaims

variable {c : Ctl} (h : c.claimLaw) (p : Port)

include h

/-- The port's holds, its waits withdrawn, can end one after another. -/
theorem Ctl.claimLaw.finds_held :
    Ctl.finds { c with claims := c.claims.map fun e => e.withoutWaiter p }
      ((c.claims.map fun e => e.withoutWaiter p).filter fun e => e.holder = p) := by
  have hlaw := h.withdrawn p
  refine ⟨?_, fun e he => hlaw.claimOf_of_mem (List.mem_of_mem_filter he)⟩
  obtain ⟨_, hsorted, _⟩ := hlaw
  refine List.pairwise_map.2 ((hsorted.filter _).imp fun hlt heq => ?_)
  rw [heq] at hlt
  exact Nat.lt_irrefl _ hlt

theorem Ctl.claimLaw.resyncClaims_port (q : Port) : (c.resyncClaims p).port q = { c.port q with
    queue := (c.port q).queue ++ (((c.claims.filter fun e => e.holder = p).flatMap fun e =>
      (c.promote e.key (e.withoutWaiter p).waiters).2).filter fun r => r.1 = q).map (·.2) } := by
  refine ((h.finds_held p).port q).trans ?_
  rw [List.filter_map, List.flatMap_map]
  simp only [Ctl.promote_congr (c := c) (d := { c with claims := c.claims.map fun e => e.withoutWaiter p }) rfl rfl]
  rfl

/-- A key that the port holds is promoted among the waiters left, or freed. -/
theorem Ctl.claimLaw.resyncClaims_own {k : Half} {e : ClaimEntry} (he : c.claimOf k = some e) (hp : e.holder = p) :
    (c.resyncClaims p).claimOf k = (c.promote k (e.withoutWaiter p).waiters).1 := by
  have hmem : e.withoutWaiter p ∈ (c.claims.map fun e => e.withoutWaiter p).filter fun e => e.holder = p :=
    List.mem_filter.2 ⟨List.mem_map_of_mem (Ctl.claimOf_mem he), decide_eq_true hp⟩
  have hclaim := (h.finds_held p).claimOf hmem
  rw [Ctl.promote_congr (c := c) (d := { c with claims := c.claims.map fun e => e.withoutWaiter p }) rfl rfl] at hclaim
  have hkey : (e.withoutWaiter p).key = k := (rfl : _ = e.key).trans (Ctl.claimOf_key he)
  rw [hkey] at hclaim
  exact hclaim

/-- A key that the port does not hold keeps its holder and its other waiters. -/
theorem Ctl.claimLaw.resyncClaims_other {k : Half} (hp : ∀ e, c.claimOf k = some e → e.holder ≠ p) :
    (c.resyncClaims p).claimOf k = (c.claimOf k).map (·.withoutWaiter p) := by
  refine (Ctl.claimOf_endHolds_other _ fun hk => ?_).trans (c.claimOf_withdrawn p k)
  obtain ⟨x, hx, rfl⟩ := List.mem_map.1 hk
  obtain ⟨hx, hholder⟩ := List.mem_filter.1 hx
  obtain ⟨e, he, rfl⟩ := List.mem_map.1 hx
  exact hp e (h.claimOf_of_mem he) (of_decide_eq_true hholder)

/-- No claim is left that the port holds or waits on. -/
theorem Ctl.claimLaw.resyncClaims_left {e : ClaimEntry} (he : e ∈ (c.resyncClaims p).claims) :
    e.holder ≠ p ∧ p ∉ e.waiters.map Waiter.port := by
  have hwaits : ∀ {x : ClaimEntry} {w : Waiter}, w ∈ (x.withoutWaiter p).waiters → w.port ≠ p := fun hw => by
    simpa using (List.mem_filter.1 hw).2
  have hnow := (h.resyncClaims p).claimOf_of_mem he
  by_cases hown : ∃ x, c.claimOf e.key = some x ∧ x.holder = p
  · obtain ⟨x, hx, hp⟩ := hown
    rw [h.resyncClaims_own p hx hp] at hnow
    obtain ⟨refused, w, hws, _, hholder⟩ := Ctl.promote_entry hnow
    refine ⟨hholder ▸ hwaits (hws ▸ List.mem_append_right _ List.mem_cons_self), fun hm => ?_⟩
    obtain ⟨v, hv, hport⟩ := List.mem_map.1 hm
    exact hwaits (hws ▸ List.mem_append_right _ (List.mem_cons_of_mem _ hv)) hport
  · have hother : ∀ x, c.claimOf e.key = some x → x.holder ≠ p := fun x hx hp => hown ⟨x, hx, hp⟩
    rw [h.resyncClaims_other p hother] at hnow
    obtain ⟨x, hx, rfl⟩ := Option.map_eq_some_iff.1 hnow
    refine ⟨hother x hx, fun hm => ?_⟩
    obtain ⟨v, hv, hport⟩ := List.mem_map.1 hm
    exact hwaits hv hport

end ResyncClaims

/-! ### RESYNC in every block -/

theorem CurrentStep.markDiscard_eq (x : CurrentStep) (p : Port) : x.markDiscard p = match x with
    | .port req act => .port { req with discard := req.discard || req.port = p } act
    | x => x := by
  cases x with
  | port req act => by_cases hp : req.port = p <;> simp [CurrentStep.markDiscard, hp]
  | _ => rfl

theorem Staging.resync_eq (st : Staging) (executing : Bool) : st.resync executing = match st with
    | .submitted k => if executing then .submitted k else .empty
    | _ => .empty := by
  cases st <;> rfl

/-- RESYNC but for the claims: the port's unit, its notices, and its place in the Scheduler. -/
def Ctl.freed (c : Ctl) (p : Port) : Ctl :=
  { c.onPort p fun u =>
      { u with
        rx := .trailing
        sdo := some 0xFF
        queue := []
        ovr := false
        frm := false
        attnMask := 0b11
        staging := u.staging.resync (c.commitExecuting p)
        outstanding := if c.sched.current.isOf p then 1 else 0 } with
    notifs := c.notifs.set p ⟨[], [], false, (c.notif p).selection⟩
    sched := { c.sched with
      lists := c.sched.lists.set p []
      waits := c.sched.waits.set p none
      compactList := resyncCompactList c.sched.compactList p
      current := c.sched.current.markDiscard p } }

theorem Ctl.arriveResync_eq (c : Ctl) (p : Port) : c.arriveResync p = (c.freed p).resyncClaims p := by
  have hfreed : c.freed p = (c.cleared p fun u => { u with rx := .trailing, sdo := some 0xFF }).onNotif p
      fun u => { NotifUnit.reset with selection := u.selection } := by
    have hports : (c.freed p).ports = (c.cleared p fun u => { u with rx := .trailing, sdo := some 0xFF }).ports := by
      show _ = ((c.resyncPort p).onPort p fun u => { u with rx := .trailing, sdo := some 0xFF }).ports
      rw [Ctl.resyncPort, Ctl.onPort_onPort]
      rfl
    exact congrArg (fun f => { c.freed p with ports := f }) hports
  rw [hfreed, (Ctl.apart_onNotif p _).resyncClaims]
  exact Ctl.resync_line c p (g := fun u => { u with rx := .trailing, sdo := some 0xFF }) ⟨fun _ => rfl, fun _ _ => rfl⟩

/-- Settles O40: the port freed in every block, then its claims, which end one after another under the claim law. -/
theorem resyncFreesThePort : Obligations.ResyncFreesThePort := by
  intro p tag args s hr c freed d
  have hfreed : freed = c.freed p := by
    show _ = Ctl.freed c p
    unfold Ctl.freed
    simp only [Staging.resync_eq, CurrentStep.markDiscard_eq]
    rfl
  have hd : d = (c.freed p).resyncClaims p := congrArg (Ctl.resyncClaims · p) hfreed
  refine ⟨?arrives, Ctl.resyncClaims_eq freed p, fun hlaw => ?claims⟩
  case arrives =>
    have harrives : exec (.resync p tag args) s = .next (s.settled (c.arriveResync p)) :=
      State.arrival_ready (fun c => c.arriveResync p) hr
    rw [harrives, Ctl.arriveResync_eq, hd]
  case claims =>
    have hlaw : freed.claimLaw := hlaw
    have hpromote : ∀ k ws, c.promote k ws = freed.promote k ws := fun k ws =>
      (Ctl.promote_congr (c := c) (d := freed) rfl rfl k ws).symm
    refine ⟨fun q => ?_, fun k hk => ?_, fun k e hk hp => ?_, fun k e hk hp => ?_, fun e he => hlaw.resyncClaims_left p he⟩
    · simp only [hpromote]
      exact hlaw.resyncClaims_port p q
    · have hk : freed.claimOf k = none := hk
      exact (hlaw.resyncClaims_other p fun e he => by rw [hk] at he; cases he).trans (by rw [hk]; rfl)
    · rw [hpromote]
      exact hlaw.resyncClaims_own p hk hp
    · have hk : freed.claimOf k = some e := hk
      refine (hlaw.resyncClaims_other p fun x hx => ?_).trans (by rw [hk]; rfl)
      rw [hk] at hx
      injection hx with hx
      exact hx ▸ hp

end Sys2Proof.Machine
end

section
/-! PROOF. READ, RELOAD and SETCONF complete (R115, R118, R168, R171 to R175), and the application of the enable mask (R78, R79). -/

namespace Sys2Proof.Machine

/-! ### A READ's record and a RELOAD's page have been read -/

/-- Without a limit mark a completion is its response, or its credit, and the turn (R117). -/
theorem Ctl.complete_unmarked {c : Ctl} {req : Request} (hm : c.sched.limitMark = false)
    (hb : ∀ release, req.body ≠ .commit release) (st : Status) (result : List Byte) :
    c.complete req st result = { c.onPort req.port fun u =>
        if req.discard then { u with outstanding := u.outstanding - 1 }
        else { u with queue := u.queue ++ [⟨st, req.tag, req.body.cmd.code, result⟩] } with
      sched := { c.sched with turn := .compaction, current := .none } } := by
  have hclear : (c.respond req st result).sched.limitMark = false := by rw [Ctl.respond_sched, hm]
  rw [Ctl.complete_other hb, ← Ctl.finished_eq rfl, Ctl.endMark_clear hclear, Ctl.respond_eq]
  rfl

section Reads

variable {c : Ctl} {req : Request}

theorem Ctl.recordRead_read {e : DirEntry} {pages : List Page} {h : RecHeader} (hc : checkRecord e pages = some h)
    {k : Half} {offset count : Nat} (hb : req.body = .read k offset count) (full : Bool) :
    c.recordRead req e pages full
      = c.complete req .ok (wordBytes h.sequence ++ ((recordPayload h pages).drop offset).take count) := by
  simp only [Ctl.recordRead, hc, hb]

theorem Ctl.readEnded_image (hs : c.sched.current = .port req .readImage) (data : Page) :
    c.readEnded data = c.imageRead req data := by
  simp only [Ctl.readEnded, hs]

theorem Ctl.imageRead_valid {data : Page} {i : ImageFields} (hi : parseImage data = some i)
    (hg : i.generation = c.conf.generation) : c.imageRead req data = c.completeReload req i.settings i.generation := by
  simp only [Ctl.imageRead, hi, if_pos hg]

theorem Ctl.imageRead_invalid {data : Page} (hi : ∀ i, parseImage data = some i → i.generation ≠ c.conf.generation) :
    c.imageRead req data = c.refuse req .dataErr := by
  unfold Ctl.imageRead
  split
  · next i he => exact if_neg (hi i he)
  · rfl

end Reads

/-! ### The enable mask (R78, R79) -/

/-- A port the mask leaves out is disabled. -/
def Ctl.leaveOut (mask : Byte) (d : Ctl) (p : Port) : Ctl :=
  if (d.port p).enabled && !inMask mask p then d.disable p else d

/-- A port the mask holds is enabled. -/
def Ctl.putBack (mask : Byte) (d : Ctl) (p : Port) : Ctl :=
  if !(d.port p).enabled && inMask mask p then d.enable p else d

theorem Ctl.applyEnableMask_eq (c : Ctl) (mask : Byte) :
    c.applyEnableMask mask = allPorts.foldl (Ctl.putBack mask) (allPorts.foldl (Ctl.leaveOut mask) c) := rfl

theorem Ctl.leaveOut_same {mask : Byte} {d : Ctl} {p : Port} (h : (d.port p).enabled = true → inMask mask p = true) :
    d.leaveOut mask p = d := by
  refine if_neg ?_
  rw [Bool.and_eq_true]
  rintro ⟨he, hm⟩
  simp [h he] at hm

theorem Ctl.leaveOut_disables {mask : Byte} {d : Ctl} {p : Port} (he : (d.port p).enabled = true)
    (hm : inMask mask p = false) : d.leaveOut mask p = d.disable p :=
  if_pos (by rw [he, hm]; rfl)

/-- What the mask makes of a port that it does not disable. -/
theorem Ctl.putBack_eq (mask : Byte) (d : Ctl) (p : Port) :
    d.putBack mask p = d.onPort p fun u => { u with enabled := u.enabled || inMask mask p } := by
  unfold Ctl.putBack
  split
  · next h =>
    rw [Bool.and_eq_true] at h
    exact Ctl.onPort_congr _ _ _ _ (by simp [h.2])
  · next h =>
    refine (Ctl.onPort_eq_self _ _ _ ?_).symm
    have hsame : ((d.port p).enabled || inMask mask p) = (d.port p).enabled := by
      cases he : (d.port p).enabled <;> simp_all
    rw [hsame]

/-- Changes of the four Port Units, one after another, are one. -/
theorem Ctl.onPorts_eq (c : Ctl) (g : Port → PortUnit → PortUnit) :
    allPorts.foldl (fun d p => d.onPort p (g p)) c = { c with ports := c.ports.map g } := rfl

theorem Ctl.putBack_ports (mask : Byte) (c : Ctl) : allPorts.foldl (Ctl.putBack mask) c
    = { c with ports := c.ports.map fun p u => { u with enabled := u.enabled || inMask mask p } } := by
  have hstep : Ctl.putBack mask = fun d p => d.onPort p fun u => { u with enabled := u.enabled || inMask mask p } := by
    funext d p
    exact Ctl.putBack_eq mask d p
  rw [hstep]
  exact Ctl.onPorts_eq c fun p u => { u with enabled := u.enabled || inMask mask p }

/-- With no enabled port left out the mask only enables. -/
theorem Ctl.applyEnableMask_enables {c : Ctl} {mask : Byte} (h : ∀ p, (c.port p).enabled = true → inMask mask p = true) :
    c.applyEnableMask mask = { c with ports := c.ports.map fun p u => { u with enabled := inMask mask p } } := by
  rw [Ctl.applyEnableMask_eq, List.foldl_fixed' (fun p => Ctl.leaveOut_same (h p)), Ctl.putBack_ports]
  refine congrArg (fun f => { c with ports := f }) (PerPort.ext_get fun p => ?_)
  have hbit : ((c.port p).enabled || inMask mask p) = inMask mask p := by
    cases he : (c.port p).enabled
    · exact Bool.false_or _
    · rw [h p he]
      rfl
  rw [PerPort.get_map, PerPort.get_map]
  exact congrArg (fun b => { c.port p with enabled := b }) hbit

/-- Disabling a port leaves every other port enabled or disabled as it was. -/
theorem Ctl.enabled_disable (c : Ctl) (p q : Port) :
    ((c.disable p).port q).enabled = if q = p then false else (c.port q).enabled := by
  have hline := Ctl.resync_line c p
    (g := fun u => { u with enabled := false, rx := .idle, statusLatch := none, sdo := none })
    ⟨fun _ => rfl, fun _ _ => rfl⟩
  have hclaims : ∀ d : Ctl, ((d.resyncClaims p).port q).enabled = (d.port q).enabled := fun d =>
    Ctl.resyncClaims_keeps (fun d => (d.port q).enabled)
      (fun d x r => by
        rw [Ctl.enter, Ctl.port_onPort]
        split
        · next hx => rw [hx]
        · rfl)
      (fun d k x => by rw [Ctl.port_setClaim]) (fun _ _ => rfl) d p
  rw [Ctl.disable, hline, Ctl.port_onNotif, Ctl.port_onNotif, hclaims, Ctl.cleared, Ctl.port_onPort]
  split
  · rfl
  · next hq =>
    show ((c.resyncPort p).port q).enabled = _
    rw [Ctl.resyncPort, Ctl.port_onPort_other _ hq]

/-- The ports before and after a port, in ascending order. -/
theorem allPorts_split (p : Port) : ∃ before after, allPorts = before ++ p :: after ∧ ∀ q ∈ before, portNum q < portNum p := by
  cases p
  · exact ⟨[], [.p1, .p2, .p3], rfl, by simp⟩
  · exact ⟨[.p0], [.p2, .p3], rfl, by simp [portNum]⟩
  · exact ⟨[.p0, .p1], [.p3], rfl, by simp [portNum]⟩
  · exact ⟨[.p0, .p1, .p2], [], rfl, by simp [portNum]⟩

theorem Ctl.leaveOuts_same {mask : Byte} {d : Ctl} {l : List Port}
    (h : ∀ q ∈ l, (d.port q).enabled = true → inMask mask q = true) : l.foldl (Ctl.leaveOut mask) d = d := by
  induction l with
  | nil => rfl
  | cons q t ih =>
    rw [List.foldl_cons, Ctl.leaveOut_same (h q List.mem_cons_self)]
    exact ih fun x hx => h x (List.mem_cons_of_mem _ hx)

/-- The lowest enabled port that the mask leaves out is disabled first. -/
theorem Ctl.applyEnableMask_disables {c : Ctl} {mask : Byte} {p : Port} (he : (c.port p).enabled = true)
    (hm : inMask mask p = false)
    (hlower : ∀ q, portNum q < portNum p → (c.port q).enabled = true → inMask mask q = true) :
    c.applyEnableMask mask = (c.disable p).applyEnableMask mask := by
  obtain ⟨before, after, hsplit, hbefore⟩ := allPorts_split p
  have hc : before.foldl (Ctl.leaveOut mask) c = c := Ctl.leaveOuts_same fun q hq => hlower q (hbefore q hq)
  have hd : before.foldl (Ctl.leaveOut mask) (c.disable p) = c.disable p := by
    refine Ctl.leaveOuts_same fun q hq hen => hlower q (hbefore q hq) ?_
    have hne : q ≠ p := fun hqp => Nat.lt_irrefl _ (hqp ▸ hbefore q hq)
    rwa [Ctl.enabled_disable, if_neg hne] at hen
  have hagain : (c.disable p).leaveOut mask p = c.disable p := by
    refine Ctl.leaveOut_same fun hen => ?_
    rw [Ctl.enabled_disable, if_pos rfl] at hen
    cases hen
  rw [Ctl.applyEnableMask_eq, Ctl.applyEnableMask_eq, hsplit]
  simp only [List.foldl_append, List.foldl_cons, hc, hd, Ctl.leaveOut_disables he hm, hagain]

/-- A port is disabled by RESYNC and the end of its frame, its notices left as at a fresh start. -/
theorem Ctl.disable_eq (c : Ctl) (p : Port) : c.disable p
    = { (c.resync p).onPort p fun u => { u with enabled := false, rx := .idle, statusLatch := none, sdo := none } with
        notifs := (c.resync p).notifs.set p ⟨[], [], false, none⟩ } := by
  have hnotif : ((c.resync p).notif p).abandonDrain = ⟨[], [], false, none⟩ := by
    rw [Ctl.resync, Ctl.notif_onNotif_same]
    rfl
  rw [← hnotif]
  rfl

/-! ### The stages of an image write (R168) -/

section ImageWrite

variable {c : Ctl} {plan : ImagePlan} {asker : ImageFor}

theorem Ctl.imageWritten_eq (b : Bool) : c.imageWritten plan asker b
    = Ctl.imageEnded { c with conf := match plan.target with
        | .s0 => { c.conf with faulted0 := b, stored := some ⟨plan.target, plan.image⟩ }
        | .s1 => { c.conf with faulted1 := b, stored := some ⟨plan.target, plan.image⟩ } } asker (some plan.image.generation) := by
  unfold Ctl.imageWritten
  cases plan.target <;> rfl

theorem Ctl.imageFailed_eq : c.imageFailed plan asker
    = Ctl.imageEnded { c with conf := match plan.target with
        | .s0 => { c.conf with faulted0 := true, stored := c.conf.stored }
        | .s1 => { c.conf with faulted1 := true, stored := c.conf.stored } } asker none := by
  unfold Ctl.imageFailed
  cases plan.target <;> rfl

theorem Ctl.eraseEnded_image (hs : c.sched.current.activity = some (.image .erase plan asker)) (passed : Bool) :
    c.eraseEnded passed = if passed then c.programImage plan asker else c.imageFailed plan asker := by
  simp only [Ctl.eraseEnded, hs, Ctl.eraseEndedFor]

theorem Ctl.programEnded_image (hs : c.sched.current.activity = some (.image .program plan asker)) (o : ProgramOutcome) :
    c.programEnded o = if o = .pass then c.imageWritten plan asker false
      else c.askRead plan.target.index 0 (.image .readBack plan asker) := by
  simp only [Ctl.programEnded, hs, Ctl.programEndedFor]

theorem Ctl.readEnded_readBack (hs : c.sched.current.activity = some (.image .readBack plan asker)) (data : Page) :
    c.readEnded data = if data = plan.image.page then c.imageWritten plan asker true else c.imageFailed plan asker := by
  unfold Ctl.readEnded
  cases hcur : c.sched.current with
  | none => rw [hcur] at hs; cases hs
  | port req act =>
    rw [hcur] at hs
    injection hs with hs
    subst hs
    rfl
  | agent act =>
    rw [hcur] at hs
    injection hs with hs
    subst hs
    rfl

theorem Ctl.programImage_programs (hn : c.media.budget plan.target.index = true) : c.programImage plan asker
    = c.askProgram plan.target.index 0 plan.image.page (.image .program plan asker) := if_pos hn

end ImageWrite

/-- The end of an image write that SETCONF asked for is its response (R171). -/
theorem Ctl.imageEnded_setconf {c : Ctl} {req : Request} {act : Activity} (hs : c.sched.current = .port req act) :
    (∀ g, c.imageEnded .setconf (some g) = c.complete req .ok (wordBytes g))
    ∧ c.imageEnded .setconf none = c.refuse req .media := by
  simp only [Ctl.imageEnded, hs, implies_true, and_self]

/-! ### READ and RELOAD -/

section Completions

variable {req : Request}

/-- A READ of a state with nothing else to do has completed: the response, and nothing to schedule (R101). -/
theorem Ctl.complete_read_schedule {c : Ctl} {k : Half} {offset count : Nat} (hb : req.body = .read k offset count)
    (hm : c.sched.limitMark = false) (hl : ∀ q, c.requests q = []) (ha : c.agentHasWork = false) (st : Status)
    (result : List Byte) : (c.complete req st result).schedule = { c.onPort req.port fun u =>
        if req.discard then { u with outstanding := u.outstanding - 1 }
        else { u with queue := u.queue ++ [⟨st, req.tag, 0x15, result⟩] } with
      sched := { c.sched with waits := PerPort.const none, turn := .compaction, current := .none } } := by
  have hother : ∀ release, req.body ≠ .commit release := fun release h => by rw [hb] at h; cases h
  have hcode : req.body.cmd.code = 0x15 := by rw [hb]; rfl
  rw [Ctl.complete_unmarked hm hother, hcode]
  exact Ctl.schedule_idle rfl hl ha

/-- A RELOAD completes with its response, and the settings it read are applied (R174). -/
theorem Ctl.completeReload_eq {c : Ctl} (hb : req.body = .reload) (x : Settings) (g : Word) : c.completeReload req x g
    = Ctl.endTurn (Ctl.applyEnableMask { c.onPort req.port fun u =>
        if req.discard then { u with outstanding := u.outstanding - 1 }
        else { u with queue := u.queue ++ [⟨.ok, req.tag, 0x33, wordBytes g⟩] } with
      sched := { c.sched with current := .none }
      conf := { c.conf with active := some x } } x.enable) := by
  have hcode : req.body.cmd.code = 0x33 := by rw [hb]; rfl
  unfold Ctl.completeReload Ctl.applyConfig
  rw [Ctl.respond_eq, hcode]
  rfl

end Completions

/-- Settles O45: a READ and a RELOAD by what their last page gives and the completion that follows; the enable mask by the
lowest port it leaves out; an image write by the equation of each of its stages. -/
theorem readCompletesWithItsData : Obligations.ReadCompletesWithItsData := by
  refine ⟨?read, ?reload, ?mask, Ctl.disable_eq, ?image, ?ended⟩
  case read =>
    intro s req k offset count row page e got hop hm hs hb hlen hmark hl ha pages done
    have hstep : exec .pageRead s = .next (s.settled (s.ctl.mediaIdle.recordRead req e pages false).schedule) := by
      rw [exec_pageRead_step hop hm, Ctl.readEnded_whole (c := s.ctl.mediaIdle) hs hlen]
    have hdone : ∀ st result, (s.ctl.mediaIdle.complete req st result).schedule = done st result := fun st result =>
      Ctl.complete_read_schedule (c := s.ctl.mediaIdle) hb hmark hl ha st result
    refine ⟨fun h hc => ?_, fun hc => ?_⟩
    · rw [hstep, Ctl.recordRead_read hc hb, hdone]
    · rw [hstep, Ctl.recordRead_damaged hc, Ctl.refuse_eq, hdone, hb]
      rfl
  case reload =>
    intro s req row page hop hm hs hb hmark data answered turned
    have hstep : exec .pageRead s = .next (s.settled (s.ctl.mediaIdle.imageRead req data).schedule) := by
      rw [exec_pageRead_step hop hm, Ctl.readEnded_image (c := s.ctl.mediaIdle) hs]
    refine ⟨fun i hi hg => ?_, fun hi => ?_⟩
    · rw [hstep, Ctl.imageRead_valid (c := s.ctl.mediaIdle) hi hg, Ctl.completeReload_eq hb]
      rfl
    · have hother : ∀ release, req.body ≠ .commit release := fun release h => by rw [hb] at h; cases h
      have hcode : req.body.cmd.code = 0x33 := by rw [hb]; rfl
      rw [hstep, Ctl.imageRead_invalid (c := s.ctl.mediaIdle) hi, Ctl.refuse_eq,
        Ctl.complete_unmarked (c := s.ctl.mediaIdle) hmark hother, hcode, hb]
      rfl
  case mask =>
    exact fun c mask => ⟨Ctl.applyEnableMask_enables, fun p he hp hlower => Ctl.applyEnableMask_disables he hp hlower⟩
  case image =>
    intro c plan asker row conf asks written failed
    have hrow : plan.target.index = row := SysRow.index_eq plan.target
    have hwritten : ∀ b, c.imageWritten plan asker b = written b := fun b => Ctl.imageWritten_eq b
    have hfailed : c.imageFailed plan asker = failed := Ctl.imageFailed_eq
    refine ⟨fun hs => ⟨fun n hn hlt => ?_, ?_⟩, fun hs => ⟨?_, fun o ho => ?_⟩, fun hs => ⟨?_, fun data hd => ?_⟩⟩
    · have hbudget : c.media.budget plan.target.index = true := by
        rw [hrow]
        exact Media.budget_of_count hn hlt
      rw [Ctl.eraseEnded_image hs, if_pos rfl, Ctl.programImage_programs hbudget, hrow]
      rfl
    · rw [Ctl.eraseEnded_image hs, if_neg Bool.false_ne_true, hfailed]
    · rw [Ctl.programEnded_image hs, if_pos rfl, hwritten]
    · rw [Ctl.programEnded_image hs, if_neg ho, hrow]
      rfl
    · rw [Ctl.readEnded_readBack hs, if_pos rfl, hwritten]
    · rw [Ctl.readEnded_readBack hs, if_neg hd, hfailed]
  case ended =>
    refine fun c g => ⟨fun req act hs => ?_, fun job left => ⟨rfl, rfl⟩, rfl, rfl⟩
    obtain ⟨hok, hmedia⟩ := Ctl.imageEnded_setconf hs
    exact ⟨hok g, hmedia.trans (Ctl.refuse_eq c req .media)⟩

end Sys2Proof.Machine
end

section
/-! PROOF. OPEN, FILL and ABANDON at their arrival: the form, the staging buffer they find, the fill level they answer, and the
withdrawal of a COMMIT not yet started (R83 to R88). -/

namespace Sys2Proof.Machine

/-! ### The answer with the fill level (Table 22) -/

/-- A command taken and answered with the fill level it finds, in one update. -/
theorem Ctl.answerFill_taken (c : Ctl) (p : Port) (cmd : Cmd) (tag : Byte) (st : Status) :
    (c.onPort p PortUnit.taken).answerFill p cmd tag st
      = c.answered p ⟨st, tag, cmd.code, natHalf (c.port p).staging.fill⟩ := by
  rw [Ctl.answerFill, Ctl.fillResult, Ctl.taken_staging, Ctl.answer_taken]

/-- A command taken that replaces the staging buffer is answered with the new fill level. -/
theorem Ctl.answerFill_setStaging_taken (c : Ctl) (p : Port) (b : Staging) (cmd : Cmd) (tag : Byte) (st : Status) :
    ((c.onPort p PortUnit.taken).setStaging p b).answerFill p cmd tag st
      = c.onPort p fun u => { u.answered ⟨st, tag, cmd.code, natHalf b.fill⟩ with staging := b } := by
  simp only [Ctl.answerFill, Ctl.fillResult, Ctl.answer, Ctl.enter, Ctl.setStaging, Ctl.onPort_onPort, Ctl.port_onPort_same]
  rfl

section Arrivals

variable {p : Port} {tag : Byte} {args : List Byte} {s : State}

/-- A command that leaves the staging buffer is answered with the fill level of the buffer it finds. -/
theorem State.arrive_answersFill {cmd : Cmd} {f : Ctl → Ctl} {st : Status} {b : Staging} (h : s.serves p cmd.code tag args)
    (hb : (s.ctl.port p).staging = b)
    (hf : f (s.ctl.onPort p PortUnit.taken) = (s.ctl.onPort p PortUnit.taken).answerFill p cmd tag st) :
    (s.arrival p cmd.code tag args fun c => c.arrive p cmd tag f)
      = .next (s.settled (s.ctl.answered p ⟨st, tag, cmd.code, natHalf b.fill⟩)) := by
  rw [State.arrive_serves _ _ h, hf, Ctl.answerFill_taken, hb]

/-- A command that replaces the staging buffer is answered OK with the fill level of the new one. -/
theorem State.arrive_stages {cmd : Cmd} {f : Ctl → Ctl} {b : Staging} (h : s.serves p cmd.code tag args)
    (hf : f (s.ctl.onPort p PortUnit.taken) = ((s.ctl.onPort p PortUnit.taken).setStaging p b).answerFill p cmd tag .ok) :
    (s.arrival p cmd.code tag args fun c => c.arrive p cmd tag f) = .next (s.settled (s.ctl.onPort p fun u =>
      { u.answered ⟨.ok, tag, cmd.code, natHalf b.fill⟩ with staging := b })) := by
  rw [State.arrive_serves _ _ h, hf, Ctl.answerFill_setStaging_taken]

/-! ### OPEN (R84) -/

theorem exec_open_badArg (h : s.serves p 0x10 tag args)
    (ha : args.length ≠ 5 ∨ keyOk (halfAt args 0) = false ∨ 512 < (halfAt args 2).toNat) :
    exec (.opn p tag args) s
      = .next (s.settled (s.ctl.answered p ⟨.badArg, tag, 0x10, natHalf (s.ctl.port p).staging.fill⟩)) :=
  State.arrive_answersFill (cmd := .opn) h rfl (by simp only [openArgs_none ha])

section Open

variable (h : s.serves p 0x10 tag args) {k : Composition} (ha : openArgs args = some k)

include h ha

theorem exec_open_busy {k' : Composition} (hb : (s.ctl.port p).staging = .submitted k') :
    exec (.opn p tag args) s = .next (s.settled (s.ctl.answered p ⟨.busy, tag, 0x10, natHalf k'.data.length⟩)) :=
  State.arrive_answersFill (cmd := .opn) (b := .submitted k') h hb (by simp only [ha, Ctl.taken_staging, hb])

/-- A composition begins in place of one not yet submitted. -/
theorem exec_open_begins (hnew : k.data = []) (hb : ∀ k', (s.ctl.port p).staging ≠ .submitted k') :
    exec (.opn p tag args) s = .next (s.settled (s.ctl.onPort p fun u =>
      { u.answered ⟨.ok, tag, 0x10, [0, 0]⟩ with staging := .composing k })) := by
  have hfill : natHalf (Staging.composing k).fill = [0, 0] := by
    rw [Staging.fill, hnew]
    exact natHalf_zero
  rw [← hfill]
  refine State.arrive_stages (cmd := .opn) (b := .composing k) h ?_
  simp only [ha, Ctl.taken_staging]
  cases hs : (s.ctl.port p).staging with
  | empty => rfl
  | composing k' => rfl
  | submitted k' => exact absurd hs (hb k')

end Open

/-! ### FILL (R85) -/

theorem exec_fill_badArg (h : s.serves p 0x11 tag args) (ha : args.length < 3 ∨ 50 < args.length) :
    exec (.fill p tag args) s
      = .next (s.settled (s.ctl.answered p ⟨.badArg, tag, 0x11, natHalf (s.ctl.port p).staging.fill⟩)) :=
  State.arrive_answersFill (cmd := .fill) h rfl (by simp only [fillArgs_none ha])

section Fill

variable (h : s.serves p 0x11 tag args) {offset : Nat} {data : List Byte} (ha : fillArgs args = some (offset, data))

include h ha

theorem exec_fill_noStage (hb : (s.ctl.port p).staging = .empty) :
    exec (.fill p tag args) s = .next (s.settled (s.ctl.answered p ⟨.noStage, tag, 0x11, [0, 0]⟩)) :=
  State.arrive_answersFill (cmd := .fill) h hb (by simp only [ha, Ctl.taken_staging, hb])

theorem exec_fill_busy {k : Composition} (hb : (s.ctl.port p).staging = .submitted k) :
    exec (.fill p tag args) s = .next (s.settled (s.ctl.answered p ⟨.busy, tag, 0x11, natHalf k.data.length⟩)) :=
  State.arrive_answersFill (cmd := .fill) (b := .submitted k) h hb (by simp only [ha, Ctl.taken_staging, hb])

variable {k : Composition} (hb : (s.ctl.port p).staging = .composing k)

include hb

/-- Bytes out of sequence, or past the declared length, are refused. -/
theorem exec_fill_outOfSequence (hd : offset ≠ k.data.length ∨ k.declared < offset + data.length) :
    exec (.fill p tag args) s = .next (s.settled (s.ctl.answered p ⟨.badArg, tag, 0x11, natHalf k.data.length⟩)) := by
  refine State.arrive_answersFill (cmd := .fill) (b := .composing k) h hb ?_
  simp only [ha, Ctl.taken_staging, hb]
  exact if_pos (by simpa using hd)

/-- Bytes in sequence within the declared length are appended. -/
theorem exec_fill_appends (ho : offset = k.data.length) (hd : offset + data.length ≤ k.declared) :
    exec (.fill p tag args) s = .next (s.settled (s.ctl.onPort p fun u =>
      { u.answered ⟨.ok, tag, 0x11, natHalf (k.data ++ data).length⟩ with
        staging := .composing { k with data := k.data ++ data } })) := by
  refine State.arrive_stages (cmd := .fill) (b := .composing { k with data := k.data ++ data }) h ?_
  simp only [ha, Ctl.taken_staging, hb]
  exact if_neg (by simp [ho, ho ▸ hd])

end Fill

end Arrivals

/-- Settles O24: OPEN by its form and the buffer it finds. -/
theorem openBeginsAComposition : Obligations.OpenBeginsAComposition := by
  unfold Obligations.OpenBeginsAComposition
  refine fun p tag args s h => ⟨exec_open_badArg h, fun hlen hk hdeclared => ?_⟩
  have hargs := openArgs_some hlen hk hdeclared
  exact ⟨fun k => exec_open_busy h hargs, exec_open_begins h hargs rfl⟩

/-- Settles O25: FILL by its form, the buffer it finds, and the place of its bytes in the composition. -/
theorem fillAppendsInSequence : Obligations.FillAppendsInSequence := by
  unfold Obligations.FillAppendsInSequence
  refine fun p tag args s h => ⟨exec_fill_badArg h, fun hmin hmax => ?_⟩
  have hargs := fillArgs_some hmin hmax
  have hcount : (args.drop 2).length = args.length - 2 := List.length_drop
  refine ⟨exec_fill_noStage h hargs, fun k => exec_fill_busy h hargs, fun k hb => ⟨fun hd => ?_, fun ho hd => ?_⟩⟩
  · exact exec_fill_outOfSequence h hargs hb (hcount ▸ hd)
  · rw [exec_fill_appends h hargs hb ho (hcount ▸ hd), List.length_append, hcount]

/-! ### The withdrawal of a COMMIT (R87) -/

section Withdrawal

variable {c : Ctl} {p : Port} {req : Request}

/-- The space wait ends exactly when the COMMIT withdrawn is the front of its list. -/
theorem Ctl.removeCommit_eq (hw : c.waitingCommit p = some req) : c.removeCommit p =
    let rest := (c.requests p).filter fun r => r.body.cmd ≠ .commit
    if (c.requests p).head? = some req then (c.setRequests p rest).setWait p none else c.setRequests p rest := by
  have hcommit : req.body.cmd = .commit := by simpa using List.find?_some hw
  unfold Ctl.waitingCommit at hw
  unfold Ctl.removeCommit
  cases hl : c.requests p with
  | nil => rfl
  | cons r t =>
    rw [hl] at hw
    by_cases hr : r.body.cmd = .commit
    · obtain rfl : r = req := by simpa [List.find?_cons, hr] using hw
      simp [hr]
    · have hbehind : r ≠ req := fun he => hr (he ▸ hcommit)
      simp [hr, hbehind]

@[simp] theorem Ctl.port_removeCommit (c : Ctl) (p q : Port) : (c.removeCommit p).port q = c.port q := by
  unfold Ctl.removeCommit
  split
  · split <;> rfl
  · rfl

/-- RELEASE_ON_DONE releases the hold on the key of the composition submitted (R148). -/
theorem Ctl.releaseOnDone_submitted {k : Composition} (hk : (c.port p).staging = .submitted k) (release : Bool) :
    c.releaseOnDone p release = if release then c.releaseHold p k.key else c := by
  cases release with
  | false => rfl
  | true => simp only [Ctl.releaseOnDone, Ctl.submitted_eq hk, if_true]

/-- A COMMIT withdrawn: its request, its hold when asked, then in one update the buffer and the response CANCELLED. -/
theorem Ctl.withdrawCommit_eq {k : Composition} {release : Bool} (hk : (c.port p).staging = .submitted k)
    (hw : c.waitingCommit p = some req) (hb : req.body = .commit release) : c.withdrawCommit p =
      (if release then (c.removeCommit p).releaseHold p k.key else c.removeCommit p).onPort p fun u =>
        { u with staging := .empty, queue := u.queue ++ [⟨.cancelled, req.tag, 0x13, []⟩] } := by
  have hkept : ((c.removeCommit p).port p).staging = .submitted k := by rw [Ctl.port_removeCommit, hk]
  simp only [Ctl.withdrawCommit, hw, hb, ReqBody.releases, Ctl.releaseOnDone_submitted hkept, Ctl.emptyStaging, Ctl.enter,
    Ctl.onPort_onPort]
  rfl

end Withdrawal

/-! ### ABANDON (R86) -/

section Abandon

variable {p : Port} {tag : Byte} {args : List Byte} {s : State} (h : s.serves p 0x12 tag args)

include h

theorem exec_abandon_badArg (hl : args.length ≠ 0) : exec (.abandon p tag args) s
    = .next (s.settled (s.ctl.answered p ⟨.badArg, tag, 0x12, natHalf (s.ctl.port p).staging.fill⟩)) :=
  State.arrive_answersFill (cmd := .abandon) h rfl (if_pos hl)

variable (hl : args.length = 0)

include hl

theorem exec_abandon_nothing (hb : (s.ctl.port p).staging = .empty) :
    exec (.abandon p tag args) s = .next (s.settled (s.ctl.answered p ⟨.ok, tag, 0x12, [0, 0]⟩)) := by
  refine State.arrive_answersFill (cmd := .abandon) h hb ((if_neg (not_not_intro hl)).trans ?_)
  simp only [Ctl.taken_staging, hb]

theorem exec_abandon_discards {k : Composition} (hb : (s.ctl.port p).staging = .composing k) :
    exec (.abandon p tag args) s = .next (s.settled (s.ctl.onPort p fun u =>
      { u.answered ⟨.ok, tag, 0x12, [0, 0]⟩ with staging := .empty })) := by
  refine State.arrive_stages (cmd := .abandon) (b := .empty) h ((if_neg (not_not_intro hl)).trans ?_)
  simp only [Ctl.taken_staging, hb]

variable {k : Composition} (hb : (s.ctl.port p).staging = .submitted k)

include hb

theorem exec_abandon_busy (hx : s.ctl.commitExecuting p = true) :
    exec (.abandon p tag args) s = .next (s.settled (s.ctl.answered p ⟨.busy, tag, 0x12, natHalf k.data.length⟩)) := by
  refine State.arrive_answersFill (cmd := .abandon) (b := .submitted k) h hb ((if_neg (not_not_intro hl)).trans ?_)
  simp only [Ctl.taken_staging, hb]
  exact if_pos hx

/-- The COMMIT withdrawn is answered CANCELLED before the ABANDON is answered OK. -/
theorem exec_abandon_withdraws {req : Request} {release : Bool} (hx : s.ctl.commitExecuting p = false)
    (hw : s.ctl.waitingCommit p = some req) (hr : req.body = .commit release) :
    let left := (s.ctl.onPort p PortUnit.taken).removeCommit p
    exec (.abandon p tag args) s = .next (s.settled ((if release then left.releaseHold p k.key else left).onPort p fun u =>
      { u with staging := .empty, queue := u.queue ++ [⟨.cancelled, req.tag, 0x13, []⟩, ⟨.ok, tag, 0x12, [0, 0]⟩] })) := by
  intro left
  have htaken : ((s.ctl.onPort p PortUnit.taken).port p).staging = .submitted k := by rw [Ctl.taken_staging, hb]
  have hbody : exec (.abandon p tag args) s
      = .next (s.settled (((s.ctl.onPort p PortUnit.taken).withdrawCommit p).answerFill p .abandon tag .ok)) := by
    refine (State.arrive_serves .abandon _ h).trans (congrArg (fun c => Host.Outcome.next (s.settled c)) ?_)
    refine (if_neg (not_not_intro hl)).trans ?_
    simp only [htaken]
    exact if_neg (Bool.eq_false_iff.1 hx)
  rw [hbody, Ctl.withdrawCommit_eq htaken hw hr]
  simp only [Ctl.answerFill, Ctl.fillResult, Ctl.answer, Ctl.enter, Ctl.onPort_onPort, Ctl.port_onPort_same, List.append_assoc]
  rfl

end Abandon

/-- Settles O26: ABANDON by its form and the buffer it finds; a COMMIT not yet started is withdrawn from its list. -/
theorem abandonDiscardsTheComposition : Obligations.AbandonDiscardsTheComposition := by
  unfold Obligations.AbandonDiscardsTheComposition
  refine fun p tag args s h => ⟨exec_abandon_badArg h, fun hl => ⟨exec_abandon_nothing h hl, fun k => exec_abandon_discards h hl,
    fun k hb => ⟨exec_abandon_busy h hl hb, fun req release hx hw hr => ?_⟩⟩⟩
  intro rest left
  have hleft : (s.ctl.onPort p PortUnit.taken).removeCommit p = left := Ctl.removeCommit_eq hw
  rw [exec_abandon_withdraws h hl hb hx hw hr, hleft]

end Sys2Proof.Machine
end

section
/-! PROOF. READ_ONLY: the arrivals it refuses (R120), the entry into it (R119, R136) and the agent's halt (R131). -/

namespace Sys2Proof.Machine

/-! ### The arrivals refused (R120) -/

theorem firstRefusal_readOnly {c : Ctl} (hm : c.sched.mode = .readOnly) (checks : List (Option Status)) :
    firstRefusal (c.modeRefusal :: checks) = some .readOnly := by
  rw [Ctl.modeRefusal_readOnly hm, firstRefusal_cons_some]

/-! ### The entry (R119, R136) -/

/-- The COMPACT request list answered on a device whose agent and Scheduler have changed, but not the pass counts or the list. -/
theorem Ctl.answerCompactList_with (c : Ctl) {a : Agent} {x : Sched} (hcopied : a.copied = c.agent.copied)
    (hdropped : a.dropped = c.agent.dropped) (hlist : x.compactList = c.sched.compactList) (st : Status) :
    Ctl.answerCompactList { c with agent := a, sched := x } st
      = { c.enterAll (c.readOnlyAnswers st) with agent := a, sched := { x with compactList := [] } } := by
  have hanswers : Ctl.readOnlyAnswers { c with agent := a, sched := x } st = c.readOnlyAnswers st := by
    simp only [Ctl.readOnlyAnswers, hcopied, hdropped, hlist]
  rw [Ctl.answerCompactList_eq, hanswers, Ctl.enterAll_with]

/-- READ_ONLY with its reason, everything else as it was. -/
def Ctl.inReadOnly (c : Ctl) (reason : Reason) : Ctl :=
  { c with sched := { c.sched with mode := .readOnly, reason := reason } }

section Entry

variable {c : Ctl}

theorem Ctl.enterReadOnly_other (hm : c.sched.mode ≠ .ready) (reason : Reason) : c.enterReadOnly reason = c := by
  unfold Ctl.enterReadOnly
  cases h : c.sched.mode with
  | ready => exact absurd h hm
  | mounting => rfl
  | readOnly => rfl

variable (hm : c.sched.mode = .ready)

include hm

/-- Within a step of the agent, or with no step executing, the mode and its reason alone change. -/
theorem Ctl.enterReadOnly_quiet (hx : ∀ req act, c.sched.current ≠ .port req act) (reason : Reason) :
    c.enterReadOnly reason = c.inReadOnly reason := by
  simp only [Ctl.enterReadOnly, Ctl.inReadOnly, hm]
  cases h : c.sched.current with
  | port req act => exact absurd h (hx req act)
  | agent act => rfl
  | none => rfl

/-- Within a port operation the COMPACT request list is answered and the pass abandoned. -/
theorem Ctl.enterReadOnly_port {req : Request} {act : Activity} (hx : c.sched.current = .port req act) (reason : Reason) :
    c.enterReadOnly reason = { c.enterAll (c.readOnlyAnswers .readOnly) with
      agent := c.agent.abandonPass
      sched := { c.sched with mode := .readOnly, reason := reason, compactList := [] } } := by
  have hlist := c.answerCompactList_with (a := c.agent)
    (x := { c.sched with mode := .readOnly, reason := reason }) rfl rfl rfl .readOnly
  have hentry : c.enterReadOnly reason = { (c.inReadOnly reason).answerCompactList .readOnly with
      agent := ((c.inReadOnly reason).answerCompactList .readOnly).agent.abandonPass } := by
    simp only [Ctl.enterReadOnly, Ctl.inReadOnly, hm, hx]
  rw [hentry, Ctl.inReadOnly, hlist]

end Entry

/-! ### The agent's halt (R131) -/

/-- The agent HALTED, its pass counts left as they stand. -/
def Agent.halted (a : Agent) : Agent := { a with state := .halted, retryMark := none }

section Halt

variable {c : Ctl}

theorem Ctl.haltAgent_ready (hm : c.sched.mode = .ready) {act : Activity} (hx : c.sched.current = .agent act) :
    c.haltAgent = { c.enterAll (c.readOnlyAnswers .media) with
      agent := c.agent.halted
      sched := { c.sched with mode := .readOnly, reason := .media, compactList := [], turn := .ports, current := .none } } := by
  have hentry : Ctl.enterReadOnly { c with agent := c.agent.halted } .media
      = Ctl.inReadOnly { c with agent := c.agent.halted } .media :=
    Ctl.enterReadOnly_quiet (c := { c with agent := c.agent.halted }) hm
      (fun req act' h => CurrentStep.noConfusion (hx.symm.trans h)) .media
  have hlist := c.answerCompactList_with (a := c.agent.halted)
    (x := { c.sched with mode := .readOnly, reason := .media }) rfl rfl rfl .media
  have hhalt : c.haltAgent
      = ((Ctl.enterReadOnly { c with agent := c.agent.halted } .media).answerCompactList .media).endAgentStep := by
    simp only [Ctl.haltAgent, hm]
    rfl
  rw [hhalt, hentry, Ctl.inReadOnly, hlist]
  rfl

theorem Ctl.haltAgent_readOnly (hm : c.sched.mode = .readOnly) :
    c.haltAgent = { c.enterAll (c.readOnlyAnswers .readOnly) with
      agent := c.agent.halted
      sched := { c.sched with compactList := [], turn := .ports, current := .none } } := by
  have hentry : Ctl.enterReadOnly { c with agent := c.agent.halted } .media = { c with agent := c.agent.halted } :=
    Ctl.enterReadOnly_other (c := { c with agent := c.agent.halted }) (fun h => Mode.noConfusion (hm.symm.trans h)) .media
  have hlist := c.answerCompactList_with (a := c.agent.halted) (x := c.sched) rfl rfl rfl .readOnly
  have hhalt : c.haltAgent
      = ((Ctl.enterReadOnly { c with agent := c.agent.halted } .media).answerCompactList .readOnly).endAgentStep := by
    simp only [Ctl.haltAgent, hm]
    rfl
  rw [hhalt, hentry, hlist]
  rfl

end Halt

/-- Settles O43: the mode check is the first of each arrival; the entry by the mode and the step executing; the halt by the
mode. -/
theorem readOnlyRefusesChanges : Obligations.ReadOnlyRefusesChanges := by
  refine ⟨fun p tag args s hm => ?refused, fun c reason => ⟨fun hm => Ctl.enterReadOnly_other hm reason, fun hm => ?entry⟩,
    fun c act hx => ⟨fun hm => Ctl.haltAgent_ready hm hx, Ctl.haltAgent_readOnly⟩⟩
  case refused =>
    have hfirst := firstRefusal_readOnly hm
    exact ⟨fun h hl hk => exec_delete_refused h hl hk (hfirst _), fun h hl hk => exec_freeze_refused h hl hk (hfirst _),
      fun h hl => exec_compact_refused h hl (hfirst _), fun h hl => exec_setconf_refused h (confArgs_some hl) (hfirst _)⟩
  case entry =>
    refine ⟨fun req act hx => ?_, fun hx => Ctl.enterReadOnly_quiet hm hx reason⟩
    refine (Ctl.enterReadOnly_port hm hx reason).trans ?_
    unfold Agent.abandonPass
    cases c.agent.state <;> rfl

end Sys2Proof.Machine
end

section
/-! PROOF. Invariants of the device mode and its reason (R119): a property of the two that every entry into READ_ONLY and the end
of mount keep is kept by every command. -/

namespace Sys2Proof.Machine

/-- The device mode and the read-only reason are as `M` allows. -/
def Ctl.modeIn (M : Mode → Reason → Prop) (c : Ctl) : Prop := M c.sched.mode c.sched.reason

/-- `M` allows what an entry into READ_ONLY and what the end of mount make of a mode and reason that it allows (R119, R186). -/
structure ModeInvariant (M : Mode → Reason → Prop) : Prop where
  enter : ∀ r r', M .ready r → r' ≠ .none → M .readOnly r'
  mounted : ∀ r, M .mounting r → ∀ m : RowMgr, M m.mountMode.1 m.mountMode.2

section ModeIn

variable {M : Mode → Reason → Prop}

theorem Ctl.modeIn_of_sched {c d : Ctl} (hs : d.sched = c.sched) (h : c.modeIn M) : d.modeIn M := by
  unfold Ctl.modeIn
  rw [hs]
  exact h

/-- After a reset, with and without power, the mode is MOUNTING and the reason none (R123). -/
theorem Ctl.modeIn_afterReset (h : M .mounting .none) (c : Ctl) :
    c.afterReset.modeIn M ∧ Ctl.modeIn M { c.afterReset with powered := false } := ⟨h, h⟩

/-- Mount ends in the mode, and with the reason, that its row table gives (R186). -/
theorem Ctl.finishMount_modeIn (h : ∀ m : RowMgr, M m.mountMode.1 m.mountMode.2) (c : Ctl) (ring : List (Nat × Word))
    (candidates : List Candidate) (fragments : List Word) : (c.finishMount ring candidates fragments).modeIn M :=
  h (c.finishMount ring candidates fragments).rows

namespace ModeInvariant

variable (h : ModeInvariant M)

include h

/-- Of the changes of a step the entry into READ_ONLY alone reaches the mode and its reason. -/
theorem quiet : QuietLaws (Ctl.modeIn M) where
  ports _ _ hc := hc
  endHold c k hc := Ctl.modeIn_of_sched (c.endHold_sched k) hc
  freezeClaim c k hc := Ctl.modeIn_of_sched (c.freezeClaim_sched k) hc
  resyncClaims c p hc := Ctl.modeIn_of_sched (c.resyncClaims_sched p) hc
  deliver _ _ hc := hc
  resyncNotif _ _ hc := hc
  abandonDrain _ _ hc := hc
  lists _ _ hc := hc
  searchStart _ _ hc := hc
  compactList _ _ hc := hc
  markDiscard _ _ hc := hc
  readOnly c r hm hr hc := by
    unfold Ctl.modeIn at hc
    rw [hm] at hc
    exact h.enter _ r hc hr
  starting _ _ _ _ hc := hc
  rows _ _ hc := hc
  dir _ _ hc := hc
  agent _ _ hc := hc
  op _ _ hc := hc
  forget _ _ hc := hc
  turn _ _ hc := hc
  waits _ _ hc := hc
  mark _ _ hc := hc
  stop _ hc := hc
  goOn _ _ _ hc := hc
  newPlan _ _ _ _ _ hc := hc
  samePlan _ _ _ _ _ _ _ hc := hc
  written _ _ _ _ _ _ hc := hc
  faulted _ _ _ hc := hc
  retired _ _ hc := hc
  active _ _ hc := hc

theorem arrivals : ArrivalLaws (Ctl.modeIn M) :=
  h.quiet.arrivals (fun _ _ _ _ _ hc => hc) (fun _ _ _ hc => hc) (fun _ _ hc => hc)
    (fun c e p st _ hc => Ctl.modeIn_of_sched (c.endWait_sched e p st) hc)
    (fun c p tag k hold wait _ hc => Ctl.modeIn_of_sched (c.handleClaim_sched p tag k hold wait) hc)

theorem loadConf {c : Ctl} (choice : Option StoredCopy) (hc : c.modeIn M) : (c.loadConf choice).modeIn M := by
  unfold Ctl.loadConf
  exact h.quiet.steps.applyEnableMask _ hc

/-- In MOUNTING a page read keeps the property: the end of mount alone sets the mode (R186). -/
theorem mountRead {c : Ctl} (data : Page) (hm : c.sched.mode = .mounting) (hc : c.modeIn M) : (c.mountRead data).modeIn M := by
  have hend : ∀ m : RowMgr, M m.mountMode.1 m.mountMode.2 := h.mounted c.sched.reason (hm ▸ hc)
  have hlaws : MountLaws (Ctl.modeIn M) :=
    { op := fun _ _ hd => hd
      mount := fun _ _ hd => hd
      loadConf := fun _ choice hd => h.loadConf choice hd
      finish := fun d ring candidates fragments _ => Ctl.finishMount_modeIn hend d ring candidates fragments }
  exact hlaws.mountRead data hc

theorem events : EventLaws (Ctl.modeIn M) (Ctl.modeIn M) :=
  eventLaws_of h.quiet.steps h.arrivals (fun _ data hm hc => h.mountRead data hm hc) (fun _ hc => hc) (fun _ _ hc => hc)
    (fun _ _ hc => hc) (fun _ _ _ _ hc => hc)

/-- Every command keeps the property when a reset and a power loss, if it is one of them, establish it. -/
theorem exec_modeIn {i : Instr} (hi : i.losesVolatile = true → M .mounting .none) {s t : State} (hs : s.ctl.modeIn M)
    (ht : exec i s = .next t) : t.ctl.modeIn M :=
  exec_keeps h.events (fun c hc => Ctl.modeIn_of_sched c.settle_sched hc) (fun hl c _ => Ctl.modeIn_afterReset (hi hl) c) hs ht

end ModeInvariant

end ModeIn

/-! ### The two properties of R119 -/

/-- Mount ends with a reason exactly in READ_ONLY (R186). -/
theorem RowMgr.mountMode_lawful (m : RowMgr) : m.mountMode.2 = .none ↔ m.mountMode.1 ≠ .readOnly := by
  by_cases hseq : m.seqCounter = 0xFFFFFF00
  · simp [RowMgr.mountMode_sequence hseq]
  · by_cases hfull : m.free = 0 ∧ m.tailLive = true
    · obtain ⟨hfree, htail⟩ := hfull
      simp [RowMgr.mountMode_media hseq hfree htail]
    · rw [RowMgr.mountMode_ready hseq (by simpa [Decidable.imp_iff_not_or] using hfull)]
      decide

/-- The mode law: the reason is none exactly outside READ_ONLY. -/
theorem modeLaw_invariant : ModeInvariant fun m r => r = .none ↔ m ≠ .readOnly where
  enter _ _ _ hr := ⟨fun h => absurd h hr, fun h => absurd rfl h⟩
  mounted _ _ := RowMgr.mountMode_lawful

/-- READ_ONLY with one reason: neither an entry nor the end of mount begins there. -/
theorem readOnly_invariant (reason : Reason) : ModeInvariant fun m r => m = .readOnly ∧ r = reason where
  enter _ _ h _ := nomatch h.1
  mounted _ h := nomatch h.1

/-- Settles O58: both properties of mode and reason are kept by every command, the mode law by a reset and a power loss too. -/
theorem readOnlyIsLeftByResetAlone : Obligations.ReadOnlyIsLeftByResetAlone := by
  intro i s t ht
  refine ⟨fun hlaw => modeLaw_invariant.exec_modeIn (fun _ => by decide) hlaw ht, fun hi hmode => ?_⟩
  exact (readOnly_invariant s.ctl.sched.reason).exec_modeIn (fun hl => absurd (hi.symm.trans hl) (by decide)) ⟨hmode, rfl⟩ ht

end Sys2Proof.Machine
end

section
/-! PROOF. The law of the claim table under every command (R139), CLAIM by Table 31 (R141, R142), RELEASE (R145), and the two timer
expiries (R144, R146, R147). -/

namespace Sys2Proof.Machine

/-! ### Every command keeps the law (R139) -/

/-- Of the changes of a step the end of a hold, a FREEZE and a RESYNC alone reach the claim table. -/
theorem claimQuiet : QuietLaws Ctl.claimLaw := by
  constructor
  case endHold => exact fun _ k h => h.endHold k
  case freezeClaim => exact fun _ k h => h.freezeClaim k
  case resyncClaims => exact fun _ p h => h.resyncClaims p
  all_goals
    intros
    assumption

theorem claimArrivals : ArrivalLaws Ctl.claimLaw :=
  claimQuiet.arrivals (fun _ _ _ _ _ h => h) (fun _ _ _ h => h) (fun _ _ h => h) (fun _ _ p st he h => h.endWait he p st)
    (fun c _ _ _ hold wait hk h => h.handled (c.handleClaim_cases _ _ hk hold wait))

theorem claimMount : MountLaws Ctl.claimLaw where
  op _ _ h := h
  mount _ _ h := h
  loadConf c choice h := by
    unfold Ctl.loadConf
    exact claimQuiet.steps.applyEnableMask _ h
  finish _ _ _ _ h := h

theorem claimEvents : EventLaws Ctl.claimLaw Ctl.claimLaw :=
  eventLaws_of claimQuiet.steps claimArrivals (fun _ data _ h => claimMount.mountRead data h) (fun _ h => h) (fun _ _ h => h)
    (fun _ _ h => h) (fun _ _ _ _ h => h)

/-- Settles O55: every operation that commands call keeps the law, a reset and a power loss establish it. -/
theorem stepsKeepTheClaimLaw : Obligations.StepsKeepTheClaimLaw :=
  step_of_exec fun _ _ _ hs ht =>
    exec_keeps claimEvents (fun _ h => h) (fun _ _ _ => ⟨Ctl.reset_claimLaw, Ctl.reset_claimLaw⟩) hs ht

/-! ### Waiter entries -/

theorem ClaimEntry.waits_iff (e : ClaimEntry) (p : Port) : e.waits p = true ↔ p ∈ e.waiters.map Waiter.port := by
  simp [ClaimEntry.waits]

theorem ClaimEntry.waits_eq_false {e : ClaimEntry} {p : Port} (h : p ∉ e.waiters.map Waiter.port) : e.waits p = false :=
  Bool.eq_false_iff.2 (mt (e.waits_iff p).1 h)

theorem ClaimEntry.waits_of_mem {e : ClaimEntry} {w : Waiter} (h : w ∈ e.waiters) : e.waits w.port = true :=
  (e.waits_iff _).2 (List.mem_map_of_mem h)

/-- In a lawful entry the end of a port's wait answers its one CLAIM that waits. -/
theorem Ctl.endWait_eq (c : Ctl) {e : ClaimEntry} (he : e.lawful) {k : Half} (hk : e.key = k) {w : Waiter}
    (hw : w ∈ e.waiters) (st : Status) :
    c.endWait e w.port st = (c.setClaim k (some (e.withoutWaiter w.port))).enter w.port (w.response st []) := by
  obtain ⟨_, _, hports, _⟩ := he
  rw [Ctl.endWait, waiters_of_port hports hw rfl, hk]
  rfl

/-! ### The handling of a CLAIM by Table 31 -/

section Handled

variable {c : Ctl} {p : Port} {k : Half} (tag : Byte) (hold wait : Half)

theorem Ctl.handleClaim_refused {st : Status} (hr : c.writeRefusal p k = some st) :
    c.handleClaim p tag k hold wait = c.answer p .claim tag st [] := by
  simp only [Ctl.handleClaim, hr]

theorem Ctl.handleClaim_tableFull (hr : c.writeRefusal p k = none) (hc : c.claimOf k = none)
    (hfull : Config.claimLimit ≤ c.claims.length) :
    c.handleClaim p tag k hold wait = c.answer p .claim tag .tableFull [] := by
  simp only [Ctl.handleClaim, hr, hc, if_pos hfull]

theorem Ctl.handleClaim_created (hr : c.writeRefusal p k = none) (hc : c.claimOf k = none)
    (hroom : c.claims.length < Config.claimLimit) : c.handleClaim p tag k hold wait
      = (c.answer p .claim tag .ok (claimResult outcomeNew hold)).setClaim k (some ⟨k, p, hold, []⟩) := by
  simp only [Ctl.handleClaim, hr, hc, if_neg (Nat.not_le.2 hroom), Ctl.answer_setClaim]

section Entry

variable {e : ClaimEntry} (hr : c.writeRefusal p k = none) (hc : c.claimOf k = some e)

include hr hc

theorem Ctl.handleClaim_held : c.handleClaim p tag k hold wait = c.claimHeld p tag e hold wait := by
  simp only [Ctl.handleClaim, hr, hc]

theorem Ctl.handleClaim_renewed (hp : e.holder = p) : c.handleClaim p tag k hold wait
    = (c.answer p .claim tag .ok (claimResult outcomeRenewed hold)).setClaim k (some { e with hold := hold }) := by
  rw [Ctl.handleClaim_held tag hold wait hr hc, Ctl.claimHeld, if_pos hp, Ctl.answer_setClaim, Ctl.claimOf_key hc]

theorem Ctl.handleClaim_noWait (hp : e.holder ≠ p) (hwait : wait = 0) :
    c.handleClaim p tag k hold wait = c.answer p .claim tag .held [] := by
  rw [Ctl.handleClaim_held tag hold wait hr hc, Ctl.claimHeld, if_neg hp, if_pos hwait]

theorem Ctl.handleClaim_waitsAlready (hp : e.holder ≠ p) (hwait : wait ≠ 0) (hw : p ∈ e.waiters.map Waiter.port) :
    c.handleClaim p tag k hold wait = c.answer p .claim tag .busy [] := by
  rw [Ctl.handleClaim_held tag hold wait hr hc, Ctl.claimHeld, if_neg hp, if_neg hwait, if_pos ((e.waits_iff p).2 hw)]

theorem Ctl.handleClaim_listFull (hp : e.holder ≠ p) (hwait : wait ≠ 0) (hw : p ∉ e.waiters.map Waiter.port)
    (hfull : Config.waiterLimit ≤ e.waiters.length) :
    c.handleClaim p tag k hold wait = c.answer p .claim tag .held [] := by
  rw [Ctl.handleClaim_held tag hold wait hr hc, Ctl.claimHeld, if_neg hp, if_neg hwait, if_neg (mt (e.waits_iff p).1 hw),
    if_pos hfull]

theorem Ctl.handleClaim_joins (hp : e.holder ≠ p) (hwait : wait ≠ 0) (hw : p ∉ e.waiters.map Waiter.port)
    (hroom : e.waiters.length < Config.waiterLimit) : c.handleClaim p tag k hold wait
      = c.setClaim k (some { e with waiters := e.waiters ++ [⟨p, tag, hold, wait⟩] }) := by
  rw [Ctl.handleClaim_held tag hold wait hr hc, Ctl.claimHeld, if_neg hp, if_neg hwait, if_neg (mt (e.waits_iff p).1 hw),
    if_neg (Nat.not_le.2 hroom), Ctl.claimOf_key hc]

end Entry

end Handled

/-! ### CLAIM's arrival (R141) -/

theorem Ctl.claimTimesOk_iff {c : Ctl} {cfg : Settings} (hcfg : c.conf.active = some cfg) (hold wait : Half) :
    c.claimTimesOk hold wait = true
      ↔ hold ≠ 0 ∧ hold.toNat ≤ cfg.holdMax.toNat ∧ wait.toNat ≤ cfg.waitMax.toNat := by
  simp [Ctl.claimTimesOk, hcfg, and_assoc]

section Claim

variable {p : Port} {tag : Byte} {args : List Byte} {s : State} (h : s.serves p 0x20 tag args)

include h

theorem exec_claim_badForm (ha : args.length ≠ 6 ∨ keyOk (halfAt args 0) = false) :
    exec (.claim p tag args) s = .next (s.settled (s.ctl.answered p ⟨.badArg, tag, 0x20, []⟩)) :=
  State.arrive_badArg (cmd := .claim) h fun c => by simp only [claimArgs_none ha]

section Form

variable (hl : args.length = 6) (hk : keyOk (halfAt args 0) = true)

include hl hk

theorem exec_claim_badTimes (ht : s.ctl.claimTimesOk (halfAt args 2) (halfAt args 4) = false) :
    exec (.claim p tag args) s = .next (s.settled (s.ctl.answered p ⟨.badArg, tag, 0x20, []⟩)) := by
  refine (State.arrive_serves .claim _ h).trans ?_
  have ht' : (s.ctl.onPort p PortUnit.taken).claimTimesOk (halfAt args 2) (halfAt args 4) = false := ht
  simp only [claimArgs_some hl hk, ht', Bool.false_eq_true, if_false, Ctl.answer_taken]
  rfl

section InRange

variable (ht : s.ctl.claimTimesOk (halfAt args 2) (halfAt args 4) = true)

include ht

theorem exec_claim_handled : exec (.claim p tag args) s = .next (s.settled
    ((s.ctl.onPort p PortUnit.taken).handleClaim p tag (halfAt args 0) (halfAt args 2) (halfAt args 4))) := by
  refine (State.arrive_serves .claim _ h).trans ?_
  have ht' : (s.ctl.onPort p PortUnit.taken).claimTimesOk (halfAt args 2) (halfAt args 4) = true := ht
  simp only [claimArgs_some hl hk, ht', if_true]

/-- A CLAIM whose case of Table 31 is an answer alone. -/
theorem exec_claim_answered {st : Status} {result : List Byte}
    (hd : (s.ctl.onPort p PortUnit.taken).handleClaim p tag (halfAt args 0) (halfAt args 2) (halfAt args 4)
      = (s.ctl.onPort p PortUnit.taken).answer p .claim tag st result) :
    exec (.claim p tag args) s = .next (s.settled (s.ctl.answered p ⟨st, tag, 0x20, result⟩)) := by
  rw [exec_claim_handled h hl hk ht, hd, Ctl.answer_taken]
  rfl

/-- A CLAIM whose case of Table 31 is an answer and a new entry of the key. -/
theorem exec_claim_entered {st : Status} {result : List Byte} {x : ClaimEntry}
    (hd : (s.ctl.onPort p PortUnit.taken).handleClaim p tag (halfAt args 0) (halfAt args 2) (halfAt args 4)
      = ((s.ctl.onPort p PortUnit.taken).answer p .claim tag st result).setClaim (halfAt args 0) (some x)) :
    exec (.claim p tag args) s
      = .next (s.settled ((s.ctl.answered p ⟨st, tag, 0x20, result⟩).setClaim (halfAt args 0) (some x))) := by
  rw [exec_claim_handled h hl hk ht, hd, Ctl.answer_taken]
  rfl

end InRange

end Form

/-- A CLAIM out of form, or with a time out of the active configuration's range, is answered BAD_ARG. -/
theorem exec_claim_badArg {cfg : Settings} (hcfg : s.ctl.conf.active = some cfg)
    (ha : args.length ≠ 6 ∨ keyOk (halfAt args 0) = false ∨ halfAt args 2 = 0
      ∨ cfg.holdMax.toNat < (halfAt args 2).toNat ∨ cfg.waitMax.toNat < (halfAt args 4).toNat) :
    exec (.claim p tag args) s = .next (s.settled (s.ctl.answered p ⟨.badArg, tag, 0x20, []⟩)) := by
  by_cases hform : args.length = 6 ∧ keyOk (halfAt args 0) = true
  · obtain ⟨hl, hk⟩ := hform
    refine exec_claim_badTimes h hl hk (Bool.eq_false_iff.2 fun ht => ?_)
    obtain ⟨hzero, hhold, hwait⟩ := (Ctl.claimTimesOk_iff hcfg _ _).1 ht
    rcases ha with ha | ha | ha | ha | ha
    · exact ha hl
    · exact Bool.false_ne_true (ha.symm.trans hk)
    · exact hzero ha
    · exact Nat.not_le.2 ha hhold
    · exact Nat.not_le.2 ha hwait
  · refine exec_claim_badForm h ?_
    rwa [not_and_or, Bool.not_eq_true] at hform

end Claim

/-- Settles O30: BAD_ARG first, then the cases of Table 31 in their order. -/
theorem claimByItsTable : Obligations.ClaimByItsTable := by
  unfold Obligations.ClaimByItsTable
  refine fun p tag args s cfg h hcfg => ⟨exec_claim_badArg h hcfg, fun hl hk hzero hhold hwait => ?_⟩
  have ht := (Ctl.claimTimesOk_iff hcfg _ _).2 ⟨hzero, hhold, hwait⟩
  refine ⟨fun st hr => ?refused, fun hr hc => ⟨fun hfull => ?tableFull, fun hroom => ?created⟩,
    fun e hr hc => ⟨fun hp => ?renewed, fun hp hw => ?noWait, fun hp hw hin => ?waitsAlready,
      fun hp hw hin hfull => ?listFull, fun hp hw hin hroom => ?joins⟩⟩
  case refused => exact exec_claim_answered h hl hk ht (Ctl.handleClaim_refused _ _ _ hr)
  case tableFull => exact exec_claim_answered h hl hk ht (Ctl.handleClaim_tableFull _ _ _ hr hc hfull)
  case created => exact exec_claim_entered h hl hk ht (Ctl.handleClaim_created _ _ _ hr hc hroom)
  case renewed => exact exec_claim_entered h hl hk ht (Ctl.handleClaim_renewed _ _ _ hr hc hp)
  case noWait => exact exec_claim_answered h hl hk ht (Ctl.handleClaim_noWait _ _ _ hr hc hp hw)
  case waitsAlready => exact exec_claim_answered h hl hk ht (Ctl.handleClaim_waitsAlready _ _ _ hr hc hp hw hin)
  case listFull => exact exec_claim_answered h hl hk ht (Ctl.handleClaim_listFull _ _ _ hr hc hp hw hin hfull)
  case joins => rw [exec_claim_handled h hl hk ht, Ctl.handleClaim_joins _ _ _ (c := s.ctl.onPort p _) hr hc hp hw hin hroom]

/-! ### RELEASE (R145) -/

section Release

variable {p : Port} {tag : Byte} {args : List Byte} {s : State} (h : s.serves p 0x21 tag args)

include h

theorem exec_release_badArg (ha : args.length ≠ 2 ∨ keyOk (halfAt args 0) = false) :
    exec (.release p tag args) s = .next (s.settled (s.ctl.answered p ⟨.badArg, tag, 0x21, []⟩)) :=
  State.arrive_badArg (cmd := .release) h fun c => by simp only [keyArg_none ha]

section Form

variable (hl : args.length = 2) (hk : keyOk (halfAt args 0) = true)

include hl hk

theorem exec_release_free (hc : s.ctl.claimOf (halfAt args 0) = none) :
    exec (.release p tag args) s = .next (s.settled (s.ctl.answered p ⟨.notHeld, tag, 0x21, []⟩)) := by
  refine (State.arrive_serves .release _ h).trans ?_
  simp only [keyArg_some hl hk, Ctl.claimOf_onPort, hc, Ctl.answer_taken]
  rfl

section Entry

variable {e : ClaimEntry} (hc : s.ctl.claimOf (halfAt args 0) = some e)

include hc

theorem exec_release_hold (hp : e.holder = p) : exec (.release p tag args) s = .next (s.settled
    (((s.ctl.onPort p PortUnit.taken).endHold (halfAt args 0)).enter p ⟨.ok, tag, 0x21, [1]⟩)) := by
  refine (State.arrive_serves .release _ h).trans ?_
  simp only [keyArg_some hl hk, Ctl.claimOf_onPort, hc, if_pos hp]
  rfl

theorem exec_release_wait (hp : e.holder ≠ p) (hw : e.waits p = true) : exec (.release p tag args) s = .next (s.settled
    (((s.ctl.onPort p PortUnit.taken).endWait e p .cancelled).enter p ⟨.ok, tag, 0x21, [2]⟩)) := by
  refine (State.arrive_serves .release _ h).trans ?_
  simp only [keyArg_some hl hk, Ctl.claimOf_onPort, hc, if_neg hp, if_pos hw]
  rfl

theorem exec_release_notHeld (hp : e.holder ≠ p) (hw : e.waits p = false) :
    exec (.release p tag args) s = .next (s.settled (s.ctl.answered p ⟨.notHeld, tag, 0x21, []⟩)) := by
  refine (State.arrive_serves .release _ h).trans ?_
  simp only [keyArg_some hl hk, Ctl.claimOf_onPort, hc, if_neg hp, hw, Bool.false_eq_true, if_false, Ctl.answer_taken]
  rfl

end Entry

end Form

end Release

/-- The CLAIM that waited is answered CANCELLED before the RELEASE's own answer. -/
theorem Ctl.endWait_taken_enter (c : Ctl) {e : ClaimEntry} (he : e.lawful) {k : Half} (hk : e.key = k) {w : Waiter}
    (hw : w ∈ e.waiters) (r : Response) : ((c.onPort w.port PortUnit.taken).endWait e w.port .cancelled).enter w.port r
      = (c.onPort w.port fun u => { u.taken with queue := u.queue ++ [⟨.cancelled, w.tag, 0x20, []⟩, r] }).setClaim k
          (some (e.withoutWaiter w.port)) := by
  rw [Ctl.endWait_eq _ he hk hw, Ctl.enter, Ctl.enter, Ctl.onPort_onPort, Ctl.setClaim_onPort, Ctl.onPort_onPort,
    Ctl.setClaim_onPort]
  refine Ctl.onPort_congr _ _ _ _ ?_
  simp only [PortUnit.taken, List.append_assoc]
  rfl

/-- Settles O32: the form, then hold, wait and neither. -/
theorem releaseEndsHoldOrWait : Obligations.ReleaseEndsHoldOrWait := by
  unfold Obligations.ReleaseEndsHoldOrWait
  refine fun p tag args s h hlaw => ⟨exec_release_badArg h, fun hl hk => ⟨exec_release_free h hl hk, fun e hc =>
    ⟨exec_release_hold h hl hk hc, ?wait, fun hp hw => exec_release_notHeld h hl hk hc hp (ClaimEntry.waits_eq_false hw)⟩⟩⟩
  case wait =>
    rintro w hw rfl
    have he : e.lawful := hlaw.lawful_of_claimOf hc
    have hholder : e.holder ≠ w.port := by
      obtain ⟨_, _, _, hnot⟩ := he
      exact fun hp => hnot (hp ▸ List.mem_map_of_mem hw)
    rw [exec_release_wait h hl hk hc hholder (ClaimEntry.waits_of_mem hw),
      Ctl.endWait_taken_enter _ he (Ctl.claimOf_key hc) hw]
    rfl

/-! ### The timers' expiries (R146, R147) -/

theorem exec_holdTimerExpiry_free {k : Half} {s : State} (hc : s.ctl.claimOf k = none) :
    exec (.holdTimerExpiry k) s = .next s := by
  show execHoldTimerExpiry k s = _
  simp only [execHoldTimerExpiry, hc]

/-- The hold ends as the promotion along its waiter list gives it. -/
theorem exec_holdTimerExpiry {k : Half} {s : State} {e : ClaimEntry} (hc : s.ctl.claimOf k = some e) :
    exec (.holdTimerExpiry k) s = .next (s.settled
      ((s.ctl.setClaim k (s.ctl.promote k e.waiters).1).enterAll (s.ctl.promote k e.waiters).2)) := by
  show execHoldTimerExpiry k s = _
  simp only [execHoldTimerExpiry, hc, State.after_eq, Ctl.endHold_eq _ hc]

/-- Settles O33: a waiter list in which all are refused, and one that splits at the first waiter with the right. -/
theorem holdExpiryPassesTheKey : Obligations.HoldExpiryPassesTheKey := by
  unfold Obligations.HoldExpiryPassesTheKey
  refine fun k s => ⟨exec_holdTimerExpiry_free, fun e refused hc hr => ⟨fun hws => ?freed, fun w rest hws hw => ?granted⟩⟩
  case freed =>
    rw [exec_holdTimerExpiry hc, hws, Ctl.promote_freed _ _ _ hr]
    rfl
  case granted =>
    rw [exec_holdTimerExpiry hc, hws, Ctl.promote_granted _ _ _ _ _ hr hw, Ctl.enterAll_append]
    rfl

theorem exec_waitTimerExpiry {k : Half} {p : Port} {s : State} {e : ClaimEntry} (hc : s.ctl.claimOf k = some e)
    (hw : e.waits p = true) : exec (.waitTimerExpiry k p) s = .next (s.settled (s.ctl.endWait e p .timeout)) := by
  show execWaitTimerExpiry k p s = _
  simp only [execWaitTimerExpiry, hc, if_pos hw, State.after_eq]

/-- Where the port does not wait on the key nothing happens. -/
theorem exec_waitTimerExpiry_idle {k : Half} {p : Port} {s : State} (hw : ∀ e, s.ctl.claimOf k = some e → e.waits p = false) :
    exec (.waitTimerExpiry k p) s = .next s := by
  show execWaitTimerExpiry k p s = _
  cases hc : s.ctl.claimOf k with
  | none => simp only [execWaitTimerExpiry, hc]
  | some e => simp only [execWaitTimerExpiry, hc, hw e hc, Bool.false_eq_true, if_false]

/-- Settles O34: the port waits on the key, the key has no entry, or the port does not wait on it. -/
theorem waitExpiryTimesOut : Obligations.WaitExpiryTimesOut := by
  unfold Obligations.WaitExpiryTimesOut
  refine fun k p s hlaw => ⟨?waits, fun hc => ?free, fun e hc hw => ?idle⟩
  case waits =>
    rintro e w hc hw rfl
    rw [exec_waitTimerExpiry hc (ClaimEntry.waits_of_mem hw), Ctl.endWait_eq _ (hlaw.lawful_of_claimOf hc)
      (Ctl.claimOf_key hc) hw]
    rfl
  case free => exact exec_waitTimerExpiry_idle fun e he => nomatch hc.symm.trans he
  case idle => exact exec_waitTimerExpiry_idle fun x hx => Option.some.inj (hc.symm.trans hx) ▸ ClaimEntry.waits_eq_false hw

end Sys2Proof.Machine
end

section
/-! PROOF. The Notification Unit (chapter 9): WATCH and UNWATCH (R155, R156), a notice placed in a queue (R158, R159, R161), the
end of a DRAIN readout (R162), and the bounds that every step keeps (R154, R158, R161). -/

namespace Sys2Proof.Machine

/-! ### A notice placed in a queue (R158) -/

/-- What an entry of a queue becomes when a notice coalesces there: the entry of its key takes the notice's content and is marked
when it is selected, any other stays. -/
def NotifUnit.coalesced (u : NotifUnit) (n e : Notice) : Notice :=
  if e.key = n.key then { n with marked := e.marked || u.isSelected n.key } else e

theorem NotifUnit.coalesced_key (u : NotifUnit) (n e : Notice) : (u.coalesced n e).key = e.key := by
  unfold NotifUnit.coalesced
  split
  · next h => exact h.symm
  · rfl

theorem NotifUnit.coalesced_of_ne (u : NotifUnit) {n e : Notice} (h : e.key ≠ n.key) : u.coalesced n e = e := if_neg h

theorem NotifUnit.keys_map_coalesced (u : NotifUnit) (n : Notice) (q : List Notice) :
    (q.map (u.coalesced n)).map Notice.key = q.map Notice.key := by
  rw [List.map_map]
  exact List.map_congr_left fun e _ => u.coalesced_key n e

/-- Without a readout selection a notice that coalesces sets no mark (R161). -/
theorem NotifUnit.coalesced_unmarked {u : NotifUnit} (hsel : u.selection = none) (n : Notice) {e : Notice}
    (he : e.marked = false) : (u.coalesced n e).marked = false := by
  unfold NotifUnit.coalesced
  split
  · simp [he, NotifUnit.isSelected, hsel]
  · exact he

section Place

variable {u : NotifUnit} {n : Notice}

theorem NotifUnit.place_coalesces (h : ∃ e ∈ u.queue, e.key = n.key) :
    u.place n = { u with queue := u.queue.map (u.coalesced n) } :=
  if_pos (by simpa using h)

theorem NotifUnit.any_key_eq_false (h : ∀ x ∈ u.queue, x.key ≠ n.key) : ¬ (u.queue.any fun e => e.key = n.key) = true := by
  simpa using h

theorem NotifUnit.place_appends (h : ∀ x ∈ u.queue, x.key ≠ n.key) (hl : u.queue.length < Config.noticeLimit) :
    u.place n = { u with queue := u.queue ++ [{ n with marked := false }] } := by
  rw [NotifUnit.place, if_neg (NotifUnit.any_key_eq_false h), if_pos hl]

theorem NotifUnit.place_loses (h : ∀ x ∈ u.queue, x.key ≠ n.key) (hl : Config.noticeLimit ≤ u.queue.length) :
    u.place n = { u with lost := true, selection := u.selection.map fun s => { s with lateLoss := true } } := by
  rw [NotifUnit.place, if_neg (NotifUnit.any_key_eq_false h), if_neg (Nat.not_lt.2 hl)]

/-- Where one entry alone has the notice's key, that entry changes in place. -/
theorem NotifUnit.map_coalesced {before after : List Notice} {e : Notice} (he : e.key = n.key)
    (hne : ∀ x ∈ before ++ after, x.key ≠ n.key) :
    (before ++ e :: after).map (u.coalesced n) = before ++ { n with marked := e.marked || u.isSelected n.key } :: after := by
  have hkeep : ∀ l : List Notice, l ⊆ before ++ after → l.map (u.coalesced n) = l := fun l hl =>
    (List.map_congr_left fun x hx => u.coalesced_of_ne (hne x (hl hx))).trans (List.map_id' l)
  have hkey : u.coalesced n e = { n with marked := e.marked || u.isSelected n.key } := if_pos he
  rw [List.map_append, List.map_cons, hkey, hkeep before (List.subset_append_left _ _),
    hkeep after (List.subset_append_right _ _)]

end Place

/-- Settles O39: the three branches of a placement, the first with its key's one entry. -/
theorem noticeCoalescesOrIsAppendedOrLost : Obligations.NoticeCoalescesOrIsAppendedOrLost := by
  intro u n
  refine ⟨fun before e after hq he hne => ?_, NotifUnit.place_appends, NotifUnit.place_loses⟩
  have hmem : e ∈ u.queue := hq ▸ List.mem_append_right _ List.mem_cons_self
  rw [NotifUnit.place_coalesces ⟨e, hmem, he⟩, hq, NotifUnit.map_coalesced he hne]
  rfl

/-! ### WATCH and UNWATCH (R155, R156) -/

section Watch

variable {p : Port} {tag : Byte} {args : List Byte} {s : State} (h : s.serves p 0x28 tag args) (hl : args.length = 2)
  (hk : keyOk (halfAt args 0) = true)

include h hl hk

theorem exec_watch_present (hw : halfAt args 0 ∈ (s.ctl.notif p).watch) : exec (.watch p tag args) s = .next (s.settled
    (s.ctl.answered p ⟨.ok, tag, 0x28, [natByte (s.ctl.notif p).watch.length]⟩)) := by
  refine (State.arrive_serves .watch _ h).trans ?_
  simp only [keyArg_some hl hk, Ctl.notif_onPort, List.contains_iff_mem.2 hw, if_true, Ctl.answer_taken]
  rfl

theorem exec_watch_full (hw : halfAt args 0 ∉ (s.ctl.notif p).watch)
    (hfull : Config.watchLimit ≤ (s.ctl.notif p).watch.length) : exec (.watch p tag args) s = .next (s.settled
    (s.ctl.answered p ⟨.tableFull, tag, 0x28, [natByte (s.ctl.notif p).watch.length]⟩)) := by
  refine (State.arrive_serves .watch _ h).trans ?_
  simp only [keyArg_some hl hk, Ctl.notif_onPort, if_neg (mt List.contains_iff_mem.1 hw), if_neg (Nat.not_lt.2 hfull),
    Ctl.answer_taken]
  rfl

/-- The key is added before the answer counts the watch set. -/
theorem exec_watch_added (hw : halfAt args 0 ∉ (s.ctl.notif p).watch)
    (hroom : (s.ctl.notif p).watch.length < Config.watchLimit) : exec (.watch p tag args) s = .next (s.settled
    ((s.ctl.answered p ⟨.ok, tag, 0x28, [natByte ((s.ctl.notif p).addWatch (halfAt args 0)).watch.length]⟩).onNotif p fun u =>
      u.addWatch (halfAt args 0))) := by
  refine (State.arrive_serves .watch _ h).trans ?_
  simp only [keyArg_some hl hk, Ctl.notif_onPort, if_neg (mt List.contains_iff_mem.1 hw), if_pos hroom, Ctl.watchCount,
    Ctl.notif_onNotif_same, Ctl.answer_onNotif, Ctl.answer_taken]
  rfl

end Watch

theorem NotifUnit.mem_addWatch (u : NotifUnit) (k x : Half) : x ∈ (u.addWatch k).watch ↔ x = k ∨ x ∈ u.watch := by
  refine ⟨mem_insertBy _, fun hx => ?_⟩
  by_cases hxk : x = k
  · exact hxk ▸ self_mem_insertBy _ _ _
  · exact mem_insertBy_of_ne _ (hx.resolve_left hxk) fun hnat => hxk (BitVec.eq_of_toNat_eq hnat).symm

theorem NotifUnit.length_addWatch {u : NotifUnit} {k : Half} (h : k ∉ u.watch) :
    (u.addWatch k).watch.length = u.watch.length + 1 :=
  length_insertBy_new _ fun _ hy hnat => h (BitVec.eq_of_toNat_eq hnat ▸ hy)

/-- Settles O28: the form, then the key present, a full watch set, and room for the key. -/
theorem watchAddsAKey : Obligations.WatchAddsAKey := by
  intro p tag args s h k w
  refine ⟨fun ha => State.arrive_badArg (cmd := .watch) h fun c => by simp only [keyArg_none ha], fun hl hk =>
    ⟨exec_watch_present h hl hk, exec_watch_full h hl hk, fun hw hroom => ?_⟩⟩
  have hlength := NotifUnit.length_addWatch hw
  refine ⟨((s.ctl.notif p).addWatch k).watch, (s.ctl.notif p).mem_addWatch k, hlength, ?_⟩
  rw [exec_watch_added h hl hk hw hroom, hlength]
  rfl

/-- The key leaves before the answer counts the watch set. -/
theorem exec_unwatch {p : Port} {tag : Byte} {args : List Byte} {s : State} (h : s.serves p 0x29 tag args)
    (hl : args.length = 2) (hk : keyOk (halfAt args 0) = true) : exec (.unwatch p tag args) s = .next (s.settled
    ((s.ctl.answered p ⟨.ok, tag, 0x29, [boolByte ((s.ctl.notif p).watch.contains (halfAt args 0)),
      natByte ((s.ctl.notif p).dropWatch (halfAt args 0)).watch.length]⟩).onNotif p fun u => u.dropWatch (halfAt args 0))) := by
  refine (State.arrive_serves .unwatch _ h).trans ?_
  simp only [keyArg_some hl hk, Ctl.notif_onPort, Ctl.watchCount, Ctl.notif_onNotif_same, Ctl.answer_onNotif, Ctl.answer_taken]
  rfl

theorem boolByte_contains (k : Half) (w : List Half) : boolByte (w.contains k) = if k ∈ w then 1 else 0 := by
  by_cases hk : k ∈ w <;> simp [boolByte, hk]

/-- Settles O29: the form, then a key present or not, which leaves the watch set without it. -/
theorem unwatchRemovesAKey : Obligations.UnwatchRemovesAKey := by
  intro p tag args s h k w
  refine ⟨fun ha => State.arrive_badArg (cmd := .unwatch) h fun c => by simp only [keyArg_none ha], fun hl hk => ?_⟩
  rw [exec_unwatch h hl hk, boolByte_contains]
  rfl

/-! ### The end of a DRAIN readout (R162) -/

theorem exec_drainReadoutComplete {p : Port} {s : State} {rest : List Byte} (h : (s.ctl.port p).rx = .readout .drain rest) :
    exec (.drainReadoutComplete p) s = .next (s.settled (s.ctl.drainDone p)) := by
  show execDrainReadoutComplete p s = _
  simp only [execDrainReadoutComplete, h, State.after_eq]

/-- What the completion of a readout with the selection `sel` leaves. -/
def NotifUnit.readoutShown (u : NotifUnit) (sel : ReadoutSelection) : NotifUnit :=
  { u with
    queue := clearMarks (u.queue.filter fun n => n.marked || !sel.keys.contains n.key)
    lost := u.lost && !(sel.lostReported && !sel.lateLoss)
    selection := none }

theorem NotifUnit.finishDrain_selected {u : NotifUnit} {sel : ReadoutSelection} (h : u.selection = some sel) :
    u.finishDrain = u.readoutShown sel := by
  simp only [NotifUnit.finishDrain, h]
  rfl

/-- Settles O38: the completion with its selection, and the last byte that is the completion. -/
theorem drainReadoutRemovesWhatItShowed : Obligations.DrainReadoutRemovesWhatItShowed := by
  intro p s rest sel hr hsel
  rw [exec_drainReadoutComplete hr]
  refine ⟨?_, fun last b hlast => ?_⟩
  · rw [Ctl.drainDone, Ctl.onNotif_congr _ _ _ (fun u => u.readoutShown sel) (NotifUnit.finishDrain_selected hsel)]
    rfl
  · rw [exec_byteComplete_readout hr, hlast]
    rfl

/-! ### The bounds of the Notification Unit (R154, R158, R161) -/

theorem clearMarks_keys (q : List Notice) : (clearMarks q).map Notice.key = q.map Notice.key := List.map_map

theorem marked_of_mem_clearMarks {q : List Notice} {n : Notice} (h : n ∈ clearMarks q) : n.marked = false := by
  obtain ⟨_, _, rfl⟩ := List.mem_map.1 h
  rfl

namespace NotifUnit.lawful

variable {u : NotifUnit} (h : u.lawful)

include h

/-- A notice that coalesces keeps the keys; one that is appended has a new key and finds room; one that is lost leaves the queue.
A mark is set where a selection stands alone. -/
theorem place (n : Notice) : (u.place n).lawful := by
  obtain ⟨hwatch, hsorted, hlength, hkeys, hmarks⟩ := h
  by_cases hin : ∃ e ∈ u.queue, e.key = n.key
  · rw [NotifUnit.place_coalesces hin]
    refine ⟨hwatch, hsorted, (List.length_map _).trans_le hlength, ?_, fun hsel => ?_⟩
    · exact (u.keys_map_coalesced n u.queue).symm ▸ hkeys
    · exact List.forall_mem_map.2 fun e he => NotifUnit.coalesced_unmarked hsel n (hmarks hsel e he)
  · have hnew : ∀ x ∈ u.queue, x.key ≠ n.key := fun x hx hxn => hin ⟨x, hx, hxn⟩
    rcases Nat.lt_or_ge u.queue.length Config.noticeLimit with hroom | hfull
    · rw [NotifUnit.place_appends hnew hroom]
      refine ⟨hwatch, hsorted, by simpa using hroom, ?_, fun hsel => ?_⟩
      · rw [List.map_append]
        refine hkeys.append (List.nodup_singleton _) ?_
        simpa using hnew
      · exact List.forall_mem_append.2 ⟨hmarks hsel, List.forall_mem_singleton.2 rfl⟩
    · rw [NotifUnit.place_loses hnew hfull]
      exact ⟨hwatch, hsorted, hlength, hkeys, fun hsel => hmarks (Option.map_eq_none_iff.1 hsel)⟩

/-- Some of the notices, their marks cleared. -/
theorem cleared {q : List Notice} (hq : q.Sublist u.queue) (lost : Bool) (sel : Option ReadoutSelection) :
    NotifUnit.lawful { u with queue := clearMarks q, lost := lost, selection := sel } := by
  obtain ⟨hwatch, hsorted, hlength, hkeys, _⟩ := h
  refine ⟨hwatch, hsorted, (List.length_map _).trans_le (hq.length_le.trans hlength), ?_, fun _ _ => marked_of_mem_clearMarks⟩
  exact (clearMarks_keys q).symm ▸ hkeys.sublist (hq.map _)

theorem abandonDrain : u.abandonDrain.lawful := h.cleared (List.Sublist.refl _) _ _

theorem finishDrain : u.finishDrain.lawful := by
  cases hsel : u.selection with
  | none => simpa only [NotifUnit.finishDrain, hsel] using h
  | some sel =>
    rw [NotifUnit.finishDrain_selected hsel]
    exact h.cleared List.filter_sublist _ _

/-- While a selection stands any mark may. -/
theorem select : u.select.lawful := by
  obtain ⟨hwatch, hsorted, hlength, hkeys, _⟩ := h
  exact ⟨hwatch, hsorted, hlength, hkeys, fun hsel => nomatch hsel⟩

theorem addWatch (k : Half) (hroom : u.watch.length < Config.watchLimit) : (u.addWatch k).lawful := by
  obtain ⟨_, hsorted, hqueue⟩ := h
  exact ⟨(length_insertBy_le _ k u.watch).trans hroom, insertBy_pairwise _ hsorted, hqueue⟩

theorem dropWatch (k : Half) : (u.dropWatch k).lawful := by
  obtain ⟨hwatch, hsorted, hqueue⟩ := h
  exact ⟨(List.length_filter_le _ _).trans hwatch, hsorted.filter _, hqueue⟩

end NotifUnit.lawful

/-- No notice and no key watched, whatever the selection (R164). -/
theorem NotifUnit.lawful_emptied (sel : Option ReadoutSelection) :
    NotifUnit.lawful { NotifUnit.reset with selection := sel } :=
  ⟨Nat.zero_le _, .nil, Nat.zero_le _, .nil, fun _ _ hn => nomatch hn⟩

theorem Ctl.noticeLaw_of_notifs {c d : Ctl} (hn : d.notifs = c.notifs) (h : c.noticeLaw) : d.noticeLaw := by
  intro p
  show (d.notifs.get p).lawful
  rw [hn]
  exact h p

/-- A change of one port's notices that keeps its bounds. -/
theorem Ctl.noticeLaw.onNotif {c : Ctl} (h : c.noticeLaw) {p : Port} {g : NotifUnit → NotifUnit}
    (hg : (c.notif p).lawful → (g (c.notif p)).lawful) : (c.onNotif p g).noticeLaw := by
  intro q
  by_cases hq : q = p
  · subst hq
    rw [Ctl.notif_onNotif_same]
    exact hg (h q)
  · rw [Ctl.notif_onNotif_other c hq]
    exact h q

/-- A notice delivered is placed in some queues and leaves the others. -/
theorem Ctl.noticeLaw.deliver {c : Ctl} (h : c.noticeLaw) (n : Notice) : (c.deliver n).noticeLaw := by
  intro p
  rw [Ctl.notif, Ctl.deliver, PerPort.get_map]
  split
  · exact (h p).place n
  · exact h p

/-- Of the changes of a step a delivery, a RESYNC and a DRAIN left incomplete alone reach the notices. -/
theorem noticeQuiet : QuietLaws Ctl.noticeLaw := by
  constructor
  case endHold => exact fun c k => Ctl.noticeLaw_of_notifs (c.endHold_notifs k)
  case freezeClaim => exact fun c k => Ctl.noticeLaw_of_notifs (c.freezeClaim_notifs k)
  case resyncClaims => exact fun c p => Ctl.noticeLaw_of_notifs (c.resyncClaims_notifs p)
  case deliver => exact fun _ n h => h.deliver n
  case resyncNotif => exact fun _ _ h => h.onNotif fun _ => NotifUnit.lawful_emptied _
  case abandonDrain => exact fun _ _ h => h.onNotif fun hu => hu.abandonDrain
  all_goals
    intros
    assumption

theorem noticeArrivals : ArrivalLaws Ctl.noticeLaw :=
  noticeQuiet.arrivals (fun _ _ k _ hroom h => h.onNotif fun hu => hu.addWatch k hroom)
    (fun _ _ k h => h.onNotif fun hu => hu.dropWatch k) (fun _ _ h => h.onNotif fun hu => hu.select)
    (fun c e p st _ => Ctl.noticeLaw_of_notifs (c.endWait_notifs e p st))
    (fun c p tag k hold wait _ => Ctl.noticeLaw_of_notifs (c.handleClaim_notifs p tag k hold wait))

theorem noticeMount : MountLaws Ctl.noticeLaw where
  op _ _ h := h
  mount _ _ h := h
  loadConf c choice h := by
    unfold Ctl.loadConf
    exact noticeQuiet.steps.applyEnableMask _ h
  finish _ _ _ _ h := h

theorem noticeEvents : EventLaws Ctl.noticeLaw Ctl.noticeLaw :=
  eventLaws_of noticeQuiet.steps noticeArrivals (fun _ data _ h => noticeMount.mountRead data h) (fun _ h => h)
    noticeQuiet.abandonDrain (fun _ _ h => h.onNotif fun hu => hu.finishDrain) (fun _ _ _ _ h => h)

/-- Settles O54: every operation that commands call keeps the bounds, a reset and a power loss establish them. -/
theorem stepsKeepTheNoticeLaw : Obligations.StepsKeepTheNoticeLaw :=
  step_of_exec fun _ _ _ hs ht =>
    exec_keeps noticeEvents (fun _ h => h) (fun _ _ _ => ⟨Ctl.reset_noticeLaw, Ctl.reset_noticeLaw⟩) hs ht

end Sys2Proof.Machine
end

section
/-! PROOF. A locked stored image (R172): its lock and settings, and those of an image write under way, stay under every command
that keeps the session. -/

namespace Sys2Proof.Machine

/-! ### The changes of the Configuration Unit (R165, R168) -/

@[simp] theorem ConfUnit.setFaulted_lock (u : ConfUnit) (row : SysRow) (b : Bool) : (u.setFaulted row b).lock = u.lock := by
  cases row <;> rfl

@[simp] theorem ConfUnit.setFaulted_settings (u : ConfUnit) (row : SysRow) (b : Bool) :
    (u.setFaulted row b).settings = u.settings := by
  cases row <;> rfl

/-! ### The activity of the step under way -/

/-- An activity that is no image write carries any settings. -/
theorem Activity.carries_of_plain {x : Settings} {act : Activity} (h : act.plain = true) : act.carries x := by
  cases act with
  | image _ _ _ => cases h
  | _ => trivial

/-- What an image write carries depends on its plan alone, not on its stage or asker. -/
theorem Activity.carries_image {x : Settings} {plan : ImagePlan} (stage : ImageStage) (asker : ImageFor) :
    (Activity.image stage plan asker).carries x ↔ plan.image.settings = x ∧ plan.image.lock = 1 := Iff.rfl

/-! ### The lock under the elementary changes -/

namespace Ctl.lockedWith

variable {x : Settings} {c d : Ctl}

theorem of_eq (h : c.lockedWith x) (hs : d.sched = c.sched) (hc : d.conf = c.conf) : d.lockedWith x := by
  unfold Ctl.lockedWith
  rw [hs, hc]
  exact h

/-- What the step under way waits for, if anything, carries the settings. -/
theorem carries (h : c.lockedWith x) {act : Activity} (ha : c.sched.current.activity = some act) : act.carries x := by
  obtain ⟨-, -, -, hact⟩ := h
  exact hact act ha

/-- The current step replaced by one whose activity, if any, carries the settings. -/
theorem setCurrent (h : c.lockedWith x) {s : CurrentStep} (hs : ∀ act, s.activity = some act → act.carries x) :
    (c.setCurrent s).lockedWith x := by
  obtain ⟨hmode, hlock, hset, -⟩ := h
  exact ⟨hmode, hlock, hset, hs⟩

/-- The step under way goes on to an activity that carries the settings. -/
theorem setActivity (h : c.lockedWith x) {act : Activity} (ha : act.carries x) : (c.setActivity act).lockedWith x :=
  h.setCurrent fun _ hact => CurrentStep.activity_withActivity hact ▸ ha

/-- A stored image written with the lock and the same settings (R168). -/
theorem store (h : c.lockedWith x) {u : ConfUnit} {copy : StoredCopy} (hset : copy.image.settings = x)
    (hlock : copy.image.lock = 1) : Ctl.lockedWith { c with conf := { u with stored := some copy } } x := by
  obtain ⟨hmode, -, -, hact⟩ := h
  exact ⟨hmode, hlock, hset, hact⟩

/-- An image formed under the lock repeats the stored settings and lock (R172, R175). -/
theorem plan_carries (h : c.lockedWith x) {plan : ImagePlan}
    (hp : (plan.image.settings = c.conf.settings ∧ plan.image.lock = c.conf.lock) ∨ c.conf.lock ≠ 1) :
    plan.image.settings = x ∧ plan.image.lock = 1 := by
  obtain ⟨-, hlock, hset, -⟩ := h
  obtain ⟨hsame, hsameLock⟩ | hunlocked := hp
  · exact ⟨hsame.trans hset, hsameLock.trans hlock⟩
  · exact absurd hlock hunlocked

/-- The image write under way carries the locked settings. -/
theorem underWay (h : c.lockedWith x) {stage : ImageStage} {plan : ImagePlan} {asker : ImageFor}
    (hs : c.sched.current.activity = some (.image stage plan asker)) : plan.image.settings = x ∧ plan.image.lock = 1 :=
  (Activity.carries_image stage asker).mp (h.carries hs)

/-- A discard mark set on the step under way leaves what it waits for (R122). -/
theorem markDiscard (h : c.lockedWith x) (p : Port) :
    Ctl.lockedWith { c with sched := { c.sched with current := c.sched.current.markDiscard p } } x :=
  h.setCurrent fun _ ha => h.carries (CurrentStep.activity_markDiscard _ p ▸ ha)

/-- A system row's faulted mark leaves the stored image. -/
theorem setFaulted (h : c.lockedWith x) (row : SysRow) (b : Bool) :
    Ctl.lockedWith { c with conf := c.conf.setFaulted row b } x := by
  obtain ⟨hmode, hlock, hset, hact⟩ := h
  exact ⟨hmode, (c.conf.setFaulted_lock row b).trans hlock, (c.conf.setFaulted_settings row b).trans hset, hact⟩

/-- READ_ONLY entered (R119): mount has still ended. -/
theorem readOnly (h : c.lockedWith x) (r : Reason) :
    Ctl.lockedWith { c with sched := { c.sched with mode := .readOnly, reason := r } } x := by
  obtain ⟨-, hlock, hset, hact⟩ := h
  exact ⟨by simp, hlock, hset, hact⟩

end Ctl.lockedWith

/-! ### The lock under every command (R172) -/

/-- Of the changes of a step those of the current step, the mode and the Configuration Unit alone reach the lock. -/
theorem lockedQuiet (x : Settings) : QuietLaws fun c => c.lockedWith x := by
  constructor
  case endHold => exact fun c k h => h.of_eq (c.endHold_sched k) (c.endHold_conf k)
  case freezeClaim => exact fun c k h => h.of_eq (c.freezeClaim_sched k) (c.freezeClaim_conf k)
  case resyncClaims => exact fun c p h => h.of_eq (c.resyncClaims_sched p) (c.resyncClaims_conf p)
  case markDiscard => exact fun _ p h => h.markDiscard p
  case readOnly => exact fun _ r _ _ h => h.readOnly r
  case starting =>
    intro c s _ hact h
    refine h.setCurrent fun act ha => ?_
    obtain hstart | hnone := hact
    · obtain rfl : Activity.starting = act := Option.some.inj (hstart.symm.trans ha)
      trivial
    · cases hnone.symm.trans ha
  case stop => exact fun _ h => h.setCurrent nofun
  case goOn => exact fun _ _ hplain h => h.setActivity (Activity.carries_of_plain hplain)
  case newPlan => exact fun _ _ _ _ hp h => h.setActivity (h.plan_carries hp)
  case samePlan => exact fun _ _ _ _ _ _ hs h => h.setActivity (h.underWay hs)
  case written =>
    intro c stage plan asker b hs h
    obtain ⟨hset, hlock⟩ := h.underWay hs
    exact h.store hset hlock
  case faulted => exact fun _ row b h => h.setFaulted row b
  all_goals
    intros
    assumption

theorem lockedArrivals (x : Settings) : ArrivalLaws fun c => c.lockedWith x :=
  (lockedQuiet x).arrivals (fun _ _ _ _ _ h => h) (fun _ _ _ h => h) (fun _ _ h => h)
    (fun c e p st _ h => h.of_eq (c.endWait_sched e p st) (c.endWait_conf e p st))
    (fun c p tag k hold wait _ h => h.of_eq (c.handleClaim_sched p tag k hold wait) (c.handleClaim_conf p tag k hold wait))

/-- Mount, which alone loads a stored image anew (R178), has ended where the lock holds. -/
theorem lockedEvents (x : Settings) : EventLaws (fun c => c.lockedWith x) fun c => c.lockedWith x :=
  eventLaws_of (lockedQuiet x).steps (lockedArrivals x) (fun _ _ hmount ⟨hmode, _⟩ => absurd hmount hmode) (fun _ h => h)
    (fun _ _ h => h) (fun _ _ h => h) (fun _ _ _ _ h => h)

/-- Settles O59: every operation that a command other than a reset or power loss calls keeps the lock and the settings. -/
theorem lockedSettingsStay : Obligations.LockedSettingsStay := by
  intro i s t x hi hlocked ht
  exact exec_keeps (lockedEvents x) (fun c h => h.of_eq c.settle_sched c.settle_conf)
    (fun hl => absurd (hi.symm.trans hl) (by decide)) hlocked ht

end Sys2Proof.Machine
end

section
/-! PROOF. The two counters that mount sets (R185). -/

namespace Sys2Proof.Machine

/-! ### The highest number found -/

theorem highest_mem {found : List Word} {m : Word} (h : highest found = some m) : m ∈ found := by
  induction found generalizing m with
  | nil => cases h
  | cons w rest ih =>
    unfold highest at h
    cases hrest : highest rest with
    | none =>
      obtain rfl : w = m := by simpa [hrest] using h
      exact List.mem_cons_self
    | some n =>
      have hpick : (if n.toNat < w.toNat then w else n) = m := by simpa [hrest] using h
      split at hpick
      · exact hpick ▸ List.mem_cons_self
      · exact hpick ▸ List.mem_cons_of_mem w (ih hrest)

/-- A number found that none found exceeds is the one `highest` answers: words of equal value are equal. -/
theorem highest_eq_some {found : List Word} {m : Word} (hm : m ∈ found) (hmax : ∀ x ∈ found, x.toNat ≤ m.toNat) :
    highest found = some m := by
  obtain ⟨n, hn, hmn⟩ := highest_ge hm
  have hnm : n = m := BitVec.eq_of_toNat_eq (Nat.le_antisymm (hmax n (highest_mem hn)) hmn)
  exact hnm ▸ hn

/-! ### The counter set above it -/

theorem counterAbove_nil (limit : Word) : counterAbove limit [] = 1 := rfl

theorem counterAbove_of_highest {found : List Word} {m : Word} (limit : Word) (h : highest found = some m) :
    counterAbove limit found = if limit.toNat ≤ m.toNat + 1 then limit else m + 1 := by
  rw [counterAbove, h]

/-- Settles O51: the number that bounds all those found is the highest, and mount hands each counter the numbers R185 names. -/
theorem mountSetsTheCounters : Obligations.MountSetsTheCounters :=
  ⟨counterAbove_nil, fun limit _ _ hm hmax => counterAbove_of_highest limit (highest_eq_some hm hmax),
    fun _ _ _ _ => ⟨rfl, rfl⟩⟩

end Sys2Proof.Machine
end

section
/-! PROOF. A step by what waits in the queue (0.3): one law per form of the list. -/

namespace Sys2Proof.Machine

/-- The front command leaves the queue before its meaning is taken: `exec` sees only the commands behind it. -/
theorem step_of_pending_cons {c : Instr} {rest : List Instr} {s : State} (h : s.pending = c :: rest) :
    step s = exec c { s with pending := rest } := by
  rw [step, h]

/-- The idle block: the model's choice (notes/assumptions/7.md). -/
theorem step_of_pending_nil {s : State} (h : s.pending = []) : step s = .next s := by
  rw [step, h]

/-- Settles O1: the two forms of the queue are the two branches of a step. -/
theorem stepRunsTheCommandInFront : Obligations.StepRunsTheCommandInFront :=
  ⟨fun _ _ _ => step_of_pending_cons, fun _ => step_of_pending_nil⟩

end Sys2Proof.Machine
end
